-- ==== Sys2Proof/Word.lean ====
section
/-! DEFINITION. The word types and the slot numbers of the Pelbron 6408 (spec 00_scope.md 0.1 and 0.6). -/

namespace Sys2Proof

/-- A window word: 32 bits, four bytes (0.6). -/
abbrev Word := BitVec 32

/-- One byte of SRAM data (0.6). -/
abbrev Byte := BitVec 8

/-- A word address as the ports carry it, A[23:2] (1.1). -/
abbrev WordAddr := BitVec 22

/-- A generator slot, G0 to G7 (0.1). -/
abbrev GenId := Fin 8

/-- A consumer feeder slot, C0 to C63 (0.1). -/
abbrev ConsId := Fin 64

/-- A propulsion drive slot, D0 to D3 (0.1). -/
abbrev DriveId := Fin 4

/-- A bus section, S0 to S3, and the id of an island, the lowest section it holds (R35). -/
abbrev SecId := Fin 4

/-- A frame number, or a ring slot, of a channel (R151, R152). -/
abbrev FrameId := Fin 64

end Sys2Proof
end

