-- ==== Sys2Proof/Syntax.lean ====
section
/-! DEFINITION. The commands of the block: one constructor of Instr per row of
spec/opcode_table.json, with the row's operands. A master write carries its byte strobes (bit n set:
the byte n is strobed; the pins are active low), the whole word on the data lines, and whether SRAM is
free when the access arrives. -/

namespace Sys2Proof

/-- The two master ports: CP, the controller's, and FP, the field link's (0.2). -/
inductive Port where
  | cp
  | fp
  deriving DecidableEq, Repr

/-- The two action lists (chapter 9). -/
inductive Chan where
  | command
  | notice
  deriving DecidableEq, Repr

/-- A record with a freshness timer (2.7). -/
inductive RecordId where
  | gen (g : GenId)
  | cons (c : ConsId)
  | drive (d : DriveId)
  | ties
  deriving DecidableEq, Repr

/-- Whether SRAM is free when an access arrives (R6 makes a grant when SRAM is free). `free`: the
arbiter chooses at once, and an access it chooses is granted in the same step. `busy`: a cycle is in
progress, and the access waits for MASTER_ACCESS_GRANT. Assumption log 8. -/
inductive SramAt where
  | free
  | busy
  deriving DecidableEq, Repr

/-- Where the assertion of PWR_RST_N falls (R13). `between`: no SRAM cycle is in progress. `inCycle`: in the cycle of the
latest grant. `inPromotion`: in the promoted write of the latest grant, ahead of its read (R8). Assumption log 3. -/
inductive ResetMoment where
  | between
  | inCycle
  | inPromotion
  deriving DecidableEq, Repr

/-- The four live reads from a port the word does not answer (R20). -/
inductive WrongPortRead where
  /-- an FP read of ATTENTION -/
  | fpAttention
  /-- an FP read of CAUSE -/
  | fpCause
  /-- an FP read of NOTICE_TAKE -/
  | fpNoticeTake
  /-- a CP read of CMD_TAKE -/
  | cpCmdTake
  deriving DecidableEq, Repr

/-- The commands, in the order of spec/opcode_table.json. -/
inductive Instr where
  /-- FULL_RESET: PWR_RST_N asserted at this moment and released with these IMG_BASE straps (R13). -/
  | fullReset (straps : BitVec 8) (moment : ResetMoment)
  /-- CONTROLLER_RESET; `midRead` says that the arbiter has granted the plan loader a read, whose cycle the reset falls
  in (R14, R177; assumption log 35). -/
  | controllerReset (midRead : Bool)
  | generatorMeasWrite (g : GenId) (strobes : BitVec 4) (data : Word) (sram : SramAt)
  | consumerMeasWrite (c : ConsId) (strobes : BitVec 4) (data : Word) (sram : SramAt)
  | driveMeasWrite (d : DriveId) (strobes : BitVec 4) (data : Word) (sram : SramAt)
  | tiesWrite (strobes : BitVec 4) (data : Word) (sram : SramAt)
  | start (g : GenId) (strobes : BitVec 4) (data : Word) (sram : SramAt)
  | stop (g : GenId) (strobes : BitVec 4) (data : Word) (sram : SramAt)
  | clear (g : GenId) (strobes : BitVec 4) (data : Word) (sram : SramAt)
  | noAction (g : GenId) (strobes : BitVec 4) (data : Word) (sram : SramAt)
  | fixedWrite (g : GenId) (strobes : BitVec 4) (data : Word) (sram : SramAt)
  | driveReqWrite (d : DriveId) (strobes : BitVec 4) (data : Word) (sram : SramAt)
  | consumerCmdWrite (c : ConsId) (strobes : BitVec 4) (data : Word) (sram : SramAt)
  | ack (c : ConsId) (strobes : BitVec 4) (data : Word) (sram : SramAt)
  | planLoad (strobes : BitVec 4) (data : Word) (sram : SramAt)
  | key (strobes : BitVec 4) (data : Word) (sram : SramAt)
  | activate (strobes : BitVec 4) (data : Word) (sram : SramAt)
  | attMask (strobes : BitVec 4) (data : Word) (sram : SramAt)
  | attentionRead
  | attentionWrite (strobes : BitVec 4) (data : Word)
  | give (port : Port) (ch : Chan) (strobes : BitVec 4) (data : Word)
  | take (port : Port) (ch : Chan)
  | refusedDetailRead (port : Port)
  | passThroughWrite (port : Port) (addr : WordAddr) (strobes : BitVec 4) (data : Word) (sram : SramAt)
  | masterRead (port : Port) (addr : WordAddr) (strobes : BitVec 4) (sram : SramAt)
  | pairedRead (addr : WordAddr) (strobes : BitVec 4) (sram : SramAt)
  | pairTimeout
  | drain
  | listUnitWrite
  | postStart (ch : Chan)
  | postEnd (ch : Chan)
  | planLoaderRead
  | interBurstGap
  | freshnessTimerExpiry (r : RecordId)
  | overloadTimerExpiry (i : SecId)
  | startDelayTimerExpiry (i : SecId)
  | releaseHoldTimerExpiry (i : SecId)
  | startTimerExpiry (g : GenId)
  | rampStep (g : GenId)
  | openTimerExpiry (g : GenId)
  | capRaise (g : GenId)
  | verifyDeadline (c : ConsId)
  | restoreDeadline (c : ConsId)
  | settlingTimeout
  | millisecondCounterAdvance
  | masterAccessGrant (port : Port)
  | controllerResetRelease
  | refusedRead (r : WrongPortRead)
  deriving DecidableEq, Repr

end Sys2Proof
end

