-- ==== Sys2Proof/Config.lean ====
section
/-! DEFINITION. The free values: what the manual leaves arbitrary or does not state, as constants
without a body, so that no proof can rest on a value of theirs (assumption log 2, 3, 4 and 5). -/

namespace Sys2Proof

/-- The data byte that SRAM holds at a byte address before it is first written through the part:
arbitrary after power is applied (R10, R26). Assumption log 2. -/
opaque Config.powerOnByte : Nat → Byte

/-- The parity bit that SRAM holds beside that byte: arbitrary after power is applied (R10, R26).
Assumption log 2. -/
opaque Config.powerOnParity : Nat → Bool

/-- The data byte left in a strobed byte of a write that a full reset cuts short (R13), by the
free-value counter of State and the lane. Assumption log 3. -/
opaque Config.cutByte : Nat → Nat → Byte

/-- The parity bit left beside that byte (R13). Assumption log 3. -/
opaque Config.cutParity : Nat → Nat → Bool

/-- The number of raises held after a raise that would pass 65535, the end of the range of R83; the
manual states no value there. Assumption log 4. -/
opaque Config.raisesPastRange : Nat → BitVec 16

/-- The remaining need held when an unmet step leaves more than 1 048 575 kW, the end of the range of
R99; the manual states no value there. Assumption log 5. -/
opaque Config.needPastRange : Nat → BitVec 20

end Sys2Proof
end

