-- ==== Sys2Proof/Machine/State.lean ====
section
/-! DEFINITION. The state of the part, as plain data, and the machine right after reset. Every field
is named in INVENTORY.md with the rule of the spec that gives it. -/

namespace Sys2Proof.Machine

/-- What stops the part: nothing. The manual gives the part no behaviour that ends its run and none it
calls undefined, so this type has no constructor, and no command can answer a fault (safe). -/
inductive Fault where
  deriving DecidableEq, Repr

/-- Why the model gives a command no meaning. -/
inductive Refusal where
  /-- Raised by an arm of `exec` whose command has no meaning yet, with the row's mnemonic; no arm raises it
  now (safe). -/
  | notModelled (mnemonic : String)
  deriving DecidableEq, Repr

/-! ## The image decoder: copies and refusals (chapter 2) -/

/-- The copy of a MEASURE word: the value stored, whether it was ever written, and the freshness timer,
stopped or running with its expiry time (R22, R31, R33). -/
structure MeasCopy where
  word    : Word
  written : Bool
  timer   : Option Word
  deriving DecidableEq, Repr

/-- The never-written copy (R33); the bits outside its fields are 0 by assumption log 21. -/
def MeasCopy.never : MeasCopy := ⟨0#32, false, none⟩

/-- Why an access is refused (R21). -/
inductive Reason where
  | none | class_ | partial_ | invalidValue | absent | badFrame | notOut | busy | wrongPort
  deriving DecidableEq, Repr

/-- REFUSED_DETAIL (R21). `unread`: a refusal is held that CP has not read. -/
structure RefusedDetail where
  offset      : BitVec 16
  port        : Port
  reason      : Reason
  overwritten : Bool
  unread      : Bool
  deriving DecidableEq, Repr

/-- The copies of the image decoder's words (2.4), but for the CMD words, which the ladder holds. -/
structure Image where
  genMeas   : Vector MeasCopy 8
  consMeas  : Vector MeasCopy 64
  driveMeas : Vector MeasCopy 4
  ties      : MeasCopy
  genReq    : Vector Word 8
  genFixed  : Vector Word 8
  driveReq  : Vector Word 4
  planLoad  : Word
  key       : Word
  activate  : Word
  attMask   : Word
  refused   : RefusedDetail
  deriving DecidableEq, Repr

/-! ## Islands (chapter 3) -/

/-- The standing of an island (R46). -/
inductive Condition where
  | sound | short | overloaded | dead
  deriving DecidableEq, Repr

/-- The totals an island holds, in kW (R42 to R44). The reserve and the expected load are formed from them. -/
structure Totals where
  firm          : Nat
  limit         : Nat
  load          : Nat
  openingCredit : Nat
  deriving DecidableEq, Repr

/-- A start-delay timer: it alone can be suspended, keeping its time to expiry (R51). -/
inductive DelayTimer where
  | stopped
  | running (expiry : Word)
  | suspended (left : Nat)
  deriving DecidableEq, Repr

/-- The target of a shed: a consumer or a drive (R98). -/
inductive Target where
  | cons (c : ConsId)
  | drive (d : DriveId)
  deriving DecidableEq, Repr

/-- What the part holds for one island, in the record of its id (R50, R56, R79, R89, R99, R122). The
release-hold timer holds the entry it runs for. -/
structure Island where
  totals           : Totals
  condition        : Condition
  held             : Bool
  exhausted        : Bool
  need             : BitVec 20
  overload         : Option Word
  startDelay       : DelayTimer
  releaseHold      : Option (Target × Word)
  standbyExhausted : Bool
  noSharer         : Bool
  deriving DecidableEq, Repr

/-- An island at full reset, and a record that names no island (R56). -/
def Island.blank : Island :=
  { totals := ⟨0, 0, 0, 0⟩, condition := .dead, held := false, exhausted := false, need := 0#20,
    overload := none, startDelay := .stopped, releaseHold := none, standbyExhausted := false,
    noSharer := false }

/-! ## Generator sequencer (chapter 4) -/

/-- The state of a generator (R57). -/
inductive GenState where
  | idle | starting | online | unloading | tripped | failed
  deriving DecidableEq, Repr

/-- Why a start was made (R57). -/
inductive StartCause where
  | controller | startDelay | trip | dead | fallback
  deriving DecidableEq, Repr

/-- A generator entry (R57). -/
structure Gen where
  state      : GenState
  automatic  : Bool
  cause      : StartCause
  readySeen  : Bool
  startTimer : Option Word
  ramp       : Nat
  rampTimer  : Option Word
  openIssued : Bool
  openTimer  : Option Word
  deriving DecidableEq, Repr

/-- A generator entry at full reset (R82); the fields not meaningful in a state hold these values (R57). -/
def Gen.init : Gen :=
  { state := .idle, automatic := false, cause := .controller, readySeen := false, startTimer := none,
    ramp := 0, rampTimer := none, openIssued := false, openTimer := none }

/-! ## Share unit (chapter 5) -/

/-- A sharing entry (R83). -/
structure Sharing where
  lastWritten : Nat
  capOpen     : Bool
  connection  : Nat
  raises      : BitVec 16
  capValue    : Nat
  raiseTimer  : Option Word
  deriving DecidableEq, Repr

/-- A sharing entry at full reset (R83). -/
def Sharing.init : Sharing :=
  { lastWritten := 0, capOpen := false, connection := 0, raises := 0#16, capValue := 0,
    raiseTimer := none }

/-! ## Ladder (chapters 6 and 7) -/

/-- The shedding state of a consumer (R96). -/
inductive ConsState where
  | isOpen | connected | shedding | shed | stuck | restoring
  deriving DecidableEq, Repr

/-- A consumer entry (R96, R126). -/
structure Consumer where
  state           : ConsState
  restoreDeadline : Option Word
  deriving DecidableEq, Repr

/-- A drive entry (R97); the controller limit is the drive REQ copy's. -/
structure Drive where
  cut      : Bool
  cutLimit : Nat
  deriving DecidableEq, Repr

/-- The cause of a shed entry (R98). -/
inductive ShedCause where
  | trip | overload | tieOpen | dead | escalation | restoreCancel
  deriving DecidableEq, Repr

/-- The state of a shed entry: OPENING with its verify deadline, or HELD (R98). -/
inductive EntryState where
  | opening (deadline : Word)
  | held
  deriving DecidableEq, Repr

/-- An entry of the shed list (R98). -/
structure ShedEntry where
  target   : Target
  cause    : ShedCause
  credit   : Nat
  shedTime : Word
  state    : EntryState
  deriving DecidableEq, Repr

/-! ## Store queue (1.6) -/

/-- A word the store queue may hold (R8). -/
inductive SqWord where
  | consCmd (c : ConsId)
  | genTarget (g : GenId)
  | driveLimit (d : DriveId)
  deriving DecidableEq, Repr

/-- An entry of the store queue (R8). -/
structure SqEntry where
  word : SqWord
  data : Word
  deriving DecidableEq, Repr

/-! ## List unit (chapter 9) -/

/-- The state of a frame (R151). -/
inductive FrameState where
  | out | spare | filling | ready
  deriving DecidableEq, Repr

/-- A ring of frame numbers: 64 slots, head and count; the tail is (head + count) mod 64 (R152). -/
structure Ring where
  slots : Vector FrameId 64
  head  : FrameId
  count : Nat
  deriving DecidableEq, Repr

/-- A ring at full reset (R152, R165). -/
def Ring.empty : Ring := { slots := Vector.replicate 64 0, head := 0, count := 0 }

/-- A post in progress: the FILLING frame, its fixed words w0 to w4, and how many of its nine writes have
been made; at nine, the last one's completion is awaited (R161, R162). -/
structure Post where
  frame : FrameId
  w0    : Word
  w1    : Word
  w2    : Word
  w3    : Word
  w4    : Word
  made  : Nat
  deriving DecidableEq, Repr

/-- One channel (R151, R152, R161). -/
structure Channel where
  frames : Vector FrameState 64
  spare  : Ring
  ready  : Ring
  post   : Option Post
  seq    : BitVec 16
  deriving DecidableEq, Repr

/-- A channel at full reset (R165). -/
def Channel.init : Channel :=
  { frames := Vector.replicate 64 .out, spare := Ring.empty, ready := Ring.empty, post := none,
    seq := 0#16 }

/-- The kinds of a command (R158). -/
inductive CmdKind where
  | openConsumer | closeConsumer | startGen | stopGen | openGen | driveLimit
  deriving DecidableEq, Repr

/-- The target of a pending command (R157). -/
inductive CmdTarget where
  | cons (c : ConsId)
  | gen (g : GenId)
  | drive (d : DriveId)
  deriving DecidableEq, Repr

/-- A pending command (R157, R158). -/
structure Command where
  target : CmdTarget
  kind   : CmdKind
  cause  : BitVec 8
  island : SecId
  a      : Word
  b      : Word
  deriving DecidableEq, Repr

/-- The kinds of a notice (R160). -/
inductive NoticeKind where
  | shed | reclosed | stuck | release | restoreFailed | genState | startFail | noStandby | stopRefused
  | unloadAborted | unloadFailed | island | exhausted | planDone | planFailed | activated
  | activateRefused | refused | parity | stale
  deriving DecidableEq, Repr

/-- A held notice (R160). -/
structure Notice where
  kind    : NoticeKind
  subject : BitVec 8
  cause   : BitVec 8
  island  : SecId
  detail  : BitVec 8
  a       : Word
  b       : Word
  deriving DecidableEq, Repr

/-- The three sources of the list unit's writes (R163). -/
inductive LuSource where
  | command | notice | spareMirror
  deriving DecidableEq, Repr

/-- The list unit (chapter 9). -/
structure ListUnit where
  command     : Channel
  notice      : Channel
  pendingCmds : List Command
  notices     : List Notice
  spareMirror : List (Chan × FrameId)
  lastServed  : LuSource
  deriving DecidableEq, Repr

/-! ## Plan unit (chapter 10) -/

/-- A plan header (R167). -/
structure Header where
  tag            : Nat
  startMargin    : Nat
  shedMargin     : Nat
  releaseMargin  : Nat
  startDelay     : Nat
  overloadDelay  : Nat
  releaseHold    : Nat
  shareDeadband  : Nat
  staleTime      : Nat
  startTimeout   : Nat
  genOpenTimeout : Nat
  unloadFloorPct : Nat
  deriving DecidableEq, Repr

/-- The header of an empty plan: every field 0 (R167). -/
def Header.zero : Header :=
  { tag := 0, startMargin := 0, shedMargin := 0, releaseMargin := 0, startDelay := 0,
    overloadDelay := 0, releaseHold := 0, shareDeadband := 0, staleTime := 0, startTimeout := 0,
    genOpenTimeout := 0, unloadFloorPct := 0 }

/-- A present generator entry (R167). -/
structure GenPlan where
  sec      : SecId
  rating   : Nat
  limitPct : Nat
  rank     : Nat
  rampRate : Nat
  deriving DecidableEq, Repr

/-- A present consumer entry (R167). -/
structure ConsPlan where
  sec         : SecId
  cls         : Nat
  order       : Nat
  nominal     : Nat
  autoRestore : Bool
  timeoutSel  : Nat
  deriving DecidableEq, Repr

/-- A present drive entry (R167). -/
structure DrivePlan where
  sec   : SecId
  cls   : Nat
  order : Nat
  floor : Nat
  deriving DecidableEq, Repr

/-- A plan: the header loaded or not, and each entry present or absent (R167). -/
structure Plan where
  header : Option Header
  gens   : Vector (Option GenPlan) 8
  cons   : Vector (Option ConsPlan) 64
  drives : Vector (Option DrivePlan) 4
  deriving DecidableEq, Repr

/-- The empty plan (R167). -/
def Plan.empty : Plan :=
  { header := none, gens := Vector.replicate 8 none, cons := Vector.replicate 64 none,
    drives := Vector.replicate 4 none }

/-- Why a load failed (R170). -/
inductive LoadFailure where
  | address | format | parity | chainLong | invalid | interrupted
  deriving DecidableEq, Repr

/-- The kinds of a descriptor (R169). -/
inductive DescKind where
  | header | generators | consumers | drives
  deriving DecidableEq, Repr

/-- A descriptor as read (R169). -/
structure Descriptor where
  kind   : DescKind
  first  : Nat
  count  : Nat
  source : Nat
  next   : Nat
  isEnd  : Bool
  deriving DecidableEq, Repr

/-- Where the walk stands: reading the descriptor's three words, or its run, of which `read` words have
been read (R169). -/
inductive WalkPhase where
  | descriptor
  | run (d : Descriptor) (read : Nat)
  deriving DecidableEq, Repr

/-- The descriptor walk (R168, R169): the inter-burst gap, the address of the descriptor in hand, the
descriptors walked, the words read so far of the descriptor or entry in hand, the phase, and the TBCLK
periods left of the gap, 0 while the loader's request stands (R6). -/
structure Walk where
  gap     : Nat
  desc    : Nat
  walked  : Nat
  got     : List Word
  phase   : WalkPhase
  gapLeft : Nat
  deriving DecidableEq, Repr

/-- The loader state (R168). -/
inductive LoaderState where
  | idle
  | loading (w : Walk)
  | complete
  | activated
  | failed (r : LoadFailure)
  deriving DecidableEq, Repr

/-- The key state (R172). -/
inductive KeyState where
  | locked | half | unlocked
  deriving DecidableEq, Repr

/-- The part state (R175). -/
inductive PartState where
  | noPlan | settling | running
  deriving DecidableEq, Repr

/-- The plan unit (chapter 10). -/
structure PlanUnit where
  staging       : Plan
  active        : Plan
  loader        : LoaderState
  key           : KeyState
  partState     : PartState
  settlingTimer : Option Word
  deriving DecidableEq, Repr

/-! ## Attention unit (chapter 11) -/

/-- The attention unit: the word, the seen snapshot or empty, the mask copy with 1 = masked (chapter 11). -/
structure Attention where
  word     : BitVec 16
  snapshot : Option (BitVec 16)
  mask     : BitVec 16
  deriving DecidableEq, Repr

/-! ## The part behind the ports -/

/-- All the part holds behind its ports and memory path: the events of the plant core, the list unit, the
plan unit and the attention unit change this record alone. `cmd` holds the ladder's copies of the CMD words (R138).
`free` counts the free values drawn: the model's own field (assumption log 6). -/
structure Part where
  base     : BitVec 8
  ms       : Word
  img      : Image
  islands  : Vector Island 4
  gens     : Vector Gen 8
  sharing  : Vector Sharing 8
  cmd      : Vector Word 64
  cons     : Vector Consumer 64
  drives   : Vector Drive 4
  shedList : List ShedEntry
  sq       : List SqEntry
  lu       : ListUnit
  plans    : PlanUnit
  att      : Attention
  free     : Nat
  deriving DecidableEq, Repr

/-! ## The ports and the memory path (chapter 1) -/

/-- The ACTION field of a generator REQ word (R144). -/
inductive Action where
  | none | start | stop | clear
  deriving DecidableEq, Repr

/-- What a waiting access is, as its judgement at the arrival found it (R1, R22). A CMD write carries the
written ACK and whether it was masked (R140); a REQ write carries its ACTION (R24). -/
inductive Job where
  | read (paired : Bool)
  | plain
  | genMeas (g : GenId)
  | consMeas (c : ConsId)
  | driveMeas (d : DriveId)
  | ties
  | genReq (g : GenId) (action : Action)
  | genFixed (g : GenId)
  | consCmd (c : ConsId) (ack masked : Bool)
  | driveReq (d : DriveId)
  | planLoad
  | key
  | activate
  | attMask
  deriving DecidableEq, Repr

/-- An access waiting for its grant; `data` is the word its grant will store. -/
structure Access where
  addr    : WordAddr
  strobes : BitVec 4
  data    : Word
  job     : Job
  deriving DecidableEq, Repr

/-- How an access completes (R1, R2). -/
inductive Response where
  | ok | err | retry
  deriving DecidableEq, Repr

/-- A master port: ready, holding an access with its wait signal asserted, or completed with the response and,
on a read whose data is valid, the data lines (R1, R2). -/
inductive PortPhase where
  | idle
  | waiting (a : Access)
  | done (r : Response) (data : Option Word)
  deriving DecidableEq, Repr

/-- The rotating requesters of the arbiter (R6). -/
inductive Requester where
  | cp | fp | lu | pl
  deriving DecidableEq, Repr

/-- A grant: the store queue's, or a rotating requester's (R6). -/
inductive Grant where
  | storeQueue
  | rotating (r : Requester)
  deriving DecidableEq, Repr

/-- What a grant does in SRAM: a read, a write, or a promoted write of a word and the read of it (1.4, R8). -/
inductive CycleKind where
  | read
  | write (a : WordAddr) (strobes : BitVec 4)
  | promotedRead (a : WordAddr)
  deriving DecidableEq, Repr

/-- The cycle of the latest grant, while nothing has shown it complete (R13; assumption log 3). -/
structure Cycle where
  grant : Grant
  kind  : CycleKind
  deriving DecidableEq, Repr

/-- The open pair: its word, and the TBCLK edges since the paired read completed (R7). -/
structure Pair where
  addr  : WordAddr
  edges : Nat
  deriving DecidableEq, Repr

/-- The SRAM as written through the part: its data bytes and its parity bits (0 or 1), each a list of
(byte address, byte) with rising addresses; an address not listed has never been written (assumption log 2
and 7). -/
structure Sram where
  data   : List Host.Cell
  parity : List Host.Cell
  deriving DecidableEq, Repr

/-- The ports and the memory path. -/
structure Bus where
  cp        : PortPhase
  fp        : PortPhase
  ctlHeld   : Bool
  pair      : Option Pair
  last      : Requester
  cycle     : Option Cycle
  sram      : Sram
  subMs     : Nat
  deriving DecidableEq, Repr

/-- The state of the block, and the commands that wait, first in, first out. -/
structure State where
  bus     : Bus
  part    : Part
  pending : List Instr
  deriving DecidableEq, Repr

/-- Which of the two wait signals and of the two lines are active (1.1, chapter 11). -/
structure Lines where
  cwait : Bool
  fwait : Bool
  int   : Bool
  urg   : Bool
  deriving DecidableEq, Repr

/-! ## Reset -/

/-- The copies after full reset (R21, R33). R33 gives the never-written copies of the MEASURE words and of the generator
REQ, FIXED and drive REQ words the values of their fields alone: the 0 of the bits outside the fields is the model's
choice (assumption log 21). -/
def Image.reset : Image :=
  { genMeas := Vector.replicate 8 MeasCopy.never, consMeas := Vector.replicate 64 MeasCopy.never,
    driveMeas := Vector.replicate 4 MeasCopy.never, ties := MeasCopy.never,
    genReq := Vector.replicate 8 0x100#32, genFixed := Vector.replicate 8 0#32,
    driveReq := Vector.replicate 4 0xFFFF#32,
    planLoad := 0#32, key := 0#32, activate := 0#32, attMask := 0xFFFFFFFF#32,
    refused := ⟨0#16, .cp, .none, false, false⟩ }

/-- The list unit after full reset (R165). -/
def ListUnit.reset : ListUnit :=
  { command := Channel.init, notice := Channel.init, pendingCmds := [], notices := [],
    spareMirror := [], lastServed := .spareMirror }

/-- The plan unit after full reset (R167, R168, R172, R175). -/
def PlanUnit.reset : PlanUnit :=
  { staging := Plan.empty, active := Plan.empty, loader := .idle, key := .locked,
    partState := .noPlan, settlingTimer := none }

/-- The part after full reset, with the window base sampled (R5, R12, R13, R33, R56, R82, R83, R96 to R99,
R137, R165, R167, R178 to R181). A copy of a CMD word is 0: R33 gives REQ NONE and clear marks, and the 0 of the other
bits is the model's choice (assumption log 21). -/
def Part.reset (base : BitVec 8) (free : Nat) : Part :=
  { base := base, ms := 0#32, img := Image.reset, islands := Vector.replicate 4 Island.blank,
    gens := Vector.replicate 8 Gen.init, sharing := Vector.replicate 8 Sharing.init,
    cmd := Vector.replicate 64 0#32, cons := Vector.replicate 64 ⟨.isOpen, none⟩, drives := Vector.replicate 4 ⟨false, 0⟩,
    shedList := [], sq := [], lu := ListUnit.reset, plans := PlanUnit.reset,
    att := ⟨0#16, none, 0xFFFF#16⟩, free := free }

/-- The ports and the memory path after full reset, over an SRAM that full reset does not write (R10, R13). -/
def Bus.reset (sram : Sram) : Bus :=
  { cp := .idle, fp := .idle, ctlHeld := false, pair := none, last := .pl, cycle := none,
    sram := sram, subMs := 0 }

/-- The machine right after full reset, with nothing in SRAM written and the straps at 0 (assumption log 1). -/
def State.reset : State :=
  { bus := Bus.reset ⟨[], []⟩, part := Part.reset 0#8 0, pending := [] }

end Sys2Proof.Machine
end

