-- ==== Sys2Proof/Machine/Operands.lean ====
section
/-! DEFINITION. What the fields of the words mean: the encodings of chapter 12, the map of the window
(R15 to R17), the copies' fields, the plan's entries and the partition (R35). -/

namespace Sys2Proof.Machine

/-! ## Bit fields -/

/-- The field of `len` bits of a word that begins at bit `lo` (chapter 12). -/
def bits (w : Word) (lo len : Nat) : Nat := w.toNat / 2 ^ lo % 2 ^ len

/-- Bit `i` of a word (chapter 12). -/
def bit (w : Word) (i : Nat) : Bool := w.toNat.testBit i

/-- A word of the part's own, from its fields (value, lowest bit, length): a bit outside the fields is 0
(R184). -/
def pack : List (Nat × Nat × Nat) → Word
  | [] => 0#32
  | (v, lo, len) :: fs => BitVec.ofNat 32 (v % 2 ^ len * 2 ^ lo) ||| pack fs

/-- A mark as a field of one bit. -/
def flag (b : Bool) : Nat := if b then 1 else 0

/-! ## Vectors indexed by slot -/

/-- The vector with the element of slot `i` replaced. -/
def setAt {α : Type} {n : Nat} (v : Vector α n) (i : Fin n) (x : α) : Vector α n := v.set i.val x i.isLt

/-- The generator slots, ascending. -/
def allGens : List GenId := List.finRange 8
/-- The consumer slots, ascending. -/
def allCons : List ConsId := List.finRange 64
/-- The drive slots, ascending. -/
def allDrives : List DriveId := List.finRange 4
/-- The sections, ascending. -/
def allSecs : List SecId := List.finRange 4

/-! ## Times (R12) -/

/-- Whether the millisecond counter has reached time `t`, modulo 2^32 (R12). A time stays reached
until its event is taken (assumption log 11). -/
def due (t now : Word) : Bool := decide ((now - t).toNat < 2 ^ 31)

/-- Whether a running timer has reached its expiry; a stopped one has not (R12). -/
def timerDue (t : Option Word) (now : Word) : Bool :=
  match t with
  | some e => due e now
  | none => false

/-- The time `d` ms after `now`, modulo 2^32 (R12). -/
def after (now : Word) (d : Nat) : Word := now + BitVec.ofNat 32 d

/-- The ms a running timer has left, 0 once reached (R54). -/
def msLeft (e now : Word) : Nat := if due e now then 0 else (e - now).toNat

/-! ## Measurements (R23, R33, 12.2) -/

/-- A breaker or tie as a copy shows it (R23, R34). -/
inductive Breaker where
  | isOpen | isClosed | unknown
  deriving DecidableEq, Repr

/-- The freshness of a record (R28). -/
inductive Freshness where
  | fresh | stale | never
  deriving DecidableEq, Repr

/-- The kW of a generator, consumer or drive MEAS word, bits 15:0. -/
def measKw (c : MeasCopy) : Nat := bits c.word 0 16

/-- The breaker reported by a MEAS word, bit 16: CLOSED or OPEN (R184). -/
def closedBit (w : Word) : Bool := bit w 16

/-- The breaker of a generator or consumer MEAS copy: UNKNOWN while never written (R33). -/
def measBreaker (c : MeasCopy) : Breaker :=
  if c.written then (if closedBit c.word then .isClosed else .isOpen) else .unknown

/-- The engine-ready mark of a generator MEAS word, bit 17. -/
def engineReady (w : Word) : Bool := bit w 17

/-- The running mark of a drive MEAS copy, bit 16. -/
def driveRunning (c : MeasCopy) : Bool := bit c.word 16

/-- The freshness of a record: NEVER while never written, FRESH while its timer runs, STALE after (R28). -/
def freshness (c : MeasCopy) : Freshness :=
  if c.written then (if c.timer.isSome then .fresh else .stale) else .never

/-- NEVER and STALE both count as stale to every block (R28). -/
def isFresh (c : MeasCopy) : Bool := freshness c == .fresh

/-- A tie of the TIES copy, by its bit: UNKNOWN while never written (R34). -/
def tieState (c : MeasCopy) (i : Nat) : Breaker :=
  if c.written then (if bit c.word i then .isClosed else .isOpen) else .unknown

/-- A tie counts as closed only while reported closed: UNKNOWN counts as open (R34). -/
def tieClosed (c : MeasCopy) (i : Nat) : Bool := tieState c i == .isClosed

/-! ## The partition (R35) -/

/-- The id of the island that holds a section, the lowest section joined to it by closed ties (R35). -/
def islandId (ties : MeasCopy) (sec : SecId) : SecId :=
  let id1 : SecId := if tieClosed ties 0 then 0 else 1
  let id2 : SecId := if tieClosed ties 1 then id1 else 2
  let id3 : SecId := if tieClosed ties 2 then id2 else 3
  match sec with
  | 0 => 0
  | 1 => id1
  | 2 => id2
  | 3 => id3

/-- A section that is the lowest of its island gives the island its id (R35). -/
def isIslandId (ties : MeasCopy) (i : SecId) : Bool := islandId ties i == i

/-! ## Request words (12.2) -/

/-- The ACTION field of a generator REQ word, bits 1:0 (R144). -/
def reqAction (w : Word) : Action :=
  match bits w 0 2 with
  | 1 => .start
  | 2 => .stop
  | 3 => .clear
  | _ => .none

/-- MODE FIXED of a generator REQ word, bit 4 (R144). -/
def reqFixed (w : Word) : Bool := bit w 4

/-- WEIGHT of a generator REQ word, bits 11:8 (R144). -/
def reqWeight (w : Word) : Nat := bits w 8 4

/-- The setpoint of a generator FIXED word, bits 15:0 (R145). -/
def fixedSetpoint (w : Word) : Nat := bits w 0 16

/-- The controller limit of a drive REQ word, bits 15:0 (R145). -/
def reqLimit (w : Word) : Nat := bits w 0 16

/-- REQ of a consumer CMD word, bits 1:0: 0 NONE, 1 OPEN, 2 CLOSE, 3 invalid (R138). -/
def cmdReq (w : Word) : Nat := bits w 0 2
/-- ACK of a consumer CMD word, bit 4 (R138). -/
def cmdAck (w : Word) : Bool := bit w 4
/-- The SHED mark of a consumer CMD word, bit 8 (R138). -/
def cmdShed (w : Word) : Bool := bit w 8
/-- The STUCK mark of a consumer CMD word, bit 9 (R138). -/
def cmdStuck (w : Word) : Bool := bit w 9

/-- REQ NONE, OPEN and CLOSE (R138). -/
def reqNone : Nat := 0
def reqOpen : Nat := 1
def reqClose : Nat := 2

/-- A CMD word with REQ and the two marks as given, ACK 0, and its other bits as they were (R138, R140;
assumption log 21). -/
def cmdWord (w : Word) (req : Nat) (shed stuck : Bool) : Word :=
  (w &&& ~~~(0x313#32)) ||| pack [(req, 0, 2), (flag shed, 8, 1), (flag stuck, 9, 1)]

/-! ## The map of the window (R15 to R17) -/

/-- The live words (R17, R28). -/
inductive LiveWord where
  | partStatus
  | time
  | attention
  | cause
  | counts
  | give (ch : Chan)
  | take (ch : Chan)
  | refusedDetail
  | island (i : SecId) (w : Fin 8)
  | shedView (k : Nat)
  | genStatus (g : GenId)
  | consStatus (c : ConsId)
  | driveStatus (d : DriveId)
  /-- a live offset that carries no word (R17) -/
  | hole
  deriving DecidableEq, Repr

/-- What a window word is (R15, R16, R17). -/
inductive WinWord where
  | live (l : LiveWord)
  | planLoad | key | activate | attMask
  | ties
  | genMeas (g : GenId) | genReq (g : GenId) | genFixed (g : GenId) | genTarget (g : GenId)
  | consMeas (c : ConsId) | consCmd (c : ConsId)
  | driveMeas (d : DriveId) | driveReq (d : DriveId) | driveLimit (d : DriveId)
  | mirror
  | frame
  | free
  deriving DecidableEq, Repr

/-- The word of the live range at an offset below 200h (R17). -/
def liveAt (off : Nat) : LiveWord :=
  if off = 0x00 then .partStatus
  else if off = 0x04 then .time
  else if off = 0x08 then .attention
  else if off = 0x0C then .cause
  else if off = 0x10 then .counts
  else if off = 0x14 then .give .command
  else if off = 0x18 then .take .command
  else if off = 0x1C then .give .notice
  else if off = 0x20 then .take .notice
  else if off = 0x24 then .refusedDetail
  else if off < 0x40 then .hole
  else if off < 0xC0 then .island (Fin.ofNat 4 ((off - 0x40) / 0x20)) (Fin.ofNat 8 ((off - 0x40) % 0x20 / 4))
  else if off < 0x1D0 then .shedView ((off - 0xC0) / 4)
  else .hole

/-- The word of a drive record: slot and word number (R16). -/
def driveRecordWord (d : DriveId) (w : Nat) : WinWord :=
  match w with
  | 0 => .driveMeas d
  | 1 => .driveReq d
  | 2 => .driveLimit d
  | 3 => .live (.driveStatus d)
  | _ => .free

/-- The word of a generator record (R16). -/
def genRecordWord (g : GenId) (w : Nat) : WinWord :=
  match w with
  | 0 => .genMeas g
  | 1 => .genReq g
  | 2 => .genFixed g
  | 3 => .genTarget g
  | 4 => .live (.genStatus g)
  | _ => .free

/-- The word of a consumer record (R16). -/
def consRecordWord (c : ConsId) (w : Nat) : WinWord :=
  match w with
  | 0 => .consMeas c
  | 1 => .consCmd c
  | 2 => .live (.consStatus c)
  | _ => .free

/-- The word at a window offset (R15). -/
def classify (off : Nat) : WinWord :=
  if off < 0x200 then .live (liveAt off)
  else if off = 0x200 then .planLoad
  else if off = 0x204 then .key
  else if off = 0x208 then .activate
  else if off = 0x20C then .attMask
  else if off < 0x300 then .free
  else if off = 0x300 then .ties
  else if off < 0x340 then .free
  else if off < 0x3C0 then driveRecordWord (Fin.ofNat 4 ((off - 0x340) / 0x20)) ((off - 0x340) % 0x20 / 4)
  else if off < 0x400 then .free
  else if off < 0x600 then genRecordWord (Fin.ofNat 8 ((off - 0x400) / 0x40)) ((off - 0x400) % 0x40 / 4)
  else if off < 0x800 then .free
  else if off < 0x1000 then consRecordWord (Fin.ofNat 64 ((off - 0x800) / 0x20)) ((off - 0x800) % 0x20 / 4)
  else if off < 0x1400 then .mirror
  else if off < 0x2000 then .free
  else if off < 0x3000 then .frame
  else .free

/-- The offsets of the record words (R16). -/
def genWordOffset (g : GenId) (w : Nat) : Nat := 0x400 + 0x40 * g.val + 4 * w
def consWordOffset (c : ConsId) (w : Nat) : Nat := 0x800 + 0x20 * c.val + 4 * w
def driveWordOffset (d : DriveId) (w : Nat) : Nat := 0x340 + 0x20 * d.val + 4 * w

/-- The offsets of the TIES, control and live words that commands name (R15, R17). -/
def tiesOffset : Nat := 0x300
def planLoadOffset : Nat := 0x200
def keyOffset : Nat := 0x204
def activateOffset : Nat := 0x208
def attMaskOffset : Nat := 0x20C
def attentionOffset : Nat := 0x08
def causeOffset : Nat := 0x0C
def refusedDetailOffset : Nat := 0x24
def giveOffset : Chan → Nat
  | .command => 0x14
  | .notice => 0x1C
def takeOffset : Chan → Nat
  | .command => 0x18
  | .notice => 0x20

/-- The offset of a word the store queue may hold (R8, R16). -/
def sqOffset : SqWord → Nat
  | .consCmd c => consWordOffset c 1
  | .genTarget g => genWordOffset g 3
  | .driveLimit d => driveWordOffset d 2

/-- The word address of a window offset under the sampled base (R4, R5). -/
def windowAddr (base : BitVec 8) (off : Nat) : WordAddr :=
  BitVec.ofNat 22 (base.toNat * 0x4000 + off / 4)

/-- Whether a word address lies in the window: A[23:16] equal the base (R4). -/
def inWindow (base : BitVec 8) (a : WordAddr) : Bool := a.toNat / 0x4000 == base.toNat

/-- The offset of a word address within the window (R4). -/
def windowOffset (a : WordAddr) : Nat := a.toNat % 0x4000 * 4

/-! ## Frames and rings (R151, R153) -/

/-- The offset of frame 0 of a channel (R151). -/
def frameBase : Chan → Nat
  | .command => 0x2000
  | .notice => 0x2800

/-- The full byte address of a frame (R151). -/
def frameAddr (base : BitVec 8) (ch : Chan) (n : FrameId) : Nat :=
  base.toNat * 0x10000 + frameBase ch + 0x20 * n.val

/-- The frame of a channel whose address a written value is, if it is one (R154). -/
def frameOf (base : BitVec 8) (ch : Chan) (v : Word) : Option FrameId :=
  let f : FrameId := Fin.ofNat 64 ((v.toNat - (base.toNat * 0x10000 + frameBase ch)) / 0x20)
  if v.toNat = frameAddr base ch f then some f else none

/-- The offset of a ring mirror word (R153). -/
def spareMirrorOffset (ch : Chan) (slot : FrameId) : Nat :=
  (match ch with | .command => 0x1000 | .notice => 0x1200) + 4 * slot.val
def readyMirrorOffset (ch : Chan) (slot : FrameId) : Nat :=
  (match ch with | .command => 0x1100 | .notice => 0x1300) + 4 * slot.val

/-! ## Codes (12.1, 12.4) -/

def freshnessCode : Freshness → Nat
  | .fresh => 0
  | .stale => 1
  | .never => 2

def breakerCode : Breaker → Nat
  | .isOpen => 0
  | .isClosed => 1
  | .unknown => 2

def genStateCode : GenState → Nat
  | .idle => 0
  | .starting => 1
  | .online => 2
  | .unloading => 3
  | .tripped => 4
  | .failed => 5

def consStateCode : ConsState → Nat
  | .isOpen => 0
  | .connected => 1
  | .shedding => 2
  | .shed => 3
  | .stuck => 4
  | .restoring => 5

def conditionCode : Condition → Nat
  | .sound => 0
  | .short => 1
  | .overloaded => 2
  | .dead => 3

def shedCauseCode : ShedCause → Nat
  | .trip => 0
  | .overload => 1
  | .tieOpen => 2
  | .dead => 3
  | .escalation => 4
  | .restoreCancel => 5

/-- RECLOSE, the cause of the OPEN_CONSUMER of a reclose (12.1). -/
def recloseCode : Nat := 6

def targetIndex : Target → Nat
  | .cons c => c.val
  | .drive d => 64 + d.val

def portCode : Port → Nat
  | .cp => 0
  | .fp => 1

def reasonCode : Reason → Nat
  | .none => 0
  | .class_ => 1
  | .partial_ => 2
  | .invalidValue => 3
  | .absent => 4
  | .badFrame => 5
  | .notOut => 6
  | .busy => 7
  | .wrongPort => 8

def loadFailureCode : LoadFailure → Nat
  | .address => 1
  | .format => 2
  | .parity => 3
  | .chainLong => 4
  | .invalid => 5
  | .interrupted => 6

def startCauseCode : StartCause → Nat
  | .controller => 0
  | .startDelay => 1
  | .trip => 2
  | .dead => 3
  | .fallback => 4

/-- RETURN, the cause of the START_GEN of a return to ONLINE after OPEN_GEN (12.4). -/
def returnCode : Nat := 5

def cmdKindCode : CmdKind → Nat
  | .openConsumer => 1
  | .closeConsumer => 2
  | .startGen => 3
  | .stopGen => 4
  | .openGen => 5
  | .driveLimit => 6

def noticeKindCode : NoticeKind → Nat
  | .shed => 1
  | .reclosed => 2
  | .stuck => 3
  | .release => 4
  | .restoreFailed => 5
  | .genState => 6
  | .startFail => 7
  | .noStandby => 8
  | .stopRefused => 9
  | .unloadAborted => 10
  | .unloadFailed => 11
  | .island => 12
  | .exhausted => 13
  | .planDone => 14
  | .planFailed => 15
  | .activated => 16
  | .activateRefused => 17
  | .refused => 18
  | .parity => 19
  | .stale => 20

def partStateCode : PartState → Nat
  | .noPlan => 0
  | .settling => 1
  | .running => 2

def keyCode : KeyState → Nat
  | .locked => 0
  | .half => 1
  | .unlocked => 2

def loaderCode : LoaderState → Nat
  | .idle => 0
  | .loading _ => 1
  | .complete => 2
  | .activated => 3
  | .failed _ => 4

/-! ## The plan as the blocks read it (R167) -/

/-- A header field of a plan; 0 while the header is not loaded (R167). -/
def planHeader (p : Plan) : Header := p.header.getD Header.zero

/-- The active plan's header fields. -/
def Part.header (p : Part) : Header := planHeader p.plans.active

/-- The tag of the staging plan, 0 while its header is not loaded (R167, R172). -/
def stagingTag (u : PlanUnit) : Nat := (planHeader u.staging).tag

/-- The tag of the active plan, shown as 0 in NO_PLAN (R167). -/
def activeTag (u : PlanUnit) : Nat :=
  match u.partState with
  | .noPlan => 0
  | _ => (planHeader u.active).tag

/-- The limit contribution of a present generator (R42). -/
def contribution (gp : GenPlan) : Nat := gp.rating * gp.limitPct / 100

/-- The breaker timeout of a consumer: 100, 200, 400 or 800 ms by its select (R102). -/
def breakerTimeout (cp : ConsPlan) : Nat := 100 * 2 ^ cp.timeoutSel

end Sys2Proof.Machine
end

