-- ==== Sys2Proof/Machine/Flags.lean ====
section
/-! DEFINITION. The attention bits, the CAUSE word and the lines INT_N and URG_N (chapter 11). -/

namespace Sys2Proof.Machine

/-- The attention bits, in their order of number and priority (chapter 11). -/
inductive AttBit where
  | dead | exhausted | genTrip | stuck | shed | startFail | commandBlocked | stopEnd | release
  | stale | parity | refused | closeMasked | noticeLost | noSharer | plan
  deriving DecidableEq, Repr

/-- The number of an attention bit (chapter 11). -/
def attNumber : AttBit → Nat
  | .dead => 0
  | .exhausted => 1
  | .genTrip => 2
  | .stuck => 3
  | .shed => 4
  | .startFail => 5
  | .commandBlocked => 6
  | .stopEnd => 7
  | .release => 8
  | .stale => 9
  | .parity => 10
  | .refused => 11
  | .closeMasked => 12
  | .noticeLost => 13
  | .noSharer => 14
  | .plan => 15

/-- The attention word with one bit set: 1 stays 1 (R178). -/
def attWord (w : BitVec 16) (b : AttBit) : BitVec 16 := w ||| BitVec.ofNat 16 (2 ^ attNumber b)

/-- An attention bit is set (R178). -/
def setAtt (b : AttBit) (p : Part) : Part := { p with att := { p.att with word := attWord p.att.word b } }

/-- The set bits whose mask bit is 0 (R181). -/
def unmasked (a : Attention) : BitVec 16 := a.word &&& ~~~a.mask

/-- INT_N is active while an unmasked bit is set (R181). -/
def intActive (a : Attention) : Bool := unmasked a != 0#16

/-- 1 plus the number of the lowest unmasked set bit, from bit `n` on, among the next `k`; 0 if none. -/
def causeFrom (w : BitVec 16) : Nat → Nat → Nat
  | _, 0 => 0
  | n, k + 1 => if w.toNat.testBit n then n + 1 else causeFrom w (n + 1) k

/-- The CAUSE word (R182). -/
def causeValue (a : Attention) : Nat := causeFrom (unmasked a) 0 16

/-- URG_N is active while an island is DEAD or has its EXHAUSTED flag set (R120, R183). -/
def urgActive (p : Part) : Bool :=
  allSecs.any fun i =>
    isIslandId p.img.ties i && (p.islands[i].condition == .dead || p.islands[i].exhausted)

end Sys2Proof.Machine
end

