-- ==== Sys2Proof/Machine/Ops.lean ====
section
/-! DEFINITION. The named operations over SRAM (chapter 1), the store queue (1.6), the list unit's rings,
posts, pending command set and notice holding queue (chapter 9), and the refusal of an access (2.3). -/

namespace Sys2Proof.Machine

/-! ## Memory in canonical form: rising addresses, only bytes that were written (assumption log 7) -/

/-- The byte listed at an address; none at an address never written. -/
def Memory.get : List Host.Cell → Nat → Option Byte
  | [], _ => none
  | (k, b) :: r, a => if k = a then some b else Memory.get r a

/-- The memory with a byte written. -/
def Memory.set : List Host.Cell → Nat → Byte → List Host.Cell
  | [], a, v => [(a, v)]
  | (k, b) :: r, a, v =>
    if a < k then (a, v) :: (k, b) :: r
    else if a = k then (a, v) :: r
    else (k, b) :: Memory.set r a v

/-- Every address listed is above `lo`, and they rise strictly. -/
def Memory.risesFrom : Nat → List Host.Cell → Bool
  | _, [] => true
  | lo, (k, _) :: r => decide (lo ≤ k) && Memory.risesFrom (k + 1) r

/-- The canonical form: addresses strictly rising. An unlisted address reads as no value, so no entry
can equal what an unlisted address reads as. -/
def Memory.wf (m : List Host.Cell) : Bool := Memory.risesFrom 0 m

/-- The canonical form of the SRAM: both planes in canonical form, over the same addresses. -/
def Sram.wf (m : Sram) : Bool :=
  Memory.wf m.data && Memory.wf m.parity && decide (m.data.map Prod.fst = m.parity.map Prod.fst)

/-- The number of ones in a byte. -/
def onesOf (b : Byte) : Nat := ((List.range 8).filter fun i => b.toNat.testBit i).length

/-- The parity bit that makes the nine bits hold an odd number of ones (R10). -/
def oddParity (b : Byte) : Bool := onesOf b % 2 == 0

/-- A parity bit as the parity plane lists it. -/
def parityByte (p : Bool) : Byte := if p then 1#8 else 0#8

/-- One byte and its parity bit are written. -/
def Sram.writeByte (m : Sram) (a : Nat) (b : Byte) (p : Bool) : Sram :=
  { data := Memory.set m.data a b, parity := Memory.set m.parity a (parityByte p) }

/-- One byte as it stands: arbitrary until first written (R10, R26; assumption log 2). -/
def Sram.readByte (m : Sram) (a : Nat) : Byte := (Memory.get m.data a).getD (Config.powerOnByte a)

/-- Its parity bit as it stands (R10; assumption log 2). -/
def Sram.readParity (m : Sram) (a : Nat) : Bool :=
  match Memory.get m.parity a with
  | some p => p == 1#8
  | none => Config.powerOnParity a

/-- The byte address of lane `n` of a word; lane 0 is the lowest address (1.1). -/
def laneAddr (w : WordAddr) (n : Nat) : Nat := 4 * w.toNat + n

/-- The byte of a word that lane `n` carries: lane 0 holds bits 7:0 (chapter 12). -/
def laneByte (d : Word) (n : Nat) : Byte := BitVec.ofNat 8 (d.toNat / 2 ^ (8 * n))

/-- One lane of a write: stored with fresh parity if strobed (R3, R10). -/
def Sram.writeLane (w : WordAddr) (strobes : BitVec 4) (d : Word) (n : Nat) (m : Sram) : Sram :=
  if strobes.toNat.testBit n then
    m.writeByte (laneAddr w n) (laneByte d n) (oddParity (laneByte d n))
  else m

/-- The write of one SRAM cycle: the strobed bytes, each with fresh odd parity (R3, R10). -/
def Sram.write (m : Sram) (w : WordAddr) (strobes : BitVec 4) (d : Word) : Sram :=
  m |>.writeLane w strobes d 0 |>.writeLane w strobes d 1 |>.writeLane w strobes d 2
    |>.writeLane w strobes d 3

/-- All four strobes, as the part's own writes use (R3). -/
def allStrobes : BitVec 4 := 15#4

/-- The word read: all four bytes, whatever the strobes (R3). -/
def Sram.read (m : Sram) (w : WordAddr) : Word :=
  BitVec.ofNat 32 ((m.readByte (laneAddr w 0)).toNat + 2 ^ 8 * (m.readByte (laneAddr w 1)).toNat
    + 2 ^ 16 * (m.readByte (laneAddr w 2)).toNat + 2 ^ 24 * (m.readByte (laneAddr w 3)).toNat)

/-- Whether one lane passes its check, or is not checked (R3, R11). -/
def Sram.laneGood (m : Sram) (w : WordAddr) (strobes : BitVec 4) (n : Nat) : Bool :=
  !strobes.toNat.testBit n ||
    (m.readParity (laneAddr w n) == oddParity (m.readByte (laneAddr w n)))

/-- Whether a read's checked bytes hold odd parity; with no strobe all four are checked (R3, R11). -/
def Sram.parityGood (m : Sram) (w : WordAddr) (strobes : BitVec 4) : Bool :=
  let s := if strobes = 0#4 then allStrobes else strobes
  m.laneGood w s 0 && m.laneGood w s 1 && m.laneGood w s 2 && m.laneGood w s 3

/-- One lane of a write cut short by a full reset: arbitrary data and parity if strobed (R13; assumption log 3). -/
def Sram.cutLane (w : WordAddr) (strobes : BitVec 4) (draw n : Nat) (m : Sram) : Sram :=
  if strobes.toNat.testBit n then
    m.writeByte (laneAddr w n) (Config.cutByte draw n) (Config.cutParity draw n)
  else m

/-- A write cut short by a full reset (R13). -/
def Sram.cut (m : Sram) (w : WordAddr) (strobes : BitVec 4) (draw : Nat) : Sram :=
  m |>.cutLane w strobes draw 0 |>.cutLane w strobes draw 1 |>.cutLane w strobes draw 2
    |>.cutLane w strobes draw 3

/-! ## The store queue (R8) -/

/-- Enqueue: the data of the word's entry is replaced in place, or an entry is appended (R8). -/
def sqPut (w : SqWord) (d : Word) : List SqEntry → List SqEntry
  | [] => [⟨w, d⟩]
  | e :: q => if e.word = w then ⟨w, d⟩ :: q else e :: sqPut w d q

/-- The word's entry removed, the entries behind it closing up (R8). -/
def sqRemove (w : SqWord) (q : List SqEntry) : List SqEntry := q.filter fun e => decide (e.word ≠ w)

/-- The ladder or the share unit enqueues a word (R8). -/
def enqueue (w : SqWord) (d : Word) (p : Part) : Part := { p with sq := sqPut w d p.sq }

/-- The entry of the store queue that a read of a word address meets (R26, R146, R147). -/
def sqEntryAt (base : BitVec 8) (a : WordAddr) (q : List SqEntry) : Option SqEntry :=
  q.find? fun e => windowAddr base (sqOffset e.word) == a

/-! ## Rings (R152) -/

/-- The slot at the tail: (head + count) mod 64 (R152). -/
def ringTail (r : Ring) : FrameId := Fin.ofNat 64 (r.head.val + r.count)

/-- The frame number at the head (R152). -/
def ringFront (r : Ring) : FrameId := r.slots[r.head]

/-- Append at the tail (R152). -/
def ringAppend (r : Ring) (f : FrameId) : Ring :=
  { r with slots := setAt r.slots (ringTail r) f, count := r.count + 1 }

/-- Removal from the head (R152). -/
def ringRemove (r : Ring) : Ring :=
  { r with head := Fin.ofNat 64 (r.head.val + 1), count := r.count - 1 }

/-! ## The list unit (chapter 9) -/

/-- A channel of the list unit. -/
def getChan (lu : ListUnit) : Chan → Channel
  | .command => lu.command
  | .notice => lu.notice

/-- A channel of the list unit replaced. -/
def setChan (lu : ListUnit) (ch : Chan) (c : Channel) : ListUnit :=
  match ch with
  | .command => { lu with command := c }
  | .notice => { lu with notice := c }

/-- The subject of a command: its slot (R158). -/
def cmdSubject : CmdTarget → Nat
  | .cons c => c.val
  | .gen g => g.val
  | .drive d => d.val

/-- w0 of a frame: sequence number and kind (12.4). -/
def frameW0 (seq : BitVec 16) (kind : Nat) : Word := pack [(seq.toNat, 0, 16), (kind, 16, 8)]

/-- w1 of a frame: subject, cause, island, detail (12.4). -/
def frameW1 (subject cause island detail : Nat) : Word :=
  pack [(subject, 0, 8), (cause, 8, 8), (island, 16, 2), (detail, 24, 8)]

/-- A post of a command, its content fixed (R161). -/
def postOfCommand (f : FrameId) (seq : BitVec 16) (now : Word) (c : Command) : Post :=
  { frame := f, w0 := frameW0 seq (cmdKindCode c.kind),
    w1 := frameW1 (cmdSubject c.target) c.cause.toNat c.island.val 0,
    w2 := c.a, w3 := c.b, w4 := now, made := 0 }

/-- A post of a notice, its content fixed (R161). -/
def postOfNotice (f : FrameId) (seq : BitVec 16) (now : Word) (n : Notice) : Post :=
  { frame := f, w0 := frameW0 seq (noticeKindCode n.kind),
    w1 := frameW1 n.subject.toNat n.cause.toNat n.island.val n.detail.toNat,
    w2 := n.a, w3 := n.b, w4 := now, made := 0 }

/-- The channel at the start of a post: the head spare frame is FILLING, the sequence counter advances (R161). -/
def beginPost (c : Channel) (post : Post) : Channel :=
  { c with frames := setAt c.frames (ringFront c.spare) .filling, spare := ringRemove c.spare,
           post := some post, seq := c.seq + 1 }

/-- Whether a channel can start a post: no frame FILLING and a spare frame (R161). -/
def canPost (c : Channel) : Bool := c.post.isNone && decide (0 < c.spare.count)

/-- A post of the COMMAND channel starts if it can, with the oldest pending command; taking the last spare
frame while commands are left sets COMMAND_BLOCKED (R159, R161). -/
def tryPostCommand (p : Part) : Part :=
  if canPost p.lu.command then
    match p.lu.pendingCmds with
    | [] => p
    | c :: rest =>
      let ch := p.lu.command
      let ch' := beginPost ch (postOfCommand (ringFront ch.spare) ch.seq p.ms c)
      let p1 := { p with lu := { p.lu with pendingCmds := rest, command := ch' } }
      if ch.spare.count = 1 ∧ rest ≠ [] then setAtt .commandBlocked p1 else p1
  else p

/-- A post of the NOTICE channel starts if it can, with the oldest held notice (R160, R161). -/
def tryPostNotice (p : Part) : Part :=
  if canPost p.lu.notice then
    match p.lu.notices with
    | [] => p
    | n :: rest =>
      let ch := p.lu.notice
      let ch' := beginPost ch (postOfNotice (ringFront ch.spare) ch.seq p.ms n)
      { p with lu := { p.lu with notices := rest, notice := ch' } }
  else p

/-- R161 is judged for a channel. -/
def tryPost : Chan → Part → Part
  | .command, p => tryPostCommand p
  | .notice, p => tryPostNotice p

/-- The pending command set with a command given: replaced in place, or appended (R157). -/
def cmdPut (c : Command) : List Command → List Command
  | [] => [c]
  | d :: r => if d.target = c.target then c :: r else d :: cmdPut c r

/-- A command is given to the pending command set; with no spare command frame COMMAND_BLOCKED is set; then
R161 is judged (R157, R159; assumption log 15). -/
def giveCommand (c : Command) (p : Part) : Part :=
  let p1 := { p with lu := { p.lu with pendingCmds := cmdPut c p.lu.pendingCmds } }
  let p2 := if p.lu.command.spare.count = 0 then setAtt .commandBlocked p1 else p1
  tryPostCommand p2

/-- A notice is queued; at a full holding queue it is discarded with NOTICE_LOST; then R161 is judged (R160). -/
def queueNotice (n : Notice) (p : Part) : Part :=
  if 32 ≤ p.lu.notices.length then setAtt .noticeLost p
  else tryPostNotice { p with lu := { p.lu with notices := p.lu.notices ++ [n] } }

/-- A notice from its fields as numbers (R160). -/
def notice (kind : NoticeKind) (subject cause : Nat) (island : SecId) (detail : Nat) (a b : Word) : Notice :=
  { kind := kind, subject := BitVec.ofNat 8 subject, cause := BitVec.ofNat 8 cause, island := island,
    detail := BitVec.ofNat 8 detail, a := a, b := b }

/-- A kW or other count as a word. -/
def kw (n : Nat) : Word := BitVec.ofNat 32 n

/-! ## Refusals (R20, R21) -/

/-- REFUSED_DETAIL after a refusal (R21). -/
def recordRefusal (port : Port) (off : Nat) (r : Reason) (d : RefusedDetail) : RefusedDetail :=
  { offset := BitVec.ofNat 16 off, port := port, reason := r,
    overwritten := d.overwritten || (d.reason != .none && d.unread), unread := true }

/-- A refusal: recorded, attention REFUSED, a REFUSED notice (R20). -/
def refuse (port : Port) (off : Nat) (r : Reason) (p : Part) : Part :=
  let p1 := { p with img := { p.img with refused := recordRefusal port off r p.img.refused } }
  queueNotice (notice .refused (portCode port) (reasonCode r) 0 0 (kw off) 0#32) (setAtt .refused p1)

end Sys2Proof.Machine
end

