-- ==== Sys2Proof/Machine/Islands.lean ====
section
/-! DEFINITION. The balance unit: membership, totals, conditions, HELD, and the island timers (chapter 3),
with the release condition (R122). -/

namespace Sys2Proof.Machine

/-! ## Membership (R41) -/

/-- The island of a present generator; none for an absent one (R41). -/
def genIsland (p : Part) (g : GenId) : Option SecId :=
  p.plans.active.gens[g].map fun e => islandId p.img.ties e.sec

/-- The island of a present consumer (R41). -/
def consIsland (p : Part) (c : ConsId) : Option SecId :=
  p.plans.active.cons[c].map fun e => islandId p.img.ties e.sec

/-- The island of a present drive (R41). -/
def driveIsland (p : Part) (d : DriveId) : Option SecId :=
  p.plans.active.drives[d].map fun e => islandId p.img.ties e.sec

/-- The island of a shed target (R41). -/
def targetIsland (p : Part) : Target → Option SecId
  | .cons c => consIsland p c
  | .drive d => driveIsland p d

/-- Whether a present generator lies in an island. -/
def genIn (p : Part) (i : SecId) (g : GenId) : Bool := genIsland p g == some i

/-- The state of a generator. -/
def genState (p : Part) (g : GenId) : GenState := p.gens[g].state

/-- ONLINE and UNLOADING generators carry load (R42, R43). -/
def carries (s : GenState) : Bool := s == .online || s == .unloading

/-- The limit contribution of a generator, 0 for an absent one (R42). -/
def genContribution (p : Part) (g : GenId) : Nat :=
  match p.plans.active.gens[g] with
  | some e => contribution e
  | none => 0

/-! ## Totals, condition, HELD (R42 to R49) -/

/-- The sum of a quantity over the generators that meet a test. -/
def sumGens (test : GenId → Bool) (f : GenId → Nat) : Nat := ((allGens.filter test).map f).sum

/-- The highest value an island total holds: 20 bits (R44). -/
def totalCap : Nat := 1048575

/-- Whether an entry is OPENING (R98). -/
def isOpening (e : ShedEntry) : Bool :=
  match e.state with
  | .opening _ => true
  | .held => false

/-- The shed entries of an island, oldest first (R41, R98). -/
def entriesOf (p : Part) (i : SecId) : List ShedEntry :=
  p.shedList.filter fun e => targetIsland p e.target == some i

/-- The totals of an island, formed afresh (R42 to R44). -/
def totalsOf (p : Part) (i : SecId) : Totals :=
  { firm := sumGens (fun g => genIn p i g && genState p g == .online) (genContribution p)
    limit := sumGens (fun g => genIn p i g && carries (genState p g)) (genContribution p)
    load := sumGens (fun g => genIn p i g && carries (genState p g)) fun g => measKw p.img.genMeas[g]
    openingCredit := min totalCap (((entriesOf p i).filter isOpening).map ShedEntry.credit).sum }

/-- The reserve, signed (R43). -/
def reserve (t : Totals) : Int := (t.firm : Int) - (t.load : Int)

/-- The expected load, floored at 0 (R44). -/
def expectedLoad (t : Totals) : Nat := t.load - t.openingCredit

/-- The generators of an island that carry load. -/
def carrying (p : Part) (i : SecId) : List GenId := allGens.filter fun g => genIn p i g && carries (genState p g)

/-- The condition of an island: the first test it meets (R46). -/
def conditionOf (p : Part) (i : SecId) (t : Totals) : Condition :=
  if carrying p i = [] then .dead
  else if t.limit < expectedLoad t then .overloaded
  else if reserve t < (p.header.startMargin : Int) then .short
  else .sound

/-- Whether an island is HELD: not DEAD, and every generator that carries load stale (R49). -/
def heldOf (p : Part) (i : SecId) : Bool :=
  !(carrying p i).isEmpty && (carrying p i).all fun g => !isFresh p.img.genMeas[g]

/-- The island's record replaced. -/
def setIsland (i : SecId) (r : Island) (p : Part) : Part := { p with islands := setAt p.islands i r }

/-! ## The island timers (R50 to R53, R122 to R124) -/

/-- Whether the part state is RUNNING. -/
def isRunning (p : Part) : Bool := p.plans.partState == .running

/-- The target for whose entry the release condition of an island holds: its most recent entry (R122). -/
def releaseFor (p : Part) (i : SecId) : Option Target :=
  let r := p.islands[i]
  match (entriesOf p i).getLast? with
  | none => none
  | some e =>
    if isRunning p && !r.held && r.condition == .sound && !(entriesOf p i).any isOpening &&
        decide ((p.header.releaseMargin : Int) + (e.credit : Int) ≤ reserve r.totals) then
      some e.target
    else none

/-- The overload timer by its run condition: started, left running, or stopped (R50). -/
def nextOverload (p : Part) (r : Island) : Option Word :=
  if r.condition = .overloaded then
    match r.overload with
    | some e => some e
    | none => some (after p.ms p.header.overloadDelay)
  else none

/-- The start-delay timer by its run condition and the HELD mark (R50, R51). -/
def nextStartDelay (p : Part) (r : Island) : DelayTimer :=
  if r.condition = .short ∨ r.condition = .overloaded then
    match r.startDelay, r.held with
    | .stopped, true => .suspended p.header.startDelay
    | .stopped, false => .running (after p.ms p.header.startDelay)
    | .running e, true => .suspended (msLeft e p.ms)
    | .running e, false => .running e
    | .suspended k, true => .suspended k
    | .suspended k, false => .running (after p.ms k)
  else .stopped

/-- The release-hold timer by the release condition: it runs on for the same entry, starts from zero for
another, and stops when the condition ceases (R123). -/
def nextReleaseHold (p : Part) (r : Island) (judged : Option Target) : Option (Target × Word) :=
  match judged with
  | none => none
  | some t =>
    let fresh := some (t, after p.ms (1000 * p.header.releaseHold))
    match r.releaseHold with
    | some (t', e) => if t' = t then some (t', e) else fresh
    | none => fresh

/-- The island's timers follow its run conditions; outside RUNNING they stand stopped (R50, R123). -/
def syncTimers (i : SecId) (p : Part) : Part :=
  let r := p.islands[i]
  if isRunning p then
    setIsland i { r with overload := nextOverload p r, startDelay := nextStartDelay p r,
                         releaseHold := nextReleaseHold p r (releaseFor p i) } p
  else
    setIsland i { r with overload := none, startDelay := .stopped, releaseHold := none } p

/-- Every timer of the island stopped, so that the next `syncTimers` starts it from zero (R52). -/
def stopTimers (i : SecId) (p : Part) : Part :=
  setIsland i { p.islands[i] with overload := none, startDelay := .stopped, releaseHold := none } p

/-! ## Updates and entries (R45, R47) -/

/-- An update: totals, condition and HELD mark formed afresh, and the timers following (R45, R46, R49). -/
def retotal (i : SecId) (p : Part) : Part :=
  let t := totalsOf p i
  syncTimers i (setIsland i { p.islands[i] with totals := t, condition := conditionOf p i t,
                                                held := heldOf p i } p)

/-- Whether an update gave the island a condition different from the one it held (R47). -/
def entered (i : SecId) (before after : Part) : Bool :=
  before.islands[i].condition != after.islands[i].condition

/-- What every entry to a condition gives: the standby-exhausted mark clears (R79), EXHAUSTED clears on SOUND
and SHORT (R119), and attention DEAD is set on DEAD (R47). -/
def enterMarks (i : SecId) (p : Part) : Part :=
  let r := { p.islands[i] with standbyExhausted := false }
  match r.condition with
  | .sound | .short => setIsland i { r with exhausted := false, need := 0#20 } p
  | .overloaded => setIsland i r p
  | .dead => setAtt .dead (setIsland i r p)

/-- An update within an event whose entries can only be to SOUND or SHORT, or give no further work: the
changes that a shed, an abort or a start makes in its turn (assumption log 18). -/
def updateInner (i : SecId) (p : Part) : Part :=
  let p' := retotal i p
  if entered i p p' then enterMarks i p' else p'

/-- `updateInner` for the island of a target, if it lies in one. -/
def updateInnerOf (i : Option SecId) (p : Part) : Part :=
  match i with
  | some i => updateInner i p
  | none => p

/-- The release condition is judged again for the island of a target, where no total changes (R123). -/
def judgeReleaseOf (i : Option SecId) (p : Part) : Part :=
  match i with
  | some i => syncTimers i p
  | none => p

/-- The island as a notice or command gives it: 0 where the subject lies in none (R158, R160; assumption log 23). -/
def islandField (i : Option SecId) : SecId := i.getD 0

end Sys2Proof.Machine
end

