-- ==== Sys2Proof/Machine/SharingUnit.lean ====
section
/-! DEFINITION. The share unit: the computation of an island's targets and their writing (chapter 5). -/

namespace Sys2Proof.Machine

/-- A sharing entry with its ramp-in cap removed (R90). -/
def dropCap (s : Sharing) : Sharing :=
  { s with capOpen := false, connection := 0, raises := 0#16, capValue := 0, raiseTimer := none }

/-- The ramp-in cap of a generator that enters ONLINE with this output (R90). -/
def openCap (output : Nat) (now : Word) (s : Sharing) : Sharing :=
  { s with capOpen := true, connection := output, raises := 0#16, capValue := output,
           raiseTimer := some (after now 100) }

/-- A sharing entry replaced. -/
def setSharing (g : GenId) (s : Sharing) (p : Part) : Part := { p with sharing := setAt p.sharing g s }

/-- The generators of an island, ascending. -/
def gensOf (p : Part) (i : SecId) : List GenId := allGens.filter (genIn p i)

/-- An ONLINE generator in MODE FIXED (R85). -/
def isFixed (p : Part) (g : GenId) : Bool := genState p g == .online && reqFixed p.img.genReq[g]

/-- An ONLINE generator in MODE SHARE (R86). -/
def isSharer (p : Part) (g : GenId) : Bool := genState p g == .online && !reqFixed p.img.genReq[g]

/-- The ONLINE SHARE generators of an island, ascending (R86). -/
def sharers (p : Part) (i : SecId) : List GenId := (gensOf p i).filter (isSharer p)

/-- The target of a FIXED or UNLOADING generator before the rating limit (R85); 0 for any other. -/
def settledTarget (p : Part) (g : GenId) : Nat :=
  if isFixed p g then min (fixedSetpoint p.img.genFixed[g]) (genContribution p g)
  else if genState p g = .unloading then p.gens[g].ramp
  else 0

/-- The remainder of an island: its load less the FIXED and UNLOADING targets, at least 0 (R85). -/
def remainder (p : Part) (i : SecId) : Nat :=
  p.islands[i].totals.load - ((gensOf p i).map (settledTarget p)).sum

/-- The plan rating of a generator. -/
def genRating (p : Part) (g : GenId) : Nat :=
  match p.plans.active.gens[g] with
  | some e => e.rating
  | none => 0

/-- The sharing factor: WEIGHT times rating (R86). -/
def shareFactor (p : Part) (g : GenId) : Nat := reqWeight p.img.genReq[g] * genRating p g

/-- One generator's part of an amount divided among `gs` in proportion to their factors, rounded down; the
leftover goes to the lowest-indexed (R86, R87). -/
def portion (factor : GenId → Nat) (gs : List GenId) (amount : Nat) (g : GenId) : Nat :=
  let total := (gs.map factor).sum
  let share := fun g => amount * factor g / total
  if gs.head? = some g then share g + (amount - (gs.map share).sum)
  else if g ∈ gs then share g
  else 0

/-- The first share of a SHARE generator (R86). -/
def firstShare (p : Part) (i : SecId) (g : GenId) : Nat :=
  portion (shareFactor p) (sharers p i) (remainder p i) g

/-- Whether a SHARE generator is capped: its cap open and its first share above the cap value (R87). -/
def isCapped (p : Part) (i : SecId) (g : GenId) : Bool :=
  p.sharing[g].capOpen && decide (p.sharing[g].capValue < firstShare p i g)

/-- The SHARE generators whose share a cap does not hold back (R87). -/
def uncapped (p : Part) (i : SecId) : List GenId := (sharers p i).filter fun g => !isCapped p i g

/-- What the caps of an island cut off (R87). -/
def cutOff (p : Part) (i : SecId) : Nat :=
  (((sharers p i).filter (isCapped p i)).map fun g => firstShare p i g - p.sharing[g].capValue).sum

/-- The target of an ONLINE or UNLOADING generator, held to its rating (R85 to R88). -/
def targetOf (p : Part) (i : SecId) (g : GenId) : Nat :=
  let t :=
    if isSharer p g then
      if isCapped p i g then p.sharing[g].capValue
      else firstShare p i g + portion (shareFactor p) (uncapped p i) (cutOff p i) g
    else settledTarget p g
  min t (genRating p g)

/-- Whether a computed target is written: forced by the generator's entry, or more than SHARE_DEADBAND from the
last written (R91, R92). -/
def writesTarget (deadband : Nat) (forced : Bool) (target last : Nat) : Bool :=
  forced || decide (last + deadband < target) || decide (target + deadband < last)

/-- A target is written: enqueued and recorded as last written (R91). -/
def writeTarget (g : GenId) (target : Nat) (p : Part) : Part :=
  enqueue (.genTarget g) (pack [(target, 0, 16)])
    (setSharing g { p.sharing[g] with lastWritten := target } p)

/-- The target of one generator is written if it is to be (R91, R92). -/
def offerTarget (deadband : Nat) (forced : Option GenId) (g : GenId) (target : Nat) (p : Part) : Part :=
  if writesTarget deadband (forced == some g) target p.sharing[g].lastWritten then writeTarget g target p
  else p

/-- The caps that this computation finds reached are removed (R87, R90). -/
def dropReachedCaps (i : SecId) (p : Part) : Part :=
  { p with sharing := (uncapped p i).foldl (fun v g => if v[g].capOpen then setAt v g (dropCap v[g]) else v)
                        p.sharing }

/-- Whether an island has ONLINE generators, but none in MODE SHARE (R89). -/
def lacksSharer (p : Part) (i : SecId) : Bool :=
  (gensOf p i).any (fun g => genState p g == .online) && (sharers p i).isEmpty

/-- The no-sharer mark is judged; newly set, it sets attention NO_SHARER (R89). -/
def judgeNoSharer (i : SecId) (p : Part) : Part :=
  let r := p.islands[i]
  let lacks := lacksSharer p i
  let p1 := setIsland i { r with noSharer := lacks } p
  if lacks && !r.noSharer then setAtt .noSharer p1 else p1

/-- The computation of an island's targets: each ONLINE and UNLOADING generator's, written in ascending order
(R84 to R92). `forced` is the generator whose entry to ONLINE or UNLOADING made the computation. -/
def computeTargets (i : SecId) (forced : Option GenId) (p : Part) : Part :=
  let targets := (carrying p i).map fun g => (g, targetOf p i g)
  let p1 := judgeNoSharer i (dropReachedCaps i p)
  targets.foldl (fun q gt => offerTarget p.header.shareDeadband forced gt.1 gt.2 q) p1

/-- A generator that leaves ONLINE or UNLOADING has its target written as 0 (R92; assumption log 19). -/
def zeroTarget (g : GenId) (p : Part) : Part := writeTarget g 0 p

/-- The ramp-in cap is removed when the generator leaves ONLINE (R90). -/
def removeCap (g : GenId) (p : Part) : Part := setSharing g (dropCap p.sharing[g]) p

end Sys2Proof.Machine
end

