-- ==== Sys2Proof/Machine/Sequencer.lean ====
section
/-! DEFINITION. The generator sequencer's shared operations: changes of state, starts, aborts, standby
requests (chapter 4). -/

namespace Sys2Proof.Machine

/-- A generator entry replaced. -/
def setGen (g : GenId) (e : Gen) (p : Part) : Part := { p with gens := setAt p.gens g e }

/-- A change of state of a generator: its cap is removed when it leaves ONLINE (R90), and its target is written
as 0 when it leaves ONLINE or UNLOADING for another state (R92). -/
def changeState (g : GenId) (new : Gen) (p : Part) : Part :=
  let old := p.gens[g].state
  let p1 := setGen g new p
  let p2 := if old = .online ∧ new.state ≠ .online then removeCap g p1 else p1
  if carries old && !carries new.state then zeroTarget g p2 else p2

/-- After a change of a generator: its island's update and the computation of its targets; the entry that follows
gives no further work (R45, R84; assumption log 18). -/
def afterGenInner (g : GenId) (forced : Option GenId) (p : Part) : Part :=
  match genIsland p g with
  | none => p
  | some i =>
    let p' := computeTargets i forced (retotal i p)
    if entered i p p' then enterMarks i p' else p'

/-- A command for a generator is given (R158). -/
def giveGen (g : GenId) (kind : CmdKind) (cause : Nat) (a b : Word) (p : Part) : Part :=
  giveCommand { target := .gen g, kind := kind, cause := BitVec.ofNat 8 cause,
                island := islandField (genIsland p g), a := a, b := b } p

/-- A notice with a generator as its subject is queued (R160). -/
def noticeGen (g : GenId) (kind : NoticeKind) (cause detail : Nat) (a b : Word) (p : Part) : Part :=
  queueNotice (notice kind g.val cause (islandField (genIsland p g)) detail a b) p

/-- A GEN_STATE notice: new state, former state and the engine-ready mark of the MEAS copy (R160, 12.4;
assumption log 22). -/
def noticeGenState (g : GenId) (new former : GenState) (a b : Word) (p : Part) : Part :=
  noticeGen g .genState (genStateCode new)
    (genStateCode former + 8 * flag (engineReady p.img.genMeas[g].word)) a b p

/-- The standby-exhausted mark of the generator's island clears: it entered IDLE (R79). -/
def clearStandbyOf (g : GenId) (p : Part) : Part :=
  match genIsland p g with
  | none => p
  | some i => setIsland i { p.islands[i] with standbyExhausted := false } p

/-- A start: STARTING, START_GEN, GEN_STATE (R62, R76). -/
def startGenerator (g : GenId) (automatic : Bool) (cause : StartCause) (p : Part) : Part :=
  let former := genState p g
  p |> changeState g { Gen.init with state := .starting, automatic := automatic, cause := cause,
                                     startTimer := some (after p.ms (1000 * p.header.startTimeout)) }
    |> giveGen g .startGen (startCauseCode cause) (kw (genRating p g)) 0#32
    |> noticeGenState g .starting former 0#32 0#32
    |> afterGenInner g none

/-- The cause of an abort (R71). -/
inductive AbortCause where
  | trip | overload | controller | partition
  deriving DecidableEq, Repr

def abortCauseCode : AbortCause → Nat
  | .trip => 0
  | .overload => 1
  | .controller => 2
  | .partition => 3

/-- An UNLOADING generator returns to ONLINE: START_GEN if its OPEN_GEN was given, UNLOAD_ABORTED, STOP_END; its
island's update and targets follow (R71). -/
def abortUnloading (g : GenId) (cause : AbortCause) (p : Part) : Part :=
  let e := p.gens[g]
  let p1 := changeState g { Gen.init with state := .online } p
  let p2 := if e.openIssued then giveGen g .startGen returnCode (kw (genRating p g)) 0#32 p1 else p1
  p2 |> noticeGen g .unloadAborted (abortCauseCode cause) 0 (kw e.ramp) 0#32
     |> setAtt .stopEnd
     |> afterGenInner g (some g)

/-- Every UNLOADING generator of an island is aborted, in ascending index (R71). -/
def abortAll (i : SecId) (cause : AbortCause) (p : Part) : Part :=
  allGens.foldl (fun q g =>
    if genIn q i g && genState q g == .unloading then abortUnloading g cause q else q) p

/-- The plan rank of a generator; 0 for an absent one (R76). -/
def genRank (p : Part) (g : GenId) : Nat :=
  match p.plans.active.gens[g] with
  | some e => e.rank
  | none => 0

/-- The candidate of a standby start: the IDLE generator of the island with the lowest nonzero rank (R76). -/
def standbyCandidate (p : Part) (i : SecId) : Option GenId :=
  (gensOf p i).foldl (fun best g =>
    if genState p g = .idle ∧ genRank p g ≠ 0 then
      match best with
      | none => some g
      | some b => if genRank p g < genRank p b then some g else some b
    else best) none

/-- Whether a generator of the island is STARTING (R76). -/
def anyStarting (p : Part) (i : SecId) : Bool := (gensOf p i).any fun g => genState p g == .starting

/-- A request that finds no candidate: NO_STANDBY and START_FAIL once, while the mark is clear (R78). -/
def noStandby (i : SecId) (cause : StartCause) (p : Part) : Part :=
  if p.islands[i].standbyExhausted then p
  else
    p |> queueNotice (notice .noStandby i.val (startCauseCode cause) i 0 0#32 0#32)
      |> setAtt .startFail
      |> setIsland i { p.islands[i] with standbyExhausted := true }

/-- A standby start request for an island, taken in RUNNING alone (R75, R76, R78). -/
def requestStandby (i : SecId) (cause : StartCause) (p : Part) : Part :=
  if isRunning p && !anyStarting p i then
    match standbyCandidate p i with
    | some g =>
      startGenerator g true cause (setIsland i { p.islands[i] with standbyExhausted := false } p)
    | none => noStandby i cause p
  else p

/-- The unload floor, from the plan in force (R66, R67). -/
def unloadFloor (p : Part) (g : GenId) : Nat := genRating p g * p.header.unloadFloorPct / 100

/-- Giving OPEN_GEN: open issued, the open timer started, the command given (R68). -/
def giveOpenGen (g : GenId) (p : Part) : Part :=
  let expiry := after p.ms (100 * p.header.genOpenTimeout)
  p |> setGen g { p.gens[g] with openIssued := true, openTimer := some expiry }
    |> giveGen g .openGen 0 (kw p.gens[g].ramp) expiry

end Sys2Proof.Machine
end

