-- ==== Sys2Proof/Machine/Shedding.lean ====
section
/-! DEFINITION. The ladder's shared operations: candidates, credit, the shed transactions, the walk of a step,
EXHAUSTED, the dead shed (chapter 6). -/

namespace Sys2Proof.Machine

/-! ## The ladder's tables -/

/-- A consumer entry replaced. -/
def setCons (c : ConsId) (e : Consumer) (p : Part) : Part := { p with cons := setAt p.cons c e }

/-- A consumer's state changed; the restore deadline clears, since it is held in RESTORING alone (R126). -/
def setConsState (c : ConsId) (s : ConsState) (p : Part) : Part := setCons c ⟨s, none⟩ p

/-- A drive entry replaced. -/
def setDrive (d : DriveId) (e : Drive) (p : Part) : Part := { p with drives := setAt p.drives d e }

/-- Whether a target has an entry on the shed list (R98). -/
def hasEntry (p : Part) (t : Target) : Bool := p.shedList.any fun e => e.target == t

/-- The entry of a target, if it has one. -/
def entryOf (p : Part) (t : Target) : Option ShedEntry := p.shedList.find? fun e => e.target == t

/-- An entry appended at the tail (R98). -/
def appendEntry (e : ShedEntry) (p : Part) : Part := { p with shedList := p.shedList ++ [e] }

/-- A target's entry removed, the entries behind it closing up (R98). -/
def removeEntry (t : Target) (p : Part) : Part :=
  { p with shedList := p.shedList.filter fun e => decide (e.target ≠ t) }

/-- A target's entry changed in place (R98). -/
def changeEntry (t : Target) (f : ShedEntry → ShedEntry) (p : Part) : Part :=
  { p with shedList := p.shedList.map fun e => if e.target = t then f e else e }

/-- A consumer is guarded while it has an entry or is STUCK (R139). -/
def isGuarded (p : Part) (c : ConsId) : Bool :=
  hasEntry p (.cons c) || p.cons[c].state == .stuck

/-- The ladder sets its copy of a CMD word and enqueues the word (R102, R138). -/
def setCmd (c : ConsId) (req : Nat) (shed stuck : Bool) (p : Part) : Part :=
  let w := cmdWord p.cmd[c] req shed stuck
  enqueue (.consCmd c) w { p with cmd := setAt p.cmd c w }

/-- The breaker timeout of a consumer in the active plan (R102, R126). -/
def consTimeout (p : Part) (c : ConsId) : Nat :=
  match p.plans.active.cons[c] with
  | some e => breakerTimeout e
  | none => 0

/-- A command for a consumer is given (R158). -/
def giveCons (c : ConsId) (kind : CmdKind) (cause : Nat) (a b : Word) (p : Part) : Part :=
  giveCommand { target := .cons c, kind := kind, cause := BitVec.ofNat 8 cause,
                island := islandField (consIsland p c), a := a, b := b } p

/-- A notice with a shed target as its subject is queued (R160). -/
def noticeTarget (t : Target) (kind : NoticeKind) (cause detail : Nat) (a b : Word) (p : Part) : Part :=
  queueNotice (notice kind (targetIndex t) cause (islandField (targetIsland p t)) detail a b) p

/-! ## Drives (R97) -/

/-- The controller limit of a drive: the drive REQ copy's (R97). -/
def controllerLimit (p : Part) (d : DriveId) : Nat := reqLimit p.img.driveReq[d]

/-- The effective limit: the controller limit, held to the cut limit while cut (R97). -/
def effectiveLimit (p : Part) (d : DriveId) : Nat :=
  if p.drives[d].cut then min (controllerLimit p d) p.drives[d].cutLimit else controllerLimit p d

/-- The plan floor of a drive. -/
def driveFloor (p : Part) (d : DriveId) : Nat :=
  match p.plans.active.drives[d] with
  | some e => e.floor
  | none => 0

/-- The LIMIT word: effective limit and cut mark (12.2). -/
def limitWord (p : Part) (d : DriveId) : Word :=
  pack [(effectiveLimit p d, 0, 16), (flag p.drives[d].cut, 16, 1)]

/-- The ladder writes the LIMIT word and gives DRIVE_LIMIT (R97, R158). -/
def writeDriveLimit (d : DriveId) (p : Part) : Part :=
  p |> enqueue (.driveLimit d) (limitWord p d)
    |> giveCommand { target := .drive d, kind := .driveLimit,
                     cause := BitVec.ofNat 8 (flag p.drives[d].cut),
                     island := islandField (driveIsland p d), a := kw (effectiveLimit p d),
                     b := kw (controllerLimit p d) }

/-! ## Candidates and credit (R100, R101) -/

/-- A consumer's credit basis: measured while fresh, nominal otherwise (R101). -/
def creditBasis (p : Part) (c : ConsId) : Nat :=
  if isFresh p.img.consMeas[c] then measKw p.img.consMeas[c]
  else match p.plans.active.cons[c] with
    | some e => e.nominal
    | none => 0

/-- The order of candidates as one number: class, order, consumers before drives, index (R100). -/
def candidateKey (p : Part) (t : Target) : Nat :=
  match t with
  | .cons c => match p.plans.active.cons[c] with
    | some e => (e.cls * 256 + e.order) * 128 + targetIndex t
    | none => 0
  | .drive d => match p.plans.active.drives[d] with
    | some e => (e.cls * 256 + e.order) * 128 + targetIndex t
    | none => 0

/-- A target put in its place in a list in ascending order of a key. -/
def insertByKey (key : Target → Nat) (t : Target) : List Target → List Target
  | [] => [t]
  | u :: r => if key t < key u then t :: u :: r else u :: insertByKey key t r

/-- A list of targets in ascending order of a key, equal keys in the order given. -/
def sortByKey (key : Target → Nat) (ts : List Target) : List Target :=
  ts.foldl (fun acc t => insertByKey key t acc) []

/-- The first group: the RESTORING consumers of an island, in order (R100). One whose class an activation made 0 is among
them: R105, R111 and R126 re-shed every RESTORING consumer, R100 calls class 0 no candidate, and this is the model's
choice (assumption log 38). -/
def restoringOf (p : Part) (i : SecId) : List Target :=
  sortByKey (candidateKey p)
    ((allCons.filter fun c => consIsland p c == some i && p.cons[c].state == .restoring).map Target.cons)

/-- The plan class of a consumer; 0 for an absent one. -/
def consClass (p : Part) (c : ConsId) : Nat :=
  match p.plans.active.cons[c] with
  | some e => e.cls
  | none => 0

/-- Whether a consumer of the island belongs to the second group (R100). -/
def consCandidate (p : Part) (i : SecId) (c : ConsId) : Bool :=
  consIsland p c == some i && decide (0 < consClass p c) && !hasEntry p (.cons c) &&
  p.cons[c].state != .stuck && p.cons[c].state != .restoring && measBreaker p.img.consMeas[c] != .isOpen

/-- The plan class of a drive; 0 for an absent one. -/
def driveClass (p : Part) (d : DriveId) : Nat :=
  match p.plans.active.drives[d] with
  | some e => e.cls
  | none => 0

/-- Whether a drive of the island belongs to the second group (R100). -/
def driveCandidate (p : Part) (i : SecId) (d : DriveId) : Bool :=
  driveIsland p d == some i && decide (0 < driveClass p d) && !hasEntry p (.drive d) &&
  isFresh p.img.driveMeas[d] && decide (driveFloor p d < effectiveLimit p d)

/-- The second group of an island's candidates, in order (R100). -/
def candidatesOf (p : Part) (i : SecId) : List Target :=
  sortByKey (candidateKey p)
    ((allCons.filter (consCandidate p i)).map Target.cons
      ++ (allDrives.filter (driveCandidate p i)).map Target.drive)

/-- The power of a drive by its latest MEAS write. -/
def drivePower (p : Part) (d : DriveId) : Nat := measKw p.img.driveMeas[d]

/-- The cut limit of a drive reached with this need left: at least the floor (R101). -/
def cutLimitFor (p : Part) (d : DriveId) (need : Int) : Nat :=
  max (driveFloor p d) ((drivePower p d : Int) - need).toNat

/-! ## The shed transactions (R102 to R104) -/

/-- A consumer shed, in the order of R102. -/
def shedConsumer (c : ConsId) (cause : ShedCause) (credit : Nat) (p : Part) : Part :=
  let deadline := after p.ms (consTimeout p c)
  p |> appendEntry ⟨.cons c, cause, credit, p.ms, .opening deadline⟩
    |> updateInnerOf (consIsland p c)
    |> setConsState c .shedding
    |> setCmd c reqOpen true false
    |> giveCons c .openConsumer (shedCauseCode cause) (kw credit) deadline
    |> noticeTarget (.cons c) .shed (shedCauseCode cause) 0 (kw credit) deadline
    |> setAtt .shed

/-- A SHED notice for a drive, with its new effective limit, and attention SHED (R103, R111). -/
def noticeDriveShed (d : DriveId) (cause : ShedCause) (credit : Nat) (p : Part) : Part :=
  p |> noticeTarget (.drive d) .shed (shedCauseCode cause) 0 (kw credit) (kw (effectiveLimit p d))
    |> setAtt .shed

/-- A drive shed, in the order of R103. -/
def shedDrive (d : DriveId) (cause : ShedCause) (credit cutLimit : Nat) (p : Part) : Part :=
  p |> appendEntry ⟨.drive d, cause, credit, p.ms, .held⟩
    |> judgeReleaseOf (driveIsland p d)
    |> setDrive d ⟨true, cutLimit⟩
    |> writeDriveLimit d
    |> noticeDriveShed d cause credit

/-- A RESTORING consumer re-shed (R104). -/
def reshed (c : ConsId) (p : Part) : Part :=
  p |> appendEntry ⟨.cons c, .restoreCancel, 0, p.ms, .held⟩
    |> judgeReleaseOf (consIsland p c)
    |> setConsState c .shed
    |> setCmd c reqOpen true false
    |> giveCons c .openConsumer (shedCauseCode .restoreCancel) 0#32 0#32
    |> noticeTarget (.cons c) .shed (shedCauseCode .restoreCancel) 0 0#32 0#32
    |> setAtt .shed

/-- The first group is re-shed (R105). -/
def reshedAll (ts : List Target) (p : Part) : Part :=
  ts.foldl (fun q t => match t with
    | .cons c => reshed c q
    | .drive _ => q) p

/-! ## The walk of a step (R105) and EXHAUSTED (R119) -/

/-- One candidate taken with this need left: the need after it, and the part; a drive whose credit comes to 0
is skipped (R101, R105). -/
def takeCandidate (cause : ShedCause) (t : Target) (need : Int) (p : Part) : Int × Part :=
  match t with
  | .cons c => (need - creditBasis p c, shedConsumer c cause (creditBasis p c) p)
  | .drive d =>
    let cut := cutLimitFor p d need
    let credit := drivePower p d - cut
    if credit = 0 then (need, p) else (need - credit, shedDrive d cause credit cut p)

/-- The second group walked in order, until the need is met (R105). -/
def walkCandidates (cause : ShedCause) : List Target → Int → Part → Int × Part
  | [], need, p => (need, p)
  | t :: ts, need, p =>
    if need ≤ 0 then (need, p)
    else
      let r := takeCandidate cause t need p
      walkCandidates cause ts r.1 r.2

/-- A met step clears EXHAUSTED and the remaining need (R105). -/
def stepMet (i : SecId) (p : Part) : Part :=
  setIsland i { p.islands[i] with exhausted := false, need := 0#20 } p

/-- The remaining need as it is held: 20 bits (R99; assumption log 5). -/
def heldNeed (p : Part) (need : Nat) : BitVec 20 :=
  if need ≤ totalCap then BitVec.ofNat 20 need else Config.needPastRange p.free

/-- An unmet step: the remaining need held, and with the flag clear EXHAUSTED set, noticed and shown (R119). -/
def stepUnmet (i : SecId) (cause : ShedCause) (need : Nat) (p : Part) : Part :=
  let n := heldNeed p need
  let r := p.islands[i]
  let p1 := setIsland i { r with exhausted := true, need := n }
              { p with free := if need ≤ totalCap then p.free else p.free + 1 }
  if r.exhausted then p1
  else
    p1 |> queueNotice (notice .exhausted i.val (shedCauseCode cause) i 0 (n.setWidth 32) 0#32)
       |> setAtt .exhausted

/-- A fast, split or escalation step with its need (R105). -/
def shedStep (i : SecId) (cause : ShedCause) (need : Int) (p : Part) : Part :=
  if need ≤ 0 then stepMet i p
  else
    let first := restoringOf p i
    let second := candidatesOf p i
    let r := walkCandidates cause second need (reshedAll first p)
    if r.1 ≤ 0 then stepMet i r.2 else stepUnmet i cause r.1.toNat r.2

/-- The first candidate that gives a shed, taken with a need of one shed (R109); a drive is cut by the excess of
the expected load over the limit (assumption log 20). -/
def takeFirst (cause : ShedCause) (need : Int) : List Target → Part → Option Part
  | [], _ => none
  | t :: ts, p =>
    let r := takeCandidate cause t need p
    match t with
    | .cons _ => some r.2
    | .drive _ => if r.1 = need then takeFirst cause need ts p else some r.2

/-- A slow step (R109). -/
def slowStep (i : SecId) (p : Part) : Part :=
  let t := p.islands[i].totals
  let need : Int := (expectedLoad t : Int) - (t.limit : Int)
  let first := restoringOf p i
  let second := candidatesOf p i
  let p1 := reshedAll first p
  match takeFirst .overload need second p1 with
  | some p2 => stepMet i p2
  | none => stepUnmet i .overload need.toNat p1

/-- The fast step of a trip handed over with its snapshot, in RUNNING and not in a DEAD island (R106 to R108). -/
def fastStep (i : SecId) (snapshot : Nat) (p : Part) : Part :=
  let r := p.islands[i]
  if isRunning p && r.condition != .dead then
    shedStep i .trip ((snapshot : Int) - (r.totals.limit : Int) + (p.header.shedMargin : Int)
      - (r.totals.openingCredit : Int)) p
  else p

/-- The estimate of a split step: consumers not known open, and fresh drives (R110). -/
def splitEstimate (p : Part) (i : SecId) : Nat :=
  ((allCons.filter fun c => consIsland p c == some i && measBreaker p.img.consMeas[c] != .isOpen).map
    (creditBasis p)).sum
  + ((allDrives.filter fun d => driveIsland p d == some i && isFresh p.img.driveMeas[d]).map (drivePower p)).sum

/-- The split step of a split island that is not DEAD (R110). -/
def splitStep (i : SecId) (p : Part) : Part :=
  let est := splitEstimate p i
  let t := p.islands[i].totals
  if est ≤ t.limit then stepMet i p
  else shedStep i .tieOpen ((est : Int) - (t.limit : Int) + (p.header.shedMargin : Int)
    - (t.openingCredit : Int)) p

/-! ## The dead shed (R111) -/

/-- One candidate of a dead shed: a consumer with its credit basis, a drive cut to its floor (R111, step 2). -/
def deadTake (p : Part) (t : Target) : Part :=
  match t with
  | .cons c => shedConsumer c .dead (creditBasis p c) p
  | .drive d => shedDrive d .dead (drivePower p d - driveFloor p d) (driveFloor p d) p

/-- A cut drive of the island above its floor has its cut limit lowered to it, its entry's credit rising in place
(R111, step 3). Its SHED notice has cause DEAD, as R111 says; the table of R160 gives the entry's cause, which the
lowering keeps, and the choice between the two is the model's (assumption log 39). -/
def deadLower (i : SecId) (p : Part) (d : DriveId) : Part :=
  let cut := p.drives[d].cutLimit
  let floor := driveFloor p d
  if driveIsland p d == some i && hasEntry p (.drive d) && decide (floor < cut) then
    let p1 := changeEntry (.drive d) (fun e => { e with credit := e.credit + (cut - floor) }) p
    let credit := match entryOf p1 (.drive d) with
      | some e => e.credit
      | none => 0
    p1 |> setDrive d { p.drives[d] with cutLimit := floor }
       |> judgeReleaseOf (some i)
       |> writeDriveLimit d
       |> noticeDriveShed d .dead credit
  else p

/-- The dead shed of an island that entered DEAD (R111). -/
def deadShed (i : SecId) (p : Part) : Part :=
  let first := restoringOf p i
  let second := candidatesOf p i
  allDrives.foldl (deadLower i) (second.foldl deadTake (reshedAll first p))

end Sys2Proof.Machine
end

