-- ==== Sys2Proof/Machine/Entries.lean ====
section
/-! DEFINITION. What an island's entry to a condition gives, in full (R47), the update with it, the change to
RUNNING (R48, R176), and the partition change (R36 to R38, R52, R72, R113). -/

namespace Sys2Proof.Machine

/-- The sequencer's part of an entry: aborts on OVERLOADED (R71), a standby start on DEAD (R75). -/
def enterSequencer (i : SecId) (c : Condition) (p : Part) : Part :=
  if isRunning p then
    match c with
    | .overloaded => abortAll i .overload p
    | .dead => requestStandby i .dead p
    | .sound | .short => p
  else p

/-- The ladder's part of an entry: the dead shed on DEAD (R111), in RUNNING alone (R106). -/
def enterLadder (i : SecId) (c : Condition) (p : Part) : Part :=
  if isRunning p && c == .dead then deadShed i p else p

/-- An entry handed on: the marks, then the sequencer, then the ladder (R47; assumption log 18). -/
def enterCondition (i : SecId) (p : Part) : Part :=
  let c := p.islands[i].condition
  p |> enterMarks i |> enterSequencer i c |> enterLadder i c

/-- An update of an island with the entry it may bring (R45 to R47). -/
def update (i : SecId) (p : Part) : Part :=
  let p' := retotal i p
  if entered i p p' then enterCondition i p' else p'

/-- `update` for the island of a target, if it lies in one. -/
def updateOf (i : Option SecId) (p : Part) : Part :=
  match i with
  | some i => update i p
  | none => p

/-- An update that a change of the opening credit alone brings: which generators carry load decides DEAD (R46), so it can
enter DEAD in no island, and the ladder is handed nothing (R45, R47; assumption log 18). -/
def updateCredit (i : SecId) (p : Part) : Part :=
  let p' := retotal i p
  if entered i p p' then enterSequencer i (p'.islands[i].condition) (enterMarks i p') else p'

/-- `updateCredit` for the island of a target, if it lies in one. -/
def updateCreditOf (i : Option SecId) (p : Part) : Part :=
  match i with
  | some i => updateCredit i p
  | none => p

/-- After an event of a generator: its island's update, the computation of its targets, and the entry the update
may bring (R45, R84, R47; assumption log 18). -/
def afterGen (g : GenId) (forced : Option GenId) (p : Part) : Part :=
  match genIsland p g with
  | none => p
  | some i =>
    let p' := computeTargets i forced (retotal i p)
    if entered i p p' then enterCondition i p' else p'

/-- The ids of the islands, ascending (R35). -/
def islandIds (p : Part) : List SecId := allSecs.filter (isIslandId p.img.ties)

/-! ## The change to RUNNING (R48, R175, R176) -/

/-- The part enters RUNNING: the timers start where their run conditions hold, and every island is handed as
having just entered the condition it holds, in ascending id (R48, R176; assumption log 18). -/
def toRunning (p : Part) : Part :=
  let p1 := { p with plans := { p.plans with partState := .running, settlingTimer := none } }
  let p2 := (islandIds p1).foldl (fun q i => syncTimers i q) p1
  (islandIds p1).foldl (fun q i => enterCondition i q) p2

/-- The settling condition: every present generator and TIES fresh (R175). -/
def settled (p : Part) : Bool :=
  allGens.all (fun g => p.plans.active.gens[g].isNone || isFresh p.img.genMeas[g]) && isFresh p.img.ties

/-- The settling condition judged: in SETTLING it ends in RUNNING (R175). -/
def judgeSettled (p : Part) : Part :=
  if p.plans.partState = .settling ∧ settled p = true then toRunning p else p

/-! ## Partition change (R36 to R38) -/

/-- How an island of the new partition came about (R37). -/
inductive IslandKind where
  | kept | split | merged
  deriving DecidableEq, Repr

/-- The sections of the island that holds a section. -/
def membersOf (ties : MeasCopy) (i : SecId) : List SecId := allSecs.filter fun s => islandId ties s == i

/-- The kind of an island of the new partition, from the tie states before and after (R37). -/
def islandKind (old new : MeasCopy) (i : SecId) : IslandKind :=
  let members := membersOf new i
  let from_ := islandId old i
  if members = membersOf old from_ then .kept
  else if members.all fun s => islandId old s == from_ then .split
  else .merged

/-- The id list of a partition: four 2-bit fields, S0 in bits 1:0 (12.4). -/
def idList (ties : MeasCopy) : Word :=
  pack [((islandId ties 0).val, 0, 2), ((islandId ties 1).val, 2, 2), ((islandId ties 2).val, 4, 2),
        ((islandId ties 3).val, 6, 2)]

/-- Whether two tie copies give the same partition (R36). -/
def samePartition (old new : MeasCopy) : Bool := allSecs.all fun s => islandId old s == islandId new s

/-- The record of a section under the new partition: a kept island keeps its own, a newly formed one and a section
that is no id start blank (R37, R56). -/
def formIsland (old new : MeasCopy) (p : Part) (i : SecId) : Part :=
  if isIslandId new i && islandKind old new i == .kept then p
  else setIsland i Island.blank p

/-- An island of the new partition brought to its standing: a newly formed one has its totals computed afresh, and
every timer restarts from zero or stops (R37, R52). -/
def standIsland (old new : MeasCopy) (p : Part) (i : SecId) : Part :=
  if islandKind old new i = .kept then syncTimers i (stopTimers i p) else retotal i p

/-- The stop check made again for the UNLOADING generators of an island: it asks only that the island be SOUND (R72). -/
def recheckStops (i : SecId) (p : Part) : Part :=
  if isRunning p then
    allGens.foldl (fun q g =>
      if genIn q i g && genState q g == .unloading && q.islands[i].condition != .sound then
        abortUnloading g .partition q
      else q) p
  else p

/-- The ladder's work for one island of the new partition: the dead shed if it entered DEAD, else the split step of
a split island (R110, R113). -/
def ladderAtPartition (old new : MeasCopy) (p : Part) (i : SecId) : Part :=
  if islandKind old new i = .kept then p
  else if p.islands[i].condition = .dead then enterLadder i .dead p
  else if islandKind old new i = .split ∧ isRunning p = true then splitStep i p
  else p

/-- The partition change, from the tie copies before and after: the notice, the islands complete, then the marks of
the entries, the share unit, the sequencer and the ladder, each through the islands in ascending id
(R36 to R38, R52, R72, R113; assumption log 27). -/
def partitionChange (old : MeasCopy) (p : Part) : Part :=
  let new := p.img.ties
  let ids := islandIds p
  let formed := ids.filter fun i => islandKind old new i != .kept
  let p1 := queueNotice (notice .island 0 0 0 (bits new.word 0 3) (idList new) (idList old)) p
  let p2 := allSecs.foldl (formIsland old new) p1
  let p3 := ids.foldl (standIsland old new) p2
  let p4 := formed.foldl (fun q i => enterMarks i q) p3
  let p5 := formed.foldl (fun q i => computeTargets i none q) p4
  let p6 := formed.foldl (fun q i => enterSequencer i (q.islands[i].condition) q) p5
  let p7 := formed.foldl (fun q i => recheckStops i q) p6
  ids.foldl (ladderAtPartition old new) p7

/-- The event of an accepted TIES write, the copy taken: a partition that differs is a partition change, and the
settling condition is judged (R36, R175). A write that brings the settling condition about makes its partition change in
SETTLING, and the part turns RUNNING after it: R80 and R175 give no order, and this is the model's choice (assumption
log 37). -/
def tiesEvent (old : MeasCopy) (p : Part) : Part :=
  let p1 := if samePartition old p.img.ties then p else partitionChange old p
  judgeSettled p1

end Sys2Proof.Machine
end

