-- ==== Sys2Proof/Machine/GenEvents.lean ====
section
/-! DEFINITION. The events of a generator: MEAS writes (R58 to R60, R69, R73), controller actions (R61 to R64), and
its timers (R65, R67, R70, R90). -/

namespace Sys2Proof.Machine

/-! ## MEAS writes (R58) -/

/-- The entry to ONLINE from IDLE, STARTING, TRIPPED or FAILED (R59). -/
def goOnline (g : GenId) (p : Part) : Part :=
  let former := genState p g
  let output := measKw p.img.genMeas[g]
  let p1 := changeState g { Gen.init with state := .online } p
  p1 |> setSharing g (openCap output p.ms p1.sharing[g])
     |> noticeGenState g .online former (kw output) 0#32
     |> afterGen g (some g)

/-- A STARTING generator reported OPEN: the engine ready is noted once (R60). -/
def noteReady (g : GenId) (p : Part) : Part :=
  if engineReady p.img.genMeas[g].word && !p.gens[g].readySeen then
    p |> setGen g { p.gens[g] with readySeen := true }
      |> noticeGenState g .starting .starting 0#32 0#32
      |> afterGen g none
  else afterGen g none p

/-- The end of a planned stop (R69). -/
def stopCompleted (g : GenId) (p : Part) : Part :=
  p |> changeState g { Gen.init with state := .idle }
    |> giveGen g .stopGen 2 0#32 0#32
    |> noticeGenState g .idle .unloading 0#32 0#32
    |> clearStandbyOf g
    |> afterGen g none

/-- A trip, in the order of R73; `last` is the output before the report (assumption log 17). -/
def trip (g : GenId) (last : Nat) (p : Part) : Part :=
  match genIsland p g with
  | none => p
  | some i =>
    let snapshot := p.islands[i].totals.load
    let former := genState p g
    p |> changeState g { Gen.init with state := .tripped }
      |> afterGen g none
      |> abortAll i .trip
      |> fastStep i snapshot
      |> setAtt .genTrip
      |> noticeGenState g .tripped former (kw last) (kw snapshot)
      |> requestStandby i .trip

/-- A present generator moved by the breaker reported (R58). -/
def moveByBreaker (g : GenId) (last : Nat) (p : Part) : Part :=
  if closedBit p.img.genMeas[g].word then
    match genState p g with
    | .idle | .starting | .tripped | .failed => goOnline g p
    | .online | .unloading => afterGen g none p
  else
    match genState p g with
    | .starting => noteReady g p
    | .online => trip g last p
    | .unloading => if p.gens[g].openIssued then stopCompleted g p else trip g last p
    | .idle | .tripped | .failed => afterGen g none p

/-- The event of an accepted generator MEAS write, the copy taken; `old` is the copy before. An absent slot's moves
nothing (R23, R58, R175). A write that brings the settling condition about moves its generator in SETTLING, and the part
turns RUNNING after it: R80 and R175 give no order, and this is the model's choice (assumption log 37). -/
def genMeasEvent (g : GenId) (old : MeasCopy) (p : Part) : Part :=
  if p.plans.active.gens[g].isSome then judgeSettled (moveByBreaker g (measKw old) p) else p

/-! ## Controller actions (R61) -/

/-- A refused STOP: the notice and attention STOP_END (R64). -/
def refuseStop (g : GenId) (reason : Nat) (margin : Int) (p : Part) : Part :=
  p |> noticeGen g .stopRefused reason 0 (BitVec.ofInt 32 margin) 0#32 |> setAtt .stopEnd

/-- The entry to UNLOADING (R66). -/
def enterUnloading (g : GenId) (p : Part) : Part :=
  let ramp := p.sharing[g].lastWritten
  let atFloor := decide (ramp ≤ unloadFloor p g)
  let p1 := changeState g { Gen.init with state := .unloading, ramp := ramp,
                                          rampTimer := if atFloor then none else some (after p.ms 100) } p
  let p2 := if atFloor then giveOpenGen g p1 else p1
  p2 |> noticeGenState g .unloading .online 0#32 0#32 |> afterGen g (some g)

/-- What the stop check leaves of the firm total above the load (R64). -/
def stopMargin (p : Part) (i : SecId) (g : GenId) : Int :=
  (p.islands[i].totals.firm : Int) - (genContribution p g : Int) - (p.islands[i].totals.load : Int)

/-- A STOP of an ONLINE generator (R64). -/
def stopCheck (g : GenId) (p : Part) : Part :=
  match genIsland p g with
  | none => p
  | some i =>
    if isRunning p then
      let margin := stopMargin p i g
      if p.islands[i].condition ≠ .sound then refuseStop g 0 margin p
      else if margin < (p.header.startMargin : Int) then refuseStop g 1 margin p
      else enterUnloading g p
    else refuseStop g 2 0 p

/-- A STOP of a STARTING generator (R63). -/
def stopStarting (g : GenId) (p : Part) : Part :=
  p |> changeState g Gen.init
    |> giveGen g .stopGen 0 0#32 0#32
    |> noticeGenState g .idle .starting 0#32 0#32
    |> clearStandbyOf g
    |> afterGen g none

/-- A CLEAR of a TRIPPED or FAILED generator (R61). -/
def clearFault (g : GenId) (p : Part) : Part :=
  let former := genState p g
  p |> changeState g Gen.init
    |> noticeGenState g .idle former 0#32 0#32
    |> clearStandbyOf g
    |> afterGen g none

/-- A controller action by the generator's state at the grant; ignored for one that has become absent (R61, R144). -/
def genAction (g : GenId) (a : Action) (p : Part) : Part :=
  if p.plans.active.gens[g].isNone then p
  else
    match a, genState p g with
    | .start, .idle => startGenerator g false .controller p
    | .start, .unloading => abortUnloading g .controller p
    | .stop, .starting => stopStarting g p
    | .stop, .online => stopCheck g p
    | .clear, .tripped | .clear, .failed => clearFault g p
    | _, _ => p

/-- The computation that a change of MODE, WEIGHT or FIXED gives (R84). -/
def shareChange (g : GenId) (changed : Bool) (p : Part) : Part :=
  if changed then
    match genIsland p g with
    | none => p
    | some i => computeTargets i none p
  else p

/-- The event of an accepted REQ write, the copy taken: the action, then a change of MODE or WEIGHT (R144). -/
def genReqEvent (g : GenId) (a : Action) (old : Word) (p : Part) : Part :=
  let new := p.img.genReq[g]
  p |> genAction g a
    |> shareChange g (reqFixed old != reqFixed new || reqWeight old != reqWeight new)

/-- The event of an accepted FIXED write, the copy taken (R145). -/
def genFixedEvent (g : GenId) (old : Word) (p : Part) : Part :=
  shareChange g (fixedSetpoint old != fixedSetpoint p.img.genFixed[g]) p

/-! ## Timers -/

/-- The start timer's expiry (R65). -/
def startTimeout (g : GenId) (p : Part) : Part :=
  let e := p.gens[g]
  if e.state = .starting ∧ timerDue e.startTimer p.ms = true then
    let p1 := p
      |> changeState g { Gen.init with state := .failed }
      |> giveGen g .stopGen 1 0#32 0#32
      |> noticeGen g .startFail (startCauseCode e.cause) (flag e.readySeen) 0#32 0#32
      |> setAtt .startFail
      |> afterGen g none
    match genIsland p g with
    | none => p1
    | some i => if e.automatic && p1.islands[i].condition != .sound then requestStandby i .fallback p1 else p1
  else p

/-- A ramp step: at or below the floor OPEN_GEN is given, else the next step is due 100 ms later (R67). -/
def rampDown (g : GenId) (p : Part) : Part :=
  let e := p.gens[g]
  if e.state = .unloading ∧ timerDue e.rampTimer p.ms = true then
    let rate := match p.plans.active.gens[g] with
      | some r => r.rampRate
      | none => 0
    let ramp := e.ramp - max 1 (rate / 10)
    let p1 :=
      if ramp ≤ unloadFloor p g then
        giveOpenGen g (setGen g { e with ramp := ramp, rampTimer := none } p)
      else setGen g { e with ramp := ramp, rampTimer := some (after p.ms 100) } p
    match genIsland p g with
    | none => p1
    | some i => computeTargets i none p1
  else p

/-- The open timer's expiry (R70). -/
def openTimeout (g : GenId) (p : Part) : Part :=
  let e := p.gens[g]
  if e.state = .unloading ∧ timerDue e.openTimer p.ms = true then
    p |> changeState g { Gen.init with state := .online }
      |> giveGen g .startGen returnCode (kw (genRating p g)) 0#32
      |> noticeGen g .unloadFailed 0 0 (kw e.ramp) 0#32
      |> setAtt .stopEnd
      |> afterGen g (some g)
  else p

/-- The raises after one more: past 65535 the manual gives none (R83; assumption log 4). -/
def nextRaises (p : Part) (r : BitVec 16) : BitVec 16 :=
  if r = 0xFFFF#16 then Config.raisesPastRange p.free else r + 1

/-- A raise of a ramp-in cap: the cap value formed afresh, the cap removed at the rating (R90). The value formed afresh
alone decides, also for a cap that an activation lowering both the rating and ramp_rate left at or above the rating: R95
says that such a cap is removed at its next raise, R90 removes it only where the fresh value reaches the rating, and this is
the model's choice (assumption log 40). -/
def raiseCap (g : GenId) (p : Part) : Part :=
  let s := p.sharing[g]
  if s.capOpen && timerDue s.raiseTimer p.ms then
    let rate := match p.plans.active.gens[g] with
      | some r => r.rampRate
      | none => 0
    let n := nextRaises p s.raises
    let cap := s.connection + rate * n.toNat / 10
    let s' :=
      if genRating p g ≤ cap then dropCap s
      else { s with raises := n, capValue := cap, raiseTimer := some (after p.ms 100) }
    let p1 := setSharing g s' { p with free := if s.raises = 0xFFFF#16 then p.free + 1 else p.free }
    match genIsland p g with
    | none => p1
    | some i => computeTargets i none p1
  else p

/-! ## Island timers of the sequencer (R77) -/

/-- The start-delay timer's expiry: it starts again, from 1 ms where START_DELAY is 0 (R50), and a standby start is
asked for (R77). -/
def startDelayExpiry (i : SecId) (p : Part) : Part :=
  match p.islands[i].startDelay with
  | .running e =>
    if due e p.ms then
      let again := DelayTimer.running (after p.ms (max 1 p.header.startDelay))
      p |> setIsland i { p.islands[i] with startDelay := again }
        |> requestStandby i .startDelay
        |> syncTimers i
    else p
  | .stopped | .suspended _ => p

end Sys2Proof.Machine
end

