-- ==== Sys2Proof/Machine/LadderEvents.lean ====
section
/-! DEFINITION. The ladder's events: consumer MEAS writes (R114 to R118, R127), deadlines (R115, R128), the overload
and release-hold timers (R109, R124), drive REQ writes (R145) and CMD writes (R142). -/

namespace Sys2Proof.Machine

/-! ## Consumer MEAS writes (R118) -/

/-- A SHEDDING consumer reported OPEN becomes SHED, its entry HELD (R114). -/
def verified (c : ConsId) (p : Part) : Part :=
  p |> changeEntry (.cons c) (fun e => { e with state := .held })
    |> setConsState c .shed
    |> updateCreditOf (consIsland p c)

/-- A SHED consumer reported CLOSED: reclosed against the shed, in the order of R117. -/
def reclose (c : ConsId) (p : Part) : Part :=
  match entryOf p (.cons c) with
  | none => p
  | some e =>
    let deadline := after p.ms (consTimeout p c)
    p |> changeEntry (.cons c) (fun e => { e with state := .opening deadline })
      |> updateCreditOf (consIsland p c)
      |> setConsState c .shedding
      |> giveCons c .openConsumer recloseCode (kw e.credit) deadline
      |> noticeTarget (.cons c) .reclosed (shedCauseCode e.cause) 0 (kw e.credit) deadline
      |> setAtt .shed

/-- The event of an accepted consumer MEAS write, the copy taken: a present consumer moves by the breaker reported
(R96, R118, R127). -/
def consMeasEvent (c : ConsId) (p : Part) : Part :=
  if p.plans.active.cons[c].isNone then p
  else
    match p.cons[c].state, closedBit p.img.consMeas[c].word with
    | .isOpen, true => setConsState c .connected p
    | .connected, false => setConsState c .isOpen p
    | .shedding, false => verified c p
    | .shed, true => reclose c p
    | .restoring, true => setConsState c .connected p
    | _, _ => p

/-! ## Deadlines -/

/-- The escalation of a STUCK verdict: not in a DEAD island, nor for an absent consumer (R106, R112). -/
def escalate (c : ConsId) (credit : Nat) (p : Part) : Part :=
  match consIsland p c with
  | none => p
  | some i =>
    if isRunning p && p.islands[i].condition != .dead then shedStep i .escalation (credit : Int) p else p

/-- A STUCK verdict, in the order of R115. -/
def stuckVerdict (c : ConsId) (e : ShedEntry) (p : Part) : Part :=
  p |> removeEntry (.cons c)
    |> updateCreditOf (consIsland p c)
    |> setConsState c .stuck
    |> setCmd c reqOpen false true
    |> noticeTarget (.cons c) .stuck (shedCauseCode e.cause) 0 (kw e.credit) 0#32
    |> setAtt .stuck
    |> escalate c e.credit

/-- The verify deadline of a consumer's OPENING entry, if it is reached (R115). -/
def verifyReached (c : ConsId) (p : Part) : Part :=
  match entryOf p (.cons c) with
  | none => p
  | some e =>
    match e.state with
    | .opening d => if due d p.ms then stuckVerdict c e p else p
    | .held => p

/-- The restore deadline of a RESTORING consumer, if it is reached (R128). -/
def restoreReached (c : ConsId) (p : Part) : Part :=
  if p.cons[c].state = .restoring ∧ timerDue p.cons[c].restoreDeadline p.ms = true then
    p |> setConsState c .isOpen
      |> noticeTarget (.cons c) .restoreFailed 0 (breakerCode (measBreaker p.img.consMeas[c])) 0#32 0#32
      |> setAtt .release
  else p

/-! ## Release (R124, R125, R129) -/

/-- The AUTO_RESTORE mark of a consumer in the active plan (R125). -/
def autoRestores (p : Part) (c : ConsId) : Bool :=
  match p.plans.active.cons[c] with
  | some r => r.autoRestore
  | none => false

/-- A consumer released, in the order of R125. -/
def releaseConsumer (c : ConsId) (e : ShedEntry) (p : Part) : Part :=
  let deadline := after p.ms (consTimeout p c)
  let p1 := removeEntry (.cons c) p
  let p2 :=
    if autoRestores p c = true then
      p1 |> setCons c ⟨.restoring, some deadline⟩
         |> setCmd c reqClose false false
         |> giveCons c .closeConsumer 0 0#32 deadline
    else p1 |> setConsState c .isOpen |> setCmd c reqOpen false false
  p2 |> noticeTarget (.cons c) .release (shedCauseCode e.cause) (flag (autoRestores p c)) (kw e.credit) e.shedTime
     |> setAtt .release

/-- A drive released, in the order of R129. -/
def releaseDrive (d : DriveId) (e : ShedEntry) (p : Part) : Part :=
  let p1 := p |> removeEntry (.drive d) |> setDrive d ⟨false, 0⟩ |> writeDriveLimit d
  p1 |> noticeTarget (.drive d) .release (shedCauseCode e.cause) 0
          (pack [(e.credit, 0, 16), (effectiveLimit p1 d, 16, 16)]) e.shedTime
     |> setAtt .release

/-- An entry released by its target. -/
def releaseEntry (e : ShedEntry) (p : Part) : Part :=
  match e.target with
  | .cons c => releaseConsumer c e p
  | .drive d => releaseDrive d e p

/-- The release-hold timer's expiry: the island's most recent entry is released, and the condition judged for the
next (R124). -/
def releaseHoldExpiry (i : SecId) (p : Part) : Part :=
  match p.islands[i].releaseHold with
  | none => p
  | some (_, t) =>
    if due t p.ms then
      let p1 := setIsland i { p.islands[i] with releaseHold := none } p
      match (entriesOf p1 i).getLast? with
      | none => syncTimers i p1
      | some e => syncTimers i (releaseEntry e p1)
    else p

/-! ## The overload timer (R109) -/

/-- The overload timer's expiry: it starts again, and a slow step is made unless the island is HELD (R50, R109). -/
def overloadExpiry (i : SecId) (p : Part) : Part :=
  if timerDue p.islands[i].overload p.ms then
    let p1 := setIsland i { p.islands[i] with overload := some (after p.ms p.header.overloadDelay) } p
    let p2 := if isRunning p && !p.islands[i].held then slowStep i p1 else p1
    syncTimers i p2
  else p

/-! ## Controller writes to the ladder's words -/

/-- The event of an accepted drive REQ write, the copy taken: a present drive's LIMIT and DRIVE_LIMIT (R97, R145). -/
def driveReqEvent (d : DriveId) (p : Part) : Part :=
  if p.plans.active.drives[d].isSome then writeDriveLimit d p else p

/-- An acknowledgement of a STUCK consumer (R130); of any other it is nothing (R131). -/
def acknowledge (c : ConsId) (p : Part) : Part :=
  if p.cons[c].state = .stuck then
    p |> setConsState c (if measBreaker p.img.consMeas[c] = .isClosed then .connected else .isOpen)
      |> setCmd c reqOpen false false
  else p

/-- Whether the ladder's copy of a CMD word agrees with its standing of the consumer (R142, step 5). -/
def cmdAgrees (c : ConsId) (p : Part) : Bool :=
  let w := p.cmd[c]
  cmdShed w == hasEntry p (.cons c) && cmdStuck w == (p.cons[c].state == .stuck) &&
    (!isGuarded p c || cmdReq w == reqOpen)

/-- Reconciliation: a copy that disagrees takes the marks of the standing, REQ OPEN if guarded, and is enqueued
(R142, step 5). -/
def reconcile (c : ConsId) (p : Part) : Part :=
  if cmdAgrees c p then p
  else
    setCmd c (if isGuarded p c then reqOpen else cmdReq p.cmd[c]) (hasEntry p (.cons c))
      (p.cons[c].state == .stuck) p

/-- The grant of an accepted CMD write, after the store, in the order of R142; `w` is the merged value. -/
def cmdEvent (c : ConsId) (w : Word) (ack masked : Bool) (p : Part) : Part :=
  let p1 := { p with sq := sqRemove (.consCmd c) p.sq,
                     cmd := setAt p.cmd c w }
  let p2 := if ack then acknowledge c p1 else p1
  let p3 := if masked then setAtt .closeMasked p2 else p2
  reconcile c p3

/-- The value a CMD write's grant will store, merged at the arrival (R140). -/
def mergeCmd (c : ConsId) (written : Word) (p : Part) : Word :=
  let copy := p.cmd[c]
  cmdWord written (if isGuarded p c then reqOpen else cmdReq written) (cmdShed copy) (cmdStuck copy)

/-- Whether a CMD write is masked: guarded, and REQ CLOSE written (R140). -/
def cmdMasked (c : ConsId) (written : Word) (p : Part) : Bool :=
  isGuarded p c && cmdReq written == reqClose

/-! ## Freshness (R31) -/

/-- The copy of a record. -/
def copyOf (p : Part) : RecordId → MeasCopy
  | .gen g => p.img.genMeas[g]
  | .cons c => p.img.consMeas[c]
  | .drive d => p.img.driveMeas[d]
  | .ties => p.img.ties

/-- The copy of a record replaced. -/
def setCopy (r : RecordId) (m : MeasCopy) (p : Part) : Part :=
  match r with
  | .gen g => { p with img := { p.img with genMeas := setAt p.img.genMeas g m } }
  | .cons c => { p with img := { p.img with consMeas := setAt p.img.consMeas c m } }
  | .drive d => { p with img := { p.img with driveMeas := setAt p.img.driveMeas d m } }
  | .ties => { p with img := { p.img with ties := m } }

/-- The freshness duration in ms: STALE_TIME of the active plan, 2550 in NO_PLAN (R31). -/
def staleTime (p : Part) : Nat :=
  match p.plans.partState with
  | .noPlan => 2550
  | _ => 10 * p.header.staleTime

/-- The copy taken at the grant of an accepted MEASURE write, its freshness timer started from its full duration
(R22, R31). -/
def takeCopy (r : RecordId) (w : Word) (p : Part) : Part :=
  setCopy r ⟨w, true, some (after p.ms (staleTime p))⟩ p

/-- The subject and record kind of a STALE notice (R160, 12.4). -/
def staleSubject : RecordId → Nat × Nat
  | .gen g => (g.val, 0)
  | .cons c => (c.val, 1)
  | .drive d => (d.val, 2)
  | .ties => (0, 3)

/-- The island of a record. -/
def recordIsland (p : Part) : RecordId → Option SecId
  | .gen g => genIsland p g
  | .cons c => consIsland p c
  | .drive d => driveIsland p d
  | .ties => none

/-- The expiry of a record's freshness timer, if it is reached: STALE, shown and noticed, and a generator's island
is judged again for HELD (R31, R49). -/
def freshnessExpiry (r : RecordId) (p : Part) : Part :=
  if timerDue (copyOf p r).timer p.ms then
    let p1 := p
      |> setCopy r { copyOf p r with timer := none }
      |> setAtt .stale
      |> queueNotice (notice .stale (staleSubject r).1 (staleSubject r).2 (islandField (recordIsland p r)) 0
          0#32 0#32)
    match r with
    | .gen g => updateOf (genIsland p g) p1
    | .cons _ | .drive _ | .ties => p1
  else p

end Sys2Proof.Machine
end

