-- ==== Sys2Proof/Machine/PlanEvents.lean ====
section
/-! DEFINITION. The plan unit's events: the key (R172), activation (R173, R174), the loader's walk, its failures and
the validation (R168 to R171). -/

namespace Sys2Proof.Machine

/-! ## Plan notices -/

/-- A notice of the plan unit with attention PLAN (R170, R171, R173, R174). -/
def noticePlan (kind : NoticeKind) (cause : Nat) (a b : Word) (p : Part) : Part :=
  p |> queueNotice (notice kind 0 cause 0 0 a b) |> setAtt .plan

/-- The loader state replaced. -/
def setLoader (l : LoaderState) (p : Part) : Part := { p with plans := { p.plans with loader := l } }

/-- The key state replaced. -/
def setKey (k : KeyState) (p : Part) : Part := { p with plans := { p.plans with key := k } }

/-- A failed load: FAILED with its reason, PLAN_FAILED, attention PLAN (R170). -/
def failLoad (r : LoadFailure) (a b : Nat) (p : Part) : Part :=
  p |> setLoader (.failed r) |> noticePlan .planFailed (loadFailureCode r) (kw a) (kw b)

/-! ## Descriptors and entries (12.5) -/

/-- The sampled window base as a byte address (R5). -/
def windowBase (p : Part) : Nat := p.base.toNat * 0x10000

/-- An address of 24 bits (assumption log 24). -/
def addr24 (a : Nat) : Nat := a % 2 ^ 24

/-- Whether the loader may read at an address: in the window, not in the live range, word-aligned (R170). -/
def loaderAddrOk (p : Part) (a : Nat) : Bool :=
  decide (windowBase p + 0x200 ≤ a) && decide (a < windowBase p + 0x10000) && decide (a % 4 = 0)

/-- The entry size in words of a descriptor kind (R169). -/
def entrySize : DescKind → Nat
  | .header => 8
  | .generators => 4
  | .consumers => 2
  | .drives => 2

/-- The table size of a descriptor kind (R170). -/
def tableSize : DescKind → Nat
  | .header => 1
  | .generators => 8
  | .consumers => 64
  | .drives => 4

/-- The kind code of a descriptor (R169); none for a kind that is FORMAT (R170). -/
def descKind (n : Nat) : Option DescKind :=
  match n with
  | 1 => some .header
  | 2 => some .generators
  | 3 => some .consumers
  | 4 => some .drives
  | _ => none

/-- The descriptor of its three words, its FORMAT checks made (R169, R170, 12.5). -/
def readDescriptor (w0 w1 w2 : Word) : Option Descriptor :=
  match descKind (bits w0 0 8) with
  | none => none
  | some k =>
    let d : Descriptor := { kind := k, first := bits w0 8 8, count := bits w0 16 8, source := bits w1 0 24,
                            next := bits w2 0 24, isEnd := bit w0 31 }
    if d.count = 0 ∨ tableSize k < d.first + d.count then none
    else if k = .header ∧ (d.first ≠ 0 ∨ d.count ≠ 1) then none
    else some d

/-- The number of words of a descriptor's run (R169). -/
def runLength (d : Descriptor) : Nat := d.count * entrySize d.kind

/-- The first word address of a run that the loader may not read, among `k` words from the `n`th on (R170). -/
def badRunAddr (p : Part) (d : Descriptor) : Nat → Nat → Option Nat
  | _, 0 => none
  | n, k + 1 =>
    let a := addr24 (d.source + 4 * n)
    if loaderAddrOk p a then badRunAddr p d (n + 1) k else some a

/-- The word at a place of an entry as read; 0 past its end. -/
def nth (ws : List Word) (n : Nat) : Word := ws.getD n 0#32

/-- A header of its eight words (12.5). -/
def readHeader (ws : List Word) : Header :=
  { tag := bits (nth ws 0) 0 16
    startMargin := bits (nth ws 1) 0 16, shedMargin := bits (nth ws 1) 16 16
    releaseMargin := bits (nth ws 2) 0 16, startDelay := bits (nth ws 2) 16 16
    overloadDelay := bits (nth ws 3) 0 16, releaseHold := bits (nth ws 3) 16 8
    shareDeadband := bits (nth ws 3) 24 8
    staleTime := bits (nth ws 4) 0 8, startTimeout := bits (nth ws 4) 8 8
    genOpenTimeout := bits (nth ws 4) 16 8, unloadFloorPct := bits (nth ws 4) 24 8 }

/-- The section field of an entry, bits 2:1 of w0 (12.5). -/
def entrySec (ws : List Word) : SecId := Fin.ofNat 4 (bits (nth ws 0) 1 2)

/-- A generator entry of its four words (12.5). -/
def readGenEntry (ws : List Word) : Option GenPlan :=
  if bit (nth ws 0) 0 then
    some { sec := entrySec ws, rating := bits (nth ws 1) 0 16, limitPct := bits (nth ws 0) 16 8,
           rank := bits (nth ws 0) 8 4, rampRate := bits (nth ws 2) 0 16 }
  else none

/-- A consumer entry of its two words (12.5). -/
def readConsEntry (ws : List Word) : Option ConsPlan :=
  if bit (nth ws 0) 0 then
    some { sec := entrySec ws, cls := bits (nth ws 0) 4 4, order := bits (nth ws 0) 8 8,
           nominal := bits (nth ws 1) 0 16, autoRestore := bit (nth ws 0) 16,
           timeoutSel := bits (nth ws 0) 17 2 }
  else none

/-- A drive entry of its two words (12.5). -/
def readDriveEntry (ws : List Word) : Option DrivePlan :=
  if bit (nth ws 0) 0 then
    some { sec := entrySec ws, cls := bits (nth ws 0) 4 4, order := bits (nth ws 0) 8 8,
           floor := bits (nth ws 1) 0 16 }
  else none

/-- An entry placed into a plan as the entry of its slot (R169). -/
def placeEntry (k : DescKind) (slot : Nat) (ws : List Word) (pl : Plan) : Plan :=
  match k with
  | .header => { pl with header := some (readHeader ws) }
  | .generators => { pl with gens := setAt pl.gens (Fin.ofNat 8 slot) (readGenEntry ws) }
  | .consumers => { pl with cons := setAt pl.cons (Fin.ofNat 64 slot) (readConsEntry ws) }
  | .drives => { pl with drives := setAt pl.drives (Fin.ofNat 4 slot) (readDriveEntry ws) }

/-! ## Validation (R171) -/

/-- The first field number whose check fails, of a list of (field number, valid) in order (assumption log 25). -/
def firstBad (fs : List (Nat × Bool)) : Option Nat := (fs.find? fun f => !f.2).map Prod.fst

/-- The first field of a loaded header outside its range (R167, R171, 12.4). -/
def badHeaderField (h : Header) : Option Nat :=
  firstBad [(6, decide (100 ≤ h.overloadDelay)), (7, decide (1 ≤ h.releaseHold)),
            (9, decide (5 ≤ h.staleTime)), (10, decide (10 ≤ h.startTimeout)),
            (11, decide (1 ≤ h.genOpenTimeout)),
            (12, decide (1 ≤ h.unloadFloorPct) && decide (h.unloadFloorPct ≤ 20))]

/-- Whether a lower-indexed present generator has the same nonzero rank (R171). -/
def rankTaken (pl : Plan) (g : GenId) (rank : Nat) : Bool :=
  allGens.any fun h => decide (h < g) && decide (rank ≠ 0) &&
    (match pl.gens[h] with
     | some e => e.rank == rank
     | none => false)

/-- The first field of a present generator that fails (R171). -/
def badGenField (pl : Plan) (g : GenId) : Option Nat :=
  match pl.gens[g] with
  | none => none
  | some e =>
    firstBad [(2, decide (1 ≤ e.rating)), (3, decide (50 ≤ e.limitPct) && decide (e.limitPct ≤ 110)),
              (4, decide (e.rank ≤ 8) && !rankTaken pl g e.rank), (5, decide (1 ≤ e.rampRate))]

/-- The first field of a present drive that fails: class 0 (R171). -/
def badDriveField (pl : Plan) (d : DriveId) : Option Nat :=
  match pl.drives[d] with
  | none => none
  | some e => firstBad [(2, decide (1 ≤ e.cls))]

/-- The first failing item of a plan, as value A and value B of its notice: kind and index, and field (R170, R171,
12.4). No consumer fails. -/
def validatePlan (pl : Plan) : Option (Nat × Nat) :=
  match pl.header with
  | none => some (0x100, 0)
  | some h =>
    match badHeaderField h with
    | some f => some (0x100, f)
    | none =>
      match allGens.findSome? fun g => (badGenField pl g).map fun f => (0x200 + g.val, f) with
      | some r => some r
      | none => allDrives.findSome? fun d => (badDriveField pl d).map fun f => (0x400 + d.val, f)

/-! ## The walk (R168 to R170) -/

/-- The address of the next word the loader would read (R169, R177). -/
def walkAddr (w : Walk) : Nat :=
  match w.phase with
  | .descriptor => addr24 (w.desc + 4 * w.got.length)
  | .run d n => addr24 (d.source + 4 * n)

/-- The walk goes on to a descriptor, after the ADDRESS check made before it is read (R170). -/
def enterDescriptor (w : Walk) (p : Part) : Part :=
  if loaderAddrOk p w.desc then setLoader (.loading w) p else failLoad .address w.desc w.walked p

/-- A load starts: the staging plan empty, LOADING, the walk at the first descriptor (R168). -/
def startLoad (word : Word) (p : Part) : Part :=
  enterDescriptor { gap := bits word 24 4, desc := bits word 0 24, walked := 1, got := [],
                    phase := .descriptor, gapLeft := 0 }
    { p with plans := { p.plans with staging := Plan.empty } }

/-- The end of the walk: the staging plan is validated; it is COMPLETE with PLAN_DONE, or the load fails (R171). -/
def finishLoad (w : Walk) (p : Part) : Part :=
  match validatePlan p.plans.staging with
  | some (a, b) => failLoad .invalid a b p
  | none => p |> setLoader .complete |> noticePlan .planDone 0 (kw (stagingTag p.plans)) (kw w.walked)

/-- The run of a descriptor has been read: the END, or the next descriptor unless it would be the 65th (R169, R170). -/
def finishRun (w : Walk) (d : Descriptor) (p : Part) : Part :=
  if d.isEnd then finishLoad w p
  else if 64 ≤ w.walked then failLoad .chainLong d.next (w.walked + 1) p
  else
    enterDescriptor { w with desc := d.next, walked := w.walked + 1, got := [], phase := .descriptor,
                             gapLeft := w.gap } p

/-- A descriptor's three words have been read: FORMAT, then ADDRESS for its run (R170). -/
def finishDescriptor (w : Walk) (ws : List Word) (p : Part) : Part :=
  match readDescriptor (nth ws 0) (nth ws 1) (nth ws 2) with
  | none => failLoad .format w.desc w.walked p
  | some d =>
    match badRunAddr p d 0 (runLength d) with
    | some a => failLoad .address a w.walked p
    | none => setLoader (.loading { w with got := [], phase := .run d 0, gapLeft := w.gap }) p

/-- A word of a run has been read: a completed entry is placed, a burst of eight ends in the gap (R169). -/
def takeRunWord (w : Walk) (d : Descriptor) (n : Nat) (word : Word) (p : Part) : Part :=
  let got := w.got ++ [word]
  let size := entrySize d.kind
  let full := decide (got.length = size)
  let p1 :=
    if full then
      { p with plans := { p.plans with
          staging := placeEntry d.kind (d.first + n / size) got p.plans.staging } }
    else p
  let w1 := { w with got := if full then [] else got }
  if n + 1 = runLength d then finishRun w1 d p1
  else
    setLoader (.loading { w1 with phase := .run d (n + 1),
                                  gapLeft := if (n + 1) % 8 = 0 then w.gap else 0 }) p1

/-- A word read by the loader, with whether it passed its check (R169, R170). -/
def loaderWord (w : Walk) (word : Word) (good : Bool) (p : Part) : Part :=
  if good then
    match w.phase with
    | .descriptor =>
      let got := w.got ++ [word]
      if got.length < 3 then setLoader (.loading { w with got := got }) p else finishDescriptor w got p
    | .run d n => takeRunWord w d n word p
  else failLoad .parity (walkAddr w) w.walked p

/-- A number of TBCLK periods of the gap pass; after its last the loader's request stands again (R6). -/
def gapTick (n : Nat) (p : Part) : Part :=
  match p.plans.loader with
  | .loading w => setLoader (.loading { w with gapLeft := w.gapLeft - n }) p
  | .idle | .complete | .activated | .failed _ => p

/-! ## The key (R172) -/

/-- The key after a KEY write, by the word written and the staging tag (R172). -/
def keyAfter (u : PlanUnit) (w : Word) : KeyState :=
  match u.loader with
  | .loading _ => .locked
  | .idle | .complete | .activated | .failed _ =>
    match u.key with
    | .locked => if w.toNat = stagingTag u then .half else .locked
    | .half => if w.toNat + stagingTag u = 65535 then .unlocked else .locked
    | .unlocked => .locked

/-! ## Activation (R173, R174) -/

/-- The number of OPENING entries (R173). -/
def openingCount (p : Part) : Nat := (p.shedList.filter isOpening).length

/-- Whether a generator stands in the way of activation (R173). -/
def genConflict (p : Part) (g : GenId) : Bool :=
  (genState p g == .starting || carries (genState p g)) &&
    (match p.plans.staging.gens[g], p.plans.active.gens[g] with
     | some new, some old => new.sec != old.sec
     | some _, none => true
     | none, _ => true)

/-- Why an activation is refused: the code and value B, by the first check that fails (R173, 12.1). -/
def activationRefusal (p : Part) : Option (Nat × Nat) :=
  if p.plans.key ≠ .unlocked then some (1, 0)
  else if p.plans.loader ≠ .complete then some (2, 0)
  else if openingCount p ≠ 0 then some (3, openingCount p)
  else
    match allGens.find? (genConflict p) with
    | some g => some (4, g.val)
    | none => none

/-- A cut drive below its new floor is raised to it, its entry's credit lowered by the rise, and it and each drive
made present have their limit written (R97, R121). -/
def activateDrive (old : Plan) (p : Part) (d : DriveId) : Part :=
  match p.plans.active.drives[d] with
  | none => p
  | some e =>
    let cut := p.drives[d].cutLimit
    if p.drives[d].cut && decide (cut < e.floor) then
      p |> changeEntry (.drive d) (fun s => { s with credit := s.credit - (e.floor - cut) })
        |> setDrive d ⟨true, e.floor⟩
        |> writeDriveLimit d
    else if old.drives[d].isNone then writeDriveLimit d p
    else p

/-- The part state and settling timer at an activation: the first enters SETTLING for 2000 ms (R174, R175). -/
def activatePartState (p : Part) : Part :=
  if p.plans.partState = .noPlan then
    { p with plans := { p.plans with partState := .settling, settlingTimer := some (after p.ms 2000) } }
  else p

/-- An activation that passed its checks: the plan, the notice, the part state, then the blocks: the marks and the
drives, every island's totals, its targets, and the entries, islands in ascending id; then the settling condition
(R174; assumption log 26). The drives are taken in ascending index: R121 gives no order among them, and this is the
model's choice (assumption log 26). -/
def activatePlan (p : Part) : Part :=
  let old := p.plans.active
  let oldTag := activeTag p.plans
  let p1 := { p with plans := { p.plans with active := p.plans.staging, loader := .activated } }
  let p2 := p1
    |> noticePlan .activated 0 (kw (stagingTag p.plans)) (kw oldTag)
    |> activatePartState
  let ids := islandIds p2
  let p3 := ids.foldl (fun q i => setIsland i { q.islands[i] with standbyExhausted := false } q) p2
  let p4 := allDrives.foldl (activateDrive old) p3
  let p5 := ids.foldl (fun q i => retotal i q) p4
  let p6 := ids.foldl (fun q i => computeTargets i none q) p5
  let p7 := ids.foldl (fun q i => if entered i p4 p5 then enterCondition i q else q) p6
  judgeSettled p7

/-- An ACTIVATE write at its grant: refused or made, and the key LOCKED in every outcome (R172, R173). -/
def requestActivation (p : Part) : Part :=
  match activationRefusal p with
  | some (reason, b) =>
    p |> setKey .locked |> noticePlan .activateRefused reason (kw (stagingTag p.plans)) (kw b)
  | none => p |> activatePlan |> setKey .locked

/-! ## Control-word writes at their grant (R25, R168, R172, R181, R185) -/

def planLoadEvent (w : Word) (p : Part) : Part :=
  { p with img := { p.img with planLoad := w } } |> setKey .locked |> startLoad w

def keyEvent (w : Word) (p : Part) : Part :=
  { p with img := { p.img with key := w } } |> setKey (keyAfter p.plans w)

def activateEvent (w : Word) (p : Part) : Part :=
  requestActivation { p with img := { p.img with activate := w } }

/-- The mask copy takes bits 15:0, the decoder copy the whole word (R181, R185). -/
def attMaskEvent (w : Word) (p : Part) : Part :=
  { p with img := { p.img with attMask := w }, att := { p.att with mask := BitVec.ofNat 16 (bits w 0 16) } }
    |> setKey .locked

/-! ## Resets and the settling timer -/

/-- A controller reset behind the ports: the key LOCKED, every bit masked, the snapshot empty, a load in progress
FAILED with INTERRUPTED (R177, R179, R181). -/
def controllerResetPart (p : Part) : Part :=
  let p1 := { (setKey .locked p) with att := { p.att with snapshot := none, mask := 0xFFFF#16 } }
  match p1.plans.loader with
  | .loading w => failLoad .interrupted (walkAddr w) w.walked p1
  | .idle | .complete | .activated | .failed _ => p1

/-- The settling timer's expiry (R175). -/
def settlingExpiry (p : Part) : Part :=
  if p.plans.partState = .settling ∧ timerDue p.plans.settlingTimer p.ms = true then toRunning p else p

end Sys2Proof.Machine
end

