-- ==== Sys2Proof/Machine/LiveWords.lean ====
section
/-! DEFINITION. The live words: who may read and write them, the words they answer, and what their reads and writes
do (R17, R27 to R30, R54, R55, R154 to R156, R179 to R182, R185). -/

namespace Sys2Proof.Machine

/-! ## Who may read and write (R17, R20) -/

/-- Whether a live word answers a port's read (R17, R20). -/
def answers (l : LiveWord) (port : Port) : Bool :=
  match l with
  | .attention | .cause | .take .notice => port == .cp
  | .take .command => port == .fp
  | .partStatus | .time | .counts | .give _ | .refusedDetail | .island _ _ | .shedView _ | .genStatus _
  | .consStatus _ | .driveStatus _ | .hole => true

/-- The port whose writes a live word takes, if it takes any (R17). -/
def liveWriter (l : LiveWord) : Option Port :=
  match l with
  | .attention | .give .notice => some .cp
  | .give .command => some .fp
  | .partStatus | .time | .cause | .counts | .take _ | .refusedDetail | .island _ _ | .shedView _
  | .genStatus _ | .consStatus _ | .driveStatus _ | .hole => none

/-- The answer of a read from the wrong port, of TAKE on an empty ring, and of SHED_VIEW past the end (R184). -/
def allOnes : Word := 0xFFFFFFFF#32

/-! ## STATUS words (R28, 12.2) -/

def genStatusWord (p : Part) (g : GenId) : Word :=
  let e := p.gens[g]
  let m := p.img.genMeas[g]
  pack [(flag p.plans.active.gens[g].isSome, 0, 1), (genStateCode e.state, 1, 3),
        (freshnessCode (freshness m), 4, 2), (breakerCode (measBreaker m), 6, 2),
        ((islandField (genIsland p g)).val, 8, 2), (flag (e.state == .starting && e.automatic), 10, 1)]

def consStatusWord (p : Part) (c : ConsId) : Word :=
  let m := p.img.consMeas[c]
  pack [(flag p.plans.active.cons[c].isSome, 0, 1), (consStateCode p.cons[c].state, 1, 3),
        (flag (isGuarded p c), 4, 1), (freshnessCode (freshness m), 5, 2),
        (breakerCode (measBreaker m), 7, 2), ((islandField (consIsland p c)).val, 9, 2)]

def driveStatusWord (p : Part) (d : DriveId) : Word :=
  let m := p.img.driveMeas[d]
  pack [(flag p.plans.active.drives[d].isSome, 0, 1), (flag p.drives[d].cut, 1, 1),
        (flag (driveRunning m), 2, 1), (freshnessCode (freshness m), 3, 2),
        ((islandField (driveIsland p d)).val, 5, 2), (effectiveLimit p d, 16, 16)]

/-! ## PART_STATUS and COUNTS (R29, R30, R185) -/

/-- The view in force: bits 17:16 of the decoder's copy of ATT_MASK (R185). -/
def viewInForce (p : Part) : Nat := bits p.img.attMask 16 2

/-- The view's value (R185). -/
def viewValue (p : Part) : Nat :=
  match viewInForce p with
  | 0 => activeTag p.plans
  | 1 => stagingTag p.plans
  | _ => p.base.toNat

/-- The load failure reason, 0 unless FAILED (12.3). -/
def failureField (l : LoaderState) : Nat :=
  match l with
  | .failed r => loadFailureCode r
  | .idle | .loading _ | .complete | .activated => 0

def partStatusWord (p : Part) : Word :=
  pack [(partStateCode p.plans.partState, 0, 2), (loaderCode p.plans.loader, 2, 3),
        (failureField p.plans.loader, 5, 3), (keyCode p.plans.key, 8, 2),
        (freshnessCode (freshness p.img.ties), 10, 2), (viewInForce p, 14, 2), (viewValue p, 16, 16)]

def countsWord (p : Part) : Word :=
  pack [(p.sq.length, 0, 7), (p.shedList.length, 7, 7), (p.lu.pendingCmds.length, 14, 7),
        (p.lu.notices.length, 21, 6)]

/-! ## GIVE and TAKE words (R155, R156, R186) -/

def giveWord (p : Part) (ch : Chan) : Word :=
  let c := getChan p.lu ch
  pack [(c.spare.count, 0, 7), (c.ready.count, 7, 7), (flag c.post.isSome, 14, 1), (c.seq.toNat, 16, 16)]

/-- What a TAKE read answers (R156). -/
def takeWord (p : Part) (ch : Chan) : Word :=
  let r := (getChan p.lu ch).ready
  if r.count = 0 then allOnes else BitVec.ofNat 32 (frameAddr p.base ch (ringFront r))

/-- A TAKE read removes the head of a ready ring that is not empty, and its frame is OUT (R156). -/
def takeFrame (ch : Chan) (p : Part) : Part :=
  let c := getChan p.lu ch
  if c.ready.count = 0 then p
  else
    let c' := { c with frames := setAt c.frames (ringFront c.ready) .out, ready := ringRemove c.ready }
    { p with lu := setChan p.lu ch c' }

/-- The (channel, slot) item joins the spare-mirror queue unless the slot has one (R153). -/
def mirrorPut (q : List (Chan × FrameId)) (item : Chan × FrameId) : List (Chan × FrameId) :=
  if item ∈ q then q else q ++ [item]

/-- An accepted GIVE: the frame is SPARE, at the tail of the spare ring, its mirror slot queued; a post starts if it
can (R154). -/
def giveFrame (ch : Chan) (f : FrameId) (p : Part) : Part :=
  let c := getChan p.lu ch
  let lu := setChan p.lu ch { c with frames := setAt c.frames f .spare, spare := ringAppend c.spare f }
  tryPost ch { p with lu := { lu with spareMirror := mirrorPut lu.spareMirror (ch, ringTail c.spare) } }

/-- GIVE's own checks (R154). -/
def giveCheck (ch : Chan) (v : Word) (p : Part) : Option Reason :=
  match frameOf p.base ch v with
  | none => some .badFrame
  | some f => if (getChan p.lu ch).frames[f] = .out then none else some .notOut

/-! ## ISLAND and SHED_VIEW (R54, R55, 12.3) -/

/-- How many generators of an island are in a state. -/
def countState (p : Part) (i : SecId) (st : GenState) : Nat :=
  ((gensOf p i).filter fun g => genState p g == st).length

/-- The member sections of an island, bit n for Sn. -/
def memberBits (p : Part) (i : SecId) : Nat :=
  ((membersOf p.img.ties i).map fun s => 2 ^ s.val).sum

/-- The standing of a timer: STOPPED or RUNNING (12.1). -/
def timerStanding (t : Option Word) : Nat := flag t.isSome

def delayStanding (t : DelayTimer) : Nat :=
  match t with
  | .stopped => 0
  | .running _ => 1
  | .suspended _ => 2

/-- The ms to a timer's expiry; a stopped timer shows 0 (R54). -/
def timerMs (t : Option Word) (now : Word) : Nat :=
  match t with
  | some e => msLeft e now
  | none => 0

/-- The ms to the start-delay timer's expiry; a suspended one shows the time it kept (R54). -/
def delayMs (t : DelayTimer) (now : Word) : Nat :=
  match t with
  | .stopped => 0
  | .running e => msLeft e now
  | .suspended k => k

/-- The release-hold timer's time to expiry, in units of 100 ms rounded up (R54). -/
def holdUnits (r : Island) (now : Word) : Nat := (timerMs (r.releaseHold.map Prod.snd) now + 99) / 100

/-- The eight words of the entry of an island (R54). -/
def islandWord (p : Part) (i : SecId) (w : Fin 8) : Word :=
  let r := p.islands[i]
  match w with
  | 0 => pack [(1, 0, 1), (i.val, 1, 2), (memberBits p i, 3, 4), (conditionCode r.condition, 7, 2),
               (flag r.held, 9, 1), (flag r.exhausted, 10, 1), (countState p i .starting, 11, 4),
               (countState p i .online, 15, 4), (countState p i .unloading, 19, 4),
               (timerStanding r.overload, 23, 2), (delayStanding r.startDelay, 25, 2),
               (flag r.releaseHold.isSome, 27, 2)]
  | 1 => pack [(r.totals.firm, 0, 20)]
  | 2 => pack [(r.totals.limit, 0, 20)]
  | 3 => pack [(r.totals.load, 0, 20)]
  | 4 => BitVec.ofInt 32 (reserve r.totals)
  | 5 => pack [(r.totals.openingCredit, 0, 20)]
  | 6 => pack [(timerMs r.overload p.ms, 0, 16), (delayMs r.startDelay p.ms, 16, 16)]
  | 7 => pack [(if r.exhausted then r.need.toNat else 0, 0, 20), (holdUnits r p.ms, 20, 12)]

/-- A word of an entry whose section is no island's id: the holding id in w0, else 0 (R55). -/
def heldSectionWord (p : Part) (i : SecId) (w : Fin 8) : Word :=
  if w = 0 then pack [((islandId p.img.ties i).val, 1, 2)] else 0#32

/-- SHED_VIEW[k]: the entry's target, cause, state and credit (12.3); all ones past the end (R27). -/
def shedViewWord (p : Part) (k : Nat) : Word :=
  match p.shedList[k]? with
  | none => allOnes
  | some e => pack [(targetIndex e.target, 0, 7), (shedCauseCode e.cause, 7, 3), (flag (isOpening e), 10, 1),
                    (e.credit, 11, 16)]

/-- The REFUSED_DETAIL word (R21, 12.3). -/
def refusedWord (d : RefusedDetail) : Word :=
  pack [(d.offset.toNat, 0, 16), (portCode d.port, 16, 1), (reasonCode d.reason, 17, 4),
        (flag d.overwritten, 21, 1)]

/-! ## Reads (R27) -/

/-- The data of a live read, the state of the word's block at that moment (R27). -/
def liveData (l : LiveWord) (p : Part) : Word :=
  match l with
  | .partStatus => partStatusWord p
  | .time => p.ms
  | .attention => p.att.word.setWidth 32
  | .cause => pack [(causeValue p.att, 0, 5)]
  | .counts => countsWord p
  | .give ch => giveWord p ch
  | .take ch => takeWord p ch
  | .refusedDetail => refusedWord p.img.refused
  | .island i w => if isIslandId p.img.ties i then islandWord p i w else heldSectionWord p i w
  | .shedView k => shedViewWord p k
  | .genStatus g => genStatusWord p g
  | .consStatus c => consStatusWord p c
  | .driveStatus d => driveStatusWord p d
  | .hole => 0#32

/-- A CP read of ATTENTION stores the snapshot (R179). -/
def snapshotAttention (p : Part) : Part :=
  { p with att := { p.att with snapshot := some p.att.word } }

/-- A CP read of REFUSED_DETAIL clears OVERWRITTEN, and the reason held has been read (R21). -/
def readRefused (p : Part) : Part :=
  { p with img := { p.img with refused := { p.img.refused with overwritten := false, unread := false } } }

/-- What a live read from a port that the word answers does (R27). -/
def liveReadEffect (port : Port) (l : LiveWord) (p : Part) : Part :=
  match l with
  | .attention => snapshotAttention p
  | .take ch => takeFrame ch p
  | .refusedDetail => if port = .cp then readRefused p else p
  | .partStatus | .time | .cause | .counts | .give _ | .island _ _ | .shedView _ | .genStatus _
  | .consStatus _ | .driveStatus _ | .hole => p

/-! ## Writes (R19, R27) -/

/-- The judgement of a live write: why it is refused, or none (R19). -/
def liveVerdict (port : Port) (l : LiveWord) (strobes : BitVec 4) (data : Word) (p : Part) : Option Reason :=
  match liveWriter l with
  | none => some .class_
  | some w =>
    if port ≠ w then some .wrongPort
    else if strobes ≠ allStrobes then some .partial_
    else
      match l with
      | .give ch => giveCheck ch data p
      | _ => none

/-- A clearing write of ATTENTION: the bits written and in the snapshot clear, and the snapshot empties (R180). -/
def clearAttention (data : Word) (p : Part) : Part :=
  { p with att := { p.att with
      word := p.att.word &&& ~~~(data.setWidth 16 &&& p.att.snapshot.getD 0#16), snapshot := none } }

/-- What an accepted live write does (R27). -/
def liveWriteEffect (l : LiveWord) (data : Word) (p : Part) : Part :=
  match l with
  | .attention => clearAttention data p
  | .give ch =>
    match frameOf p.base ch data with
    | some f => giveFrame ch f p
    | none => p
  | _ => p

end Sys2Proof.Machine
end

