-- ==== Sys2Proof/Machine/Ports.lean ====
section
/-! DEFINITION. The two master ports and the arbiter: the image decoder's judgement of an access at its arrival
(R1, R2, R18 to R27), the arbiter's choice (R6), and the grant of a master access (R7, R8, R11, R22, R142). -/

namespace Sys2Proof.Machine

/-! ## The judgement of a write (R18, R19) -/

/-- The port that may write a stored class, with the full-word rule and the word's own check (R18, R19). -/
def classVerdict (owner port : Port) (strobes : BitVec 4) (own : Option Reason) : Option Reason :=
  if port ≠ owner then some .class_
  else if strobes ≠ allStrobes then some .partial_
  else own

/-- The own checks of a generator REQ write: INVALID_VALUE, then ABSENT (R144). -/
def reqCheck (g : GenId) (data : Word) (p : Part) : Option Reason :=
  if !reqFixed data && reqWeight data == 0 then some .invalidValue
  else if reqAction data != .none && p.plans.active.gens[g].isNone then some .absent
  else none

/-- The own check of a CMD write (R141). -/
def cmdCheck (data : Word) : Option Reason := if cmdReq data = 3 then some .invalidValue else none

/-- Whether the loader is LOADING (R168). -/
def isLoading (p : Part) : Bool :=
  match p.plans.loader with
  | .loading _ => true
  | .idle | .complete | .activated | .failed _ => false

/-- The own check of a PLAN_LOAD write (R168). -/
def loadCheck (p : Part) : Option Reason := if isLoading p then some .busy else none

/-- The judgement of a window write by its word: why it is refused, or none (R18, R19). -/
def writeVerdict (port : Port) (w : WinWord) (strobes : BitVec 4) (data : Word) (p : Part) : Option Reason :=
  match w with
  | .live l => liveVerdict port l strobes data p
  | .genMeas _ | .consMeas _ | .driveMeas _ | .ties => classVerdict .fp port strobes none
  | .genReq g => classVerdict .cp port strobes (reqCheck g data p)
  | .genFixed _ | .driveReq _ | .key | .activate | .attMask => classVerdict .cp port strobes none
  | .consCmd _ => classVerdict .cp port strobes (cmdCheck data)
  | .planLoad => classVerdict .cp port strobes (loadCheck p)
  | .genTarget _ | .driveLimit _ | .mirror => some .class_
  | .frame | .free => none

/-- The 32-bit value that an accepted write's grant stores: the self-clearing ACTION as 0 (R24), a CMD word merged at
the arrival (R140), any other word as written. -/
def storedWord (w : WinWord) (data : Word) (p : Part) : Word :=
  match w with
  | .genReq _ => data &&& ~~~3#32
  | .consCmd c => mergeCmd c data p
  | _ => data

/-- What an accepted write to a stored word hands to its owner at the grant (R22). -/
def jobOf (w : WinWord) (data : Word) (p : Part) : Job :=
  match w with
  | .genMeas g => .genMeas g
  | .consMeas c => .consMeas c
  | .driveMeas d => .driveMeas d
  | .ties => .ties
  | .genReq g => .genReq g (reqAction data)
  | .genFixed g => .genFixed g
  | .consCmd c => .consCmd c (cmdAck data) (cmdMasked c data p)
  | .driveReq d => .driveReq d
  | .planLoad => .planLoad
  | .key => .key
  | .activate => .activate
  | .attMask => .attMask
  | .live _ | .genTarget _ | .driveLimit _ | .mirror | .frame | .free => .plain

/-! ## The ports (R1, R2) -/

/-- The phase of a port. -/
def phaseOf (port : Port) (b : Bus) : PortPhase :=
  match port with
  | .cp => b.cp
  | .fp => b.fp

/-- The phase of a port replaced. -/
def setPhase (port : Port) (ph : PortPhase) (b : Bus) : Bus :=
  match port with
  | .cp => { b with cp := ph }
  | .fp => { b with fp := ph }

/-- Whether an access waits for its grant. -/
def isWaiting (ph : PortPhase) : Bool :=
  match ph with
  | .waiting _ => true
  | .idle | .done _ _ => false

/-- Whether a port can take an access: none in progress, and for CP no controller reset (R1, R2, R14). -/
def portReady (port : Port) (b : Bus) : Bool :=
  !isWaiting (phaseOf port b) && !(port == .cp && b.ctlHeld)

/-- The open pair ends if a CP write to its word has completed (R7). -/
def endPairAt (port : Port) (a : WordAddr) (b : Bus) : Bus :=
  match b.pair with
  | some pr => if port = .cp ∧ pr.addr = a then { b with pair := none } else b
  | none => b

/-! ## The arbiter (R6) -/

/-- The write, counted from 0, that a post would make next; none once its ninth is made (R162). -/
def postWaiting (c : Channel) : Bool :=
  match c.post with
  | some po => decide (po.made < 9)
  | none => false

/-- Whether a source of the list unit has a write waiting (R163). -/
def sourceWaiting (lu : ListUnit) (src : LuSource) : Bool :=
  match src with
  | .command => postWaiting lu.command
  | .notice => postWaiting lu.notice
  | .spareMirror => !lu.spareMirror.isEmpty

/-- Whether the plan loader requests: LOADING, and no gap runs (R6, R169). -/
def loaderRequests (p : Part) : Bool :=
  match p.plans.loader with
  | .loading w => decide (w.gapLeft = 0)
  | .idle | .complete | .activated | .failed _ => false

/-- Whether a rotating requester has a request (R6). -/
def requests (b : Bus) (p : Part) (r : Requester) : Bool :=
  match r with
  | .cp => isWaiting b.cp
  | .fp => isWaiting b.fp
  | .lu => sourceWaiting p.lu .command || sourceWaiting p.lu .notice || sourceWaiting p.lu .spareMirror
  | .pl => loaderRequests p

/-- The requesters in the cyclic order CP, FP, LU, PL, from the first after the last granted (R6). -/
def rotationAfter (r : Requester) : List Requester :=
  match r with
  | .cp => [.fp, .lu, .pl, .cp]
  | .fp => [.lu, .pl, .cp, .fp]
  | .lu => [.pl, .cp, .fp, .lu]
  | .pl => [.cp, .fp, .lu, .pl]

/-- Whether a post's ninth write has been made and not completed (R162; assumption log 14). -/
def ninthPending (c : Channel) : Bool :=
  match c.post with
  | some po => decide (9 ≤ po.made)
  | none => false

/-- Whether the cycle of a post's ninth write is in progress, so that SRAM is not free (assumption log 14). -/
def cycleOpen (p : Part) : Bool := ninthPending p.lu.command || ninthPending p.lu.notice

/-- The grant the arbiter makes next (R6). -/
def nextGrant (b : Bus) (p : Part) : Option Grant :=
  if cycleOpen p then none
  else if b.pair.isSome then (if requests b p .cp then some (.rotating .cp) else none)
  else if !p.sq.isEmpty then some .storeQueue
  else ((rotationAfter b.last).find? (requests b p)).map .rotating

/-- The requester that is a master port. -/
def requesterOf (port : Port) : Requester :=
  match port with
  | .cp => .cp
  | .fp => .fp

/-- One SRAM write cycle of a grant (R6, R10). -/
def writeCycle (g : Grant) (a : WordAddr) (strobes : BitVec 4) (data : Word) (b : Bus) : Bus :=
  { b with sram := b.sram.write a strobes data, cycle := some ⟨g, .write a strobes⟩ }

/-- One SRAM read cycle of a grant, which stores nothing (R6). -/
def readCycle (g : Grant) (b : Bus) : Bus := { b with cycle := some ⟨g, .read⟩ }

/-- The cycle of a CP grant for a read that promotes: the promoted write with all strobes, and the read (R6, R8). -/
def promotedCycle (a : WordAddr) (data : Word) (b : Bus) : Bus :=
  { b with sram := b.sram.write a allStrobes data, cycle := some ⟨.rotating .cp, .promotedRead a⟩ }

/-- SRAM is free: the cycle of the latest grant is complete, but for a post's ninth write, which POST_END completes
(R6, R162; assumption logs 3 and 14). -/
def settleCycle (s : State) : State :=
  if cycleOpen s.part then s else { s with bus := { s.bus with cycle := none } }

/-- A port takes an access, so that the grant of its access before is complete (R1). -/
def nextAccess (port : Port) (b : Bus) : Bus :=
  if b.cycle.map Cycle.grant = some (.rotating (requesterOf port)) then { b with cycle := none } else b

/-! ## The grant of a master access (R22, R26) -/

/-- The event that a write's owner receives at its grant, the copy taken (R22, R24, R25). -/
def jobEvent (j : Job) (word : Word) (p : Part) : Part :=
  match j with
  | .read _ | .plain => p
  | .genMeas g => genMeasEvent g p.img.genMeas[g] (takeCopy (.gen g) word p)
  | .consMeas c => consMeasEvent c (takeCopy (.cons c) word p)
  | .driveMeas d => takeCopy (.drive d) word p
  | .ties => tiesEvent p.img.ties (takeCopy .ties word p)
  | .genReq g a =>
    genReqEvent g a p.img.genReq[g] { p with img := { p.img with genReq := setAt p.img.genReq g word } }
  | .genFixed g =>
    genFixedEvent g p.img.genFixed[g] { p with img := { p.img with genFixed := setAt p.img.genFixed g word } }
  | .consCmd c ack masked => cmdEvent c word ack masked p
  | .driveReq d => driveReqEvent d { p with img := { p.img with driveReq := setAt p.img.driveReq d word } }
  | .planLoad => planLoadEvent word p
  | .key => keyEvent word p
  | .activate => activateEvent word p
  | .attMask => attMaskEvent word p

/-- A parity failure on a master read: attention PARITY and a notice with the full address and the port (R11). -/
def parityFailure (port : Port) (a : WordAddr) (p : Part) : Part :=
  p |> setAtt .parity |> queueNotice (notice .parity (portCode port) 0 0 0 (kw (4 * a.toNat)) 0#32)

/-- The store-queue entry that a CP read promotes: the entry of its word, if there is one (R8, R147). -/
def promotedBy (port : Port) (a : WordAddr) (p : Part) : Option SqEntry :=
  match port with
  | .cp => sqEntryAt p.base a p.sq
  | .fp => none

/-- The promoted entry's write, made within CP's grant ahead of the read, and the cycle of the read (R8, R147). -/
def promote (port : Port) (a : WordAddr) (s : State) : State :=
  match promotedBy port a s.part with
  | some e =>
    { s with bus := promotedCycle a e.data s.bus
             part := { s.part with sq := sqRemove e.word s.part.sq } }
  | none => { s with bus := readCycle (.rotating (requesterOf port)) s.bus }

/-- The read of a grant: the data and ERR or OK by the parity check; a pair-marked read that completes OK opens a pair
(R3, R7, R11). -/
def serveRead (port : Port) (a : Access) (paired : Bool) (s : State) : State :=
  let word := s.bus.sram.read a.addr
  if s.bus.sram.parityGood a.addr a.strobes then
    let b := setPhase port (.done .ok (some word)) s.bus
    { s with bus := if paired then { b with pair := some ⟨a.addr, 0⟩ } else b }
  else
    { s with bus := setPhase port (.done .err (some word)) s.bus, part := parityFailure port a.addr s.part }

/-- The write of a grant: stored, handed to its owner, completed OK; the write of an open pair ends it (R1, R7, R22). -/
def serveWrite (port : Port) (a : Access) (s : State) : State :=
  { s with bus := endPairAt port a.addr (setPhase port (.done .ok none)
                    (writeCycle (.rotating (requesterOf port)) a.addr a.strobes a.data s.bus))
           part := jobEvent a.job a.data s.part }

/-- The last-granted pointer moves to a rotating requester (R6). -/
def pointAt (r : Requester) (s : State) : State := { s with bus := { s.bus with last := r } }

/-- The grant of a port's access, and its completion (R1, R22). -/
def serveAccess (port : Port) (a : Access) (s : State) : State :=
  let s1 := pointAt (requesterOf port) s
  match a.job with
  | .read paired => serveRead port a paired (promote port a.addr s1)
  | _ => serveWrite port a s1

/-- The arbiter's grant to a port, if the port's access waits and the choice falls on it (R6; assumption log 10). -/
def grantPort (port : Port) (s : State) : State :=
  match phaseOf port s.bus with
  | .waiting a =>
    if nextGrant s.bus s.part = some (.rotating (requesterOf port)) then serveAccess port a s else s
  | .idle | .done _ _ => s

/-! ## Arrival (R1, R2) -/

/-- An access completed at its judgement (R1, stage 2). -/
def answerAccess (port : Port) (r : Response) (data : Option Word) (s : State) : State :=
  { s with bus := setPhase port (.done r data) s.bus }

/-- An access that needs SRAM waits for its grant; where SRAM is free when it arrives, the arbiter chooses at once
(R1, R6; assumption log 8). -/
def holdAccess (port : Port) (a : Access) (sram : SramAt) (s : State) : State :=
  let s1 := { s with bus := setPhase port (.waiting a) s.bus }
  match sram with
  | .free => grantPort port (settleCycle s1)
  | .busy => s1

/-- A refused access: recorded and reported, completed ERR; the refused write of an open pair ends it (R7, R20). -/
def refuseAccess (port : Port) (a : WordAddr) (r : Reason) (data : Option Word) (s : State) : State :=
  { s with bus := setPhase port (.done .err data) s.bus, part := refuse port (windowOffset a) r s.part }

/-- A refused write (R20). -/
def refuseWrite (port : Port) (a : WordAddr) (r : Reason) (s : State) : State :=
  let s1 := refuseAccess port a r none s
  { s1 with bus := endPairAt port a s1.bus }

/-- A write in the window, judged by its word (R18 to R25). -/
def arriveWindowWrite (port : Port) (a : WordAddr) (strobes : BitVec 4) (data : Word) (sram : SramAt)
    (s : State) : State :=
  let w := classify (windowOffset a)
  match writeVerdict port w strobes data s.part with
  | some r => refuseWrite port a r s
  | none =>
    match w with
    | .live l => answerAccess port .ok none { s with part := liveWriteEffect l data s.part }
    | _ => holdAccess port ⟨a, strobes, storedWord w data s.part, jobOf w data s.part⟩ sram s

/-- A write that a port takes: judged in the window, passed through outside (R4). -/
def arriveWrite (port : Port) (a : WordAddr) (strobes : BitVec 4) (data : Word) (sram : SramAt)
    (s : State) : State :=
  if inWindow s.part.base a then arriveWindowWrite port a strobes data sram s
  else holdAccess port ⟨a, strobes, data, .plain⟩ sram s

/-- A read in the window: a live word answered or refused, RETRY to FP while the word has a store-queue entry, else
served from SRAM (R20, R26, R27, R146). A pair-marked read of a live word opens no pair (R7), and one that completes OK
while a pair is open leaves that pair open: R7 ends the open pair where the new one opens, and this is the model's
choice (assumption log 36). -/
def arriveWindowRead (port : Port) (a : WordAddr) (strobes : BitVec 4) (paired : Bool) (sram : SramAt)
    (s : State) : State :=
  match classify (windowOffset a) with
  | .live l =>
    if answers l port then
      answerAccess port .ok (some (liveData l s.part)) { s with part := liveReadEffect port l s.part }
    else refuseAccess port a .wrongPort (some allOnes) s
  | _ =>
    if port = .fp ∧ (sqEntryAt s.part.base a s.part.sq).isSome then answerAccess port .retry none s
    else holdAccess port ⟨a, strobes, 0#32, .read paired⟩ sram s

/-- A read that a port takes (R4). -/
def arriveRead (port : Port) (a : WordAddr) (strobes : BitVec 4) (paired : Bool) (sram : SramAt)
    (s : State) : State :=
  if inWindow s.part.base a then arriveWindowRead port a strobes paired sram s
  else holdAccess port ⟨a, strobes, 0#32, .read paired⟩ sram s

/-- A master write offered to its port: without effect where the port cannot take it (R1; assumption log 9). -/
def masterWrite (port : Port) (a : WordAddr) (strobes : BitVec 4) (data : Word) (sram : SramAt)
    (s : State) : State :=
  if portReady port s.bus then arriveWrite port a strobes data sram { s with bus := nextAccess port s.bus } else s

/-- A master read offered to its port (R1; assumption log 9). -/
def masterReadOf (port : Port) (a : WordAddr) (strobes : BitVec 4) (paired : Bool) (sram : SramAt)
    (s : State) : State :=
  if portReady port s.bus then arriveRead port a strobes paired sram { s with bus := nextAccess port s.bus } else s

/-- A write at a window offset under the sampled base. -/
def windowWrite (port : Port) (off : Nat) (strobes : BitVec 4) (data : Word) (sram : SramAt) (s : State) : State :=
  masterWrite port (windowAddr s.part.base off) strobes data sram s

/-- A read at a window offset under the sampled base. -/
def windowRead (port : Port) (off : Nat) (s : State) : State :=
  masterReadOf port (windowAddr s.part.base off) allStrobes false .free s

end Sys2Proof.Machine
end

