-- ==== Sys2Proof/Machine/BusEvents.lean ====
section
/-! DEFINITION. The part's own cycles and bus events: the store queue's drain (R8), the list unit's writes (R163), the
plan loader's reads (R169), the pair timeout and the gap (R6, R7), TBCLK edges (R12), and the resets (R13, R14). -/

namespace Sys2Proof.Machine

/-! ## The store queue (R8) -/

/-- A store-queue grant: the head entry is removed and written with all strobes (R8, R10). -/
def drainHead (s : State) : State :=
  match s.part.sq with
  | [] => s
  | e :: q =>
    if nextGrant s.bus s.part = some .storeQueue then
      { s with bus := writeCycle .storeQueue (windowAddr s.part.base (sqOffset e.word)) allStrobes e.data s.bus
               part := { s.part with sq := q } }
    else s

/-! ## The list unit (R162, R163) -/

/-- The sources in rotation, from the first after the last served (R163). -/
def sourcesAfter (s : LuSource) : List LuSource :=
  match s with
  | .command => [.notice, .spareMirror, .command]
  | .notice => [.spareMirror, .command, .notice]
  | .spareMirror => [.command, .notice, .spareMirror]

/-- The source that a grant to the list unit serves (R163). -/
def nextSource (lu : ListUnit) : Option LuSource := (sourcesAfter lu.lastServed).find? (sourceWaiting lu)

/-- The word that a post writes at its `k`-th write, counted from 0 (R162). -/
def postWord (po : Post) (k : Nat) : Word :=
  match k with
  | 0 => po.w0
  | 1 => po.w1
  | 2 => po.w2
  | 3 => po.w3
  | 4 => po.w4
  | 8 => BitVec.ofNat 32 po.frame.val
  | _ => 0#32

/-- The offset of that write: the frame's word, and ninth the ready mirror word at the ready ring's tail (R162). -/
def postOffset (ch : Chan) (c : Channel) (po : Post) (k : Nat) : Nat :=
  if k < 8 then frameBase ch + 0x20 * po.frame.val + 4 * k else readyMirrorOffset ch (ringTail c.ready)

/-- The next of the nine writes of a channel's post (R162, R163). -/
def writePost (ch : Chan) (s : State) : State :=
  let c := getChan s.part.lu ch
  match c.post with
  | none => s
  | some po =>
    let c' := { c with post := some { po with made := po.made + 1 } }
    { s with bus := writeCycle (.rotating .lu) (windowAddr s.part.base (postOffset ch c po po.made)) allStrobes
                      (postWord po po.made) s.bus
             part := { s.part with lu := setChan s.part.lu ch c' } }

/-- The write of the oldest spare-mirror item: the frame number that its slot holds now (R153). -/
def writeSpareMirror (s : State) : State :=
  match s.part.lu.spareMirror with
  | [] => s
  | (ch, slot) :: q =>
    let f := (getChan s.part.lu ch).spare.slots[slot]
    { s with bus := writeCycle (.rotating .lu) (windowAddr s.part.base (spareMirrorOffset ch slot)) allStrobes
                      (BitVec.ofNat 32 f.val) s.bus
             part := { s.part with lu := { s.part.lu with spareMirror := q } } }

/-- The next write of a source (R163). -/
def writeSource (src : LuSource) (s : State) : State :=
  match src with
  | .command => writePost .command s
  | .notice => writePost .notice s
  | .spareMirror => writeSpareMirror s

/-- The source last served (R163). -/
def serveSource (src : LuSource) (s : State) : State :=
  { s with part := { s.part with lu := { s.part.lu with lastServed := src } } }

/-- A list-unit grant: the next write of the source chosen by rotation (R163). -/
def listUnitGrant (s : State) : State :=
  if nextGrant s.bus s.part = some (.rotating .lu) then
    match nextSource s.part.lu with
    | some src => pointAt .lu (serveSource src (writeSource src s))
    | none => s
  else s

/-- The end of a post: its ninth write completes, the frame joins the ready ring, and R161 is judged again (R162). -/
def endPost (ch : Chan) (p : Part) : Part :=
  let c := getChan p.lu ch
  match c.post with
  | none => p
  | some po =>
    if ninthPending c then
      let c' := { c with frames := setAt c.frames po.frame .ready, ready := ringAppend c.ready po.frame,
                         post := none }
      tryPost ch { p with lu := setChan p.lu ch c' }
    else p

/-- The end of a post at the part and at SRAM, whose cycle of the ninth write is complete (R162). -/
def completePost (ch : Chan) (s : State) : State :=
  if ninthPending (getChan s.part.lu ch) then
    { s with bus := { s.bus with cycle := none }, part := endPost ch s.part }
  else s

/-! ## The plan loader (R169) -/

/-- A plan-loader grant: one word read, parity checked on all four bytes, and handed to the walk (R11, R169). -/
def loaderGrant (s : State) : State :=
  match s.part.plans.loader with
  | .loading w =>
    if nextGrant s.bus s.part = some (.rotating .pl) then
      let a : WordAddr := BitVec.ofNat 22 (walkAddr w / 4)
      let part := loaderWord w (s.bus.sram.read a) (s.bus.sram.parityGood a allStrobes) s.part
      pointAt .pl { s with bus := readCycle (.rotating .pl) s.bus, part := part }
    else s
  | .idle | .complete | .activated | .failed _ => s

/-! ## The pair timeout (R7) and TBCLK (R12) -/

/-- The timeout of an open pair: a paired write that has arrived is granted and completed first, and the pair ends (R7). -/
def endPairTimeout (s : State) : State :=
  match s.bus.pair with
  | none => s
  | some pr =>
    let s1 :=
      match s.bus.cp with
      | .waiting a =>
        match a.job with
        | .read _ => s
        | _ => if a.addr = pr.addr then serveAccess .cp a s else s
      | .idle | .done _ _ => s
    { s1 with bus := { s1.bus with pair := none } }

/-- A TBCLK edge counted by an open pair: the timeout takes effect at the fourth (R7). -/
def pairEdge (s : State) : State :=
  match s.bus.pair with
  | none => s
  | some pr =>
    if 4 ≤ pr.edges + 1 then endPairTimeout s
    else { s with bus := { s.bus with pair := some { pr with edges := pr.edges + 1 } } }

/-- The intervals in microseconds advance by one edge (R12). -/
def microsecondEdge (s : State) : State := pairEdge { s with part := gapTick 1 s.part }

/-- The edge that takes the sub-millisecond count to 1000: the count returns to 0 and the millisecond counter advances,
wrapping from FFFFFFFFh to 0 (R12). The counter advances before the edge is counted by an open pair, so that a paired
write which the timeout completes at that edge starts its timers from the new count: R12 and R7 give no order, and this
is the model's choice (assumption log 12). -/
def millisecondEdge (s : State) : State :=
  microsecondEdge { s with bus := { s.bus with subMs := 0 }, part := { s.part with ms := s.part.ms + 1 } }

/-- A rising edge of TBCLK (R12). -/
def tbclkEdge (s : State) : State :=
  let s1 := settleCycle s
  if 999 ≤ s1.bus.subMs then millisecondEdge s1
  else microsecondEdge { s1 with bus := { s1.bus with subMs := s1.bus.subMs + 1 } }

/-- A number of rising edges of TBCLK, one after the other. -/
def passEdges : Nat → State → State
  | 0, s => s
  | n + 1, s => passEdges n (tbclkEdge s)

/-- A number of edges at which the millisecond counter does not advance and no pair ends: every interval counts them
(R12). -/
def countEdges (n : Nat) (s : State) : State :=
  let s1 := settleCycle s
  { s1 with bus := { s1.bus with subMs := s1.bus.subMs + n,
                                 pair := s1.bus.pair.map fun pr => { pr with edges := pr.edges + n } }
            part := gapTick n s1.part }

/-- The edges up to the end of the open pair, where it falls before the millisecond counter advances. -/
def passPairWithin (s : State) : State :=
  match s.bus.pair with
  | none => s
  | some pr => if s.bus.subMs + (3 - pr.edges) < 999 then tbclkEdge (countEdges (3 - pr.edges) s) else s

/-- The edges up to the one at which the millisecond counter advances, each counted by every interval (R12; assumption
log 12). -/
def passToMillisecond (s : State) : State :=
  let s1 := passPairWithin s
  tbclkEdge (countEdges (999 - s1.bus.subMs) s1)

/-- The edges up to the fourth of the open pair, at which its timeout takes effect (R7, R12; assumption log 12). -/
def passToPairTimeout (s : State) : State :=
  match s.bus.pair with
  | none => s
  | some pr => passEdges (3 - pr.edges + 1) s

/-- The edges left of the inter-burst gap (R6, R12; assumption log 12). -/
def passToGapEnd (s : State) : State :=
  match s.part.plans.loader with
  | .loading w => passEdges w.gapLeft s
  | .idle | .complete | .activated | .failed _ => s

/-! ## Full reset (R5, R13) -/

/-- SRAM at the assertion of PWR_RST_N: the write in progress, if there is one, is cut short (R13; assumption log 3). -/
def sramAtReset (moment : ResetMoment) (b : Bus) (draw : Nat) : Sram :=
  match moment, b.cycle.map Cycle.kind with
  | .inCycle, some (.write a strobes) => b.sram.cut a strobes draw
  | .inPromotion, some (.promotedRead a) => b.sram.cut a allStrobes draw
  | _, _ => b.sram

/-- The part while PWR_RST_N is asserted: every access abandoned, the cycle in progress cut short, and every block at its
full-reset values; the base is not sampled yet (R5, R13). -/
def assertPower (moment : ResetMoment) (s : State) : State :=
  { s with bus := Bus.reset (sramAtReset moment s.bus s.part.free)
           part := Part.reset s.part.base (if moment = .between then s.part.free else s.part.free + 1) }

/-- The release of PWR_RST_N: the straps are sampled (R5). -/
def releasePower (straps : BitVec 8) (s : State) : State := { s with part := { s.part with base := straps } }

/-- A full reset, from the assertion of PWR_RST_N to its release (R13; assumption log 16). -/
def powerReset (straps : BitVec 8) (moment : ResetMoment) (s : State) : State :=
  releasePower straps (assertPower moment s)

/-- Which of the wait signals and lines are active, with PWR_RST_N asserted or not: asserted, all are inactive (R1, R2,
R13, R181, R183). -/
def linesAt (asserted : Bool) (s : State) : Lines :=
  { cwait := !asserted && isWaiting s.bus.cp, fwait := !asserted && isWaiting s.bus.fp,
    int := !asserted && intActive s.part.att, urg := !asserted && urgActive s.part }

/-! ## Controller reset (R14) -/

/-- The plan loader's read in whose cycle a controller reset falls: granted and completed on the memory port, its word
discarded (R14, R177; assumption log 35). -/
def discardedRead (midRead : Bool) (s : State) : State :=
  if midRead = true ∧ nextGrant s.bus s.part = some (.rotating .pl) then
    pointAt .pl { s with bus := readCycle (.rotating .pl) s.bus }
  else s

/-- A controller reset: the CP access is abandoned, the pair ends, CP takes no access, and the part behind the ports
answers it (R14, R177, R179, R181). -/
def resetController (midRead : Bool) (s : State) : State :=
  let s1 := discardedRead midRead s
  { s1 with bus := { s1.bus with cp := .idle, pair := none, ctlHeld := true }, part := controllerResetPart s1.part }

/-- The release of CTL_RST_N (R14). -/
def releaseController (s : State) : State := { s with bus := { s.bus with ctlHeld := false } }

end Sys2Proof.Machine
end

