-- ==== Sys2Proof/Machine/Accesses.lean ====
section
/-! DEFINITION. Accesses of any word (R4, R18, R26), pair-marked reads (R7), and the grant of a waiting access (R22). -/

namespace Sys2Proof.Machine

/-- PASS_THROUGH_WRITE, of any word address (R18; assumption log 34). -/
def execPassThroughWrite (port : Port) (addr : WordAddr) (strobes : BitVec 4) (data : Word) (sram : SramAt)
    (s : State) : Host.Outcome State Fault Refusal :=
  .next (masterWrite port addr strobes data sram s)

/-- MASTER_READ, of any word address (R26; assumption log 28). -/
def execMasterRead (port : Port) (addr : WordAddr) (strobes : BitVec 4) (sram : SramAt) (s : State) : Host.Outcome State Fault Refusal :=
  .next (masterReadOf port addr strobes false sram s)

/-- PAIRED_READ, by CP (R7). -/
def execPairedRead (addr : WordAddr) (strobes : BitVec 4) (sram : SramAt) (s : State) : Host.Outcome State Fault Refusal :=
  .next (masterReadOf .cp addr strobes true sram s)

/-- MASTER_ACCESS_GRANT (R6, R22). -/
def execMasterAccessGrant (port : Port) (s : State) : Host.Outcome State Fault Refusal :=
  .next (grantPort port s)

end Sys2Proof.Machine
end

