-- ==== Sys2Proof/Machine/Arbitration.lean ====
section
/-! DEFINITION. The grants to the part's own requesters (R6, R8, R163, R169), the gap and the pair timeout. -/

namespace Sys2Proof.Machine

/-- DRAIN (R8). -/
def execDrain (s : State) : Host.Outcome State Fault Refusal :=
  .next (drainHead s)

/-- LIST_UNIT_WRITE (R163). -/
def execListUnitWrite (s : State) : Host.Outcome State Fault Refusal :=
  .next (listUnitGrant s)

/-- PLAN_LOADER_READ (R169). -/
def execPlanLoaderRead (s : State) : Host.Outcome State Fault Refusal :=
  .next (loaderGrant s)

/-- INTER_BURST_GAP (R6; assumption log 12). -/
def execInterBurstGap (s : State) : Host.Outcome State Fault Refusal :=
  .next (passToGapEnd s)

/-- PAIR_TIMEOUT (R7; assumption log 12). -/
def execPairTimeout (s : State) : Host.Outcome State Fault Refusal :=
  .next (passToPairTimeout s)

end Sys2Proof.Machine
end

