-- ==== Sys2Proof/Machine/ControlWords.lean ====
section
/-! DEFINITION. The controller's writes of the CONTROL words (R25). -/

namespace Sys2Proof.Machine

/-- PLAN_LOAD (R168). -/
def execPlanLoad (strobes : BitVec 4) (data : Word) (sram : SramAt) (s : State) : Host.Outcome State Fault Refusal :=
  .next (windowWrite .cp planLoadOffset strobes data sram s)

/-- KEY (R172). -/
def execKey (strobes : BitVec 4) (data : Word) (sram : SramAt) (s : State) : Host.Outcome State Fault Refusal :=
  .next (windowWrite .cp keyOffset strobes data sram s)

/-- ACTIVATE (R173). -/
def execActivate (strobes : BitVec 4) (data : Word) (sram : SramAt) (s : State) : Host.Outcome State Fault Refusal :=
  .next (windowWrite .cp activateOffset strobes data sram s)

/-- ATT_MASK (R181). -/
def execAttMask (strobes : BitVec 4) (data : Word) (sram : SramAt) (s : State) : Host.Outcome State Fault Refusal :=
  .next (windowWrite .cp attMaskOffset strobes data sram s)

end Sys2Proof.Machine
end

