-- ==== Sys2Proof/Machine/FieldWrites.lean ====
section
/-! DEFINITION. The field link's writes of the MEASURE words (R22, R23). -/

namespace Sys2Proof.Machine

/-- GENERATOR_MEAS_WRITE (R58). -/
def execGeneratorMeasWrite (g : GenId) (strobes : BitVec 4) (data : Word) (sram : SramAt) (s : State) : Host.Outcome State Fault Refusal :=
  .next (windowWrite .fp (genWordOffset g 0) strobes data sram s)

/-- CONSUMER_MEAS_WRITE (R118). -/
def execConsumerMeasWrite (c : ConsId) (strobes : BitVec 4) (data : Word) (sram : SramAt) (s : State) : Host.Outcome State Fault Refusal :=
  .next (windowWrite .fp (consWordOffset c 0) strobes data sram s)

/-- DRIVE_MEAS_WRITE (R23). -/
def execDriveMeasWrite (d : DriveId) (strobes : BitVec 4) (data : Word) (sram : SramAt) (s : State) : Host.Outcome State Fault Refusal :=
  .next (windowWrite .fp (driveWordOffset d 0) strobes data sram s)

/-- TIES_WRITE (R36). -/
def execTiesWrite (strobes : BitVec 4) (data : Word) (sram : SramAt) (s : State) : Host.Outcome State Fault Refusal :=
  .next (windowWrite .fp tiesOffset strobes data sram s)

end Sys2Proof.Machine
end

