-- ==== Sys2Proof/Machine/LiveAccesses.lean ====
section
/-! DEFINITION. The accesses of live words that act, and the refused reads (R20, R27). -/

namespace Sys2Proof.Machine

/-- ATTENTION_READ, by CP (R179). -/
def execAttentionRead (s : State) : Host.Outcome State Fault Refusal :=
  .next (windowRead .cp attentionOffset s)

/-- ATTENTION_WRITE, by CP (R180). -/
def execAttentionWrite (strobes : BitVec 4) (data : Word) (s : State) : Host.Outcome State Fault Refusal :=
  .next (windowWrite .cp attentionOffset strobes data .free s)

/-- GIVE, on a channel's GIVE word (R154). -/
def execGive (port : Port) (ch : Chan) (strobes : BitVec 4) (data : Word) (s : State) : Host.Outcome State Fault Refusal :=
  .next (windowWrite port (giveOffset ch) strobes data .free s)

/-- TAKE, of a channel's TAKE word (R156). -/
def execTake (port : Port) (ch : Chan) (s : State) : Host.Outcome State Fault Refusal :=
  .next (windowRead port (takeOffset ch) s)

/-- REFUSED_DETAIL_READ (R21). -/
def execRefusedDetailRead (port : Port) (s : State) : Host.Outcome State Fault Refusal :=
  .next (windowRead port refusedDetailOffset s)

/-- The port of a live read that its word does not answer (R20). -/
def wrongPort : WrongPortRead → Port
  | .fpAttention | .fpCause | .fpNoticeTake => .fp
  | .cpCmdTake => .cp

/-- The offset of that word (R17, R20). -/
def wrongOffset : WrongPortRead → Nat
  | .fpAttention => attentionOffset
  | .fpCause => causeOffset
  | .fpNoticeTake => takeOffset .notice
  | .cpCmdTake => takeOffset .command

/-- REFUSED_READ (R20). -/
def execRefusedRead (r : WrongPortRead) (s : State) : Host.Outcome State Fault Refusal :=
  .next (windowRead (wrongPort r) (wrongOffset r) s)

end Sys2Proof.Machine
end

