-- ==== Sys2Proof/Machine/Posting.lean ====
section
/-! DEFINITION. The start and the end of a post (R161, R162). -/

namespace Sys2Proof.Machine

/-- POST_START (R161; assumption log 13). -/
def execPostStart (ch : Chan) (s : State) : Host.Outcome State Fault Refusal :=
  .next { s with part := tryPost ch s.part }

/-- POST_END (R162). -/
def execPostEnd (ch : Chan) (s : State) : Host.Outcome State Fault Refusal :=
  .next (completePost ch s)

end Sys2Proof.Machine
end

