-- ==== Sys2Proof/Machine/RequestWrites.lean ====
section
/-! DEFINITION. The controller's writes of the REQUEST and GUARDED words (R140 to R145). START, STOP, CLEAR and
NO_ACTION are the writes of a generator REQ word, told apart by the ACTION field of the word written, and ACK is a CMD
write with the ACK field set (12.2). -/

namespace Sys2Proof.Machine

/-- START (R61). -/
def execStart (g : GenId) (strobes : BitVec 4) (data : Word) (sram : SramAt) (s : State) : Host.Outcome State Fault Refusal :=
  .next (windowWrite .cp (genWordOffset g 1) strobes data sram s)

/-- STOP (R61). -/
def execStop (g : GenId) (strobes : BitVec 4) (data : Word) (sram : SramAt) (s : State) : Host.Outcome State Fault Refusal :=
  .next (windowWrite .cp (genWordOffset g 1) strobes data sram s)

/-- CLEAR (R61). -/
def execClear (g : GenId) (strobes : BitVec 4) (data : Word) (sram : SramAt) (s : State) : Host.Outcome State Fault Refusal :=
  .next (windowWrite .cp (genWordOffset g 1) strobes data sram s)

/-- NO_ACTION (R144). -/
def execNoAction (g : GenId) (strobes : BitVec 4) (data : Word) (sram : SramAt) (s : State) : Host.Outcome State Fault Refusal :=
  .next (windowWrite .cp (genWordOffset g 1) strobes data sram s)

/-- FIXED_WRITE (R145). -/
def execFixedWrite (g : GenId) (strobes : BitVec 4) (data : Word) (sram : SramAt) (s : State) : Host.Outcome State Fault Refusal :=
  .next (windowWrite .cp (genWordOffset g 2) strobes data sram s)

/-- DRIVE_REQ_WRITE (R145). -/
def execDriveReqWrite (d : DriveId) (strobes : BitVec 4) (data : Word) (sram : SramAt) (s : State) : Host.Outcome State Fault Refusal :=
  .next (windowWrite .cp (driveWordOffset d 1) strobes data sram s)

/-- CONSUMER_CMD_WRITE (R142). -/
def execConsumerCmdWrite (c : ConsId) (strobes : BitVec 4) (data : Word) (sram : SramAt) (s : State) : Host.Outcome State Fault Refusal :=
  .next (windowWrite .cp (consWordOffset c 1) strobes data sram s)

/-- ACK (R130, R131). -/
def execAck (c : ConsId) (strobes : BitVec 4) (data : Word) (sram : SramAt) (s : State) : Host.Outcome State Fault Refusal :=
  .next (windowWrite .cp (consWordOffset c 1) strobes data sram s)

end Sys2Proof.Machine
end

