-- ==== Sys2Proof/Machine/Resets.lean ====
section
/-! DEFINITION. The resets (R13, R14, R177). -/

namespace Sys2Proof.Machine

/-- FULL_RESET (R13). -/
def execFullReset (straps : BitVec 8) (moment : ResetMoment) (s : State) : Host.Outcome State Fault Refusal :=
  .next (powerReset straps moment s)

/-- CONTROLLER_RESET (R14, R177). -/
def execControllerReset (s : State) (midRead : Bool) : Host.Outcome State Fault Refusal :=
  .next (resetController midRead s)

/-- CONTROLLER_RESET_RELEASE (R14). -/
def execControllerResetRelease (s : State) : Host.Outcome State Fault Refusal :=
  .next (releaseController s)

end Sys2Proof.Machine
end

