-- ==== Sys2Proof/Machine/TimeBase.lean ====
section
/-! DEFINITION. The time base (R12). -/

namespace Sys2Proof.Machine

/-- MILLISECOND_COUNTER_ADVANCE (R12; assumption log 12). -/
def execMillisecondCounterAdvance (s : State) : Host.Outcome State Fault Refusal :=
  .next (passToMillisecond s)

end Sys2Proof.Machine
end

