-- ==== Sys2Proof/Machine/Timers.lean ====
section
/-! DEFINITION. The expiries of the timers that count on the millisecond counter (R12): each acts where its timer runs and
is reached (assumption log 11). -/

namespace Sys2Proof.Machine

/-- FRESHNESS_TIMER_EXPIRY (R31). -/
def execFreshnessTimerExpiry (r : RecordId) (s : State) : Host.Outcome State Fault Refusal :=
  .next { s with part := freshnessExpiry r s.part }

/-- OVERLOAD_TIMER_EXPIRY (R109). -/
def execOverloadTimerExpiry (i : SecId) (s : State) : Host.Outcome State Fault Refusal :=
  .next { s with part := overloadExpiry i s.part }

/-- START_DELAY_TIMER_EXPIRY (R77). -/
def execStartDelayTimerExpiry (i : SecId) (s : State) : Host.Outcome State Fault Refusal :=
  .next { s with part := startDelayExpiry i s.part }

/-- RELEASE_HOLD_TIMER_EXPIRY (R124). -/
def execReleaseHoldTimerExpiry (i : SecId) (s : State) : Host.Outcome State Fault Refusal :=
  .next { s with part := releaseHoldExpiry i s.part }

/-- START_TIMER_EXPIRY (R65). -/
def execStartTimerExpiry (g : GenId) (s : State) : Host.Outcome State Fault Refusal :=
  .next { s with part := startTimeout g s.part }

/-- RAMP_STEP (R67). -/
def execRampStep (g : GenId) (s : State) : Host.Outcome State Fault Refusal :=
  .next { s with part := rampDown g s.part }

/-- OPEN_TIMER_EXPIRY (R70). -/
def execOpenTimerExpiry (g : GenId) (s : State) : Host.Outcome State Fault Refusal :=
  .next { s with part := openTimeout g s.part }

/-- CAP_RAISE (R90). -/
def execCapRaise (g : GenId) (s : State) : Host.Outcome State Fault Refusal :=
  .next { s with part := raiseCap g s.part }

/-- VERIFY_DEADLINE (R115). -/
def execVerifyDeadline (c : ConsId) (s : State) : Host.Outcome State Fault Refusal :=
  .next { s with part := verifyReached c s.part }

/-- RESTORE_DEADLINE (R128). -/
def execRestoreDeadline (c : ConsId) (s : State) : Host.Outcome State Fault Refusal :=
  .next { s with part := restoreReached c s.part }

/-- SETTLING_TIMEOUT (R175). -/
def execSettlingTimeout (s : State) : Host.Outcome State Fault Refusal :=
  .next { s with part := settlingExpiry s.part }

end Sys2Proof.Machine
end

