-- ==== Sys2Proof/Machine/Dispatch.lean ====
section
/-! DEFINITION. Each command's meaning, by one direct call. -/

namespace Sys2Proof.Machine

def exec (i : Instr) (s : State) : Host.Outcome State Fault Refusal :=
  match i with
  | .fullReset straps moment => Sys2Proof.Machine.execFullReset straps moment s
  | .controllerReset midRead => Sys2Proof.Machine.execControllerReset s midRead
  | .generatorMeasWrite g strobes data sram => Sys2Proof.Machine.execGeneratorMeasWrite g strobes data sram s
  | .consumerMeasWrite c strobes data sram => Sys2Proof.Machine.execConsumerMeasWrite c strobes data sram s
  | .driveMeasWrite d strobes data sram => Sys2Proof.Machine.execDriveMeasWrite d strobes data sram s
  | .tiesWrite strobes data sram => Sys2Proof.Machine.execTiesWrite strobes data sram s
  | .start g strobes data sram => Sys2Proof.Machine.execStart g strobes data sram s
  | .stop g strobes data sram => Sys2Proof.Machine.execStop g strobes data sram s
  | .clear g strobes data sram => Sys2Proof.Machine.execClear g strobes data sram s
  | .noAction g strobes data sram => Sys2Proof.Machine.execNoAction g strobes data sram s
  | .fixedWrite g strobes data sram => Sys2Proof.Machine.execFixedWrite g strobes data sram s
  | .driveReqWrite d strobes data sram => Sys2Proof.Machine.execDriveReqWrite d strobes data sram s
  | .consumerCmdWrite c strobes data sram => Sys2Proof.Machine.execConsumerCmdWrite c strobes data sram s
  | .ack c strobes data sram => Sys2Proof.Machine.execAck c strobes data sram s
  | .planLoad strobes data sram => Sys2Proof.Machine.execPlanLoad strobes data sram s
  | .key strobes data sram => Sys2Proof.Machine.execKey strobes data sram s
  | .activate strobes data sram => Sys2Proof.Machine.execActivate strobes data sram s
  | .attMask strobes data sram => Sys2Proof.Machine.execAttMask strobes data sram s
  | .attentionRead => Sys2Proof.Machine.execAttentionRead s
  | .attentionWrite strobes data => Sys2Proof.Machine.execAttentionWrite strobes data s
  | .give port ch strobes data => Sys2Proof.Machine.execGive port ch strobes data s
  | .take port ch => Sys2Proof.Machine.execTake port ch s
  | .refusedDetailRead port => Sys2Proof.Machine.execRefusedDetailRead port s
  | .passThroughWrite port addr strobes data sram => Sys2Proof.Machine.execPassThroughWrite port addr strobes data sram s
  | .masterRead port addr strobes sram => Sys2Proof.Machine.execMasterRead port addr strobes sram s
  | .pairedRead addr strobes sram => Sys2Proof.Machine.execPairedRead addr strobes sram s
  | .pairTimeout => Sys2Proof.Machine.execPairTimeout s
  | .drain => Sys2Proof.Machine.execDrain s
  | .listUnitWrite => Sys2Proof.Machine.execListUnitWrite s
  | .postStart ch => Sys2Proof.Machine.execPostStart ch s
  | .postEnd ch => Sys2Proof.Machine.execPostEnd ch s
  | .planLoaderRead => Sys2Proof.Machine.execPlanLoaderRead s
  | .interBurstGap => Sys2Proof.Machine.execInterBurstGap s
  | .freshnessTimerExpiry r => Sys2Proof.Machine.execFreshnessTimerExpiry r s
  | .overloadTimerExpiry sec => Sys2Proof.Machine.execOverloadTimerExpiry sec s
  | .startDelayTimerExpiry sec => Sys2Proof.Machine.execStartDelayTimerExpiry sec s
  | .releaseHoldTimerExpiry sec => Sys2Proof.Machine.execReleaseHoldTimerExpiry sec s
  | .startTimerExpiry g => Sys2Proof.Machine.execStartTimerExpiry g s
  | .rampStep g => Sys2Proof.Machine.execRampStep g s
  | .openTimerExpiry g => Sys2Proof.Machine.execOpenTimerExpiry g s
  | .capRaise g => Sys2Proof.Machine.execCapRaise g s
  | .verifyDeadline c => Sys2Proof.Machine.execVerifyDeadline c s
  | .restoreDeadline c => Sys2Proof.Machine.execRestoreDeadline c s
  | .settlingTimeout => Sys2Proof.Machine.execSettlingTimeout s
  | .millisecondCounterAdvance => Sys2Proof.Machine.execMillisecondCounterAdvance s
  | .masterAccessGrant port => Sys2Proof.Machine.execMasterAccessGrant port s
  | .controllerResetRelease => Sys2Proof.Machine.execControllerResetRelease s
  | .refusedRead r => Sys2Proof.Machine.execRefusedRead r s

end Sys2Proof.Machine
end

