-- ==== Sys2Proof/Safety.lean ====
section
/-! DEFINITION. The conditions and invariants that the statements speak of: when an access is granted at its arrival,
what the word of a guarded consumer holds, and the laws that every step keeps. -/

namespace Sys2Proof.Machine

/-! ## When a port's access is granted at its arrival (R6) -/

/-- Whether a rotating requester other than the port's has a request (R6). -/
def othersRequest (port : Port) (s : State) : Bool :=
  [Requester.cp, .fp, .lu, .pl].any fun r => r != requesterOf port && requests s.bus s.part r

/-- The port can take an access, no pair is open, the store queue is empty, no cycle is in progress and no other
requester requests: R6 then grants the port's access at once. -/
def portFree (port : Port) (s : State) : Bool :=
  portReady port s.bus && s.bus.pair.isNone && s.part.sq.isEmpty && !cycleOpen s.part && !othersRequest port s

/-- The ports and the memory path after a write granted to a port and completed, with no pair open (R1, R6, R10). -/
def busAfterWrite (port : Port) (a : WordAddr) (strobes : BitVec 4) (data : Word) (b : Bus) : Bus :=
  setPhase port (.done .ok none)
    { b with sram := b.sram.write a strobes data, last := requesterOf port
             cycle := some ⟨.rotating (requesterOf port), .write a strobes⟩ }

/-- The ports and the memory path after a read granted to a port and completed with this response (R1, R6). -/
def busAfterRead (port : Port) (r : Response) (data : Word) (b : Bus) : Bus :=
  setPhase port (.done r (some data))
    { b with last := requesterOf port, cycle := some ⟨.rotating (requesterOf port), .read⟩ }

/-- The ports and the memory path after an access completed at its judgement, without a grant (R1). -/
def busAfterAnswer (port : Port) (r : Response) (data : Option Word) (b : Bus) : Bus :=
  setPhase port (.done r data) (nextAccess port b)

/-- The loader after a number of TBCLK edges, which its gap counts (R6). -/
def gapAfter (k : Nat) (l : LoaderState) : LoaderState :=
  match l with
  | .loading w => .loading { w with gapLeft := w.gapLeft - k }
  | .idle | .complete | .activated | .failed _ => l

/-- The state after a number of TBCLK edges, from a sub-millisecond count below 1000, but for the edges of an open pair:
the counts of R12 advance, the gap counts the edges, and the latest cycle is complete unless a post's ninth write holds
it open (assumption logs 3 and 14). -/
def edgesPassed (k : Nat) (s : State) : State :=
  { s with
    bus := { s.bus with subMs := (s.bus.subMs + k) % 1000, cycle := if cycleOpen s.part then s.bus.cycle else none }
    part := { s.part with ms := s.part.ms + BitVec.ofNat 32 ((s.bus.subMs + k) / 1000),
                          plans := { s.part.plans with loader := gapAfter k s.part.plans.loader } } }

/-- The copies of the image decoder after the grant of a write with this owner: its word, and a MEASURE word's mark and
freshness timer (R22, R24, R25, R31). The ladder holds the CMD copies (R138). -/
def imageTaken (j : Job) (w : Word) (p : Part) : Image :=
  let m : MeasCopy := ⟨w, true, some (after p.ms (staleTime p))⟩
  match j with
  | .genMeas g => { p.img with genMeas := setAt p.img.genMeas g m }
  | .consMeas c => { p.img with consMeas := setAt p.img.consMeas c m }
  | .driveMeas d => { p.img with driveMeas := setAt p.img.driveMeas d m }
  | .ties => { p.img with ties := m }
  | .genReq g _ => { p.img with genReq := setAt p.img.genReq g w }
  | .genFixed g => { p.img with genFixed := setAt p.img.genFixed g w }
  | .driveReq d => { p.img with driveReq := setAt p.img.driveReq d w }
  | .planLoad => { p.img with planLoad := w }
  | .key => { p.img with key := w }
  | .activate => { p.img with activate := w }
  | .attMask => { p.img with attMask := w }
  | .read _ | .plain | .consCmd _ _ _ => p.img

/-- What a shed step with a need gives an island: where it is met, EXHAUSTED clear and no need left; where the credits of
the entries it appended fall short, EXHAUSTED set with the need left, which 20 bits hold (R105, R119). -/
def stepOutcome (q : Part) (i : SecId) (need : Int) (new : List ShedEntry) : Prop :=
  let shed := (new.map ShedEntry.credit).sum
  (need ≤ 0 → new = []) ∧
  (need ≤ (shed : Int) → q.islands[i].exhausted = false ∧ q.islands[i].need = 0#20) ∧
  ((shed : Int) < need → q.islands[i].exhausted = true ∧
    (need - (shed : Int) ≤ 1048575 → q.islands[i].need = BitVec.ofNat 20 (need - (shed : Int)).toNat))

/-- The items and fields of a plan that fail R171, by their numbers of 12.4: the header not loaded (field 0), a field of a
loaded header outside its range of R167, and so of each present generator, its rank also where a present generator of lower
index has the same nonzero one, and of each present drive. -/
def planFails (pl : Plan) (item field : Nat) : Prop :=
  (pl.header = none ∧ item = 0x100 ∧ field = 0) ∨
  (∃ h, pl.header = some h ∧ item = 0x100 ∧
    (field = 6 ∧ h.overloadDelay < 100 ∨ field = 7 ∧ h.releaseHold < 1 ∨ field = 9 ∧ h.staleTime < 5 ∨
      field = 10 ∧ h.startTimeout < 10 ∨ field = 11 ∧ h.genOpenTimeout < 1 ∨
      field = 12 ∧ (h.unloadFloorPct < 1 ∨ 20 < h.unloadFloorPct))) ∨
  (∃ (g : GenId) (e : GenPlan), pl.gens[g] = some e ∧ item = 0x200 + g.val ∧
    (field = 2 ∧ e.rating < 1 ∨ field = 3 ∧ (e.limitPct < 50 ∨ 110 < e.limitPct) ∨
      field = 4 ∧ (8 < e.rank ∨ e.rank ≠ 0 ∧ ∃ h f, h < g ∧ pl.gens[h] = some f ∧ f.rank = e.rank) ∨
      field = 5 ∧ e.rampRate < 1)) ∨
  (∃ (d : DriveId) (e : DrivePlan), pl.drives[d] = some e ∧ item = 0x400 + d.val ∧ field = 2 ∧ e.cls < 1)

/-- The first item of a plan that fails, in the order header, G0 to G7, D0 to D3 (R171), and its lowest failing field
(assumption log 25). -/
def planFailsFirst (pl : Plan) (item field : Nat) : Prop :=
  planFails pl item field ∧ ∀ a f, planFails pl a f → item < a ∨ item = a ∧ field ≤ f

/-! ## The island timers -/

/-- Whether the release condition of an island holds, for its most recent entry's target (R122). -/
def releaseHolds (p : Part) (i : SecId) (tg : Target) : Prop :=
  let r := p.islands[i]
  isRunning p = true ∧ r.held = false ∧ r.condition = .sound ∧ (∀ e ∈ entriesOf p i, e.state = .held) ∧
    ∃ e, (entriesOf p i).getLast? = some e ∧ e.target = tg ∧
      (p.header.releaseMargin : Int) + (e.credit : Int) ≤ (r.totals.firm : Int) - (r.totals.load : Int)

/-- Whether the release-hold timer of an island, where it runs, runs for the island's most recent entry, with every entry
of the island HELD (R122, R123). -/
def releaseTimed (p : Part) (i : SecId) : Prop :=
  ∀ tg e, p.islands[i].releaseHold = some (tg, e) →
    (entriesOf p i).getLast?.map ShedEntry.target = some tg ∧ ∀ x ∈ entriesOf p i, x.state = .held

/-- Whether an island's timers are those that follow from the timers of `old`, now, in RUNNING. Each runs while its run
condition holds: it runs on where it ran, starts from zero where it stood stopped, and stops where the condition fails. A
HELD island suspends the start-delay timer with the time it has left, from which it runs on afterwards. The release-hold
timer starts from zero for another entry (R50, R51, R123). -/
def timersFollow (old : Island) (p : Part) (i : SecId) : Prop :=
  let r := p.islands[i]
  let delay := p.header.startDelay
  let hold := after p.ms (1000 * p.header.releaseHold)
  (r.condition ≠ .overloaded → r.overload = none) ∧
  (r.condition = .overloaded →
    (old.overload = none → r.overload = some (after p.ms p.header.overloadDelay)) ∧
    (∀ e, old.overload = some e → r.overload = some e)) ∧
  (r.condition ≠ .short → r.condition ≠ .overloaded → r.startDelay = .stopped) ∧
  (r.condition = .short ∨ r.condition = .overloaded →
    (old.startDelay = .stopped → r.startDelay = if r.held = true then .suspended delay else .running (after p.ms delay)) ∧
    (∀ e, old.startDelay = .running e →
      r.startDelay = if r.held = true then .suspended (msLeft e p.ms) else .running e) ∧
    (∀ k, old.startDelay = .suspended k →
      r.startDelay = if r.held = true then .suspended k else .running (after p.ms k))) ∧
  ((∀ tg, ¬ releaseHolds p i tg) → r.releaseHold = none) ∧
  (∀ tg, releaseHolds p i tg →
    (∀ e, old.releaseHold = some (tg, e) → r.releaseHold = some (tg, e)) ∧
    ((∀ e, old.releaseHold ≠ some (tg, e)) → r.releaseHold = some (tg, hold)))

/-- Whether the totals and the condition an island holds are those its generators and shed list give now (R42 to R46). -/
def islandAgrees (p : Part) (i : SecId) : Prop :=
  p.islands[i].totals = totalsOf p i ∧ p.islands[i].condition = conditionOf p i (totalsOf p i)

/-- Whether what an island holds, its HELD mark too, is what its members give now (R42 to R46, R49). -/
def islandStands (p : Part) (i : SecId) : Prop := islandAgrees p i ∧ p.islands[i].held = heldOf p i

/-- Every island holds what its members give, every drive's entry is HELD (R103), and the release-hold timers run for the
most recent entries. -/
def Part.balanced (p : Part) : Prop :=
  (∀ i, releaseTimed p i) ∧ (∀ e ∈ p.shedList, ∀ d, e.target = .drive d → e.state = .held) ∧
    ∀ i, isIslandId p.img.ties i = true → islandStands p i

/-! ## What an event reports -/

/-- A report: a command given (R157), a notice queued (R160), or an attention bit set (R178). -/
inductive Report where
  | command (c : Command)
  | notice (n : Notice)
  | attention (b : AttBit)
  deriving DecidableEq, Repr

/-- The part after one report. -/
def Report.make (r : Report) (p : Part) : Part :=
  match r with
  | .command c => giveCommand c p
  | .notice n => queueNotice n p
  | .attention b => setAtt b p

/-- The part after the reports, in their order. -/
def reported (rs : List Report) (p : Part) : Part := rs.foldl (fun q r => r.make q) p

/-- Every attention bit set before is set after: bits only rise (R178). -/
def attRises (p q : Part) : Prop := ∀ n, p.att.word.getLsbD n = true → q.att.word.getLsbD n = true

/-! ## Where a command stands (R157) -/

/-- Whether a command of a kind for a target is pending, or is the one being posted into a COMMAND frame. -/
def commandGiven (p : Part) (t : CmdTarget) (k : CmdKind) : Bool :=
  (p.lu.pendingCmds.any fun c => c.target == t && c.kind == k) ||
    (match p.lu.command.post with
     | some po => bits po.w0 16 8 == cmdKindCode k && bits po.w1 0 8 == cmdSubject t
     | none => false)

/-! ## Laws of the list unit and the store queue -/

/-- The ring heads of a channel as R186 reads them from the sequence counter: the spare-ring head is the next sequence
number, and the ready-ring head is it less the FILLING frame and the ready count, all modulo 64. -/
def ringLaw (c : Channel) : Prop :=
  c.spare.head.val = c.seq.toNat % 64 ∧
    (c.ready.head.val + c.ready.count + flag c.post.isSome) % 64 = c.seq.toNat % 64

/-- Both channels keep the ring law (R186). -/
def Part.ringsAgree (p : Part) : Prop := ringLaw p.lu.command ∧ ringLaw p.lu.notice

/-- The frame numbers in a ring, from its head on (R152). -/
def ringList (r : Ring) : List FrameId := (List.range r.count).map fun k => r.slots[(Fin.ofNat 64 (r.head.val + k) : FrameId)]

/-- A channel's rings and post hold the frames their states say: the SPARE frames once each on the spare ring, the
READY frames once each on the ready ring, and the FILLING frame is the post's (R151, R152). -/
def framesLaw (c : Channel) : Prop :=
  (ringList c.spare).Nodup ∧ (ringList c.ready).Nodup ∧
    ∀ f : FrameId,
      (c.frames[f] = .spare ↔ f ∈ ringList c.spare) ∧ (c.frames[f] = .ready ↔ f ∈ ringList c.ready) ∧
        (c.frames[f] = .filling ↔ ∃ po, c.post = some po ∧ po.frame = f)

/-- Both channels keep the frames law (R151). -/
def Part.framesAgree (p : Part) : Prop := framesLaw p.lu.command ∧ framesLaw p.lu.notice

/-- At most one store-queue entry for any word (R8), at most one pending command for any target (R157), at most one
spare-mirror item for any slot (R153), and at most 32 held notices (R160). -/
def Part.queuesBounded (p : Part) : Prop :=
  (p.sq.map SqEntry.word).Nodup ∧ (p.lu.pendingCmds.map Command.target).Nodup ∧ p.lu.spareMirror.Nodup ∧
    p.lu.notices.length ≤ 32

/-! ## The law of the guarded word (R138, R139, R142) -/

/-- The ladder's copy of every CMD word agrees with its standing of the consumer, and no STUCK and no RESTORING consumer
has an entry (R96, R138, R142). -/
def Part.guardLaw (p : Part) : Prop :=
  ∀ c : ConsId, cmdAgrees c p = true ∧
    (p.cons[c].state = .stuck ∨ p.cons[c].state = .restoring → hasEntry p (.cons c) = false)

/-- The word address of a consumer's CMD word. -/
def cmdAddr (p : Part) (c : ConsId) : WordAddr := windowAddr p.base (consWordOffset c 1)

/-- The value of a consumer's CMD word as either port is given it: its store-queue entry's data, and SRAM's word where
it has none (R26). -/
def cmdValue (s : State) (c : ConsId) : Word :=
  match s.part.sq.find? fun e => e.word == .consCmd c with
  | some e => e.data
  | none => s.bus.sram.read (cmdAddr s.part c)

/-- Whether a waiting access is what the decoder makes of its address: a write to a CMD word waits as one, with every
strobe (R18, R19). -/
def accessAgrees (p : Part) (ph : PortPhase) : Prop :=
  match ph with
  | .waiting a =>
    ∀ c : ConsId, a.addr = cmdAddr p c →
      (∃ paired, a.job = .read paired) ∨ (∃ ack masked, a.job = .consCmd c ack masked) ∧ a.strobes = allStrobes
  | .idle | .done _ _ => True

/-- A write waiting as a CMD write is one (R18). -/
def cmdJobAgrees (p : Part) (ph : PortPhase) : Prop :=
  match ph with
  | .waiting a => ∀ c ack masked, a.job = .consCmd c ack masked → a.addr = cmdAddr p c
  | .idle | .done _ _ => True

/-- The CMD word of every guarded consumer has the value of the ladder's copy, in its store-queue entry or in SRAM
(R142), with what this rests on: one entry a word, the copies agreeing, and the waiting accesses as judged. -/
def State.guardedWords (s : State) : Prop :=
  s.part.guardLaw ∧ (s.part.sq.map SqEntry.word).Nodup ∧
    accessAgrees s.part s.bus.cp ∧ accessAgrees s.part s.bus.fp ∧
    cmdJobAgrees s.part s.bus.cp ∧ cmdJobAgrees s.part s.bus.fp ∧
    ∀ c : ConsId, isGuarded s.part c = true → cmdValue s c = s.part.cmd[c]

end Sys2Proof.Machine
end

