-- ==== Sys2Proof/Certificates/Slice0/Obligations.lean ====
section
/-! DEFINITION. The statements for the provers: what each command and the block do, from the numbered rules of the
spec. A statement about a command says for which states and operands it completes, what it gives, and what it leaves. -/

open Sys2Proof Sys2Proof.Machine

/-! ## The step -/

/-- A step with a command at the front of the queue is that command's effect on the state with the queue's rest. -/
def Obligations.StepRunsFrontCommand : Prop :=
  ∀ (c : Instr) (s : State), step { s with pending := c :: s.pending } = exec c s

/-- With no command waiting a step is one rising edge of TBCLK: the counts advance (R12), and an open pair counts the
edge. That the empty queue stands for an edge is the model's choice (assumption log 12), and so is that an edge finds the
latest cycle complete (assumption log 3). -/
def Obligations.EmptyQueueIsOneEdge : Prop :=
  ∀ s : State, s.pending = [] →
    ∃ t, step s = .next t ∧ t.pending = [] ∧
      (s.bus.subMs < 999 → t.bus.subMs = s.bus.subMs + 1 ∧ t.part.ms = s.part.ms) ∧
      (999 ≤ s.bus.subMs → t.bus.subMs = 0 ∧ t.part.ms = s.part.ms + 1) ∧
      (s.bus.pair = none → t.bus = { s.bus with
        subMs := t.bus.subMs, cycle := if cycleOpen s.part then s.bus.cycle else none }) ∧
      (∀ pr, s.bus.pair = some pr → pr.edges < 3 →
        t.bus = { s.bus with subMs := t.bus.subMs, cycle := if cycleOpen s.part then s.bus.cycle else none
                             pair := some { pr with edges := pr.edges + 1 } }) ∧
      (∀ pr, s.bus.pair = some pr → 3 ≤ pr.edges → t.bus.pair = none) ∧
      ((s.bus.pair = none ∨ ∃ pr, s.bus.pair = some pr ∧ pr.edges < 3) →
        (∀ w, s.part.plans.loader = .loading w →
          t.part = { s.part with ms := t.part.ms, plans := { s.part.plans with
            loader := .loading { w with gapLeft := w.gapLeft - 1 } } }) ∧
        ((∀ w, s.part.plans.loader ≠ .loading w) → t.part = { s.part with ms := t.part.ms }))

/-- Every command answers a next state, whatever the state and the operands, and leaves the queue as it stands. -/
def Obligations.EveryCommandAnswersNext : Prop :=
  ∀ (c : Instr) (s : State), ∃ t, exec c s = .next t ∧ t.pending = s.pending

/-! ## Resets (R13, R14) -/

/-- What FULL_RESET leaves, and that with PWR_RST_N asserted no wait signal and no line is active (R13, R181, R183). No
byte of SRAM is written: a byte's data and parity stand, but for the strobed bytes of the cycle's write that the reset cuts
short, an access's own or a promoted one (R8, R10, R13). The moments, and which cycle the reset may fall in, are
assumption log 3's; the released CTL_RST_N is log 16's, the blank slots of the rings log 29's, and that the copies of the
CMD, MEAS, TIES and FIXED words are 0 in the bits outside their fields too is log 21's. -/
def Obligations.FullResetLeaves : Prop :=
  ∀ (straps : BitVec 8) (moment : ResetMoment) (s : State),
    linesAt true (assertPower moment s) = ⟨false, false, false, false⟩ ∧
    ∃ t, exec (.fullReset straps moment) s = .next t ∧ t = releasePower straps (assertPower moment s) ∧
    linesAt false t = ⟨false, false, false, true⟩ ∧
    (∀ a, (∀ (w : WordAddr) (strobes : BitVec 4) (n : Nat),
        (moment = .inCycle ∧ s.bus.cycle.map Cycle.kind = some (.write w strobes) ∨
         moment = .inPromotion ∧ s.bus.cycle.map Cycle.kind = some (.promotedRead w) ∧ strobes = 15#4) →
        n < 4 → strobes.toNat.testBit n = true → a ≠ laneAddr w n) →
      t.bus.sram.readByte a = s.bus.sram.readByte a ∧ t.bus.sram.readParity a = s.bus.sram.readParity a) ∧
    t.bus.cycle = none ∧ t.pending = s.pending ∧ t.part.base = straps ∧ t.part.ms = 0#32 ∧ t.bus.subMs = 0 ∧
    t.bus.cp = .idle ∧ t.bus.fp = .idle ∧ t.bus.ctlHeld = false ∧ t.bus.pair = none ∧ t.bus.last = .pl ∧
    t.part.sq = [] ∧ t.part.shedList = [] ∧
    (∀ (ch : Chan) (f : FrameId), (getChan t.part.lu ch).frames[f] = .out) ∧
    (∀ ch : Chan, (getChan t.part.lu ch).post = none ∧ (getChan t.part.lu ch).seq = 0#16 ∧
      (getChan t.part.lu ch).spare.head = 0 ∧ (getChan t.part.lu ch).spare.count = 0 ∧
      (getChan t.part.lu ch).ready.head = 0 ∧ (getChan t.part.lu ch).ready.count = 0) ∧
    t.part.lu.pendingCmds = [] ∧ t.part.lu.notices = [] ∧ t.part.lu.spareMirror = [] ∧
    t.part.lu.lastServed = .spareMirror ∧
    t.part.plans.staging = Plan.empty ∧ t.part.plans.active = Plan.empty ∧ t.part.plans.loader = .idle ∧
    t.part.plans.key = .locked ∧ t.part.plans.partState = .noPlan ∧ t.part.plans.settlingTimer = none ∧
    (∀ i : SecId, t.part.islands[i] = ⟨⟨0, 0, 0, 0⟩, .dead, false, false, 0#20, none, .stopped, none, false, false⟩) ∧
    (∀ g : GenId, t.part.gens[g] = ⟨.idle, false, .controller, false, none, 0, none, false, none⟩) ∧
    (∀ g : GenId, t.part.sharing[g] = ⟨0, false, 0, 0#16, 0, none⟩) ∧
    (∀ c : ConsId, t.part.cons[c] = ⟨.isOpen, none⟩ ∧ t.part.cmd[c] = 0#32) ∧
    (∀ d : DriveId, t.part.drives[d] = ⟨false, 0⟩ ∧ effectiveLimit t.part d = 65535) ∧
    (∀ r : RecordId, copyOf t.part r = ⟨0#32, false, none⟩) ∧
    (∀ g : GenId, reqFixed t.part.img.genReq[g] = false ∧ reqWeight t.part.img.genReq[g] = 1 ∧
      t.part.img.genFixed[g] = 0#32) ∧
    t.part.img.planLoad = 0#32 ∧ t.part.img.key = 0#32 ∧ t.part.img.activate = 0#32 ∧
    t.part.img.attMask = 0xFFFFFFFF#32 ∧ t.part.img.refused = ⟨0#16, .cp, .none, false, false⟩ ∧
    t.part.att.word = 0#16 ∧ t.part.att.snapshot = none ∧ t.part.att.mask = 0xFFFF#16 ∧
    intActive t.part.att = false ∧ causeValue t.part.att = 0 ∧ urgActive t.part = true

/-- What a controller reset does, and that it leaves the rest: the CP access is abandoned, the pair ends, the key is
LOCKED, every bit masked, the snapshot empty, and a load in progress ends INTERRUPTED, a read granted to the
loader completing with its word discarded (R14, R177, R179, R181; that the address reported is then the discarded word's
is assumption log 35). With its release, CP takes accesses again; while it lasts, or while an access waits, a port takes
none (assumption log 9). -/
def Obligations.ControllerResetLeaves : Prop :=
  (∀ (s : State) (midRead : Bool), ∃ t, exec (.controllerReset midRead) s = .next t ∧ t.pending = s.pending ∧
    (midRead = false ∨ nextGrant s.bus s.part ≠ some (.rotating .pl) →
      t.bus = { s.bus with cp := .idle, pair := none, ctlHeld := true }) ∧
    (midRead = true → nextGrant s.bus s.part = some (.rotating .pl) →
      t.bus = { s.bus with cp := .idle, pair := none, ctlHeld := true, last := .pl,
                           cycle := some ⟨.rotating .pl, .read⟩ }) ∧
    let q : Part := { s.part with plans := { s.part.plans with key := .locked },
                                  att := { s.part.att with snapshot := none, mask := 0xFFFF#16 } }
    ((∀ w, s.part.plans.loader ≠ .loading w) → t.part = q) ∧
    (∀ w, s.part.plans.loader = .loading w →
      t.part = reported [.notice (notice .planFailed 0 6 0 0 (kw (walkAddr w)) (kw w.walked)), .attention .plan]
        { q with plans := { q.plans with loader := .failed .interrupted } })) ∧
  (∀ s : State, exec .controllerResetRelease s = .next { s with bus := { s.bus with ctlHeld := false } }) ∧
  (∀ (s : State) (port : Port) (a : WordAddr) (strobes : BitVec 4) (data : Word) (sram : SramAt),
    (isWaiting (phaseOf port s.bus) = true ∨ (port = .cp ∧ s.bus.ctlHeld = true)) →
      exec (.passThroughWrite port a strobes data sram) s = .next s ∧
      exec (.masterRead port a strobes sram) s = .next s ∧
      (port = .cp → exec (.pairedRead a strobes sram) s = .next s))

/-! ## Accesses (chapters 1 and 2) -/

/-- The commands named for one word are the accesses of that word's address, which R15 to R17 give; START, STOP, CLEAR and
NO_ACTION are one write of the REQ word, whatever its data, and so are CONSUMER_CMD_WRITE and ACK of the CMD word. That a
row stands for the access through the decoder is the model's choice (assumption log 34). -/
def Obligations.NamedRowsAreWindowAccesses : Prop :=
  ∀ (s : State) (k : BitVec 4) (x : Word) (m : SramAt),
    (∀ g : GenId, exec (.generatorMeasWrite g k x m) s
      = exec (.passThroughWrite .fp (windowAddr s.part.base (0x400 + 0x40 * g.val)) k x m) s) ∧
    (∀ c : ConsId, exec (.consumerMeasWrite c k x m) s
      = exec (.passThroughWrite .fp (windowAddr s.part.base (0x800 + 0x20 * c.val)) k x m) s) ∧
    (∀ d : DriveId, exec (.driveMeasWrite d k x m) s
      = exec (.passThroughWrite .fp (windowAddr s.part.base (0x340 + 0x20 * d.val)) k x m) s) ∧
    exec (.tiesWrite k x m) s = exec (.passThroughWrite .fp (windowAddr s.part.base 0x300) k x m) s ∧
    (∀ g, ∀ c ∈ [Instr.start g k x m, .stop g k x m, .clear g k x m, .noAction g k x m],
      exec c s = exec (.passThroughWrite .cp (windowAddr s.part.base (0x400 + 0x40 * g.val + 4)) k x m) s) ∧
    (∀ g : GenId, exec (.fixedWrite g k x m) s
      = exec (.passThroughWrite .cp (windowAddr s.part.base (0x400 + 0x40 * g.val + 8)) k x m) s) ∧
    (∀ d : DriveId, exec (.driveReqWrite d k x m) s
      = exec (.passThroughWrite .cp (windowAddr s.part.base (0x340 + 0x20 * d.val + 4)) k x m) s) ∧
    (∀ c, ∀ i ∈ [Instr.consumerCmdWrite c k x m, .ack c k x m],
      exec i s = exec (.passThroughWrite .cp (windowAddr s.part.base (0x800 + 0x20 * c.val + 4)) k x m) s) ∧
    exec (.planLoad k x m) s = exec (.passThroughWrite .cp (windowAddr s.part.base 0x200) k x m) s ∧
    exec (.key k x m) s = exec (.passThroughWrite .cp (windowAddr s.part.base 0x204) k x m) s ∧
    exec (.activate k x m) s = exec (.passThroughWrite .cp (windowAddr s.part.base 0x208) k x m) s ∧
    exec (.attMask k x m) s = exec (.passThroughWrite .cp (windowAddr s.part.base 0x20C) k x m) s ∧
    exec .attentionRead s = exec (.masterRead .cp (windowAddr s.part.base 8) 15#4 .free) s ∧
    exec (.attentionWrite k x) s = exec (.passThroughWrite .cp (windowAddr s.part.base 8) k x .free) s ∧
    (∀ port, exec (.give port .command k x) s
        = exec (.passThroughWrite port (windowAddr s.part.base 0x14) k x .free) s ∧
      exec (.give port .notice k x) s = exec (.passThroughWrite port (windowAddr s.part.base 0x1C) k x .free) s ∧
      exec (.take port .command) s = exec (.masterRead port (windowAddr s.part.base 0x18) 15#4 .free) s ∧
      exec (.take port .notice) s = exec (.masterRead port (windowAddr s.part.base 0x20) 15#4 .free) s ∧
      exec (.refusedDetailRead port) s = exec (.masterRead port (windowAddr s.part.base 0x24) 15#4 .free) s)

/-- What the arbiter grants next, while no cycle is in progress: under an open pair CP alone; else the store queue
while it holds an entry; else the first of CP, FP, LU and PL after the last granted that has a request (R6). -/
def Obligations.ArbiterOrder : Prop :=
  ∀ (b : Bus) (p : Part), cycleOpen p = false →
    (b.pair ≠ none → nextGrant b p = if isWaiting b.cp then some (.rotating .cp) else none) ∧
    (b.pair = none → p.sq ≠ [] → nextGrant b p = some .storeQueue) ∧
    (b.pair = none → p.sq = [] →
      (∀ r, nextGrant b p = some (.rotating r) →
        requests b p r = true ∧
          ∀ r', (rotationAfter b.last).idxOf r' < (rotationAfter b.last).idxOf r → requests b p r' = false) ∧
      (nextGrant b p = none → ∀ r, requests b p r = false) ∧
      nextGrant b p ≠ some .storeQueue) ∧
    rotationAfter .pl = [.cp, .fp, .lu, .pl] ∧ rotationAfter .cp = [.fp, .lu, .pl, .cp] ∧
    rotationAfter .fp = [.lu, .pl, .cp, .fp] ∧ rotationAfter .lu = [.pl, .cp, .fp, .lu]

/-- Who may write what, and the order of the checks (R18, R19): class and port, then the full word, then the word's own
check. -/
def Obligations.WriteOwnership : Prop :=
  ∀ (port : Port) (strobes : BitVec 4) (x : Word) (p : Part),
    (∀ w ∈ [WinWord.ties] ++ (List.finRange 8).map WinWord.genMeas ++ (List.finRange 64).map WinWord.consMeas
          ++ (List.finRange 4).map WinWord.driveMeas,
      writeVerdict port w strobes x p
        = if port = .cp then some .class_ else if strobes ≠ 15#4 then some .partial_ else none) ∧
    (∀ w ∈ [WinWord.key, .activate, .attMask] ++ (List.finRange 8).map WinWord.genFixed
          ++ (List.finRange 4).map WinWord.driveReq,
      writeVerdict port w strobes x p
        = if port = .fp then some .class_ else if strobes ≠ 15#4 then some .partial_ else none) ∧
    (∀ g : GenId, writeVerdict port (.genReq g) strobes x p
        = if port = .fp then some .class_ else if strobes ≠ 15#4 then some .partial_
          else if bit x 4 = false ∧ bits x 8 4 = 0 then some .invalidValue
          else if bits x 0 2 ≠ 0 ∧ p.plans.active.gens[g] = none then some .absent else none) ∧
    (∀ c : ConsId, writeVerdict port (.consCmd c) strobes x p
        = if port = .fp then some .class_ else if strobes ≠ 15#4 then some .partial_
          else if bits x 0 2 = 3 then some .invalidValue else none) ∧
    writeVerdict port .planLoad strobes x p
        = (if port = .fp then some .class_ else if strobes ≠ 15#4 then some .partial_
          else if isLoading p then some .busy else none) ∧
    (∀ g : GenId, writeVerdict port (.genTarget g) strobes x p = some .class_) ∧
    (∀ d : DriveId, writeVerdict port (.driveLimit d) strobes x p = some .class_) ∧
    writeVerdict port .mirror strobes x p = some .class_ ∧
    writeVerdict port .frame strobes x p = none ∧ writeVerdict port .free strobes x p = none ∧
    writeVerdict port (.live .attention) strobes x p
        = (if port = .fp then some .wrongPort else if strobes ≠ 15#4 then some .partial_ else none) ∧
    (∀ ch, writeVerdict port (.live (.give ch)) strobes x p
        = if port ≠ (match ch with | .command => Port.fp | .notice => Port.cp) then some .wrongPort
          else if strobes ≠ 15#4 then some .partial_
          else match frameOf p.base ch x with
            | none => some .badFrame
            | some f => if (getChan p.lu ch).frames[f] = .out then none else some .notOut) ∧
    (∀ l ∈ [LiveWord.partStatus, .time, .cause, .counts, .take .command, .take .notice, .refusedDetail, .hole]
          ++ (List.finRange 8).map LiveWord.genStatus ++ (List.finRange 64).map LiveWord.consStatus
          ++ (List.finRange 4).map LiveWord.driveStatus,
      writeVerdict port (.live l) strobes x p = some .class_) ∧
    (∀ i n, writeVerdict port (.live (.island i n)) strobes x p = some .class_) ∧
    (∀ k, writeVerdict port (.live (.shedView k)) strobes x p = some .class_)

/-- A refused write of the window: ERR at once, no byte stored, no copy changed, the record in REFUSED_DETAIL with its
OVERWRITTEN mark, attention REFUSED and a REFUSED notice; the refused write of an open pair ends it (R7, R20, R21). A read
of a live word from a port it does not answer: ERR with all ones, and no effect of the word, recorded alike (R20). A write
of a live offset that carries no word is refused CLASS (R17). A read of REFUSED_DETAIL gives the offset, the port, the
reason and the OVERWRITTEN mark, the bits outside them 0; CP's clears OVERWRITTEN, FP's changes nothing (R21, R184). -/
def Obligations.RefusalsRecorded : Prop :=
  let recorded := fun (port : Port) (off : Nat) (r : Reason) (p : Part) =>
    reported [.attention .refused, .notice (notice .refused (portCode port) (reasonCode r) 0 0 (kw off) 0#32)]
      { p with img := { p.img with refused :=
        { offset := BitVec.ofNat 16 off, port := port, reason := r, unread := true,
          overwritten := p.img.refused.overwritten || (p.img.refused.reason != .none && p.img.refused.unread) } } }
  let shows := fun (d : RefusedDetail) (w : Word) =>
    bits w 0 16 = d.offset.toNat ∧ bit w 16 = (match d.port with | .cp => false | .fp => true) ∧
    bits w 17 4 = (match d.reason with
      | .none => 0 | .class_ => 1 | .partial_ => 2 | .invalidValue => 3 | .absent => 4 | .badFrame => 5 | .notOut => 6
      | .busy => 7 | .wrongPort => 8) ∧
    bit w 21 = d.overwritten ∧ bits w 22 10 = 0
  (∀ (s : State) (port : Port) (off : Nat) (strobes : BitVec 4) (x : Word) (m : SramAt) (r : Reason),
    off < 0x10000 → off % 4 = 0 → portReady port s.bus = true →
    writeVerdict port (classify off) strobes x s.part = some r →
    exec (.passThroughWrite port (windowAddr s.part.base off) strobes x m) s = .next { s with
      bus := { busAfterAnswer port .err none s.bus with
        pair := if port = .cp ∧ s.bus.pair.map Pair.addr = some (windowAddr s.part.base off) then none
                else s.bus.pair }
      part := recorded port off r s.part }) ∧
  (∀ (port : Port) (off : Nat) (strobes : BitVec 4) (x : Word) (p : Part), off % 4 = 0 →
    (0x28 ≤ off ∧ off < 0x40 ∨ 0x1D0 ≤ off ∧ off < 0x200) →
    writeVerdict port (classify off) strobes x p = some .class_) ∧
  (∀ (s : State) (r : WrongPortRead), portReady (wrongPort r) s.bus = true →
    exec (.refusedRead r) s = .next { s with
      bus := busAfterAnswer (wrongPort r) .err (some 0xFFFFFFFF#32) s.bus
      part := recorded (wrongPort r) (wrongOffset r) .wrongPort s.part }) ∧
  (∀ s : State, portReady .cp s.bus = true → ∃ w, shows s.part.img.refused w ∧
    exec (.refusedDetailRead .cp) s = .next
      { s with
        bus := busAfterAnswer .cp .ok (some w) s.bus
        part := { s.part with img := { s.part.img with refused :=
          { s.part.img.refused with overwritten := false, unread := false } } } }) ∧
  (∀ s : State, portReady .fp s.bus = true → ∃ w, shows s.part.img.refused w ∧
    exec (.refusedDetailRead .fp) s = .next { s with bus := busAfterAnswer .fp .ok (some w) s.bus })

/-- A write outside the window, or of a FRAME or FREE word, at a free port: its strobed bytes are stored with fresh odd
parity, every other byte stands, and nothing behind the ports changes (R3, R4, R10, R18). -/
def Obligations.PassThroughWriteStores : Prop :=
  ∀ (s : State) (port : Port) (a : WordAddr) (strobes : BitVec 4) (x : Word),
    portFree port s = true →
    (inWindow s.part.base a = false ∨ classify (windowOffset a) = .frame ∨ classify (windowOffset a) = .free) →
    ∃ t, exec (.passThroughWrite port a strobes x .free) s = .next t ∧ t.part = s.part ∧ t.pending = s.pending ∧
      t.bus = busAfterWrite port a strobes x s.bus ∧
      (∀ n, n < 4 → strobes.toNat.testBit n = true →
        t.bus.sram.readByte (laneAddr a n) = laneByte x n ∧
        t.bus.sram.readParity (laneAddr a n) = oddParity (laneByte x n)) ∧
      (∀ b, (∀ n, n < 4 → strobes.toNat.testBit n = true → b ≠ laneAddr a n) →
        t.bus.sram.readByte b = s.bus.sram.readByte b ∧ t.bus.sram.readParity b = s.bus.sram.readParity b)

/-- A read served from SRAM at a free port: the four bytes with OK if the checked bytes hold odd parity; else ERR with
the data as it stands, attention PARITY and a notice with the full address (R3, R11, R26). A whole word written through
a port reads back with OK (R10). An FP read of a word with a store-queue entry is answered RETRY, with no effect (R2,
R146). -/
def Obligations.ReadServedFromSram : Prop :=
  (∀ (s : State) (port : Port) (a : WordAddr), portFree port s = true →
    (inWindow s.part.base a = false ∨ ∀ l, classify (windowOffset a) ≠ .live l) →
    (∀ strobes, s.bus.sram.parityGood a strobes = true →
      exec (.masterRead port a strobes .free) s
        = .next { s with bus := busAfterRead port .ok (s.bus.sram.read a) s.bus }) ∧
    (∀ strobes, s.bus.sram.parityGood a strobes = false →
      exec (.masterRead port a strobes .free) s
        = .next { s with
            bus := busAfterRead port .err (s.bus.sram.read a) s.bus
            part := reported [.attention .parity,
              .notice (notice .parity (portCode port) 0 0 0 (kw (4 * a.toNat)) 0#32)] s.part }) ∧
    ((inWindow s.part.base a = false ∨ classify (windowOffset a) = .frame ∨ classify (windowOffset a) = .free) →
      ∀ x : Word, ∃ t u, exec (.passThroughWrite port a 15#4 x .free) s = .next t ∧
        exec (.masterRead port a 15#4 .free) t = .next u ∧ phaseOf port u.bus = .done .ok (some x))) ∧
  (∀ (s : State) (off : Nat) (strobes : BitVec 4) (m : SramAt), off < 0x10000 → off % 4 = 0 →
    (∀ l, classify off ≠ .live l) → portReady .fp s.bus = true →
    (∃ e ∈ s.part.sq, sqOffset e.word = off) →
    exec (.masterRead .fp (windowAddr s.part.base off) strobes m) s
      = .next { s with bus := busAfterAnswer .fp .retry none s.bus })

/-- What the live words answer, OK at once and without an effect, to either port: PART_STATUS, TIME, COUNTS, the GIVE
words, ISLAND, SHED_VIEW and the STATUS words, every field of each as chapter 12 lays it out, the bits outside the fields 0,
and the words of a section that is no island's id 0 but for the id; and 0 at each live offset that carries no word (R17,
R27 to R30, R54, R55, R155, R184, R185). A count or a total past its field's length shows its low bits. -/
def Obligations.LiveWordsAnswer : Prop :=
  ∀ (s : State) (port : Port) (strobes : BitVec 4) (m : SramAt), portReady port s.bus = true →
    let p := s.part
    let answer := fun (off : Nat) (w : Word) => exec (.masterRead port (windowAddr p.base off) strobes m) s
      = .next { s with bus := busAfterAnswer port .ok (some w) s.bus }
    let left := fun t : Option Word => (t.map fun e => msLeft e p.ms).getD 0
    (∃ w, answer 0x00 w ∧ bits w 0 2 = partStateCode p.plans.partState ∧ bits w 2 3 = loaderCode p.plans.loader ∧
      bits w 5 3 = (match p.plans.loader with | .failed r => loadFailureCode r | _ => 0) ∧
      bits w 8 2 = keyCode p.plans.key ∧ bits w 10 2 = freshnessCode (freshness p.img.ties) ∧ bits w 12 2 = 0 ∧
      bits w 14 2 = bits p.img.attMask 16 2 ∧
      bits w 16 16 = (if bits p.img.attMask 16 2 = 0 then activeTag p.plans
        else if bits p.img.attMask 16 2 = 1 then stagingTag p.plans else p.base.toNat) % 65536) ∧
    answer 0x04 p.ms ∧
    (∀ off, off % 4 = 0 → (0x28 ≤ off ∧ off < 0x40 ∨ 0x1D0 ≤ off ∧ off < 0x200) → answer off 0#32) ∧
    (∃ w, answer 0x10 w ∧ bits w 0 7 = p.sq.length % 128 ∧ bits w 7 7 = p.shedList.length % 128 ∧
      bits w 14 7 = p.lu.pendingCmds.length % 128 ∧ bits w 21 6 = p.lu.notices.length % 64 ∧ bits w 27 5 = 0) ∧
    (∀ ch, ∃ w, answer (giveOffset ch) w ∧ bits w 0 7 = (getChan p.lu ch).spare.count % 128 ∧
      bits w 7 7 = (getChan p.lu ch).ready.count % 128 ∧ bit w 14 = (getChan p.lu ch).post.isSome ∧
      bit w 15 = false ∧ bits w 16 16 = (getChan p.lu ch).seq.toNat) ∧
    (∀ i : SecId, isIslandId p.img.ties i = true →
      let r := p.islands[i]
      let count := fun st : GenState =>
        ((List.finRange 8).filter fun g : GenId => genIsland p g = some i ∧ p.gens[g].state = st).length
      ∃ w : Nat → Word, (∀ n, n < 8 → answer (0x40 + 0x20 * i.val + 4 * n) (w n)) ∧
        bit (w 0) 0 = true ∧ bits (w 0) 1 2 = i.val ∧
        (∀ sec : SecId, bit (w 0) (3 + sec.val) = decide (islandId p.img.ties sec = i)) ∧
        bits (w 0) 7 2 = conditionCode r.condition ∧ bit (w 0) 9 = r.held ∧ bit (w 0) 10 = r.exhausted ∧
        bits (w 0) 11 4 = count .starting ∧ bits (w 0) 15 4 = count .online ∧ bits (w 0) 19 4 = count .unloading ∧
        bits (w 0) 23 2 = (if r.overload.isSome then 1 else 0) ∧
        bits (w 0) 25 2 = (match r.startDelay with | .stopped => 0 | .running _ => 1 | .suspended _ => 2) ∧
        bits (w 0) 27 2 = (if r.releaseHold.isSome then 1 else 0) ∧ bits (w 0) 29 3 = 0 ∧
        (∀ n k, (n, k) ∈ [(1, r.totals.firm), (2, r.totals.limit), (3, r.totals.load), (5, r.totals.openingCredit)] →
          bits (w n) 0 20 = k % 1048576 ∧ bits (w n) 20 12 = 0) ∧
        w 4 = BitVec.ofInt 32 ((r.totals.firm : Int) - (r.totals.load : Int)) ∧
        bits (w 6) 0 16 = left r.overload % 65536 ∧
        bits (w 6) 16 16 = (match r.startDelay with
          | .stopped => 0
          | .running e => msLeft e p.ms
          | .suspended k => k) % 65536 ∧
        bits (w 7) 0 20 = (if r.exhausted then r.need.toNat else 0) ∧
        bits (w 7) 20 12 = (left (r.releaseHold.map Prod.snd) + 99) / 100 % 4096) ∧
    (∀ i : SecId, isIslandId p.img.ties i = false →
      (∃ w, answer (0x40 + 0x20 * i.val) w ∧ bit w 0 = false ∧ bits w 1 2 = (islandId p.img.ties i).val ∧
        bits w 3 29 = 0) ∧
      (∀ n, 1 ≤ n → n < 8 → answer (0x40 + 0x20 * i.val + 4 * n) 0#32)) ∧
    (∀ k, k < 68 →
      (p.shedList.length ≤ k → answer (0xC0 + 4 * k) 0xFFFFFFFF#32) ∧
      (∀ e, p.shedList[k]? = some e → ∃ w, answer (0xC0 + 4 * k) w ∧ bits w 0 7 = targetIndex e.target ∧
        bits w 7 3 = shedCauseCode e.cause ∧ bit w 10 = isOpening e ∧ bits w 11 16 = e.credit % 65536 ∧
        bits w 27 5 = 0)) ∧
    (∀ g : GenId, ∃ w, answer (genWordOffset g 4) w ∧ bit w 0 = p.plans.active.gens[g].isSome ∧
      bits w 1 3 = genStateCode p.gens[g].state ∧ bits w 4 2 = freshnessCode (freshness p.img.genMeas[g]) ∧
      bits w 6 2 = breakerCode (measBreaker p.img.genMeas[g]) ∧ bits w 8 2 = (islandField (genIsland p g)).val ∧
      bit w 10 = (p.gens[g].state == .starting && p.gens[g].automatic) ∧ bits w 11 21 = 0) ∧
    (∀ c : ConsId, ∃ w, answer (consWordOffset c 2) w ∧ bit w 0 = p.plans.active.cons[c].isSome ∧
      bits w 1 3 = consStateCode p.cons[c].state ∧ bit w 4 = isGuarded p c ∧
      bits w 5 2 = freshnessCode (freshness p.img.consMeas[c]) ∧
      bits w 7 2 = breakerCode (measBreaker p.img.consMeas[c]) ∧
      bits w 9 2 = (islandField (consIsland p c)).val ∧ bits w 11 21 = 0) ∧
    (∀ d : DriveId, ∃ w, answer (driveWordOffset d 3) w ∧ bit w 0 = p.plans.active.drives[d].isSome ∧
      bit w 1 = p.drives[d].cut ∧ bit w 2 = driveRunning p.img.driveMeas[d] ∧
      bits w 3 2 = freshnessCode (freshness p.img.driveMeas[d]) ∧
      bits w 5 2 = (islandField (driveIsland p d)).val ∧ bits w 7 9 = 0 ∧
      bits w 16 16 = effectiveLimit p d)

/-- A pair-marked read at a free port that completes OK opens a pair on its word; one that fails parity opens none, and
one of a live word that CP may read is answered as a read and opens none (R7, R27). That the latter leaves an open pair
standing is the model's choice (assumption log 36). -/
def Obligations.PairedReadOpensPair : Prop :=
  ∀ (s : State) (a : WordAddr) (strobes : BitVec 4),
    (portFree .cp s = true → (inWindow s.part.base a = false ∨ ∀ l, classify (windowOffset a) ≠ .live l) →
      (s.bus.sram.parityGood a strobes = true →
        exec (.pairedRead a strobes .free) s
          = .next { s with bus := { busAfterRead .cp .ok (s.bus.sram.read a) s.bus with pair := some ⟨a, 0⟩ } }) ∧
      (s.bus.sram.parityGood a strobes = false →
        ∃ t, exec (.pairedRead a strobes .free) s = .next t ∧
          t.bus = busAfterRead .cp .err (s.bus.sram.read a) s.bus)) ∧
    (portReady .cp s.bus = true → inWindow s.part.base a = true →
      ∀ l, classify (windowOffset a) = .live l → answers l .cp = true →
        exec (.pairedRead a strobes .free) s = exec (.masterRead .cp a strobes .free) s ∧
        ∃ t, exec (.pairedRead a strobes .free) s = .next t ∧
          t.bus = busAfterAnswer .cp .ok (some (liveData l s.part)) s.bus)

/-- The timeout of an open pair, with the edges up to the fourth counted by the sub-millisecond count and by the gap: the
pair ends, a write to the paired word that has arrived being granted and completed first (R7, R12). That the command
passes those edges, and that the millisecond counter advances before the timeout where one edge brings both, are the
model's choices (assumption log 12). -/
def Obligations.PairTimeoutEndsPair : Prop :=
  (∀ s : State, s.bus.pair = none → exec .pairTimeout s = .next s) ∧
  (∀ (s : State) (pr : Pair), s.bus.pair = some pr → s.bus.subMs ≤ 999 →
    let u := edgesPassed (3 - pr.edges + 1) s
    ((∀ a, s.bus.cp = .waiting a → a.addr ≠ pr.addr ∨ ∃ paired, a.job = .read paired) →
      exec .pairTimeout s = .next { u with bus := { u.bus with pair := none } }) ∧
    (∀ a, s.bus.cp = .waiting a → a.addr = pr.addr → (∀ paired, a.job ≠ .read paired) →
      ∃ t, exec .pairTimeout s = .next t ∧ t.pending = s.pending ∧
        t.bus = { u.bus with
          cp := .done .ok none, pair := none, last := .cp, sram := s.bus.sram.write a.addr a.strobes a.data
          cycle := some ⟨.rotating .cp, .write a.addr a.strobes⟩ } ∧
        t.part.ms = u.part.ms ∧ (a.job = .plain → t.part = u.part) ∧
        (cycleOpen s.part = false → exec (.masterAccessGrant .cp) u = .next t)))

/-- The grant of a waiting access that the arbiter chooses, with no effect otherwise (R6; assumption log 10). A write is
stored and completed, its owner takes its copy, and the write of an open pair ends it (R1, R7, R22, R24, R25). A read is
served from SRAM, OK or ERR by its parity, and a pair-marked one that completes OK opens a pair (R7, R11); a CP read of a
word with a store-queue entry has the entry written within its grant, and gives its data (R8, R147). An access that finds
SRAM busy is served by its grant as one that finds it free. -/
def Obligations.MasterAccessGrantServes : Prop :=
  ∀ (s : State) (port : Port),
    (∀ a, phaseOf port s.bus = .waiting a → nextGrant s.bus s.part = some (.rotating (requesterOf port)) →
      let written := { busAfterWrite port a.addr a.strobes a.data s.bus with
        pair := if port = .cp ∧ s.bus.pair.map Pair.addr = some a.addr then none else s.bus.pair }
      let pairAt := fun (paired : Bool) => if paired then some ⟨a.addr, 0⟩ else s.bus.pair
      (a.job = .plain → exec (.masterAccessGrant port) s = .next { s with bus := written }) ∧
      ((∀ paired, a.job ≠ .read paired) →
        ∃ t, exec (.masterAccessGrant port) s = .next t ∧ t.pending = s.pending ∧ t.bus = written ∧
          t.part.img = imageTaken a.job a.data s.part) ∧
      (∀ paired, a.job = .read paired →
        (port = .fp ∨ ∀ e ∈ s.part.sq, windowAddr s.part.base (sqOffset e.word) ≠ a.addr) →
        let word := s.bus.sram.read a.addr
        (s.bus.sram.parityGood a.addr a.strobes = true →
          exec (.masterAccessGrant port) s
            = .next { s with bus := { busAfterRead port .ok word s.bus with pair := pairAt paired } }) ∧
        (s.bus.sram.parityGood a.addr a.strobes = false →
          exec (.masterAccessGrant port) s = .next { s with
            bus := busAfterRead port .err word s.bus
            part := reported [.attention .parity,
              .notice (notice .parity (portCode port) 0 0 0 (kw (4 * a.addr.toNat)) 0#32)] s.part })) ∧
      (∀ paired, a.job = .read paired → port = .cp → (s.part.sq.map SqEntry.word).Nodup →
        ∀ e ∈ s.part.sq, windowAddr s.part.base (sqOffset e.word) = a.addr →
          exec (.masterAccessGrant .cp) s = .next { s with
            bus := { busAfterRead .cp .ok e.data s.bus with
              sram := s.bus.sram.write a.addr 15#4 e.data, pair := pairAt paired
              cycle := some ⟨.rotating .cp, .promotedRead a.addr⟩ }
            part := { s.part with sq := s.part.sq.filter fun f => decide (f.word ≠ e.word) } })) ∧
    ((∀ a, phaseOf port s.bus ≠ .waiting a) → exec (.masterAccessGrant port) s = .next s) ∧
    (nextGrant s.bus s.part ≠ some (.rotating (requesterOf port)) → exec (.masterAccessGrant port) s = .next s) ∧
    (portFree port s = true → ∀ (a : WordAddr) (strobes : BitVec 4) (x : Word),
      (∃ t, exec (.passThroughWrite port a strobes x .busy) s = .next t ∧
        exec (.masterAccessGrant port) t = exec (.passThroughWrite port a strobes x .free) s) ∧
      (∃ t, exec (.masterRead port a strobes .busy) s = .next t ∧
        exec (.masterAccessGrant port) t = exec (.masterRead port a strobes .free) s) ∧
      (port = .cp → ∃ t, exec (.pairedRead a strobes .busy) s = .next t ∧
        exec (.masterAccessGrant port) t = exec (.pairedRead a strobes .free) s))

/-! ## Measurements, islands, generators and consumers (chapters 2 to 7) -/

/-- The copy an accepted MEASURE write takes: the word stored, written, its freshness timer started (R22, R31). Where
the word moves nothing (a drive's, an absent slot's, a TIES word that repeats the partition) it is all that changes behind
the ports (R23, R36); in SETTLING a TIES word by which the part settles makes it RUNNING (R175, R176). -/
def Obligations.MeasureCopyTaken : Prop :=
  ∀ (s : State) (x : Word), portFree .fp s = true →
    let m : MeasCopy := ⟨x, true, some (after s.part.ms (if s.part.plans.partState = .noPlan then 2550
      else 10 * s.part.header.staleTime))⟩
    (∀ d : DriveId, exec (.driveMeasWrite d 15#4 x .free) s = .next { s with
      bus := busAfterWrite .fp (windowAddr s.part.base (driveWordOffset d 0)) 15#4 x s.bus
      part := { s.part with img := { s.part.img with driveMeas := setAt s.part.img.driveMeas d m } } }) ∧
    (∀ g : GenId, s.part.plans.active.gens[g] = none → exec (.generatorMeasWrite g 15#4 x .free) s = .next { s with
      bus := busAfterWrite .fp (windowAddr s.part.base (genWordOffset g 0)) 15#4 x s.bus
      part := { s.part with img := { s.part.img with genMeas := setAt s.part.img.genMeas g m } } }) ∧
    (∀ c : ConsId, s.part.plans.active.cons[c] = none → exec (.consumerMeasWrite c 15#4 x .free) s = .next { s with
      bus := busAfterWrite .fp (windowAddr s.part.base (consWordOffset c 0)) 15#4 x s.bus
      part := { s.part with img := { s.part.img with consMeas := setAt s.part.img.consMeas c m } } }) ∧
    ((∀ sec, islandId m sec = islandId s.part.img.ties sec) →
      let bus := busAfterWrite .fp (windowAddr s.part.base tiesOffset) 15#4 x s.bus
      let img := { s.part.img with ties := m }
      let fresh := ∀ g : GenId, s.part.plans.active.gens[g] = none ∨ freshness s.part.img.genMeas[g] = .fresh
      ((s.part.plans.partState = .settling → ¬ fresh) →
        exec (.tiesWrite 15#4 x .free) s = .next { s with bus := bus, part := { s.part with img := img } }) ∧
      (s.part.plans.partState = .settling → fresh →
        ∃ t, exec (.tiesWrite 15#4 x .free) s = .next t ∧ t.pending = s.pending ∧ t.bus = bus ∧ t.part.img = img ∧
          t.part.plans = { s.part.plans with partState := .running, settlingTimer := none } ∧
          (∀ i : SecId, isIslandId m i = true → s.part.islands[i].condition = .dead →
            t.part.att.word.getLsbD 0 = true) ∧
          attRises s.part t.part))

/-- The partition (R35): sections joined by ties counted closed share an island, its id is the lowest of them, and it is
a function of the three tie states alone. -/
def Obligations.IslandIds : Prop :=
  ∀ m : MeasCopy,
    (∀ a b : SecId, islandId m a = islandId m b ↔
      ∀ k, min a.val b.val ≤ k → k < max a.val b.val → tieClosed m k = true) ∧
    (∀ a : SecId, islandId m a ≤ a ∧ islandId m (islandId m a) = islandId m a) ∧
    islandId m 0 = 0 ∧
    (∀ i : SecId, isIslandId m i = true ↔ ∀ a, islandId m a = islandId m i → i ≤ a) ∧
    (∀ m' : MeasCopy, (∀ k, k < 3 → tieClosed m k = tieClosed m' k) → ∀ a, islandId m a = islandId m' a)

/-- A TIES write that changes the partition, outside RUNNING and where the part does not settle by it: the ISLAND notice
is queued, and each newly formed island starts with EXHAUSTED clear. Its totals are the sums over its members: the
contributions of the ONLINE generators, those and the outputs of the ones that carry load, and the credits of the OPENING
entries, held to 20 bits (R41 to R44). Its condition is the first that the four tests give (R46), and it is HELD where every
generator that carries its load is stale (R49). Each kept island's stand, every island timer is stopped, and nothing else of
the plant moves (R36, R37, R48, R50). -/
def Obligations.PartitionChangeForms : Prop :=
  ∀ (s : State) (x : Word), portFree .fp s = true →
    let m : MeasCopy := ⟨x, true, some (after s.part.ms (staleTime s.part))⟩
    (∃ sec, islandId m sec ≠ islandId s.part.img.ties sec) →
    (s.part.plans.partState = .noPlan ∨ s.part.plans.partState = .settling ∧
      settled { s.part with img := { s.part.img with ties := m } } = false) →
    ∃ t, exec (.tiesWrite 15#4 x .free) s = .next t ∧ t.pending = s.pending ∧
      t.bus = busAfterWrite .fp (windowAddr s.part.base tiesOffset) 15#4 x s.bus ∧
      t.part.img = { s.part.img with ties := m } ∧
      t.part.lu = (reported [.notice (notice .island 0 0 0 (bits x 0 3) (idList m) (idList s.part.img.ties))]
        s.part).lu ∧
      (∀ i : SecId, isIslandId m i = true → islandKind s.part.img.ties m i ≠ .kept →
        t.part.islands[i].exhausted = false ∧ t.part.islands[i].need = 0#20 ∧
        t.part.islands[i].totals = totalsOf t.part i ∧
        t.part.islands[i].condition = conditionOf t.part i (totalsOf t.part i) ∧
        let r := t.part.islands[i]
        let plan := s.part.plans.active
        let inside := fun sec : Option SecId => sec.map (islandId m) = some i
        let gensIn := fun states : List GenState => (List.finRange 8).filter fun g : GenId =>
          decide (inside (plan.gens[g].map GenPlan.sec) ∧ s.part.gens[g].state ∈ states)
        let contribution := fun g : GenId => (plan.gens[g].map fun e => e.rating * e.limitPct / 100).getD 0
        let carriers := gensIn [.online, .unloading]
        let openings := s.part.shedList.filter fun e =>
          decide (e.state ≠ .held ∧ inside (match e.target with
            | .cons c => plan.cons[c].map ConsPlan.sec
            | .drive d => plan.drives[d].map DrivePlan.sec))
        r.totals.firm = ((gensIn [.online]).map contribution).sum ∧
        r.totals.limit = (carriers.map contribution).sum ∧
        r.totals.load = (carriers.map fun g => bits s.part.img.genMeas[g].word 0 16).sum ∧
        r.totals.openingCredit = min 1048575 (openings.map ShedEntry.credit).sum ∧
        r.condition = (if carriers = [] then .dead
          else if r.totals.limit < r.totals.load - r.totals.openingCredit then .overloaded
          else if (r.totals.firm : Int) - (r.totals.load : Int) < (s.part.header.startMargin : Int) then .short
          else .sound) ∧
        (r.held = true ↔ carriers ≠ [] ∧ ∀ g ∈ carriers, freshness s.part.img.genMeas[g] ≠ .fresh)) ∧
      (∀ i : SecId, isIslandId m i = true → t.part.islands[i].overload = none ∧
        t.part.islands[i].startDelay = .stopped ∧ t.part.islands[i].releaseHold = none) ∧
      (∀ i : SecId, isIslandId m i = true → islandKind s.part.img.ties m i = .kept →
        t.part.islands[i].totals = s.part.islands[i].totals ∧
        t.part.islands[i].condition = s.part.islands[i].condition ∧
        t.part.islands[i].held = s.part.islands[i].held ∧
        t.part.islands[i].exhausted = s.part.islands[i].exhausted ∧
        t.part.islands[i].need = s.part.islands[i].need) ∧
      t.part.gens = s.part.gens ∧ t.part.cons = s.part.cons ∧ t.part.drives = s.part.drives ∧
      t.part.shedList = s.part.shedList ∧ t.part.cmd = s.part.cmd ∧ t.part.plans = s.part.plans ∧
      attRises s.part t.part

/-- A TIES write that changes the partition in RUNNING (R36, R52, R110, R111, R113). An island formed anew with no generator
that carries load is DEAD: attention DEAD is set, and every candidate and every RESTORING consumer of it has an entry. A
split island that carries load is met where its estimate is within its limit, and else makes its split step, behind its
entries. A merged or a kept one sheds nothing. Every timer of every island of the new partition, a kept one too, starts from
zero where its run condition holds, a HELD island's start-delay timer suspended, and is stopped elsewhere (R52, R123). That
a RESTORING consumer of class 0 is re-shed too is assumption log 38's, and the order of the blocks log 27's. -/
def Obligations.PartitionChangeInRunning : Prop :=
  ∀ (s : State) (x : Word), portFree .fp s = true → isRunning s.part = true →
    let m : MeasCopy := ⟨x, true, some (after s.part.ms (staleTime s.part))⟩
    (∃ sec, islandId m sec ≠ islandId s.part.img.ties sec) →
    let q : Part := { s.part with img := { s.part.img with ties := m } }
    ∃ t, exec (.tiesWrite 15#4 x .free) s = .next t ∧ t.pending = s.pending ∧
      t.bus = busAfterWrite .fp (windowAddr s.part.base tiesOffset) 15#4 x s.bus ∧
      t.part.img = q.img ∧ t.part.plans = s.part.plans ∧ attRises s.part t.part ∧
      ∀ i : SecId, isIslandId m i = true →
        timersFollow { s.part.islands[i] with overload := none, startDelay := .stopped, releaseHold := none } t.part i ∧
        (islandKind s.part.img.ties m i = .kept → entriesOf t.part i = entriesOf q i) ∧
        (islandKind s.part.img.ties m i ≠ .kept → carrying q i = [] →
          t.part.islands[i].condition = .dead ∧ t.part.att.word.getLsbD 0 = true ∧
          ∀ tg ∈ restoringOf q i ++ candidatesOf q i, hasEntry t.part tg = true) ∧
        (islandKind s.part.img.ties m i = .merged → carrying q i ≠ [] → entriesOf t.part i = entriesOf q i) ∧
        (islandKind s.part.img.ties m i = .split → carrying q i ≠ [] →
          let estimate := splitEstimate q i
          let now := totalsOf q i
          (estimate ≤ now.limit → entriesOf t.part i = entriesOf q i ∧
            t.part.islands[i].exhausted = false ∧ t.part.islands[i].need = 0#20) ∧
          (now.limit < estimate → ∃ new, entriesOf t.part i = entriesOf q i ++ new ∧
            stepOutcome t.part i ((estimate : Int) - (now.limit : Int) + (s.part.header.shedMargin : Int)
              - (now.openingCredit : Int)) new))

/-- A generator MEAS write of a present generator at a free port: the copy is taken, and the generator moves by the
breaker reported (R58). Beside the state the table gives, an UNLOADING one may be aborted, and one left IDLE may be
started again, by an entry of its island that the same write brings (R71, R75). No other generator moves but by such
an abort or start. An entry to ONLINE queues its GEN_STATE notice, and gives no command; where no abort follows in the
island, it opens the ramp-in cap at the output reported, unless its first share is already within it, and writes the target
whatever the deadband (R59, R87, R90, R92). The engine reported ready to a STARTING one is noticed once (R60). The end of a
planned stop gives STOP_GEN and the notice, and writes the target 0 (R69, R92). -/
def Obligations.GeneratorBreakerMoves : Prop :=
  ∀ (s : State) (g : GenId) (x : Word), portFree .fp s = true → s.part.plans.active.gens[g].isSome = true →
    let m : MeasCopy := ⟨x, true, some (after s.part.ms (staleTime s.part))⟩
    ∃ t, exec (.generatorMeasWrite g 15#4 x .free) s = .next t ∧ t.pending = s.pending ∧
      t.bus = busAfterWrite .fp (windowAddr s.part.base (genWordOffset g 0)) 15#4 x s.bus ∧
      t.part.img = { s.part.img with genMeas := setAt s.part.img.genMeas g m } ∧
      (bit x 16 = true →
        match s.part.gens[g].state with
        | .idle | .starting | .tripped | .failed | .online => t.part.gens[g].state = .online
        | .unloading => t.part.gens[g].state = .unloading ∨ t.part.gens[g].state = .online) ∧
      (bit x 16 = false →
        match s.part.gens[g].state with
        | .idle => t.part.gens[g].state = .idle ∨ t.part.gens[g].state = .starting
        | .starting => t.part.gens[g].state = .starting ∧
            t.part.gens[g] = { s.part.gens[g] with readySeen := s.part.gens[g].readySeen || bit x 17 }
        | .online => t.part.gens[g].state = .tripped
        | .unloading =>
          if s.part.gens[g].openIssued = true then t.part.gens[g].state = .idle ∨ t.part.gens[g].state = .starting
          else t.part.gens[g].state = .tripped
        | .tripped => t.part.gens[g].state = .tripped
        | .failed => t.part.gens[g].state = .failed) ∧
      (∀ h : GenId, h ≠ g → t.part.gens[h].state = s.part.gens[h].state ∨
        (s.part.gens[h].state = .unloading ∧ t.part.gens[h].state = .online) ∨
        (s.part.gens[h].state = .idle ∧ t.part.gens[h].state = .starting)) ∧
      (∀ i, genIsland s.part g = some i →
        let former := s.part.gens[g].state
        let stays := s.part.plans.partState ≠ .settling ∨
          settled { s.part with img := { s.part.img with genMeas := setAt s.part.img.genMeas g m } } = false
        let noticed := fun new : GenState => fun output : Nat =>
          Report.notice (notice .genState g.val (genStateCode new) i (genStateCode former + 8 * flag (bit x 17)) (kw output) 0#32)
        (bit x 16 = true → former ∈ [GenState.idle, .starting, .tripped, .failed] →
          let output := bits x 0 16
          t.part.gens[g] = { Gen.init with state := .online } ∧
          (∃ later, t.part.lu = (reported (noticed .online output :: later) s.part).lu) ∧
          ((∀ h, genIsland s.part h = some i → s.part.gens[h].state ≠ .unloading) ∨
              t.part.islands[i].condition ≠ .overloaded →
            let target := targetOf t.part i g
            (stays → t.part.lu = (reported [noticed .online output] s.part).lu) ∧
            ⟨.genTarget g, pack [(target, 0, 16)]⟩ ∈ t.part.sq ∧
            t.part.sharing[g] =
              if reqFixed s.part.img.genReq[g] = true ∨ output < firstShare t.part i g then
                ⟨target, true, output, 0#16, output, some (after s.part.ms 100)⟩
              else ⟨target, false, 0, 0#16, 0, none⟩)) ∧
        (bit x 16 = false → former = .starting →
          let report := if bit x 17 = true ∧ s.part.gens[g].readySeen = false then [noticed .starting 0] else []
          (∃ later, t.part.lu = (reported (report ++ later) s.part).lu) ∧
          (stays → islandAgrees s.part i → t.part.lu = (reported report s.part).lu)) ∧
        (bit x 16 = false → former = .unloading → s.part.gens[g].openIssued = true →
          let report := [.command { target := .gen g, kind := .stopGen, cause := 2#8, island := i, a := 0#32, b := 0#32 },
            noticed .idle 0]
          (∃ later, t.part.lu = (reported (report ++ later) s.part).lu) ∧
          (stays → t.part.islands[i].condition = s.part.islands[i].condition →
            t.part.gens[g] = Gen.init ∧ t.part.lu = (reported report s.part).lu) ∧
          ⟨.genTarget g, 0#32⟩ ∈ t.part.sq ∧ t.part.sharing[g].lastWritten = 0)) ∧
      t.part.base = s.part.base ∧ t.part.ms = s.part.ms ∧ t.part.plans.active = s.part.plans.active ∧
      t.part.plans.staging = s.part.plans.staging ∧ attRises s.part t.part

/-- A trip outside RUNNING, where the part does not settle by it: TRIPPED, its target written as 0, attention GEN_TRIP
and a GEN_STATE notice with the output before the report and the island's load before the change (R73, R74, R92;
assumption logs 17 and 22); no command, no shed. -/
def Obligations.TripOutsideRunning : Prop :=
  ∀ (s : State) (g : GenId) (x : Word) (i : SecId), portFree .fp s = true → bit x 16 = false →
    genIsland s.part g = some i → s.part.gens[g].state = .online →
    let m : MeasCopy := ⟨x, true, some (after s.part.ms (staleTime s.part))⟩
    (s.part.plans.partState = .noPlan ∨ s.part.plans.partState = .settling ∧
      settled { s.part with img := { s.part.img with genMeas := setAt s.part.img.genMeas g m } } = false) →
    (∀ h : GenId, s.part.gens[h].state ≠ .unloading) →
    ∃ t, exec (.generatorMeasWrite g 15#4 x .free) s = .next t ∧
      t.part.gens = setAt s.part.gens g { Gen.init with state := .tripped } ∧
      t.part.sharing[g] = { s.part.sharing[g] with
        lastWritten := 0, capOpen := false, connection := 0, raises := 0#16, capValue := 0, raiseTimer := none } ∧
      (∃ e ∈ t.part.sq, e.word = .genTarget g ∧ e.data = 0#32) ∧
      t.part.lu = (reported [.notice (notice .genState g.val 4 i (2 + 8 * flag (bit x 17))
        (kw (measKw s.part.img.genMeas[g])) (kw s.part.islands[i].totals.load))] s.part).lu ∧
      t.part.att.word.getLsbD 2 = true ∧ t.part.shedList = s.part.shedList ∧ t.part.cons = s.part.cons

/-- A trip in RUNNING, in an island that another ONLINE generator keeps from DEAD and where none is UNLOADING: the fast
step's need is the load before the change, less the limit and the opening credit after it, with the margin; a met need
sheds nothing, another is covered behind the standing entries or leaves EXHAUSTED (R73, R106 to R108). Attention
GEN_TRIP is set, and the island's standby candidate starts with cause TRIP unless a generator is STARTING (R75, R76; the
notice's marks are assumption logs 17 and 22). The island's timers follow its new standing: each starts, runs on, stops or,
where the island becomes or ceases to be HELD, is suspended or resumed (R50, R51, R123); no other island changes. The
release-hold timer is taken to run, if it does, for the most recent entry, and no RESTORING consumer to have an entry (R96,
R123): every step keeps both (BalanceKept, GuardedWordsKept). -/
def Obligations.TripInRunning : Prop :=
  ∀ (s : State) (g : GenId) (x : Word) (i : SecId), portFree .fp s = true → bit x 16 = false →
    genIsland s.part g = some i → s.part.gens[g].state = .online → isRunning s.part = true →
    (∀ h : GenId, genIsland s.part h = some i → s.part.gens[h].state ≠ .unloading) →
    (∃ h : GenId, h ≠ g ∧ genIsland s.part h = some i ∧ s.part.gens[h].state = .online) →
    (∀ tg e, s.part.islands[i].releaseHold = some (tg, e) →
      (entriesOf s.part i).getLast?.map ShedEntry.target = some tg) →
    (∀ c : ConsId, s.part.cons[c].state = .restoring → hasEntry s.part (.cons c) = false) →
    let m : MeasCopy := ⟨x, true, some (after s.part.ms (staleTime s.part))⟩
    let tripped : Gen := { Gen.init with state := .tripped }
    let q : Part := { s.part with img := { s.part.img with genMeas := setAt s.part.img.genMeas g m }
                                  gens := setAt s.part.gens g tripped }
    let now := totalsOf q i
    let need : Int := (s.part.islands[i].totals.load : Int) - (now.limit : Int) + (s.part.header.shedMargin : Int)
      - (now.openingCredit : Int)
    let report := Report.notice (notice .genState g.val 4 i (2 + 8 * flag (bit x 17))
      (kw (measKw s.part.img.genMeas[g])) (kw s.part.islands[i].totals.load))
    ∃ t, exec (.generatorMeasWrite g 15#4 x .free) s = .next t ∧ t.pending = s.pending ∧
      t.part.img = q.img ∧ t.part.att.word.getLsbD 2 = true ∧ t.part.sharing[g].lastWritten = 0 ∧
      (∃ new, t.part.shedList = s.part.shedList ++ new ∧ stepOutcome t.part i need new) ∧
      timersFollow s.part.islands[i] t.part i ∧
      (∀ j : SecId, j ≠ i → t.part.islands[j] = s.part.islands[j]) ∧
      (need ≤ 0 → t.part.cons = s.part.cons ∧ t.part.drives = s.part.drives ∧ t.part.cmd = s.part.cmd) ∧
      ((∃ h, genIsland s.part h = some i ∧ s.part.gens[h].state = .starting) →
        t.part.gens = setAt s.part.gens g tripped ∧
        (need ≤ 0 → t.part.lu = (reported [report] s.part).lu)) ∧
      (∀ h : GenId, (∀ k, genIsland s.part k = some i → s.part.gens[k].state ≠ .starting) →
        genIsland s.part h = some i → s.part.gens[h].state = .idle → genRank s.part h ≠ 0 →
        (∀ k, genIsland s.part k = some i → s.part.gens[k].state = .idle → genRank s.part k ≠ 0 → k ≠ h →
          genRank s.part h < genRank s.part k) →
        t.part.gens = setAt (setAt s.part.gens g tripped) h ⟨.starting, true, .trip, false,
          some (after s.part.ms (1000 * s.part.header.startTimeout)), 0, none, false, none⟩ ∧
        (need ≤ 0 → t.part.lu = (reported [report,
          .command { target := .gen h, kind := .startGen, cause := 2#8, island := i, a := kw (genRating s.part h),
                     b := 0#32 },
          .notice (notice .genState h.val 1 i (8 * flag (engineReady s.part.img.genMeas[h].word)) 0#32 0#32)]
          s.part).lu))

/-- A consumer MEAS write of a present consumer at a free port: the copy is taken, and the consumer moves by the table
of R118. A consumer that stays changes nothing but its copy. A reclose gives OPEN_CONSUMER, with cause RECLOSE, and the
RECLOSED notice, with the new deadline; its CMD word is not written, and its island's totals follow its entry, as they do
where the open is verified (R114, R117). -/
def Obligations.ConsumerBreakerMoves : Prop :=
  ∀ (s : State) (c : ConsId) (x : Word), portFree .fp s = true → s.part.plans.active.cons[c].isSome = true →
    let m : MeasCopy := ⟨x, true, some (after s.part.ms (staleTime s.part))⟩
    ∃ t, exec (.consumerMeasWrite c 15#4 x .free) s = .next t ∧ t.pending = s.pending ∧
      t.bus = busAfterWrite .fp (windowAddr s.part.base (consWordOffset c 0)) 15#4 x s.bus ∧
      t.part.img = { s.part.img with consMeas := setAt s.part.img.consMeas c m } ∧
      (match s.part.cons[c].state, bit x 16 with
       | .isOpen, true => t.part = { s.part with img := t.part.img, cons := setAt s.part.cons c ⟨.connected, none⟩ }
       | .connected, false => t.part = { s.part with img := t.part.img, cons := setAt s.part.cons c ⟨.isOpen, none⟩ }
       | .restoring, true =>
         t.part = { s.part with img := t.part.img, cons := setAt s.part.cons c ⟨.connected, none⟩ }
       | .shedding, false => t.part.cons[c].state = .shed ∧ attRises s.part t.part ∧
           (hasEntry s.part (.cons c) = true →
             ∀ e, entryOf t.part (.cons c) = some e → e.state = .held) ∧
           (∀ i, consIsland s.part c = some i → islandStands t.part i)
       | .shed, true =>
         (∀ e, entryOf s.part (.cons c) = some e →
           let deadline := after s.part.ms (consTimeout s.part c)
           t.part.cons[c].state = .shedding ∧ t.part.att.word.getLsbD 4 = true ∧ t.part.cmd = s.part.cmd ∧
           entryOf t.part (.cons c) = some { e with state := .opening deadline } ∧
           (∀ i, consIsland s.part c = some i → islandStands t.part i ∧
             ∃ earlier, (islandAgrees s.part i → earlier = []) ∧
               t.part.lu = (reported (earlier ++
                 [.command { target := .cons c, kind := .openConsumer, cause := 6#8, island := i, a := kw e.credit,
                             b := deadline },
                  .notice (notice .reclosed c.val (shedCauseCode e.cause) i 0 (kw e.credit) deadline)]) s.part).lu)) ∧
         (entryOf s.part (.cons c) = none → t.part = { s.part with img := t.part.img })
       | _, _ => t.part = { s.part with img := t.part.img })

/-! ## Controller requests (4.2, 8.3) -/

/-- START of a present IDLE generator: STARTING, with its START_GEN and GEN_STATE; no other generator, no consumer and
no shed entry changes (R61, R62; the notice's engine-ready mark is assumption log 22's). -/
def Obligations.StartOfIdle : Prop :=
  ∀ (s : State) (g : GenId) (x : Word) (i : SecId), portFree .cp s = true → genIsland s.part g = some i →
    s.part.gens[g].state = .idle → bits x 0 2 = 1 → (bit x 4 = true ∨ bits x 8 4 ≠ 0) →
    ∃ t, exec (.start g 15#4 x .free) s = .next t ∧ t.pending = s.pending ∧
      t.bus = busAfterWrite .cp (windowAddr s.part.base (genWordOffset g 1)) 15#4 (x &&& ~~~3#32) s.bus ∧
      t.part.img = { s.part.img with genReq := setAt s.part.img.genReq g (x &&& ~~~3#32) } ∧
      t.part.gens = setAt s.part.gens g ⟨.starting, false, .controller, false,
        some (after s.part.ms (1000 * s.part.header.startTimeout)), 0, none, false, none⟩ ∧
      t.part.lu = (reported
        [.command { target := .gen g, kind := .startGen, cause := 0#8, island := i, a := kw (genRating s.part g), b := 0#32 },
         .notice (notice .genState g.val 1 i (8 * flag (engineReady s.part.img.genMeas[g].word)) 0#32 0#32)]
        s.part).lu ∧
      t.part.cons = s.part.cons ∧ t.part.drives = s.part.drives ∧ t.part.shedList = s.part.shedList ∧
      t.part.cmd = s.part.cmd ∧ t.part.plans = s.part.plans ∧ attRises s.part t.part

/-- START of a present UNLOADING generator withdraws its stop: ONLINE at once, START_GEN with cause RETURN if OPEN_GEN was
given, UNLOAD_ABORTED with the ramp value, and attention STOP_END; its target is written whatever the deadband, and no cap
opens (R61, R71, R90, R92). -/
def Obligations.StartWithdrawsStop : Prop :=
  ∀ (s : State) (g : GenId) (x : Word) (i : SecId), portFree .cp s = true → genIsland s.part g = some i →
    s.part.gens[g].state = .unloading → bits x 0 2 = 1 → (bit x 4 = true ∨ bits x 8 4 ≠ 0) →
    ∃ t, exec (.start g 15#4 x .free) s = .next t ∧ t.pending = s.pending ∧
      t.bus = busAfterWrite .cp (windowAddr s.part.base (genWordOffset g 1)) 15#4 (x &&& ~~~3#32) s.bus ∧
      t.part.img = { s.part.img with genReq := setAt s.part.img.genReq g (x &&& ~~~3#32) } ∧
      t.part.gens = setAt s.part.gens g { Gen.init with state := .online } ∧
      t.part.lu = (reported ((if s.part.gens[g].openIssued = true then
          [Report.command { target := .gen g, kind := .startGen, cause := 5#8, island := i, a := kw (genRating s.part g),
                            b := 0#32 }] else []) ++
        [.notice (notice .unloadAborted g.val 2 i 0 (kw s.part.gens[g].ramp) 0#32)]) s.part).lu ∧
      t.part.att.word.getLsbD 7 = true ∧ attRises s.part t.part ∧
      (∃ e ∈ t.part.sq, e.word = .genTarget g ∧ e.data = pack [(t.part.sharing[g].lastWritten, 0, 16)]) ∧
      (reqFixed s.part.img.genReq[g] = bit x 4 → reqWeight s.part.img.genReq[g] = bits x 8 4 →
        t.part.sharing[g].lastWritten = targetOf t.part i g) ∧
      (s.part.sharing[g].capOpen = false → t.part.sharing[g].capOpen = false) ∧
      t.part.cons = s.part.cons ∧ t.part.drives = s.part.drives ∧ t.part.shedList = s.part.shedList ∧
      t.part.cmd = s.part.cmd ∧ t.part.plans = s.part.plans

/-- STOP of a STARTING generator and CLEAR of a TRIPPED or FAILED one, where the island holds the condition its totals
give or the part is not RUNNING: IDLE, with its notice, and STOP_GEN for the stop; the standby-exhausted mark clears
(R61, R63, R79; the GEN_STATE notice's engine-ready mark is assumption log 22's). -/
def Obligations.ReturnToIdle : Prop :=
  ∀ (s : State) (g : GenId) (x : Word) (i : SecId), portFree .cp s = true → genIsland s.part g = some i →
    (bit x 4 = true ∨ bits x 8 4 ≠ 0) → (islandAgrees s.part i ∨ isRunning s.part = false) →
    let ready := 8 * flag (engineReady s.part.img.genMeas[g].word)
    (s.part.gens[g].state = .starting → bits x 0 2 = 2 →
      ∃ t, exec (.stop g 15#4 x .free) s = .next t ∧ t.pending = s.pending ∧
        t.part.gens = setAt s.part.gens g Gen.init ∧
        t.part.lu = (reported
          [.command { target := .gen g, kind := .stopGen, cause := 0#8, island := i, a := 0#32, b := 0#32 },
           .notice (notice .genState g.val 0 i (1 + ready) 0#32 0#32)] s.part).lu ∧
        t.part.islands[i].standbyExhausted = false ∧ t.part.cons = s.part.cons ∧
        t.part.shedList = s.part.shedList ∧ t.part.cmd = s.part.cmd ∧ t.part.plans = s.part.plans) ∧
    (∀ st, (st = .tripped ∨ st = .failed) → s.part.gens[g].state = st → bits x 0 2 = 3 →
      ∃ t, exec (.clear g 15#4 x .free) s = .next t ∧ t.pending = s.pending ∧
        t.part.gens = setAt s.part.gens g Gen.init ∧
        t.part.lu = (reported
          [.notice (notice .genState g.val 0 i (genStateCode st + ready) 0#32 0#32)] s.part).lu ∧
        t.part.islands[i].standbyExhausted = false ∧ t.part.cons = s.part.cons ∧
        t.part.shedList = s.part.shedList ∧ t.part.cmd = s.part.cmd ∧ t.part.plans = s.part.plans)

/-- STOP of an ONLINE generator that the stop check passes: UNLOADING from the last target written, with OPEN_GEN at
once if that lies at or below the unload floor (R64, R66, R68; the GEN_STATE notice's engine-ready mark is assumption
log 22's). -/
def Obligations.StopUnloads : Prop :=
  ∀ (s : State) (g : GenId) (x : Word) (i : SecId), portFree .cp s = true → genIsland s.part g = some i →
    s.part.gens[g].state = .online → bits x 0 2 = 2 → (bit x 4 = true ∨ bits x 8 4 ≠ 0) →
    isRunning s.part = true → islandAgrees s.part i → s.part.islands[i].condition = .sound →
    (s.part.header.startMargin : Int) ≤ (s.part.islands[i].totals.firm : Int)
      - (genContribution s.part g : Int) - (s.part.islands[i].totals.load : Int) →
    let ramp := s.part.sharing[g].lastWritten
    let floor := genRating s.part g * s.part.header.unloadFloorPct / 100
    let expiry := after s.part.ms (100 * s.part.header.genOpenTimeout)
    let report := Report.notice (notice .genState g.val 3 i
      (2 + 8 * flag (engineReady s.part.img.genMeas[g].word)) 0#32 0#32)
    ∃ t, exec (.stop g 15#4 x .free) s = .next t ∧ t.pending = s.pending ∧
      (floor < ramp →
        t.part.gens = setAt s.part.gens g { Gen.init with state := .unloading, ramp := ramp,
                                                          rampTimer := some (after s.part.ms 100) } ∧
        t.part.lu = (reported [report] s.part).lu) ∧
      (ramp ≤ floor →
        t.part.gens = setAt s.part.gens g { Gen.init with state := .unloading, ramp := ramp, openIssued := true,
                                                          openTimer := some expiry } ∧
        t.part.lu = (reported
          [.command { target := .gen g, kind := .openGen, cause := 0#8, island := i, a := kw ramp, b := expiry },
           report] s.part).lu) ∧
      t.part.islands[i].condition = .sound ∧ t.part.cons = s.part.cons ∧ t.part.shedList = s.part.shedList

/-- STOP of an ONLINE generator that the stop check refuses, or that the part does not check: it stays ONLINE, with
STOP_REFUSED, its reason and signed margin, and attention STOP_END (R64). -/
def Obligations.StopRefused : Prop :=
  ∀ (s : State) (g : GenId) (x : Word) (i : SecId), portFree .cp s = true → genIsland s.part g = some i →
    s.part.gens[g].state = .online → bits x 0 2 = 2 → (bit x 4 = true ∨ bits x 8 4 ≠ 0) →
    let margin := (s.part.islands[i].totals.firm : Int) - (genContribution s.part g : Int)
      - (s.part.islands[i].totals.load : Int)
    ∀ reason value, (isRunning s.part = false ∧ reason = 2 ∧ value = 0 ∨
        isRunning s.part = true ∧ s.part.islands[i].condition ≠ .sound ∧ reason = 0 ∧ value = margin ∨
        isRunning s.part = true ∧ s.part.islands[i].condition = .sound ∧
          margin < (s.part.header.startMargin : Int) ∧ reason = 1 ∧ value = margin) →
    ∃ t, exec (.stop g 15#4 x .free) s = .next t ∧ t.pending = s.pending ∧ t.part.gens = s.part.gens ∧
      t.part.lu = (reported [.notice (notice .stopRefused g.val reason i 0 (BitVec.ofInt 32 value) 0#32)]
        s.part).lu ∧
      t.part.att.word.getLsbD 7 = true ∧ t.part.cons = s.part.cons ∧ t.part.shedList = s.part.shedList

/-- A REQ write with no action and a FIXED write: the copy takes the word; what is unchanged gives no computation, and a
change moves no generator, no consumer and no list (R84, R144, R145). An action that the table of R61 ignores, in a write
that changes neither MODE nor WEIGHT: the write is stored, and nothing else changes (R61). -/
def Obligations.ModeAndSetpointWrites : Prop :=
  (∀ (s : State) (g : GenId) (x : Word), portFree .cp s = true → s.part.plans.active.gens[g].isSome = true →
    (bit x 4 = true ∨ bits x 8 4 ≠ 0) →
    reqFixed s.part.img.genReq[g] = bit x 4 → reqWeight s.part.img.genReq[g] = bits x 8 4 →
    ∀ (c : Instr) (a : Nat) (states : List GenState),
      (c, a, states) ∈
        [(Instr.start g 15#4 x .free, 1, [GenState.starting, .online, .tripped, .failed]),
         (.stop g 15#4 x .free, 2, [.idle, .unloading, .tripped, .failed]),
         (.clear g 15#4 x .free, 3, [.idle, .starting, .online, .unloading])] →
      bits x 0 2 = a → s.part.gens[g].state ∈ states →
      exec c s = .next { s with
        bus := busAfterWrite .cp (windowAddr s.part.base (genWordOffset g 1)) 15#4 (x &&& ~~~3#32) s.bus
        part := { s.part with img := { s.part.img with genReq := setAt s.part.img.genReq g (x &&& ~~~3#32) } } }) ∧
  ∀ (s : State) (g : GenId) (x : Word), portFree .cp s = true →
    (bits x 0 2 = 0 → (bit x 4 = true ∨ bits x 8 4 ≠ 0) →
      ∃ t, exec (.noAction g 15#4 x .free) s = .next t ∧ t.pending = s.pending ∧
        t.bus = busAfterWrite .cp (windowAddr s.part.base (genWordOffset g 1)) 15#4 x s.bus ∧
        t.part.img = { s.part.img with genReq := setAt s.part.img.genReq g x } ∧
        t.part.gens = s.part.gens ∧ t.part.lu = s.part.lu ∧ t.part.cons = s.part.cons ∧
        t.part.cmd = s.part.cmd ∧ t.part.drives = s.part.drives ∧ t.part.shedList = s.part.shedList ∧
        t.part.plans = s.part.plans ∧
        (reqFixed s.part.img.genReq[g] = bit x 4 → reqWeight s.part.img.genReq[g] = bits x 8 4 →
          t.part = { s.part with img := t.part.img })) ∧
    (∃ t, exec (.fixedWrite g 15#4 x .free) s = .next t ∧ t.pending = s.pending ∧
      t.bus = busAfterWrite .cp (windowAddr s.part.base (genWordOffset g 2)) 15#4 x s.bus ∧
      t.part.img = { s.part.img with genFixed := setAt s.part.img.genFixed g x } ∧
      t.part.gens = s.part.gens ∧ t.part.lu = s.part.lu ∧ t.part.cons = s.part.cons ∧
      t.part.cmd = s.part.cmd ∧ t.part.drives = s.part.drives ∧ t.part.shedList = s.part.shedList ∧
      t.part.plans = s.part.plans ∧
      (bits s.part.img.genFixed[g] 0 16 = bits x 0 16 → t.part = { s.part with img := t.part.img }))

/-- A FIXED write that changes the setpoint of a present generator computes its island's targets: each ONLINE or UNLOADING
generator's target that differs from its last written by more than SHARE_DEADBAND is recorded and enqueued, in ascending
index, and no other generator's (R84, R91). A cap that the first share does not pass is removed (R90), and the no-sharer
mark follows, newly set with attention NO_SHARER (R89). Nothing else changes behind the ports. -/
def Obligations.TargetsWritten : Prop :=
  ∀ (s : State) (g : GenId) (x : Word) (i : SecId), portFree .cp s = true → genIsland s.part g = some i →
    bits s.part.img.genFixed[g] 0 16 ≠ bits x 0 16 →
    let q : Part := { s.part with img := { s.part.img with genFixed := setAt s.part.img.genFixed g x } }
    let last := fun h : GenId => s.part.sharing[h].lastWritten
    let far := fun h : GenId => decide (last h + s.part.header.shareDeadband < targetOf q i h ∨
      targetOf q i h + s.part.header.shareDeadband < last h)
    let reached := fun h : GenId => s.part.sharing[h].capOpen = true ∧ h ∈ sharers s.part i ∧
      firstShare q i h ≤ s.part.sharing[h].capValue
    let lacks := decide ((∃ h : GenId, genIsland s.part h = some i ∧ s.part.gens[h].state = .online) ∧
      sharers s.part i = [])
    ∃ t, exec (.fixedWrite g 15#4 x .free) s = .next t ∧ t.pending = s.pending ∧
      t.bus = busAfterWrite .cp (windowAddr s.part.base (genWordOffset g 2)) 15#4 x s.bus ∧
      t.part = { q with
        sharing := t.part.sharing, att := t.part.att
        sq := ((carrying s.part i).filter far).map fun h => ⟨.genTarget h, pack [(targetOf q i h, 0, 16)]⟩
        islands := setAt s.part.islands i { s.part.islands[i] with noSharer := lacks } } ∧
      t.part.att = (if lacks = true ∧ s.part.islands[i].noSharer = false then
        { s.part.att with word := s.part.att.word ||| 0x4000#16 } else s.part.att) ∧
      ∀ h : GenId,
        t.part.sharing[h].lastWritten = (if h ∈ carrying s.part i ∧ far h = true then targetOf q i h else last h) ∧
        (reached h → t.part.sharing[h] = ⟨t.part.sharing[h].lastWritten, false, 0, 0#16, 0, none⟩) ∧
        (¬ reached h → t.part.sharing[h] =
          { s.part.sharing[h] with lastWritten := t.part.sharing[h].lastWritten })

/-- A drive REQ write: the controller limit is taken; for a present drive the LIMIT word is enqueued and DRIVE_LIMIT
given with the effective limit, the lesser of the controller limit and, while cut, the cut limit (R97, R145). -/
def Obligations.DriveLimitWritten : Prop :=
  ∀ (s : State) (d : DriveId) (x : Word), portFree .cp s = true →
    let limit := if s.part.drives[d].cut = true then min (bits x 0 16) s.part.drives[d].cutLimit else bits x 0 16
    let copied : Part := { s.part with img := { s.part.img with driveReq := setAt s.part.img.driveReq d x } }
    let bus := busAfterWrite .cp (windowAddr s.part.base (driveWordOffset d 1)) 15#4 x s.bus
    (s.part.plans.active.drives[d] = none →
      exec (.driveReqWrite d 15#4 x .free) s = .next { s with bus := bus, part := copied }) ∧
    (∀ i, driveIsland s.part d = some i →
      exec (.driveReqWrite d 15#4 x .free) s = .next { s with
        bus := bus
        part := reported
          [.command { target := .drive d, kind := .driveLimit, cause := if s.part.drives[d].cut = true then 1#8 else 0#8,
                      island := i, a := kw limit, b := kw (bits x 0 16) }]
          { copied with sq :=
            [⟨.driveLimit d, pack [(limit, 0, 16), (flag s.part.drives[d].cut, 16, 1)]⟩] } })

/-! ## Guarded words (chapter 8) -/

/-- An accepted CMD write at a free port, where the ladder's copy agrees with its standing and no acknowledgement is
taken: the merged value of R140 is stored and copied, a masked CLOSE sets CLOSE_MASKED, and nothing else changes
(R140, R142). -/
def Obligations.CmdWriteMerged : Prop :=
  ∀ (s : State) (c : ConsId) (x : Word), portFree .cp s = true → bits x 0 2 ≠ 3 →
    cmdAgrees c s.part = true → (bit x 4 = false ∨ s.part.cons[c].state ≠ .stuck) →
    ∃ w : Word,
      bits w 0 2 = (if isGuarded s.part c = true then 1 else bits x 0 2) ∧ bit w 4 = false ∧
      bit w 8 = bit s.part.cmd[c] 8 ∧ bit w 9 = bit s.part.cmd[c] 9 ∧
      (∀ n, n ∉ [0, 1, 4, 8, 9] → bit w n = bit x n) ∧
      ∀ i ∈ [Instr.consumerCmdWrite c 15#4 x .free, .ack c 15#4 x .free],
        exec i s = .next { s with
          bus := busAfterWrite .cp (cmdAddr s.part c) 15#4 w s.bus
          part := { s.part with
            cmd := setAt s.part.cmd c w
            att := if isGuarded s.part c = true ∧ bits x 0 2 = 2 then
              { s.part.att with word := s.part.att.word ||| 0x1000#16 } else s.part.att } }

/-- An acknowledgement of a STUCK consumer: it becomes CONNECTED or OPEN by its breaker copy, and its word is enqueued
with REQ OPEN and both marks clear; no command, no notice (R130). -/
def Obligations.AckOfStuck : Prop :=
  ∀ (s : State) (c : ConsId) (x : Word), portFree .cp s = true → bits x 0 2 ≠ 3 → bit x 4 = true →
    s.part.cons[c].state = .stuck → hasEntry s.part (.cons c) = false →
    ∃ t, exec (.ack c 15#4 x .free) s = .next t ∧ t.pending = s.pending ∧
      t.part.cons = setAt s.part.cons c
        ⟨if measBreaker s.part.img.consMeas[c] = .isClosed then .connected else .isOpen, none⟩ ∧
      bits t.part.cmd[c] 0 2 = 1 ∧ bit t.part.cmd[c] 4 = false ∧ bit t.part.cmd[c] 8 = false ∧
      bit t.part.cmd[c] 9 = false ∧ (∀ c' : ConsId, c' ≠ c → t.part.cmd[c'] = s.part.cmd[c']) ∧
      t.part.sq = [⟨.consCmd c, t.part.cmd[c]⟩] ∧ isGuarded t.part c = false ∧
      t.part.lu = s.part.lu ∧ t.part.shedList = s.part.shedList ∧ t.part.gens = s.part.gens ∧
      t.part.img = s.part.img ∧ t.part.plans = s.part.plans

/-- The grant of a CMD write that waited, whatever the ladder decided meanwhile: stored, the entry trimmed, and the copy
reconciled, so that it agrees with the standing and a guarded word has REQ OPEN in SRAM or in its entry (R142, R143). -/
def Obligations.GrantReconciles : Prop :=
  ∀ (s : State) (c : ConsId) (w : Word) (ack masked : Bool),
    s.bus.cp = .waiting ⟨cmdAddr s.part c, 15#4, w, .consCmd c ack masked⟩ →
    nextGrant s.bus s.part = some (.rotating .cp) →
    ∃ t, exec (.masterAccessGrant .cp) s = .next t ∧ t.pending = s.pending ∧ t.bus.cp = .done .ok none ∧
      t.bus.sram = s.bus.sram.write (cmdAddr s.part c) 15#4 w ∧ t.bus.last = .cp ∧
      cmdAgrees c t.part = true ∧ (isGuarded t.part c = true → bits t.part.cmd[c] 0 2 = 1) ∧
      ((t.part.cmd[c] = w ∧ ∀ e ∈ t.part.sq, e.word ≠ .consCmd c) ∨
        ∃ e ∈ t.part.sq, e.word = .consCmd c ∧ e.data = t.part.cmd[c]) ∧
      (masked = true → t.part.att.word.getLsbD 12 = true) ∧
      (∀ c' : ConsId, c' ≠ c → t.part.cmd[c'] = s.part.cmd[c'] ∧ t.part.cons[c'] = s.part.cons[c']) ∧
      t.part.lu = s.part.lu ∧ t.part.shedList = s.part.shedList ∧ t.part.gens = s.part.gens

/-! ## Plans (chapter 10) -/

/-- An accepted PLAN_LOAD: the staging plan is emptied, the key LOCKED, and the walk begins at the address and gap
written, the descriptors walked counted as 1; a first descriptor that may not be read fails the load at once, with that
count as value B (R168, R169, R170, R172). That the count includes the descriptor in hand, and that a descriptor's address
is checked before it is read, are assumption log 24's. While LOADING the write is refused BUSY. -/
def Obligations.PlanLoadStarts : Prop :=
  ∀ (s : State) (x : Word), portFree .cp s = true →
    let first := bits x 0 24
    let base := s.part.base.toNat * 0x10000
    let q : Part := { s.part with
      img := { s.part.img with planLoad := x }
      plans := { s.part.plans with key := .locked, staging := Plan.empty } }
    ((∀ w, s.part.plans.loader ≠ .loading w) →
      ∃ t, exec (.planLoad 15#4 x .free) s = .next t ∧ t.pending = s.pending ∧
        t.bus = busAfterWrite .cp (windowAddr s.part.base planLoadOffset) 15#4 x s.bus ∧
        (base + 0x200 ≤ first ∧ first < base + 0x10000 ∧ first % 4 = 0 →
          t.part = { q with plans := { q.plans with
            loader := .loading ⟨bits x 24 4, first, 1, [], .descriptor, 0⟩ } }) ∧
        (¬(base + 0x200 ≤ first ∧ first < base + 0x10000 ∧ first % 4 = 0) →
          t.part = reported [.notice (notice .planFailed 0 1 0 0 (kw first) 1#32), .attention .plan]
            { q with plans := { q.plans with loader := .failed .address } })) ∧
    (∀ w, s.part.plans.loader = .loading w →
      ∃ t, exec (.planLoad 15#4 x .free) s = .next t ∧ t.bus = busAfterAnswer .cp .err none s.bus ∧
        t.part.plans = s.part.plans ∧ t.part.img.planLoad = s.part.img.planLoad ∧
        t.part.img.refused.reason = .busy ∧ t.part.img.refused.offset = 0x200#16)

/-- A KEY write moves the key by the word written, the key's state and the staging tag; an ATT_MASK write sets the mask
and returns the key to LOCKED (R172, R181). Each changes nothing else behind the ports. -/
def Obligations.ControlWordsMoveKey : Prop :=
  ∀ (s : State) (x : Word), portFree .cp s = true →
    (∃ k : KeyState,
      exec (.key 15#4 x .free) s = .next { s with
        bus := busAfterWrite .cp (windowAddr s.part.base keyOffset) 15#4 x s.bus
        part := { s.part with img := { s.part.img with key := x }, plans := { s.part.plans with key := k } } } ∧
      (isLoading s.part = true → k = .locked) ∧
      (isLoading s.part = false → s.part.plans.key = .locked →
        k = if x.toNat = stagingTag s.part.plans then .half else .locked) ∧
      (isLoading s.part = false → s.part.plans.key = .half →
        k = if x.toNat + stagingTag s.part.plans = 65535 then .unlocked else .locked) ∧
      (s.part.plans.key = .unlocked → k = .locked)) ∧
    exec (.attMask 15#4 x .free) s = .next { s with
      bus := busAfterWrite .cp (windowAddr s.part.base attMaskOffset) 15#4 x s.bus
      part := { s.part with
        img := { s.part.img with attMask := x }
        att := { s.part.att with mask := x.setWidth 16 }
        plans := { s.part.plans with key := .locked } } }

/-- An ACTIVATE write: refused by the first check that fails, changing nothing but the key and the report; or made, the
active plan being the staging plan's content, the loader ACTIVATED and the key LOCKED, and the ACTIVATED notice, with the
new and the former active tag, queued ahead of whatever the activation brings about (R172 to R175; the order of the notice
against the rest is assumption log 26's). Every island then holds what its members give under the new plan (R45), and the
first activation starts the settling timer, which a later one leaves (R175). Unless the activation itself makes the part
RUNNING over a DEAD island, a cut drive below its new floor is raised to it, its entry's credit lowered by the rise; it and
each drive made present have their LIMIT word and DRIVE_LIMIT written; and no other drive changes (R97, R121). In RUNNING
that rests on what every step keeps there (BalanceKept). -/
def Obligations.ActivateJudged : Prop :=
  ∀ (s : State) (x : Word), portFree .cp s = true →
    let p := s.part
    let bus := busAfterWrite .cp (windowAddr p.base activateOffset) 15#4 x s.bus
    let copied : Part := { p with img := { p.img with activate := x }, plans := { p.plans with key := .locked } }
    let openings := (p.shedList.filter isOpening).length
    let conflict := fun g : GenId =>
      p.gens[g].state ∈ [GenState.starting, .online, .unloading] ∧
        ∀ new, p.plans.staging.gens[g] = some new → p.plans.active.gens[g].map GenPlan.sec ≠ some new.sec
    let settles := settled { copied with plans := { p.plans with active := p.plans.staging } }
    (∀ reason value,
      (p.plans.key ≠ .unlocked ∧ reason = 1 ∧ value = 0 ∨
       p.plans.key = .unlocked ∧ p.plans.loader ≠ .complete ∧ reason = 2 ∧ value = 0 ∨
       p.plans.key = .unlocked ∧ p.plans.loader = .complete ∧ openings ≠ 0 ∧ reason = 3 ∧ value = openings ∨
       p.plans.key = .unlocked ∧ p.plans.loader = .complete ∧ openings = 0 ∧ reason = 4 ∧
         ∃ g, conflict g ∧ (∀ h, h < g → ¬ conflict h) ∧ value = g.val) →
      exec (.activate 15#4 x .free) s = .next { s with
        bus := bus
        part := reported
          [.notice (notice .activateRefused 0 reason 0 0 (kw (stagingTag p.plans)) (kw value)), .attention .plan]
          copied }) ∧
    (p.plans.key = .unlocked → p.plans.loader = .complete → openings = 0 → (∀ g, ¬ conflict g) →
      ∃ t, exec (.activate 15#4 x .free) s = .next t ∧ t.pending = s.pending ∧ t.bus = bus ∧
        t.part.img = copied.img ∧ t.part.plans.active = p.plans.staging ∧
        (∃ later, t.part.lu = (reported (Report.notice (notice .activated 0 0 0 0 (kw (stagingTag p.plans))
          (kw (activeTag p.plans))) :: later) p).lu) ∧
        t.part.plans.staging = p.plans.staging ∧ t.part.plans.loader = .activated ∧ t.part.plans.key = .locked ∧
        (p.plans.partState = .running → t.part.plans.partState = .running) ∧
        (p.plans.partState ≠ .running →
          t.part.plans.partState = if settles then .running else .settling) ∧
        t.part.plans.settlingTimer = (match p.plans.partState with
          | .running => p.plans.settlingTimer
          | .settling => if settles then none else p.plans.settlingTimer
          | .noPlan => if settles then none else some (after p.ms 2000)) ∧
        (∀ i, isIslandId p.img.ties i = true → islandStands t.part i) ∧
        (p.plans.partState = .running ∧ p.balanced ∨ p.plans.partState ≠ .running ∧
            (settles = false ∨ ∀ i, isIslandId p.img.ties i = true → t.part.islands[i].condition ≠ .dead) →
          ∀ d : DriveId,
            let old := p.drives[d]
            let now := t.part.drives[d]
            let limit := bits p.img.driveReq[d] 0 16
            let effective := if now.cut = true then min limit now.cutLimit else limit
            let kept := now = old ∧ entryOf t.part (.drive d) = entryOf p (.drive d)
            let written := ⟨.driveLimit d, pack [(effective, 0, 16), (flag now.cut, 16, 1)]⟩ ∈ t.part.sq ∧
              commandGiven t.part (.drive d) .driveLimit = true
            let unwritten := ∀ e ∈ t.part.sq, e.word ≠ .driveLimit d
            (p.plans.staging.drives[d] = none → kept ∧ unwritten) ∧
            (∀ new, p.plans.staging.drives[d] = some new →
              (old.cut = true → old.cutLimit < new.floor → now = ⟨true, new.floor⟩ ∧ written ∧
                entryOf t.part (.drive d) = (entryOf p (.drive d)).map fun e =>
                  { e with credit := e.credit - (new.floor - old.cutLimit) }) ∧
              ((old.cut = false ∨ new.floor ≤ old.cutLimit) → kept ∧
                (p.plans.active.drives[d] = none → written) ∧
                (p.plans.active.drives[d] ≠ none → unwritten)))) ∧
        t.part.att.word.getLsbD 15 = true ∧ attRises p t.part)

/-- A loader grant. A descriptor's first two words are gathered; its third brings the FORMAT checks, then the ADDRESS check
of every word of its run in order, and else the run with the gap before it. An entry's words are gathered, the entry placed
when its last is read, and each eighth word of a run ends a burst. A word that fails its check ends the load FAILED with
PARITY (R169, R170). The end of the gap, with its edges counted, restores the request, and an open pair whose fourth edge
falls within the gap ends there (R6, R7, R12). A read that the arbiter would not grant doing nothing is assumption log 10's;
that the command of the gap's end passes its edges is log 12's; the entry addresses taken modulo 2^24, a run's addresses
checked all at once, and the count of value B are log 24's. -/
def Obligations.PlanLoaderReads : Prop :=
  (∀ (s : State) (w : Walk), s.part.plans.loader = .loading w →
    nextGrant s.bus s.part = some (.rotating .pl) →
    let a : WordAddr := BitVec.ofNat 22 (walkAddr w / 4)
    let word := s.bus.sram.read a
    let good := s.bus.sram.parityGood a 15#4
    let bus : Bus := { s.bus with last := .pl, cycle := some ⟨.rotating .pl, .read⟩ }
    let loader := fun l : LoaderState => ({ s.part with plans := { s.part.plans with loader := l } } : Part)
    let failed := fun (r : LoadFailure) (address : Nat) =>
      reported [.notice (notice .planFailed 0 (loadFailureCode r) 0 0 (kw address) (kw w.walked)), .attention .plan]
        (loader (.failed r))
    (good = false →
      exec .planLoaderRead s = .next { s with bus := bus, part := failed .parity (walkAddr w) }) ∧
    (good = true → w.phase = .descriptor → w.got.length < 2 →
      exec .planLoaderRead s = .next { s with
        bus := bus, part := loader (.loading { w with got := w.got ++ [word] }) }) ∧
    (∀ w0 w1, good = true → w.phase = .descriptor → w.got = [w0, w1] →
      let kind := bits w0 0 8
      let first := bits w0 8 8
      let count := bits w0 16 8
      let table := if kind = 1 then 1 else if kind = 2 then 8 else if kind = 3 then 64 else 4
      let size := if kind = 1 then 8 else if kind = 2 then 4 else 2
      let malformed := kind = 0 ∨ 4 < kind ∨ count = 0 ∨ table < first + count ∨
        kind = 1 ∧ (first ≠ 0 ∨ count ≠ 1)
      let address := fun k : Nat => (bits w1 0 24 + 4 * k) % 2 ^ 24
      let base := s.part.base.toNat * 0x10000
      let readable := fun k : Nat => base + 0x200 ≤ address k ∧ address k < base + 0x10000 ∧ address k % 4 = 0
      (malformed → exec .planLoaderRead s = .next { s with bus := bus, part := failed .format w.desc }) ∧
      (¬ malformed →
        (∀ k, k < count * size → ¬ readable k → (∀ j, j < k → readable j) →
          exec .planLoaderRead s = .next { s with bus := bus, part := failed .address (address k) }) ∧
        ((∀ k, k < count * size → readable k) →
          ∃ d : Descriptor, descKind kind = some d.kind ∧ d.first = first ∧ d.count = count ∧ d.source = bits w1 0 24 ∧
            d.next = bits word 0 24 ∧ d.isEnd = bit w0 31 ∧
            exec .planLoaderRead s = .next { s with
              bus := bus
              part := loader (.loading { w with got := [], phase := .run d 0, gapLeft := w.gap }) }))) ∧
    (∀ d n, good = true → w.phase = .run d n → n + 1 ≠ d.count * entrySize d.kind →
      let gapLeft := if (n + 1) % 8 = 0 then w.gap else 0
      (w.got.length + 1 < entrySize d.kind →
        exec .planLoaderRead s = .next { s with
          bus := bus
          part := loader (.loading { w with got := w.got ++ [word], phase := .run d (n + 1), gapLeft := gapLeft }) }) ∧
      (w.got.length + 1 = entrySize d.kind →
        exec .planLoaderRead s = .next { s with
          bus := bus
          part := { s.part with plans := { s.part.plans with
            staging := placeEntry d.kind (d.first + n / entrySize d.kind) (w.got ++ [word]) s.part.plans.staging
            loader := .loading { w with got := [], phase := .run d (n + 1), gapLeft := gapLeft } } } }))) ∧
  (∀ s : State, ((∀ w, s.part.plans.loader ≠ .loading w) ∨ nextGrant s.bus s.part ≠ some (.rotating .pl)) →
    exec .planLoaderRead s = .next s) ∧
  (∀ (s : State) (w : Walk), s.part.plans.loader = .loading w →
    (w.gapLeft = 0 → exec .interBurstGap s = .next s) ∧
    (w.gapLeft ≠ 0 → s.bus.subMs ≤ 999 → (∀ pr, s.bus.pair = some pr → pr.edges + w.gapLeft < 4) →
      let u := edgesPassed w.gapLeft s
      exec .interBurstGap s = .next { u with
        bus := { u.bus with pair := s.bus.pair.map fun pr => { pr with edges := pr.edges + w.gapLeft } } } ∧
      u.part.plans.loader = .loading { w with gapLeft := 0 }) ∧
    (∀ pr, s.bus.pair = some pr → 3 - pr.edges + 1 ≤ w.gapLeft → (∀ a, s.bus.cp = .waiting a → a.job ≠ .planLoad) →
      ∃ v, exec .pairTimeout s = .next v ∧ exec .interBurstGap s = exec .interBurstGap v ∧ v.bus.pair = none ∧
        v.part.plans.loader = .loading { w with gapLeft := w.gapLeft - (3 - pr.edges + 1) })) ∧
  (∀ s : State, (∀ w, s.part.plans.loader ≠ .loading w) → exec .interBurstGap s = .next s)

/-- A loader grant that reads the last word of a descriptor's run: the entry is placed. Without the END flag the walk goes
on to the next descriptor, unless it would be the 65th, CHAIN_LONG, or may not be read, ADDRESS. With it the staging plan
is validated: COMPLETE with PLAN_DONE where no item fails, or FAILED with INVALID, naming the first item that fails and its
field; attention PLAN (R169, R170, R171, R184). The counts of descriptors in the notices are assumption log 24's, and the
lowest field of an item with several that fail log 25's. -/
def Obligations.PlanLoadEnds : Prop :=
  ∀ (s : State) (w : Walk) (d : Descriptor) (n : Nat), s.part.plans.loader = .loading w →
    nextGrant s.bus s.part = some (.rotating .pl) → w.phase = .run d n → n + 1 = d.count * entrySize d.kind →
    w.got.length + 1 = entrySize d.kind →
    let a : WordAddr := BitVec.ofNat 22 (walkAddr w / 4)
    s.bus.sram.parityGood a 15#4 = true →
    let staging := placeEntry d.kind (d.first + n / entrySize d.kind) (w.got ++ [s.bus.sram.read a])
      s.part.plans.staging
    let bus : Bus := { s.bus with last := .pl, cycle := some ⟨.rotating .pl, .read⟩ }
    let after := fun l : LoaderState =>
      ({ s.part with plans := { s.part.plans with staging := staging, loader := l } } : Part)
    let noticed := fun (kind : NoticeKind) (cause va vb : Nat) (p : Part) =>
      reported [.notice (notice kind 0 cause 0 0 (kw va) (kw vb)), .attention .plan] p
    let base := s.part.base.toNat * 0x10000
    let readable := base + 0x200 ≤ d.next ∧ d.next < base + 0x10000 ∧ d.next % 4 = 0
    (d.isEnd = false →
      (64 ≤ w.walked → exec .planLoaderRead s = .next { s with
        bus := bus, part := noticed .planFailed 4 d.next (w.walked + 1) (after (.failed .chainLong)) }) ∧
      (w.walked < 64 → ¬ readable → exec .planLoaderRead s = .next { s with
        bus := bus, part := noticed .planFailed 1 d.next (w.walked + 1) (after (.failed .address)) }) ∧
      (w.walked < 64 → readable → exec .planLoaderRead s = .next { s with
        bus := bus
        part := after (.loading ⟨w.gap, d.next, w.walked + 1, [], .descriptor, w.gap⟩) })) ∧
    (d.isEnd = true →
      ((∀ item field, ¬ planFails staging item field) → exec .planLoaderRead s = .next { s with
        bus := bus, part := noticed .planDone 0 (planHeader staging).tag w.walked (after .complete) }) ∧
      (∀ item field, planFailsFirst staging item field → exec .planLoaderRead s = .next { s with
        bus := bus, part := noticed .planFailed 5 item field (after (.failed .invalid)) }))

/-! ## Attention (chapter 11) -/

/-- A CP read of ATTENTION returns the word and stores it as the snapshot; a CP write clears the bits written that are
in the snapshot, and empties it (R179, R180). Neither changes anything else. With PWR_RST_N released, INT_N is active
exactly while an unmasked bit is set (R181), URG_N exactly while an island is DEAD or has EXHAUSTED set, whatever the
attention word and the mask (R120, R183), and a wait signal while its port's access waits (R1). -/
def Obligations.AttentionReadAndClear : Prop :=
  (∀ s : State,
    ((linesAt false s).int = true ↔ ∃ n, n < 16 ∧ s.part.att.word.getLsbD n = true ∧ s.part.att.mask.getLsbD n = false) ∧
    ((linesAt false s).urg = true ↔ ∃ i : SecId, isIslandId s.part.img.ties i = true ∧
      (s.part.islands[i].condition = .dead ∨ s.part.islands[i].exhausted = true)) ∧
    ((linesAt false s).cwait = true ↔ ∃ a, s.bus.cp = .waiting a) ∧
    ((linesAt false s).fwait = true ↔ ∃ a, s.bus.fp = .waiting a)) ∧
  ∀ s : State, portReady .cp s.bus = true →
    exec .attentionRead s = .next { s with
      bus := busAfterAnswer .cp .ok (some (s.part.att.word.setWidth 32)) s.bus
      part := { s.part with att := { s.part.att with snapshot := some s.part.att.word } } } ∧
    ∀ x : Word, ∃ t, exec (.attentionWrite 15#4 x) s = .next t ∧ t.pending = s.pending ∧
      t.bus = busAfterAnswer .cp .ok none s.bus ∧
      t.part = { s.part with att := { s.part.att with word := t.part.att.word, snapshot := none } } ∧
      ∀ n, n < 16 → (t.part.att.word.getLsbD n = true ↔ s.part.att.word.getLsbD n = true ∧
        ¬(x.getLsbD n = true ∧ ∃ w, s.part.att.snapshot = some w ∧ w.getLsbD n = true))

/-- The CAUSE word (R182). -/
def Obligations.CauseWord : Prop :=
  (∀ (s : State) (strobes : BitVec 4) (m : SramAt), portReady .cp s.bus = true →
    ∃ v : Nat, v ≤ 16 ∧
      exec (.masterRead .cp (windowAddr s.part.base 0xC) strobes m) s
        = .next { s with bus := busAfterAnswer .cp .ok (some (BitVec.ofNat 32 v)) s.bus } ∧
      (v = 0 ↔ ∀ n, n < 16 → ¬(s.part.att.word.getLsbD n = true ∧ s.part.att.mask.getLsbD n = false)) ∧
      (∀ n, v = n + 1 → s.part.att.word.getLsbD n = true ∧ s.part.att.mask.getLsbD n = false ∧
        ∀ k, k < n → ¬(s.part.att.word.getLsbD k = true ∧ s.part.att.mask.getLsbD k = false)) ∧
      (v ≠ 0 ↔ intActive s.part.att = true)) ∧
  (∀ s : State, portReady .fp s.bus = true →
    ∃ t, exec (.refusedRead .fpCause) s = .next t ∧ t.bus.fp = .done .err (some 0xFFFFFFFF#32) ∧
      t.part.img.refused.reason = .wrongPort ∧ t.part.img.refused.offset = 0xC#16) ∧
  (∀ (s : State) (port : Port) (strobes : BitVec 4) (x : Word) (m : SramAt), portReady port s.bus = true →
    ∃ t, exec (.passThroughWrite port (windowAddr s.part.base 0xC) strobes x m) s = .next t ∧
      phaseOf port t.bus = .done .err none ∧ t.part.img.refused.reason = .class_) ∧
  (∀ (s t : State) (straps : BitVec 8) (moment : ResetMoment) (midRead : Bool),
    (exec (.controllerReset midRead) s = .next t ∨ exec (.fullReset straps moment) s = .next t) →
      causeValue t.part.att = 0)

/-- Attention bits stand: no command but a CP write of ATTENTION and a full reset clears one (R178). -/
def Obligations.AttentionBitsStand : Prop :=
  ∀ (c : Instr) (s t : State), exec c s = .next t →
    (∀ straps moment, c ≠ .fullReset straps moment) → (∀ strobes x, c ≠ .attentionWrite strobes x) →
    (∀ strobes x m, c ≠ .passThroughWrite .cp (windowAddr s.part.base 8) strobes x m) →
    attRises s.part t.part

/-! ## Action lists (chapter 9) -/

/-- A GIVE from the channel's own port, with all strobes: refused BAD_FRAME or NOT_OUT; or accepted, the frame SPARE at
the tail of the spare ring, its slot queued for its mirror unless it is queued, and R161 judged (R153, R154). A TAKE from
the channel's own port: the address of the head of a ready ring that is not empty, its frame OUT; all ones from an empty
one, and no change (R156). -/
def Obligations.GiveAndTake : Prop :=
  (∀ (s : State) (ch : Chan) (x : Word),
    let port := (match ch with | .command => Port.fp | .notice => Port.cp)
    let c := getChan s.part.lu ch
    let tail : FrameId := Fin.ofNat 64 (c.spare.head.val + c.spare.count)
    portReady port s.bus = true →
    (∀ f : FrameId, x.toNat = s.part.base.toNat * 0x10000 + frameBase ch + 0x20 * f.val → c.frames[f] = .out →
      ∃ t, exec (.give port ch 15#4 x) s = .next t ∧ t.bus = busAfterAnswer port .ok none s.bus ∧
        let lu := setChan s.part.lu ch { c with
          frames := setAt c.frames f .spare
          spare := { slots := setAt c.spare.slots tail f, head := c.spare.head, count := c.spare.count + 1 } }
        exec (.postStart ch)
          { s with bus := t.bus, part := { s.part with lu := { lu with spareMirror :=
            if (ch, tail) ∈ lu.spareMirror then lu.spareMirror else lu.spareMirror ++ [(ch, tail)] } } }
          = .next t) ∧
    (∀ f : FrameId, x.toNat = s.part.base.toNat * 0x10000 + frameBase ch + 0x20 * f.val → c.frames[f] ≠ .out →
      ∃ t, exec (.give port ch 15#4 x) s = .next t ∧ phaseOf port t.bus = .done .err none ∧
        t.part.img.refused.reason = .notOut ∧ getChan t.part.lu .command = getChan s.part.lu .command) ∧
    ((∀ f : FrameId, x.toNat ≠ s.part.base.toNat * 0x10000 + frameBase ch + 0x20 * f.val) →
      ∃ t, exec (.give port ch 15#4 x) s = .next t ∧ phaseOf port t.bus = .done .err none ∧
        t.part.img.refused.reason = .badFrame ∧ getChan t.part.lu .command = getChan s.part.lu .command)) ∧
  (∀ (s : State) (ch : Chan),
    let port := (match ch with | .command => Port.fp | .notice => Port.cp)
    let c := getChan s.part.lu ch
    portReady port s.bus = true →
    (c.ready.count = 0 →
      exec (.take port ch) s = .next { s with bus := busAfterAnswer port .ok (some 0xFFFFFFFF#32) s.bus }) ∧
    (c.ready.count ≠ 0 →
      let f := c.ready.slots[c.ready.head]
      exec (.take port ch) s = .next { s with
        bus := busAfterAnswer port .ok
          (some (BitVec.ofNat 32 (s.part.base.toNat * 0x10000 + frameBase ch + 0x20 * f.val))) s.bus
        part := { s.part with lu := setChan s.part.lu ch { c with
          frames := setAt c.frames f .out
          ready := { c.ready with head := Fin.ofNat 64 (c.ready.head.val + 1), count := c.ready.count - 1 } } } }))

/-- The start and the end of a post. A channel with no frame FILLING, a spare frame and an item takes the head spare
frame and the oldest item, and fixes the content (R161); a post that takes the last spare command frame while commands are
left sets COMMAND_BLOCKED (R159). Otherwise nothing starts: that POST_START then does nothing is assumption log 13's. A post
whose ninth write has been made ends, its cycle complete, with its frame READY at the tail of the ready ring, and R161 is
judged again (R162). -/
def Obligations.PostsStartAndEnd : Prop :=
  (∀ (s : State) (n : Notice) (rest : List Notice), s.part.lu.notices = n :: rest → s.part.lu.notice.post = none →
    0 < s.part.lu.notice.spare.count →
    let c := s.part.lu.notice
    let f := c.spare.slots[c.spare.head]
    ∃ po : Post, po.frame = f ∧ po.made = 0 ∧
      po.w0 = pack [(c.seq.toNat, 0, 16), (noticeKindCode n.kind, 16, 8)] ∧
      po.w1 = pack [(n.subject.toNat, 0, 8), (n.cause.toNat, 8, 8), (n.island.val, 16, 2), (n.detail.toNat, 24, 8)] ∧
      po.w2 = n.a ∧ po.w3 = n.b ∧ po.w4 = s.part.ms ∧
      exec (.postStart .notice) s = .next { s with part := { s.part with lu := { s.part.lu with
        notices := rest
        notice := { c with
          frames := setAt c.frames f .filling
          spare := { c.spare with head := Fin.ofNat 64 (c.spare.head.val + 1), count := c.spare.count - 1 }
          post := some po, seq := c.seq + 1 } } } }) ∧
  (∀ (s : State) (k : Command) (rest : List Command), s.part.lu.pendingCmds = k :: rest →
    s.part.lu.command.post = none → 0 < s.part.lu.command.spare.count →
    let c := s.part.lu.command
    let f := c.spare.slots[c.spare.head]
    ∃ (po : Post) (t : State), po.frame = f ∧ po.made = 0 ∧
      po.w0 = pack [(c.seq.toNat, 0, 16), (cmdKindCode k.kind, 16, 8)] ∧
      po.w1 = pack [(cmdSubject k.target, 0, 8), (k.cause.toNat, 8, 8), (k.island.val, 16, 2)] ∧
      po.w2 = k.a ∧ po.w3 = k.b ∧ po.w4 = s.part.ms ∧
      exec (.postStart .command) s = .next t ∧
      t = { s with part := { s.part with
        att := t.part.att
        lu := { s.part.lu with
          pendingCmds := rest
          command := { c with
            frames := setAt c.frames f .filling
            spare := { c.spare with head := Fin.ofNat 64 (c.spare.head.val + 1), count := c.spare.count - 1 }
            post := some po, seq := c.seq + 1 } } } } ∧
      t.part.att = (if c.spare.count = 1 ∧ rest ≠ [] then
        { s.part.att with word := s.part.att.word ||| 0x40#16 } else s.part.att)) ∧
  (∀ (s : State) (ch : Chan),
    ((getChan s.part.lu ch).post ≠ none ∨ (getChan s.part.lu ch).spare.count = 0 ∨
      (match ch with | .command => s.part.lu.pendingCmds = [] | .notice => s.part.lu.notices = [])) →
    exec (.postStart ch) s = .next s) ∧
  (∀ (s : State) (ch : Chan) (po : Post), (getChan s.part.lu ch).post = some po → 9 ≤ po.made →
    let c := getChan s.part.lu ch
    ∃ t, exec (.postEnd ch) s = .next t ∧
      exec (.postStart ch) { s with
        bus := { s.bus with cycle := none }
        part := { s.part with lu := setChan s.part.lu ch { c with
          frames := setAt c.frames po.frame .ready
          ready := { c.ready with
            slots := setAt c.ready.slots (Fin.ofNat 64 (c.ready.head.val + c.ready.count)) po.frame
            count := c.ready.count + 1 }
          post := none } } } = .next t) ∧
  (∀ (s : State) (ch : Chan), (∀ po, (getChan s.part.lu ch).post = some po → po.made < 9) →
    exec (.postEnd ch) s = .next s)

/-- A list-unit grant serves the first source after the last served, in the order COMMAND, NOTICE, spare mirror, that has a
write waiting: a post's next word, its ninth being the ready mirror's, or the oldest spare-mirror item; with all strobes,
and the rotation and the arbiter's pointer moved (R153, R162, R163). A store-queue grant: the head entry is written with all
strobes and removed, and no rotating pointer moves (R6, R8). LIST_UNIT_WRITE and DRAIN do nothing where the arbiter does not
make that grant (assumption log 10). -/
def Obligations.OwnWrites : Prop :=
  (∀ s : State, nextGrant s.bus s.part = some (.rotating .lu) →
    let unit := s.part.lu
    let waits := fun src : LuSource => match src with
      | .command => ∃ po, unit.command.post = some po ∧ po.made < 9
      | .notice => ∃ po, unit.notice.post = some po ∧ po.made < 9
      | .spareMirror => unit.spareMirror ≠ []
    let order := match unit.lastServed with
      | .command => [LuSource.notice, .spareMirror, .command]
      | .notice => [.spareMirror, .command, .notice]
      | .spareMirror => [.command, .notice, .spareMirror]
    let served := fun src : LuSource => waits src ∧ ∀ other, order.idxOf other < order.idxOf src → ¬ waits other
    let written := fun (off : Nat) (d : Word) => ({ s.bus with
      sram := s.bus.sram.write (windowAddr s.part.base off) 15#4 d
      cycle := some ⟨.rotating .lu, .write (windowAddr s.part.base off) 15#4⟩, last := .lu } : Bus)
    (∀ (ch : Chan) (po : Post),
      served (match ch with | .command => .command | .notice => .notice) →
      (getChan s.part.lu ch).post = some po → po.made < 9 →
      let c := getChan s.part.lu ch
      let off := if po.made < 8 then frameBase ch + 0x20 * po.frame.val + 4 * po.made
        else readyMirrorOffset ch (Fin.ofNat 64 (c.ready.head.val + c.ready.count))
      let d := [po.w0, po.w1, po.w2, po.w3, po.w4, 0#32, 0#32, 0#32].getD po.made (BitVec.ofNat 32 po.frame.val)
      let lu := setChan s.part.lu ch { c with post := some { po with made := po.made + 1 } }
      exec .listUnitWrite s = .next { s with
        bus := written off d
        part := { s.part with lu := { lu with
          lastServed := (match ch with | .command => .command | .notice => .notice) } } }) ∧
    (∀ (ch : Chan) (slot : FrameId) (rest : List (Chan × FrameId)),
      served .spareMirror → s.part.lu.spareMirror = (ch, slot) :: rest →
      exec .listUnitWrite s = .next { s with
        bus := written (spareMirrorOffset ch slot) (BitVec.ofNat 32 (getChan s.part.lu ch).spare.slots[slot].val)
        part := { s.part with lu := { s.part.lu with spareMirror := rest, lastServed := .spareMirror } } })) ∧
  (∀ s : State, nextGrant s.bus s.part ≠ some (.rotating .lu) → exec .listUnitWrite s = .next s) ∧
  (∀ (s : State) (e : SqEntry) (q : List SqEntry), s.part.sq = e :: q → s.bus.pair = none →
    cycleOpen s.part = false →
    exec .drain s = .next { s with
      bus := { s.bus with
        sram := s.bus.sram.write (windowAddr s.part.base (sqOffset e.word)) 15#4 e.data
        cycle := some ⟨.storeQueue, .write (windowAddr s.part.base (sqOffset e.word)) 15#4⟩ }
      part := { s.part with sq := q } }) ∧
  (∀ s : State, (s.part.sq = [] ∨ s.bus.pair ≠ none ∨ cycleOpen s.part = true) → exec .drain s = .next s)

/-! ## Timers (R12) -/

/-- A freshness timer's expiry: the record is STALE, shown and noticed. A generator's island is judged for HELD, which
changes no total and no condition of an island that agrees; its timers follow: where it becomes HELD the start-delay timer
is suspended and the release-hold timer stops (R31, R49, R51, R123). That a timer that is stopped or not reached does not
act is assumption log 11's, and the island field 0 of an absent slot's notice log 23's. -/
def Obligations.FreshnessExpires : Prop :=
  ∀ (s : State) (r : RecordId),
    let m := copyOf s.part r
    let report := [Report.attention .stale,
      .notice (notice .stale (staleSubject r).1 (staleSubject r).2 (islandField (recordIsland s.part r)) 0 0#32 0#32)]
    let marked := setCopy r ⟨m.word, m.written, none⟩ s.part
    ((m.timer = none ∨ ∃ e, m.timer = some e ∧ due e s.part.ms = false) →
      exec (.freshnessTimerExpiry r) s = .next s) ∧
    (∀ e, m.timer = some e → due e s.part.ms = true →
      ∃ t, exec (.freshnessTimerExpiry r) s = .next t ∧ t.bus = s.bus ∧ t.pending = s.pending ∧
        t.part.img = marked.img ∧ copyOf t.part r = ⟨m.word, m.written, none⟩ ∧
        (m.written = true → freshness (copyOf t.part r) = .stale) ∧
        ((∀ g, r ≠ .gen g) → t.part = reported report marked) ∧
        (∀ g, r = .gen g → genIsland s.part g = none → t.part = reported report marked) ∧
        (∀ g i, r = .gen g → genIsland s.part g = some i → islandAgrees s.part i →
          t.part.lu = (reported report marked).lu ∧ t.part.att = (reported report marked).att ∧
          t.part.islands[i].totals = s.part.islands[i].totals ∧
          t.part.islands[i].condition = s.part.islands[i].condition ∧
          t.part.islands[i].held = heldOf t.part i ∧
          (isRunning s.part = true → timersFollow s.part.islands[i] t.part i) ∧
          (∀ j : SecId, j ≠ i → t.part.islands[j] = s.part.islands[j]) ∧
          t.part.gens = s.part.gens ∧ t.part.cons = s.part.cons ∧ t.part.shedList = s.part.shedList ∧
          t.part.sq = s.part.sq ∧ t.part.plans = s.part.plans))

/-- The overload timer's expiry. In a HELD island it starts again and nothing is shed (R102, R109). Else a slow step: every
RESTORING consumer of the island is re-shed, then the first candidate that gives a shed is shed, a consumer or a drive, past
the drives whose credit comes to 0, with its entry, its command, its notice and its word; with no such candidate, EXHAUSTED
is set with what the expected load passes the limit by (R101, R103 to R105, R109, R119). That a RESTORING consumer of class
0 is re-shed too is assumption log 38's. The timer starts again if the island is still OVERLOADED after it, and else it
is stopped; the other timers of an island that holds what its members give follow, and no other island changes (R50, R51,
R123). That a timer that is stopped or not reached does not act, and that it
starts again from the step's moment, are assumption log 11's; the need of a drive's cut is log 20's. -/
def Obligations.OverloadExpires : Prop :=
  ∀ (s : State) (i : SecId),
    ((s.part.islands[i].overload = none ∨
        ∃ e, s.part.islands[i].overload = some e ∧ due e s.part.ms = false) →
      exec (.overloadTimerExpiry i) s = .next s) ∧
    (∀ e, s.part.islands[i].overload = some e → due e s.part.ms = true → isRunning s.part = true →
      s.part.islands[i].condition = .overloaded →
      let again := some (after s.part.ms s.part.header.overloadDelay)
      (s.part.islands[i].held = true →
        ∃ t, exec (.overloadTimerExpiry i) s = .next t ∧ t.bus = s.bus ∧ t.pending = s.pending ∧
          t.part = { s.part with islands := t.part.islands } ∧
          timersFollow { s.part.islands[i] with overload := again } t.part i ∧
          (∀ j : SecId, j ≠ i → t.part.islands[j] = s.part.islands[j]) ∧
          t.part.islands[i].overload = again ∧
          t.part.islands[i].exhausted = s.part.islands[i].exhausted ∧
          t.part.islands[i].need = s.part.islands[i].need) ∧
      (s.part.islands[i].held = false →
        let first := restoringOf s.part i
        let totals := s.part.islands[i].totals
        let excess := totals.load - totals.openingCredit - totals.limit
        let cut := fun d : DriveId => max (driveFloor s.part d) (drivePower s.part d - excess)
        let credit := fun d : DriveId => drivePower s.part d - cut d
        let resheds := first.map fun tg => (⟨tg, .restoreCancel, 0, s.part.ms, .held⟩ : ShedEntry)
        let skipped := fun tg : Target => ∃ d, tg = .drive d ∧ credit d = 0
        let none_ := ∀ tg ∈ candidatesOf s.part i, skipped tg
        totals.limit < totals.load - totals.openingCredit →
        ∃ t, exec (.overloadTimerExpiry i) s = .next t ∧ t.bus = s.bus ∧ t.pending = s.pending ∧
          t.part.gens = s.part.gens ∧ t.part.img = s.part.img ∧ t.part.plans = s.part.plans ∧
          t.part.islands[i].overload = (if t.part.islands[i].condition = .overloaded then again else none) ∧
          (islandStands s.part i → timersFollow { s.part.islands[i] with overload := again } t.part i) ∧
          (∀ j : SecId, j ≠ i → t.part.islands[j] = s.part.islands[j]) ∧
          (∀ c, .cons c ∈ first → t.part.cons[c] = ⟨.shed, none⟩ ∧
            bits t.part.cmd[c] 0 2 = 1 ∧ bit t.part.cmd[c] 8 = true ∧ bit t.part.cmd[c] 9 = false) ∧
          (none_ → t.part.shedList = s.part.shedList ++ resheds ∧ t.part.islands[i].exhausted = true ∧
            (excess ≤ 1048575 → t.part.islands[i].need = BitVec.ofNat 20 excess) ∧
            (s.part.islands[i].exhausted = false → t.part.att.word.getLsbD 1 = true) ∧
            (first = [] → s.part.islands[i].exhausted = false → excess ≤ 1048575 →
              t.part.lu = (reported [.notice (notice .exhausted i.val 1 i 0 (kw excess) 0#32)] s.part).lu)) ∧
          (∀ (c : ConsId) (pre rest : List Target), candidatesOf s.part i = pre ++ .cons c :: rest →
            (∀ tg ∈ pre, skipped tg) →
            let credit := creditBasis s.part c
            let deadline := after s.part.ms (consTimeout s.part c)
            t.part.shedList = s.part.shedList ++ resheds ++
              [⟨.cons c, .overload, credit, s.part.ms, .opening deadline⟩] ∧
            t.part.cons[c] = ⟨.shedding, none⟩ ∧ t.part.drives = s.part.drives ∧
            bits t.part.cmd[c] 0 2 = 1 ∧ bit t.part.cmd[c] 8 = true ∧ bit t.part.cmd[c] 9 = false ∧
            t.part.att.word.getLsbD 4 = true ∧
            t.part.islands[i].exhausted = false ∧ t.part.islands[i].need = 0#20 ∧
            (first = [] →
              t.part.cons = setAt s.part.cons c ⟨.shedding, none⟩ ∧
              t.part.sq = sqPut (.consCmd c) t.part.cmd[c] s.part.sq ∧
              t.part.lu = (reported
                [.command { target := .cons c, kind := .openConsumer, cause := 1#8, island := i, a := kw credit,
                            b := deadline },
                 .notice (notice .shed c.val 1 i 0 (kw credit) deadline)] s.part).lu)) ∧
          (∀ (d : DriveId) (pre rest : List Target), candidatesOf s.part i = pre ++ .drive d :: rest → credit d ≠ 0 →
            (∀ tg ∈ pre, skipped tg) →
            let limit := min (controllerLimit s.part d) (cut d)
            t.part.shedList = s.part.shedList ++ resheds ++ [⟨.drive d, .overload, credit d, s.part.ms, .held⟩] ∧
            t.part.drives = setAt s.part.drives d ⟨true, cut d⟩ ∧
            t.part.att.word.getLsbD 4 = true ∧
            t.part.islands[i].exhausted = false ∧ t.part.islands[i].need = 0#20 ∧
            (first = [] → t.part.cons = s.part.cons ∧
              t.part.sq = sqPut (.driveLimit d) (pack [(limit, 0, 16), (1, 16, 1)]) s.part.sq ∧
              t.part.lu = (reported
                [.command { target := .drive d, kind := .driveLimit, cause := 1#8, island := i, a := kw limit,
                            b := kw (controllerLimit s.part d) },
                 .notice (notice .shed (64 + d.val) 1 i 0 (kw (credit d)) (kw limit))] s.part).lu))))

/-- The start-delay timer's expiry in RUNNING: with no generator of the island STARTING and a candidate, the candidate
is started automatically with cause START_DELAY; with one STARTING, none is; with no candidate, NO_STANDBY and attention
START_FAIL once, until the mark clears (R76 to R78). Where the island is SHORT or OVERLOADED after it, the timer has started
again for START_DELAY, or for 1 ms where that is 0, suspended if the island is HELD, and else it is stopped (R50, R51, R77).
That it starts again from the step's own moment, and that a timer that is not reached does not act, are assumption log
11's, and the notice's engine-ready mark is log 22's. -/
def Obligations.StartDelayExpires : Prop :=
  ∀ (s : State) (i : SecId),
    ((∀ e, s.part.islands[i].startDelay = .running e → due e s.part.ms = false) →
      exec (.startDelayTimerExpiry i) s = .next s) ∧
    (∀ e, s.part.islands[i].startDelay = .running e → due e s.part.ms = true → isRunning s.part = true →
      (∃ t, exec (.startDelayTimerExpiry i) s = .next t ∧
        let r := t.part.islands[i]
        let again := after s.part.ms (if s.part.header.startDelay = 0 then 1 else s.part.header.startDelay)
        r.startDelay =
          if r.condition = .short ∨ r.condition = .overloaded then
            if r.held = true then .suspended (msLeft again s.part.ms) else .running again
          else .stopped) ∧
      ((∃ g, genIsland s.part g = some i ∧ s.part.gens[g].state = .starting) →
        ∃ t, exec (.startDelayTimerExpiry i) s = .next t ∧ t.bus = s.bus ∧
          t.part = { s.part with islands := t.part.islands }) ∧
      (∀ g : GenId, (∀ h, genIsland s.part h = some i → s.part.gens[h].state ≠ .starting) →
        genIsland s.part g = some i → s.part.gens[g].state = .idle → genRank s.part g ≠ 0 →
        (∀ h, genIsland s.part h = some i → s.part.gens[h].state = .idle → genRank s.part h ≠ 0 → h ≠ g →
          genRank s.part g < genRank s.part h) →
        ∃ t, exec (.startDelayTimerExpiry i) s = .next t ∧ t.bus = s.bus ∧ t.pending = s.pending ∧
          t.part.gens = setAt s.part.gens g ⟨.starting, true, .startDelay, false,
            some (after s.part.ms (1000 * s.part.header.startTimeout)), 0, none, false, none⟩ ∧
          t.part.lu = (reported
            [.command { target := .gen g, kind := .startGen, cause := 1#8, island := i, a := kw (genRating s.part g),
                        b := 0#32 },
             .notice (notice .genState g.val 1 i (8 * flag (engineReady s.part.img.genMeas[g].word)) 0#32 0#32)]
            s.part).lu ∧
          t.part.islands[i].standbyExhausted = false ∧ t.part.cons = s.part.cons ∧
          t.part.shedList = s.part.shedList ∧ t.part.plans = s.part.plans) ∧
      ((∀ h, genIsland s.part h = some i → s.part.gens[h].state ≠ .starting) →
        (∀ h, genIsland s.part h = some i → s.part.gens[h].state = .idle → genRank s.part h = 0) →
        ∃ t, exec (.startDelayTimerExpiry i) s = .next t ∧ t.bus = s.bus ∧ t.pending = s.pending ∧
          t.part.islands[i].standbyExhausted = true ∧
          (s.part.islands[i].standbyExhausted = true → t.part = { s.part with islands := t.part.islands }) ∧
          (s.part.islands[i].standbyExhausted = false →
            t.part = { reported [.notice (notice .noStandby i.val 1 i 0 0#32 0#32), .attention .startFail] s.part with
              islands := t.part.islands })))

/-- The release-hold timer's expiry releases the island's most recent entry: a consumer, to be closed again or left
open as its plan entry says, or a drive, whose controller limit returns with its DRIVE_LIMIT and RELEASE (R124, R125,
R129). The release condition is then judged for the entry that is now the most recent: where it holds the timer starts from
zero, and else it stays stopped; with no entry nothing is released (R50, R124). No other island changes. That a timer that
is not reached does not act is assumption log 11's. -/
def Obligations.ReleaseHoldExpires : Prop :=
  ∀ (s : State) (i : SecId),
    ((∀ t e, s.part.islands[i].releaseHold = some (t, e) → due e s.part.ms = false) →
      exec (.releaseHoldTimerExpiry i) s = .next s) ∧
    (∀ t0 e0, s.part.islands[i].releaseHold = some (t0, e0) → due e0 s.part.ms = true →
      ∃ t, exec (.releaseHoldTimerExpiry i) s = .next t ∧
        (isRunning s.part = true → timersFollow { s.part.islands[i] with releaseHold := none } t.part i) ∧
        (isRunning s.part = false → t.part.islands[i].releaseHold = none) ∧
        (∀ j : SecId, j ≠ i → t.part.islands[j] = s.part.islands[j]) ∧
        (entriesOf s.part i = [] → t = { s with part := { s.part with islands := t.part.islands } })) ∧
    (∀ t0 e0 e, s.part.islands[i].releaseHold = some (t0, e0) → due e0 s.part.ms = true →
      (entriesOf s.part i).getLast? = some e →
      (∀ (c : ConsId) (cp : ConsPlan), e.target = .cons c → s.part.plans.active.cons[c] = some cp →
        let deadline := after s.part.ms (breakerTimeout cp)
        let close := [Report.command { target := .cons c, kind := .closeConsumer, cause := 0#8, island := i, a := 0#32,
                                       b := deadline }]
        ∃ t, exec (.releaseHoldTimerExpiry i) s = .next t ∧ t.bus = s.bus ∧ t.pending = s.pending ∧
          t.part.shedList = s.part.shedList.filter (fun x => decide (x.target ≠ .cons c)) ∧
          t.part.cons = setAt s.part.cons c
            (if cp.autoRestore = true then ⟨.restoring, some deadline⟩ else ⟨.isOpen, none⟩) ∧
          bits t.part.cmd[c] 0 2 = (if cp.autoRestore = true then 2 else 1) ∧
          bit t.part.cmd[c] 8 = false ∧ bit t.part.cmd[c] 9 = false ∧
          t.part.sq = sqPut (.consCmd c) t.part.cmd[c] s.part.sq ∧
          t.part.lu = (reported ((if cp.autoRestore = true then close else []) ++
            [.notice (notice .release c.val (shedCauseCode e.cause) i (flag cp.autoRestore) (kw e.credit) e.shedTime)])
            s.part).lu ∧
          t.part.att.word.getLsbD 8 = true ∧ t.part.gens = s.part.gens ∧ t.part.drives = s.part.drives) ∧
      (∀ d : DriveId, e.target = .drive d →
        ∃ t, exec (.releaseHoldTimerExpiry i) s = .next t ∧ t.bus = s.bus ∧ t.pending = s.pending ∧
          t.part.shedList = s.part.shedList.filter (fun x => decide (x.target ≠ .drive d)) ∧
          t.part.drives = setAt s.part.drives d ⟨false, 0⟩ ∧
          effectiveLimit t.part d = controllerLimit s.part d ∧
          t.part.sq = sqPut (.driveLimit d) (pack [(controllerLimit s.part d, 0, 16), (0, 16, 1)]) s.part.sq ∧
          t.part.lu = (reported
            [.command { target := .drive d, kind := .driveLimit, cause := 0#8, island := i,
                        a := kw (controllerLimit s.part d), b := kw (controllerLimit s.part d) },
             .notice (notice .release (64 + d.val) (shedCauseCode e.cause) i 0
               (pack [(e.credit, 0, 16), (controllerLimit s.part d, 16, 16)]) e.shedTime)] s.part).lu ∧
          t.part.att.word.getLsbD 8 = true ∧ t.part.gens = s.part.gens ∧ t.part.cons = s.part.cons ∧
          t.part.cmd = s.part.cmd))

/-- The start timer's expiry, and the open timer's, where the island holds the totals and condition its members give or
the part is not RUNNING: FAILED with STOP_GEN, START_FAIL and attention START_FAIL (R65); ONLINE again with START_GEN,
UNLOAD_FAILED and attention STOP_END (R70). The failure of an automatic start in an island that is not SOUND asks in RUNNING
for the next standby start with cause FALLBACK: none where another generator is STARTING; the candidate, started
automatically; and with no candidate NO_STANDBY, once until the mark clears (R65, R75, R76, R78; the notice's engine-ready
mark is assumption log 22's). -/
def Obligations.GeneratorTimersExpire : Prop :=
  ∀ (s : State) (g : GenId) (i : SecId), genIsland s.part g = some i →
    (islandAgrees s.part i ∨ isRunning s.part = false) →
    let e := s.part.gens[g]
    (∀ d, e.state = .starting → e.startTimer = some d → due d s.part.ms = true →
      (e.automatic = false ∨ isRunning s.part = false ∨ s.part.islands[i].condition = .sound) →
      ∃ t, exec (.startTimerExpiry g) s = .next t ∧ t.bus = s.bus ∧ t.pending = s.pending ∧
        t.part.gens = setAt s.part.gens g { Gen.init with state := .failed } ∧
        t.part.lu = (reported
          [.command { target := .gen g, kind := .stopGen, cause := 1#8, island := i, a := 0#32, b := 0#32 },
           .notice (notice .startFail g.val (startCauseCode e.cause) i (flag e.readySeen) 0#32 0#32)] s.part).lu ∧
        t.part.att.word.getLsbD 5 = true ∧ t.part.cons = s.part.cons ∧ t.part.shedList = s.part.shedList) ∧
    (∀ d, e.state = .starting → e.startTimer = some d → due d s.part.ms = true →
      e.automatic = true → isRunning s.part = true → s.part.islands[i].condition ≠ .sound →
      let failed := setAt s.part.gens g { Gen.init with state := .failed }
      let others := fun st : GenState => fun h : GenId => h ≠ g ∧ genIsland s.part h = some i ∧ s.part.gens[h].state = st
      let reports : List Report :=
        [.command { target := .gen g, kind := .stopGen, cause := 1#8, island := i, a := 0#32, b := 0#32 },
         .notice (notice .startFail g.val (startCauseCode e.cause) i (flag e.readySeen) 0#32 0#32)]
      ∃ t, exec (.startTimerExpiry g) s = .next t ∧ t.bus = s.bus ∧ t.pending = s.pending ∧
        t.part.att.word.getLsbD 5 = true ∧ t.part.cons = s.part.cons ∧ t.part.shedList = s.part.shedList ∧
        ((∃ h, others .starting h) → t.part.gens = failed ∧ t.part.lu = (reported reports s.part).lu) ∧
        (∀ h : GenId, (∀ k, ¬ others .starting k) → others .idle h → genRank s.part h ≠ 0 →
          (∀ k, others .idle k → genRank s.part k ≠ 0 → k ≠ h → genRank s.part h < genRank s.part k) →
          t.part.gens = setAt failed h ⟨.starting, true, .fallback, false,
            some (after s.part.ms (1000 * s.part.header.startTimeout)), 0, none, false, none⟩ ∧
          t.part.islands[i].standbyExhausted = false ∧
          t.part.lu = (reported (reports ++
            [.command { target := .gen h, kind := .startGen, cause := 4#8, island := i, a := kw (genRating s.part h),
                        b := 0#32 },
             .notice (notice .genState h.val 1 i (8 * flag (engineReady s.part.img.genMeas[h].word)) 0#32 0#32)])
            s.part).lu) ∧
        ((∀ k, ¬ others .starting k) → (∀ k, others .idle k → genRank s.part k = 0) →
          t.part.gens = failed ∧ t.part.islands[i].standbyExhausted = true ∧
          t.part.lu = (reported (reports ++ if s.part.islands[i].standbyExhausted = true then [] else
            [.notice (notice .noStandby i.val 4 i 0 0#32 0#32)]) s.part).lu)) ∧
    (∀ d, e.state = .unloading → e.openTimer = some d → due d s.part.ms = true →
      ∃ t, exec (.openTimerExpiry g) s = .next t ∧ t.bus = s.bus ∧ t.pending = s.pending ∧
        t.part.gens = setAt s.part.gens g { Gen.init with state := .online } ∧
        t.part.lu = (reported
          [.command { target := .gen g, kind := .startGen, cause := 5#8, island := i, a := kw (genRating s.part g),
                      b := 0#32 },
           .notice (notice .unloadFailed g.val 0 i 0 (kw e.ramp) 0#32)] s.part).lu ∧
        t.part.att.word.getLsbD 7 = true ∧ t.part.cons = s.part.cons ∧ t.part.shedList = s.part.shedList)

/-- A ramp step lowers the ramp value by a tenth of the plan ramp rate, or by 1 kW, and at the unload floor gives
OPEN_GEN (R67, R68). A raise of the ramp-in cap forms it afresh from the connection output, and removes it where the value
so formed is at the rating (R90; for a cap that an activation left at or above the rating, assumption log 40). Below the rating, a generator in MODE FIXED keeps its cap; one in MODE SHARE whose first share the cap no longer
holds back loses it, and one held back keeps it and has the cap as its target, written by the deadband (R87, R90, R91). -/
def Obligations.RampAndCapStep : Prop :=
  ∀ (s : State) (g : GenId) (gp : GenPlan), s.part.plans.active.gens[g] = some gp →
    let e := s.part.gens[g]
    let c := s.part.sharing[g]
    let i := islandId s.part.img.ties gp.sec
    (∀ d, e.state = .unloading → e.rampTimer = some d → due d s.part.ms = true →
      let ramp := e.ramp - max 1 (gp.rampRate / 10)
      let floor := gp.rating * s.part.header.unloadFloorPct / 100
      let expiry := after s.part.ms (100 * s.part.header.genOpenTimeout)
      ∃ t, exec (.rampStep g) s = .next t ∧ t.bus = s.bus ∧ t.pending = s.pending ∧
        (floor < ramp → t.part.lu = s.part.lu ∧
          t.part.gens = setAt s.part.gens g { e with ramp := ramp, rampTimer := some (after s.part.ms 100) }) ∧
        (ramp ≤ floor →
          t.part.gens = setAt s.part.gens g
            { e with ramp := ramp, rampTimer := none, openIssued := true, openTimer := some expiry } ∧
          t.part.lu = (reported [.command ⟨.gen g, .openGen, 0#8, i, kw ramp, expiry⟩] s.part).lu) ∧
        t.part.cons = s.part.cons ∧ t.part.shedList = s.part.shedList) ∧
    (∀ d, c.capOpen = true → c.raiseTimer = some d → due d s.part.ms = true → c.raises ≠ 0xFFFF#16 →
      let cap := c.connection + gp.rampRate * (c.raises.toNat + 1) / 10
      ∃ t, exec (.capRaise g) s = .next t ∧ t.bus = s.bus ∧ t.pending = s.pending ∧
        let now := t.part.sharing[g]
        let raised : Sharing := ⟨now.lastWritten, true, c.connection, c.raises + 1, cap, some (after s.part.ms 100)⟩
        let removed : Sharing := ⟨now.lastWritten, false, 0, 0#16, 0, none⟩
        (gp.rating ≤ cap → now = removed) ∧
        (cap < gp.rating → reqFixed s.part.img.genReq[g] = true → now = raised) ∧
        (cap < gp.rating → reqFixed s.part.img.genReq[g] = false → e.state = .online →
          (firstShare s.part i g ≤ cap → now = removed) ∧
          (cap < firstShare s.part i g → now = raised ∧ targetOf t.part i g = cap ∧
            (c.lastWritten + s.part.header.shareDeadband < cap ∨ cap + s.part.header.shareDeadband < c.lastWritten →
              now.lastWritten = cap ∧ ∃ x ∈ t.part.sq, x.word = .genTarget g ∧ x.data = pack [(cap, 0, 16)]) ∧
            (c.lastWritten ≤ cap + s.part.header.shareDeadband → cap ≤ c.lastWritten + s.part.header.shareDeadband →
              now.lastWritten = c.lastWritten))) ∧
        t.part.gens = s.part.gens ∧ t.part.lu = s.part.lu ∧ t.part.cons = s.part.cons ∧
        t.part.shedList = s.part.shedList)

/-- A verify deadline reached: the entry is removed, the consumer STUCK with REQ OPEN and the STUCK mark in its word, and
attention STUCK; outside RUNNING the STUCK notice is all that is reported. In RUNNING an island that is not DEAD makes the
escalation step for the credit lost; a DEAD one, or an absent consumer, brings none (R106, R112, R115). A restore deadline
reached: OPEN, with its notice and attention RELEASE, and nothing else changes (R128). That a deadline that is not reached
does not act is assumption log 11's, and the island field 0 of an absent consumer's notice log 23's. -/
def Obligations.DeadlinesReached : Prop :=
  ∀ (s : State) (c : ConsId),
    (∀ e d, entryOf s.part (.cons c) = some e → e.state = .opening d → due d s.part.ms = true →
      ∃ t, exec (.verifyDeadline c) s = .next t ∧ t.bus = s.bus ∧ t.pending = s.pending ∧
        hasEntry t.part (.cons c) = false ∧ t.part.cons[c] = ⟨.stuck, none⟩ ∧
        bits t.part.cmd[c] 0 2 = 1 ∧ bit t.part.cmd[c] 8 = false ∧ bit t.part.cmd[c] 9 = true ∧
        (∃ x ∈ t.part.sq, x.word = .consCmd c ∧ x.data = t.part.cmd[c]) ∧
        t.part.att.word.getLsbD 3 = true ∧
        (isRunning s.part = false →
          t.part.shedList = s.part.shedList.filter (fun x => decide (x.target ≠ .cons c)) ∧
          t.part.lu = (reported [.notice (notice .stuck c.val (shedCauseCode e.cause)
            (islandField (consIsland s.part c)) 0 (kw e.credit) 0#32)] s.part).lu) ∧
        (isRunning s.part = true →
          let rest := s.part.shedList.filter (fun x => decide (x.target ≠ .cons c))
          (consIsland s.part c = none → t.part.shedList = rest) ∧
          (∀ i, consIsland s.part c = some i →
            (carrying s.part i = [] → t.part.shedList = rest) ∧
            (carrying s.part i ≠ [] → ∃ new, t.part.shedList = rest ++ new ∧
              stepOutcome t.part i (e.credit : Int) new)))) ∧
    ((∀ e d, entryOf s.part (.cons c) = some e → e.state = .opening d → due d s.part.ms = false) →
      exec (.verifyDeadline c) s = .next s) ∧
    (∀ d, s.part.cons[c] = ⟨.restoring, some d⟩ →
      (due d s.part.ms = true →
        let report := [Report.notice (notice .restoreFailed c.val 0 (islandField (consIsland s.part c))
          (breakerCode (measBreaker s.part.img.consMeas[c])) 0#32 0#32), .attention .release]
        exec (.restoreDeadline c) s = .next
          { s with part := reported report { s.part with cons := setAt s.part.cons c ⟨.isOpen, none⟩ } }) ∧
      (due d s.part.ms = false → exec (.restoreDeadline c) s = .next s))

/-- The settling timer's expiry makes the part RUNNING, and each DEAD island sets attention DEAD (R48, R175); that it does
nothing where it is not reached, or outside SETTLING, is assumption log 11's. Where every island holds what its members give
(BalanceKept), the timers start where their run conditions hold, and a DEAD island gives its standby start with cause DEAD,
or NO_STANDBY's attention, and its dead shed: every candidate and RESTORING consumer of it has an entry, and no cut drive of
it stands above its floor (R50, R75, R76, R78, R79, R111, R123, R176; a RESTORING consumer of class 0: log 38). The advance
of the millisecond counter: after 1000 edges, each of which the gap counts, and an open pair, whose timeout falls at its
fourth (R7, R12). That the command passes the edges up to the one it names is assumption log 12's. -/
def Obligations.TimeBaseAndSettling : Prop :=
  (∀ (s : State) (d : Word), s.part.plans.partState = .settling → s.part.plans.settlingTimer = some d →
    (due d s.part.ms = true →
      ∃ t, exec .settlingTimeout s = .next t ∧ t.bus = s.bus ∧ t.pending = s.pending ∧
        t.part.plans = { s.part.plans with partState := .running, settlingTimer := none } ∧
        t.part.img = s.part.img ∧
        (∀ i : SecId, isIslandId s.part.img.ties i = true → s.part.islands[i].condition = .dead →
          t.part.att.word.getLsbD 0 = true) ∧
        attRises s.part t.part ∧
        ((∀ i, isIslandId s.part.img.ties i = true → islandStands s.part i) →
          ∀ i : SecId, isIslandId s.part.img.ties i = true →
            timersFollow s.part.islands[i] t.part i ∧
            (s.part.islands[i].condition = .dead →
              let idle := fun h : GenId =>
                genIsland s.part h = some i ∧ s.part.gens[h].state = .idle ∧ genRank s.part h ≠ 0
              let starting := ∃ h, genIsland s.part h = some i ∧ s.part.gens[h].state = .starting
              (∀ tg ∈ restoringOf s.part i ++ candidatesOf s.part i, hasEntry t.part tg = true) ∧
              (∀ dr, driveIsland s.part dr = some i → hasEntry s.part (.drive dr) = true →
                t.part.drives[dr].cutLimit ≤ driveFloor s.part dr) ∧
              (starting ∨ (∀ h, ¬ idle h) →
                ∀ h, genIsland s.part h = some i → t.part.gens[h] = s.part.gens[h]) ∧
              (∀ h, ¬ starting → idle h → (∀ k, idle k → k ≠ h → genRank s.part h < genRank s.part k) →
                ∀ k, genIsland s.part k = some i → t.part.gens[k] =
                  if k = h then
                    ⟨.starting, true, .dead, false, some (after s.part.ms (1000 * s.part.header.startTimeout)), 0, none,
                     false, none⟩
                  else s.part.gens[k]) ∧
              (¬ starting → (∀ h, ¬ idle h) →
                t.part.islands[i].standbyExhausted = true ∧ t.part.att.word.getLsbD 5 = true)))) ∧
    (due d s.part.ms = false → exec .settlingTimeout s = .next s)) ∧
  (∀ s : State, s.part.plans.partState ≠ .settling → exec .settlingTimeout s = .next s) ∧
  (∀ s : State, s.bus.subMs ≤ 999 →
    let k := 1000 - s.bus.subMs
    let u := edgesPassed k s
    (s.bus.pair = none → exec .millisecondCounterAdvance s = .next u ∧ u.bus.subMs = 0 ∧ u.part.ms = s.part.ms + 1) ∧
    (∀ pr, s.bus.pair = some pr →
      (k < 3 - pr.edges + 1 → exec .millisecondCounterAdvance s = .next { u with
        bus := { u.bus with pair := some { pr with edges := pr.edges + k } } }) ∧
      (k = 3 - pr.edges + 1 → exec .millisecondCounterAdvance s = exec .pairTimeout s) ∧
      (3 - pr.edges + 1 < k → ∃ v, exec .pairTimeout s = .next v ∧
        exec .millisecondCounterAdvance s = exec .millisecondCounterAdvance v)))

/-! ## The share unit and the ladder (chapters 5 and 6) -/

/-- The division of an island's load: where it has SHARE generators, their first shares add up exactly to the remainder
(R86); the remainder is the load less the FIXED and UNLOADING targets, at least 0 (R85); no target passes the rating, and
a FIXED target is the lesser of the setpoint and the contribution (R88). -/
def Obligations.SharesAddUp : Prop :=
  ∀ (p : Part) (i : SecId),
    (sharers p i ≠ [] → ((sharers p i).map (firstShare p i)).sum = remainder p i) ∧
    remainder p i = p.islands[i].totals.load - ((gensOf p i).map (settledTarget p)).sum ∧
    (∀ g, targetOf p i g ≤ genRating p g) ∧
    (∀ g, isFixed p g = true →
      targetOf p i g = min (min (fixedSetpoint p.img.genFixed[g]) (genContribution p g)) (genRating p g)) ∧
    (∀ g, isSharer p g = true → isCapped p i g = true → targetOf p i g ≤ p.sharing[g].capValue)

/-- A shed step: with a need of 0 or less it is met and sheds nothing; else it appends entries behind those that stand,
it is met exactly when their credits cover the need, and an unmet step leaves EXHAUSTED set with the need left over
(R105, R119; a need past 20 bits is assumption log 5's free value). -/
def Obligations.ShedStepCoversNeed : Prop :=
  ∀ (p : Part) (i : SecId) (cause : ShedCause) (need : Int),
    let q := shedStep i cause need p
    (need ≤ 0 → q = { p with islands := setAt p.islands i { p.islands[i] with exhausted := false, need := 0#20 } }) ∧
    (0 < need → ∃ new : List ShedEntry, q.shedList = p.shedList ++ new ∧
      let shed := (new.map ShedEntry.credit).sum
      (need ≤ (shed : Int) → q.islands[i].exhausted = false ∧ q.islands[i].need = 0#20) ∧
      ((shed : Int) < need → q.islands[i].exhausted = true ∧
        (need - (shed : Int) ≤ 1048575 → q.islands[i].need = BitVec.ofNat 20 (need - (shed : Int)).toNat) ∧
        (p.islands[i].exhausted = false → q.att.word.getLsbD 1 = true))) ∧
    q.gens = p.gens ∧ q.img = p.img ∧ q.plans = p.plans ∧ attRises p q

/-! ## Invariants -/

/-- The forms that every step keeps. The SRAM's two planes keep the canonical form of assumption log 7, the model's own
representation of R10's bytes. The ring heads stay as R186 reads them from the sequence counter, and the queues hold at
most one entry for any word, target and slot and at most 32 notices (R8, R153, R157, R160, R186). The sub-millisecond
count stays below 1000 (R12). -/
def Obligations.FormsKept : Prop :=
  ∀ s t : State, step s = .next t →
    (s.bus.sram.wf = true → t.bus.sram.wf = true) ∧ (s.part.ringsAgree → t.part.ringsAgree) ∧
    (s.part.queuesBounded → t.part.queuesBounded) ∧ (s.bus.subMs ≤ 999 → t.bus.subMs ≤ 999)

/-- Every frame is in the ring its state says and in no other, once, and the FILLING frame is the post's (R151, R152):
every step. -/
def Obligations.FramesAgreeKept : Prop :=
  ∀ s t : State, s.part.framesAgree → step s = .next t → t.part.framesAgree

/-- The law of the guarded word (R142): for every consumer on the shed list or STUCK, the CMD word, in its store-queue
entry or in SRAM, has the value of the ladder's copy, whose REQ is OPEN and whose marks are the standing's: every step. -/
def Obligations.GuardedWordsKept : Prop :=
  ∀ s t : State, s.guardedWords → step s = .next t →
    t.guardedWords ∧ ∀ c : ConsId, isGuarded t.part c = true → bits (cmdValue t c) 0 2 = 1

/-- Every step keeps: a running release-hold timer runs for the most recent entry of its island, whose entries are all HELD
(R122, R123); and with that, every drive's entry HELD, every island holds the totals, the condition and the HELD mark that
its members give (R45, R46, R49). -/
def Obligations.BalanceKept : Prop :=
  ∀ s t : State, step s = .next t →
    ((∀ i, releaseTimed s.part i) → ∀ i, releaseTimed t.part i) ∧ (s.part.balanced → t.part.balanced)

/-- The invariants hold at reset. -/
def Obligations.InvariantsAtReset : Prop :=
  State.reset.bus.sram.wf = true ∧ State.reset.part.ringsAgree ∧ State.reset.part.queuesBounded ∧
    State.reset.part.framesAgree ∧ State.reset.guardedWords ∧ State.reset.bus.subMs ≤ 999 ∧ State.reset.part.balanced
end

