-- ==== Sys2Proof/Laws/Fields.lean ====
section
/-! SUPPORT. The fields of a packed word, and of a CMD word as the ladder writes it. -/

namespace Sys2Proof.Machine

/-- A field bit by bit. -/
theorem testBit_bits (w : Word) (lo len i : Nat) :
    (bits w lo len).testBit i = (decide (i < len) && w.toNat.testBit (lo + i)) := by
  unfold bits
  rw [Nat.testBit_mod_two_pow, Nat.testBit_div_two_pow, Nat.add_comm]

/-- A field is below its size. -/
theorem bits_lt (w : Word) (lo len : Nat) : bits w lo len < 2 ^ len := Nat.mod_lt _ (Nat.two_pow_pos len)

/-- A packed word bit by bit: a field that covers the bit. -/
theorem testBit_pack (fs : List (Nat × Nat × Nat)) (j : Nat) :
    (pack fs).toNat.testBit j = (decide (j < 32) && fs.any fun f => decide (f.2.1 ≤ j) &&
      (decide (j - f.2.1 < f.2.2) && f.1.testBit (j - f.2.1))) := by
  induction fs with
  | nil => simp [pack]
  | cons f fs ih =>
    obtain ⟨v, lo, len⟩ := f
    simp only [pack, BitVec.toNat_or, Nat.testBit_or, ih, List.any_cons, BitVec.toNat_ofNat, Nat.testBit_mod_two_pow,
      Nat.testBit_mul_two_pow, Nat.testBit_mod_two_pow]
    by_cases h : j < 32 <;> simp [h]

/-- The field of a packed word that no later field meets. -/
theorem bits_pack (v lo len : Nat) (fs : List (Nat × Nat × Nat)) (h : lo + len ≤ 32)
    (k : ∀ f ∈ fs, f.2.1 + f.2.2 ≤ lo ∨ lo + len ≤ f.2.1) : bits (pack ((v, lo, len) :: fs)) lo len = v % 2 ^ len := by
  apply Nat.eq_of_testBit_eq
  intro i
  rw [testBit_bits, testBit_pack, Nat.testBit_mod_two_pow]
  by_cases hi : i < len
  · have hf : (fs.any fun f => decide (f.2.1 ≤ lo + i) &&
        (decide (lo + i - f.2.1 < f.2.2) && f.1.testBit (lo + i - f.2.1))) = false := by
      rw [List.any_eq_false]
      intro f hm hc
      simp only [Bool.and_eq_true, decide_eq_true_eq] at hc
      rcases k f hm with h1 | h1 <;> omega
    have h32 : lo + i < 32 := by omega
    simp [hi, hf, h32]
  · simp [hi]

/-- A field of a packed word passes over a first field that it does not meet. -/
theorem bits_pack_skip (v lo' len' lo len : Nat) (fs : List (Nat × Nat × Nat)) (k : lo' + len' ≤ lo ∨ lo + len ≤ lo') :
    bits (pack ((v, lo', len') :: fs)) lo len = bits (pack fs) lo len := by
  apply Nat.eq_of_testBit_eq
  intro i
  rw [testBit_bits, testBit_bits, testBit_pack, testBit_pack]
  by_cases hi : i < len
  · have hf : (decide (lo' ≤ lo + i) && (decide (lo + i - lo' < len') && v.testBit (lo + i - lo'))) = false := by
      rcases k with h1 | h1
      · have : ¬ lo + i - lo' < len' := by omega
        simp [this]
      · have : ¬ lo' ≤ lo + i := by omega
        simp [this]
    simp [hi, hf]
  · simp [hi]

theorem bit_eq_testBit (w : Word) (i : Nat) : bit w i = w.toNat.testBit i := rfl

/-- A mark of a packed word is its field. -/
theorem bits_one (w : Word) (i : Nat) : bits w i 1 = flag (bit w i) := by
  unfold bits bit flag
  rw [Nat.testBit_eq_decide_div_mod_eq]
  by_cases h : w.toNat / 2 ^ i % 2 = 1
  · simp [h]
  · simp [h]; omega

theorem bit_of_bits (w : Word) (i : Nat) (b : Bool) (h : bits w i 1 = flag b) : bit w i = b := by
  rw [bits_one] at h
  cases hb : bit w i <;> cases b <;> simp_all [flag]

@[simp] theorem flag_mod (b : Bool) : flag b % 2 = flag b := by cases b <;> rfl

/-! ## The CMD word as the ladder writes it (R138) -/

/-- The bits of a CMD word outside REQ, ACK and the marks stand; ACK is 0; the others are as given. -/
theorem testBit_cmdWord (w : Word) (req : Nat) (shed stuck : Bool) (j : Nat) :
    (cmdWord w req shed stuck).toNat.testBit j =
      ((w.toNat.testBit j && !(0x313#32).toNat.testBit j && decide (j < 32)) ||
        (pack [(req, 0, 2), (flag shed, 8, 1), (flag stuck, 9, 1)]).toNat.testBit j) := by
  unfold cmdWord
  rw [BitVec.toNat_or, Nat.testBit_or, BitVec.toNat_and, Nat.testBit_and]
  congr 1
  rw [BitVec.testBit_toNat, BitVec.testBit_toNat, BitVec.getLsbD_not]
  rw [BitVec.testBit_toNat]
  by_cases h : j < 32 <;> simp [h]

theorem cmdWord_field (w : Word) (req : Nat) (shed stuck : Bool) (lo len : Nat)
    (h : ∀ i, i < len → (0x313#32).toNat.testBit (lo + i) = true) :
    bits (cmdWord w req shed stuck) lo len
      = bits (pack [(req, 0, 2), (flag shed, 8, 1), (flag stuck, 9, 1)]) lo len := by
  apply Nat.eq_of_testBit_eq
  intro i
  rw [testBit_bits, testBit_bits, testBit_cmdWord]
  by_cases hi : i < len
  · rw [h i hi]; simp
  · simp [hi]

@[simp] theorem cmdReq_cmdWord (w : Word) (req : Nat) (shed stuck : Bool) :
    cmdReq (cmdWord w req shed stuck) = req % 4 := by
  unfold cmdReq
  rw [cmdWord_field _ _ _ _ _ _ (by decide), bits_pack _ _ _ _ (by decide) (by simp)]
  rfl

@[simp] theorem cmdShed_cmdWord (w : Word) (req : Nat) (shed stuck : Bool) :
    cmdShed (cmdWord w req shed stuck) = shed := by
  refine bit_of_bits _ _ _ ?_
  rw [cmdWord_field _ _ _ _ _ _ (by decide), bits_pack_skip _ _ _ _ _ _ (by decide), bits_pack _ _ _ _ (by decide) (by simp)]
  exact flag_mod shed

@[simp] theorem cmdStuck_cmdWord (w : Word) (req : Nat) (shed stuck : Bool) :
    cmdStuck (cmdWord w req shed stuck) = stuck := by
  refine bit_of_bits _ _ _ ?_
  rw [cmdWord_field _ _ _ _ _ _ (by decide), bits_pack_skip _ _ _ _ _ _ (by decide),
    bits_pack_skip _ _ _ _ _ _ (by decide), bits_pack _ _ _ _ (by decide) (by simp)]
  exact flag_mod stuck

@[simp] theorem cmdAck_cmdWord (w : Word) (req : Nat) (shed stuck : Bool) :
    cmdAck (cmdWord w req shed stuck) = false := by
  refine bit_of_bits _ _ _ ?_
  rw [cmdWord_field _ _ _ _ _ _ (by decide), bits_pack_skip _ _ _ _ _ _ (by decide),
    bits_pack_skip _ _ _ _ _ _ (by decide), bits_pack_skip _ _ _ _ _ _ (by decide)]
  rfl

/-- A bit that no field of a CMD word names stands as it was. -/
theorem bit_cmdWord_other (w : Word) (req : Nat) (shed stuck : Bool) (n : Nat) (h : n ∉ [0, 1, 4, 8, 9]) :
    bit (cmdWord w req shed stuck) n = bit w n := by
  rw [bit_eq_testBit, testBit_cmdWord, testBit_pack, bit_eq_testBit, BitVec.testBit_toNat]
  by_cases hn : n < 32
  · simp only [List.mem_cons, List.not_mem_nil, or_false, not_or] at h
    have hm : (0x313#32).toNat.testBit n = false := by
      have : ∀ n, n < 32 → n ∉ [0, 1, 4, 8, 9] → (0x313#32).toNat.testBit n = false := by decide
      exact this n hn (by simp; omega)
    have h1 : ¬ n < 2 := by omega
    have h2 : ¬ (8 ≤ n ∧ n - 8 < 1) := by omega
    have h3 : ¬ (9 ≤ n ∧ n - 9 < 1) := by omega
    simp only [hm, hn]
    simp only [not_and, Nat.not_lt] at h2 h3
    simp [h1, hn]
    rintro (⟨a, b, -⟩ | ⟨a, b, -⟩)
    · have := h2 a; omega
    · have := h3 a; omega
  · have := BitVec.getLsbD_of_ge w n (by omega)
    simp [hn, this]

end Sys2Proof.Machine
end

