-- ==== Sys2Proof/Laws/State.lean ====
section
/-! SUPPORT. The small lemmas of the record updates: what each named setter changes, and that it changes nothing
else. Every later lemma cites these and unfolds no update. -/

namespace Sys2Proof.Machine

/-! ## Slots -/

@[simp] theorem setAt_same {α : Type} {n : Nat} (v : Vector α n) (i : Fin n) (x : α) : (setAt v i x)[i] = x := by
  simp [setAt]

@[simp] theorem setAt_same_val {α : Type} {n : Nat} (v : Vector α n) (i : Fin n) (x : α) :
    (setAt v i x)[i.val] = x := by
  simp [setAt]

theorem setAt_other {α : Type} {n : Nat} (v : Vector α n) {i j : Fin n} (x : α) (h : i ≠ j) :
    (setAt v i x)[j] = v[j] := by
  have : i.val ≠ j.val := fun e => h (Fin.ext e)
  simp [setAt, Vector.getElem_set_ne, this]

theorem setAt_get {α : Type} {n : Nat} (v : Vector α n) (i j : Fin n) (x : α) :
    (setAt v i x)[j] = if i = j then x else v[j] := by
  split
  · next h => subst h; exact setAt_same v i x
  · next h => exact setAt_other v x h

/-- A fold whose steps each keep a view of the state keeps it. -/
theorem foldl_keep {α β γ : Type} (view : β → γ) (f : β → α → β) (l : List α) (b : β)
    (h : ∀ b a, view (f b a) = view b) : view (l.foldl f b) = view b := by
  induction l generalizing b with
  | nil => rfl
  | cons a l ih => exact (ih (f b a)).trans (h b a)

/-- A property that each step of a fold keeps holds after the fold. -/
theorem foldl_keeps {α β : Type} (P : β → Prop) (f : β → α → β) (l : List α) (b : β) (h0 : P b)
    (h : ∀ b, ∀ a ∈ l, P b → P (f b a)) : P (l.foldl f b) := by
  induction l generalizing b with
  | nil => exact h0
  | cons a l ih =>
    exact ih (f b a) (h b a (by simp) h0) fun b a' m => h b a' (by simp [m])

/-! ## Setters: the field each writes -/

@[simp] theorem setIsland_islands (i : SecId) (r : Island) (p : Part) : (setIsland i r p).islands = setAt p.islands i r := rfl

@[simp] theorem setGen_gens (g : GenId) (e : Gen) (p : Part) : (setGen g e p).gens = setAt p.gens g e := rfl

@[simp] theorem setSharing_sharing (g : GenId) (e : Sharing) (p : Part) : (setSharing g e p).sharing = setAt p.sharing g e := rfl

@[simp] theorem setCons_cons (c : ConsId) (e : Consumer) (p : Part) : (setCons c e p).cons = setAt p.cons c e := rfl

@[simp] theorem setConsState_cons (c : ConsId) (st : ConsState) (p : Part) : (setConsState c st p).cons = setAt p.cons c ⟨st, none⟩ := rfl

@[simp] theorem setDrive_drives (d : DriveId) (e : Drive) (p : Part) : (setDrive d e p).drives = setAt p.drives d e := rfl

@[simp] theorem appendEntry_shedList (e : ShedEntry) (p : Part) : (appendEntry e p).shedList = p.shedList ++ [e] := rfl

@[simp] theorem enqueue_sq (w : SqWord) (d : Word) (p : Part) : (enqueue w d p).sq = sqPut w d p.sq := rfl

@[simp] theorem setAtt_att (b : AttBit) (p : Part) : (setAtt b p).att = { p.att with word := attWord p.att.word b } := rfl

@[simp] theorem setLoader_plans (l : LoaderState) (p : Part) : (setLoader l p).plans = { p.plans with loader := l } := rfl

@[simp] theorem setKey_plans (k : KeyState) (p : Part) : (setKey k p).plans = { p.plans with key := k } := rfl

@[simp] theorem removeEntry_shedList (t : Target) (p : Part) :
    (removeEntry t p).shedList = p.shedList.filter fun e => decide (e.target ≠ t) := rfl

@[simp] theorem changeEntry_shedList (t : Target) (f : ShedEntry → ShedEntry) (p : Part) :
    (changeEntry t f p).shedList = p.shedList.map fun e => if e.target = t then f e else e := rfl

@[simp] theorem setCmd_cmd (c : ConsId) (req : Nat) (shed stuck : Bool) (p : Part) :
    (setCmd c req shed stuck p).cmd =
      setAt p.cmd c (cmdWord p.cmd[c] req shed stuck) := rfl

@[simp] theorem setCmd_sq (c : ConsId) (req : Nat) (shed stuck : Bool) (p : Part) :
    (setCmd c req shed stuck p).sq =
      sqPut (.consCmd c) (cmdWord p.cmd[c] req shed stuck) p.sq := rfl

/-! ## Setters: all else stands -/

@[simp] theorem setIsland_frame (i : SecId) (r : Island) (p : Part) :
      (setIsland i r p).base = p.base ∧ (setIsland i r p).ms = p.ms ∧ (setIsland i r p).img = p.img ∧
      (setIsland i r p).gens = p.gens ∧ (setIsland i r p).sharing = p.sharing ∧ (setIsland i r p).cmd = p.cmd ∧
      (setIsland i r p).cons = p.cons ∧ (setIsland i r p).drives = p.drives ∧
      (setIsland i r p).shedList = p.shedList ∧ (setIsland i r p).sq = p.sq ∧ (setIsland i r p).lu = p.lu ∧
      (setIsland i r p).plans = p.plans ∧ (setIsland i r p).att = p.att ∧ (setIsland i r p).free = p.free := by
  refine ⟨?_, ?_, ?_, ?_, ?_, ?_, ?_, ?_, ?_, ?_, ?_, ?_, ?_, ?_⟩ <;> rfl

@[simp] theorem setGen_frame (g : GenId) (e : Gen) (p : Part) :
      (setGen g e p).base = p.base ∧ (setGen g e p).ms = p.ms ∧ (setGen g e p).img = p.img ∧
      (setGen g e p).islands = p.islands ∧ (setGen g e p).sharing = p.sharing ∧ (setGen g e p).cmd = p.cmd ∧
      (setGen g e p).cons = p.cons ∧ (setGen g e p).drives = p.drives ∧ (setGen g e p).shedList = p.shedList ∧
      (setGen g e p).sq = p.sq ∧ (setGen g e p).lu = p.lu ∧ (setGen g e p).plans = p.plans ∧
      (setGen g e p).att = p.att ∧ (setGen g e p).free = p.free := by
  refine ⟨?_, ?_, ?_, ?_, ?_, ?_, ?_, ?_, ?_, ?_, ?_, ?_, ?_, ?_⟩ <;> rfl

@[simp] theorem setSharing_frame (g : GenId) (e : Sharing) (p : Part) :
      (setSharing g e p).base = p.base ∧ (setSharing g e p).ms = p.ms ∧ (setSharing g e p).img = p.img ∧
      (setSharing g e p).islands = p.islands ∧ (setSharing g e p).gens = p.gens ∧ (setSharing g e p).cmd = p.cmd ∧
      (setSharing g e p).cons = p.cons ∧ (setSharing g e p).drives = p.drives ∧
      (setSharing g e p).shedList = p.shedList ∧ (setSharing g e p).sq = p.sq ∧ (setSharing g e p).lu = p.lu ∧
      (setSharing g e p).plans = p.plans ∧ (setSharing g e p).att = p.att ∧ (setSharing g e p).free = p.free := by
  refine ⟨?_, ?_, ?_, ?_, ?_, ?_, ?_, ?_, ?_, ?_, ?_, ?_, ?_, ?_⟩ <;> rfl

@[simp] theorem setCons_frame (c : ConsId) (e : Consumer) (p : Part) :
      (setCons c e p).base = p.base ∧ (setCons c e p).ms = p.ms ∧ (setCons c e p).img = p.img ∧
      (setCons c e p).islands = p.islands ∧ (setCons c e p).gens = p.gens ∧ (setCons c e p).sharing = p.sharing ∧
      (setCons c e p).cmd = p.cmd ∧ (setCons c e p).drives = p.drives ∧ (setCons c e p).shedList = p.shedList ∧
      (setCons c e p).sq = p.sq ∧ (setCons c e p).lu = p.lu ∧ (setCons c e p).plans = p.plans ∧
      (setCons c e p).att = p.att ∧ (setCons c e p).free = p.free := by
  refine ⟨?_, ?_, ?_, ?_, ?_, ?_, ?_, ?_, ?_, ?_, ?_, ?_, ?_, ?_⟩ <;> rfl

@[simp] theorem setConsState_frame (c : ConsId) (st : ConsState) (p : Part) :
      (setConsState c st p).base = p.base ∧ (setConsState c st p).ms = p.ms ∧ (setConsState c st p).img = p.img ∧
      (setConsState c st p).islands = p.islands ∧ (setConsState c st p).gens = p.gens ∧
      (setConsState c st p).sharing = p.sharing ∧ (setConsState c st p).cmd = p.cmd ∧
      (setConsState c st p).drives = p.drives ∧ (setConsState c st p).shedList = p.shedList ∧
      (setConsState c st p).sq = p.sq ∧ (setConsState c st p).lu = p.lu ∧ (setConsState c st p).plans = p.plans ∧
      (setConsState c st p).att = p.att ∧ (setConsState c st p).free = p.free := by
  refine ⟨?_, ?_, ?_, ?_, ?_, ?_, ?_, ?_, ?_, ?_, ?_, ?_, ?_, ?_⟩ <;> rfl

@[simp] theorem setDrive_frame (d : DriveId) (e : Drive) (p : Part) :
      (setDrive d e p).base = p.base ∧ (setDrive d e p).ms = p.ms ∧ (setDrive d e p).img = p.img ∧
      (setDrive d e p).islands = p.islands ∧ (setDrive d e p).gens = p.gens ∧
      (setDrive d e p).sharing = p.sharing ∧ (setDrive d e p).cmd = p.cmd ∧ (setDrive d e p).cons = p.cons ∧
      (setDrive d e p).shedList = p.shedList ∧ (setDrive d e p).sq = p.sq ∧ (setDrive d e p).lu = p.lu ∧
      (setDrive d e p).plans = p.plans ∧ (setDrive d e p).att = p.att ∧ (setDrive d e p).free = p.free := by
  refine ⟨?_, ?_, ?_, ?_, ?_, ?_, ?_, ?_, ?_, ?_, ?_, ?_, ?_, ?_⟩ <;> rfl

@[simp] theorem appendEntry_frame (e : ShedEntry) (p : Part) :
      (appendEntry e p).base = p.base ∧ (appendEntry e p).ms = p.ms ∧ (appendEntry e p).img = p.img ∧
      (appendEntry e p).islands = p.islands ∧ (appendEntry e p).gens = p.gens ∧
      (appendEntry e p).sharing = p.sharing ∧ (appendEntry e p).cmd = p.cmd ∧ (appendEntry e p).cons = p.cons ∧
      (appendEntry e p).drives = p.drives ∧ (appendEntry e p).sq = p.sq ∧ (appendEntry e p).lu = p.lu ∧
      (appendEntry e p).plans = p.plans ∧ (appendEntry e p).att = p.att ∧ (appendEntry e p).free = p.free := by
  refine ⟨?_, ?_, ?_, ?_, ?_, ?_, ?_, ?_, ?_, ?_, ?_, ?_, ?_, ?_⟩ <;> rfl

@[simp] theorem enqueue_frame (w : SqWord) (d : Word) (p : Part) :
      (enqueue w d p).base = p.base ∧ (enqueue w d p).ms = p.ms ∧ (enqueue w d p).img = p.img ∧
      (enqueue w d p).islands = p.islands ∧ (enqueue w d p).gens = p.gens ∧ (enqueue w d p).sharing = p.sharing ∧
      (enqueue w d p).cmd = p.cmd ∧ (enqueue w d p).cons = p.cons ∧ (enqueue w d p).drives = p.drives ∧
      (enqueue w d p).shedList = p.shedList ∧ (enqueue w d p).lu = p.lu ∧ (enqueue w d p).plans = p.plans ∧
      (enqueue w d p).att = p.att ∧ (enqueue w d p).free = p.free := by
  refine ⟨?_, ?_, ?_, ?_, ?_, ?_, ?_, ?_, ?_, ?_, ?_, ?_, ?_, ?_⟩ <;> rfl

@[simp] theorem setAtt_frame (b : AttBit) (p : Part) :
      (setAtt b p).base = p.base ∧ (setAtt b p).ms = p.ms ∧ (setAtt b p).img = p.img ∧
      (setAtt b p).islands = p.islands ∧ (setAtt b p).gens = p.gens ∧ (setAtt b p).sharing = p.sharing ∧
      (setAtt b p).cmd = p.cmd ∧ (setAtt b p).cons = p.cons ∧ (setAtt b p).drives = p.drives ∧
      (setAtt b p).shedList = p.shedList ∧ (setAtt b p).sq = p.sq ∧ (setAtt b p).lu = p.lu ∧
      (setAtt b p).plans = p.plans ∧ (setAtt b p).free = p.free := by
  refine ⟨?_, ?_, ?_, ?_, ?_, ?_, ?_, ?_, ?_, ?_, ?_, ?_, ?_, ?_⟩ <;> rfl

@[simp] theorem setLoader_frame (l : LoaderState) (p : Part) :
      (setLoader l p).base = p.base ∧ (setLoader l p).ms = p.ms ∧ (setLoader l p).img = p.img ∧
      (setLoader l p).islands = p.islands ∧ (setLoader l p).gens = p.gens ∧ (setLoader l p).sharing = p.sharing ∧
      (setLoader l p).cmd = p.cmd ∧ (setLoader l p).cons = p.cons ∧ (setLoader l p).drives = p.drives ∧
      (setLoader l p).shedList = p.shedList ∧ (setLoader l p).sq = p.sq ∧ (setLoader l p).lu = p.lu ∧
      (setLoader l p).att = p.att ∧ (setLoader l p).free = p.free := by
  refine ⟨?_, ?_, ?_, ?_, ?_, ?_, ?_, ?_, ?_, ?_, ?_, ?_, ?_, ?_⟩ <;> rfl

@[simp] theorem setKey_frame (k : KeyState) (p : Part) :
      (setKey k p).base = p.base ∧ (setKey k p).ms = p.ms ∧ (setKey k p).img = p.img ∧
      (setKey k p).islands = p.islands ∧ (setKey k p).gens = p.gens ∧ (setKey k p).sharing = p.sharing ∧
      (setKey k p).cmd = p.cmd ∧ (setKey k p).cons = p.cons ∧ (setKey k p).drives = p.drives ∧
      (setKey k p).shedList = p.shedList ∧ (setKey k p).sq = p.sq ∧ (setKey k p).lu = p.lu ∧
      (setKey k p).att = p.att ∧ (setKey k p).free = p.free := by
  refine ⟨?_, ?_, ?_, ?_, ?_, ?_, ?_, ?_, ?_, ?_, ?_, ?_, ?_, ?_⟩ <;> rfl

@[simp] theorem removeEntry_frame (t : Target) (p : Part) :
      (removeEntry t p).base = p.base ∧ (removeEntry t p).ms = p.ms ∧ (removeEntry t p).img = p.img ∧
      (removeEntry t p).islands = p.islands ∧ (removeEntry t p).gens = p.gens ∧
      (removeEntry t p).sharing = p.sharing ∧ (removeEntry t p).cmd = p.cmd ∧ (removeEntry t p).cons = p.cons ∧
      (removeEntry t p).drives = p.drives ∧ (removeEntry t p).sq = p.sq ∧ (removeEntry t p).lu = p.lu ∧
      (removeEntry t p).plans = p.plans ∧ (removeEntry t p).att = p.att ∧ (removeEntry t p).free = p.free := by
  refine ⟨?_, ?_, ?_, ?_, ?_, ?_, ?_, ?_, ?_, ?_, ?_, ?_, ?_, ?_⟩ <;> rfl

@[simp] theorem changeEntry_frame (t : Target) (f : ShedEntry → ShedEntry) (p : Part) :
      (changeEntry t f p).base = p.base ∧ (changeEntry t f p).ms = p.ms ∧ (changeEntry t f p).img = p.img ∧
      (changeEntry t f p).islands = p.islands ∧ (changeEntry t f p).gens = p.gens ∧
      (changeEntry t f p).sharing = p.sharing ∧ (changeEntry t f p).cmd = p.cmd ∧
      (changeEntry t f p).cons = p.cons ∧ (changeEntry t f p).drives = p.drives ∧ (changeEntry t f p).sq = p.sq ∧
      (changeEntry t f p).lu = p.lu ∧ (changeEntry t f p).plans = p.plans ∧ (changeEntry t f p).att = p.att ∧
      (changeEntry t f p).free = p.free := by
  refine ⟨?_, ?_, ?_, ?_, ?_, ?_, ?_, ?_, ?_, ?_, ?_, ?_, ?_, ?_⟩ <;> rfl

@[simp] theorem setCmd_frame (c : ConsId) (req : Nat) (shed stuck : Bool) (p : Part) :
      (setCmd c req shed stuck p).base = p.base ∧ (setCmd c req shed stuck p).ms = p.ms ∧
      (setCmd c req shed stuck p).img = p.img ∧ (setCmd c req shed stuck p).islands = p.islands ∧
      (setCmd c req shed stuck p).gens = p.gens ∧ (setCmd c req shed stuck p).sharing = p.sharing ∧
      (setCmd c req shed stuck p).cons = p.cons ∧ (setCmd c req shed stuck p).drives = p.drives ∧
      (setCmd c req shed stuck p).shedList = p.shedList ∧ (setCmd c req shed stuck p).lu = p.lu ∧
      (setCmd c req shed stuck p).plans = p.plans ∧ (setCmd c req shed stuck p).att = p.att ∧
      (setCmd c req shed stuck p).free = p.free := by
  refine ⟨?_, ?_, ?_, ?_, ?_, ?_, ?_, ?_, ?_, ?_, ?_, ?_, ?_⟩ <;> rfl

end Sys2Proof.Machine
end

