-- ==== Sys2Proof/Laws/Frames.lean ====
section
/-! SUPPORT. What each shared operation leaves as it was: one lemma per operation, each a list of the fields it
keeps. The fields not listed are the ones the operation may change. -/

namespace Sys2Proof.Machine

/-! ## The list unit and refusals -/

@[simp] theorem tryPostCommand_frame (p : Part) :
      (tryPostCommand p).base = p.base ∧ (tryPostCommand p).ms = p.ms ∧ (tryPostCommand p).img = p.img ∧
      (tryPostCommand p).islands = p.islands ∧ (tryPostCommand p).gens = p.gens ∧
      (tryPostCommand p).sharing = p.sharing ∧ (tryPostCommand p).cmd = p.cmd ∧ (tryPostCommand p).cons = p.cons ∧
      (tryPostCommand p).drives = p.drives ∧ (tryPostCommand p).shedList = p.shedList ∧
      (tryPostCommand p).sq = p.sq ∧ (tryPostCommand p).plans = p.plans ∧ (tryPostCommand p).free = p.free := by
  unfold tryPostCommand
  simp only []
  split
  · split
    · simp
    · split <;> simp
  · simp

@[simp] theorem tryPostNotice_frame (p : Part) :
      (tryPostNotice p).base = p.base ∧ (tryPostNotice p).ms = p.ms ∧ (tryPostNotice p).img = p.img ∧
      (tryPostNotice p).islands = p.islands ∧ (tryPostNotice p).gens = p.gens ∧
      (tryPostNotice p).sharing = p.sharing ∧ (tryPostNotice p).cmd = p.cmd ∧ (tryPostNotice p).cons = p.cons ∧
      (tryPostNotice p).drives = p.drives ∧ (tryPostNotice p).shedList = p.shedList ∧ (tryPostNotice p).sq = p.sq ∧
      (tryPostNotice p).plans = p.plans ∧ (tryPostNotice p).free = p.free := by
  unfold tryPostNotice
  repeat' split
  all_goals simp

@[simp] theorem tryPost_frame (ch : Chan) (p : Part) :
      (tryPost ch p).base = p.base ∧ (tryPost ch p).ms = p.ms ∧ (tryPost ch p).img = p.img ∧
      (tryPost ch p).islands = p.islands ∧ (tryPost ch p).gens = p.gens ∧ (tryPost ch p).sharing = p.sharing ∧
      (tryPost ch p).cmd = p.cmd ∧ (tryPost ch p).cons = p.cons ∧ (tryPost ch p).drives = p.drives ∧
      (tryPost ch p).shedList = p.shedList ∧ (tryPost ch p).sq = p.sq ∧ (tryPost ch p).plans = p.plans ∧
      (tryPost ch p).free = p.free := by
  cases ch <;> simp [tryPost]

@[simp] theorem giveCommand_frame (c : Command) (p : Part) :
      (giveCommand c p).base = p.base ∧ (giveCommand c p).ms = p.ms ∧ (giveCommand c p).img = p.img ∧
      (giveCommand c p).islands = p.islands ∧ (giveCommand c p).gens = p.gens ∧
      (giveCommand c p).sharing = p.sharing ∧ (giveCommand c p).cmd = p.cmd ∧ (giveCommand c p).cons = p.cons ∧
      (giveCommand c p).drives = p.drives ∧ (giveCommand c p).shedList = p.shedList ∧ (giveCommand c p).sq = p.sq ∧
      (giveCommand c p).plans = p.plans ∧ (giveCommand c p).free = p.free := by
  unfold giveCommand
  repeat' split
  all_goals simp

@[simp] theorem queueNotice_frame (n : Notice) (p : Part) :
      (queueNotice n p).base = p.base ∧ (queueNotice n p).ms = p.ms ∧ (queueNotice n p).img = p.img ∧
      (queueNotice n p).islands = p.islands ∧ (queueNotice n p).gens = p.gens ∧
      (queueNotice n p).sharing = p.sharing ∧ (queueNotice n p).cmd = p.cmd ∧ (queueNotice n p).cons = p.cons ∧
      (queueNotice n p).drives = p.drives ∧ (queueNotice n p).shedList = p.shedList ∧ (queueNotice n p).sq = p.sq ∧
      (queueNotice n p).plans = p.plans ∧ (queueNotice n p).free = p.free := by
  unfold queueNotice
  repeat' split
  all_goals simp

@[simp] theorem refuse_frame (port : Port) (off : Nat) (r : Reason) (p : Part) :
      (refuse port off r p).base = p.base ∧ (refuse port off r p).ms = p.ms ∧
      (refuse port off r p).img.genMeas = p.img.genMeas ∧ (refuse port off r p).img.consMeas = p.img.consMeas ∧
      (refuse port off r p).img.driveMeas = p.img.driveMeas ∧ (refuse port off r p).img.ties = p.img.ties ∧
      (refuse port off r p).img.genReq = p.img.genReq ∧ (refuse port off r p).img.genFixed = p.img.genFixed ∧
      (refuse port off r p).img.driveReq = p.img.driveReq ∧ (refuse port off r p).img.planLoad = p.img.planLoad ∧
      (refuse port off r p).img.key = p.img.key ∧ (refuse port off r p).img.activate = p.img.activate ∧
      (refuse port off r p).img.attMask = p.img.attMask ∧ (refuse port off r p).islands = p.islands ∧
      (refuse port off r p).gens = p.gens ∧ (refuse port off r p).sharing = p.sharing ∧
      (refuse port off r p).cmd = p.cmd ∧ (refuse port off r p).cons = p.cons ∧
      (refuse port off r p).drives = p.drives ∧ (refuse port off r p).shedList = p.shedList ∧
      (refuse port off r p).sq = p.sq ∧ (refuse port off r p).plans = p.plans ∧ (refuse port off r p).free = p.free := by
  simp [refuse]

/-! ## The balance unit -/

@[simp] theorem syncTimers_frame (i : SecId) (p : Part) :
      (syncTimers i p).base = p.base ∧ (syncTimers i p).ms = p.ms ∧ (syncTimers i p).img = p.img ∧
      (syncTimers i p).gens = p.gens ∧ (syncTimers i p).sharing = p.sharing ∧ (syncTimers i p).cmd = p.cmd ∧
      (syncTimers i p).cons = p.cons ∧ (syncTimers i p).drives = p.drives ∧
      (syncTimers i p).shedList = p.shedList ∧ (syncTimers i p).sq = p.sq ∧ (syncTimers i p).lu = p.lu ∧
      (syncTimers i p).plans = p.plans ∧ (syncTimers i p).att = p.att ∧ (syncTimers i p).free = p.free := by
  unfold syncTimers
  repeat' split
  all_goals simp

@[simp] theorem stopTimers_frame (i : SecId) (p : Part) :
      (stopTimers i p).base = p.base ∧ (stopTimers i p).ms = p.ms ∧ (stopTimers i p).img = p.img ∧
      (stopTimers i p).gens = p.gens ∧ (stopTimers i p).sharing = p.sharing ∧ (stopTimers i p).cmd = p.cmd ∧
      (stopTimers i p).cons = p.cons ∧ (stopTimers i p).drives = p.drives ∧
      (stopTimers i p).shedList = p.shedList ∧ (stopTimers i p).sq = p.sq ∧ (stopTimers i p).lu = p.lu ∧
      (stopTimers i p).plans = p.plans ∧ (stopTimers i p).att = p.att ∧ (stopTimers i p).free = p.free := by
  unfold stopTimers
  simp

@[simp] theorem retotal_frame (i : SecId) (p : Part) :
      (retotal i p).base = p.base ∧ (retotal i p).ms = p.ms ∧ (retotal i p).img = p.img ∧
      (retotal i p).gens = p.gens ∧ (retotal i p).sharing = p.sharing ∧ (retotal i p).cmd = p.cmd ∧
      (retotal i p).cons = p.cons ∧ (retotal i p).drives = p.drives ∧ (retotal i p).shedList = p.shedList ∧
      (retotal i p).sq = p.sq ∧ (retotal i p).lu = p.lu ∧ (retotal i p).plans = p.plans ∧
      (retotal i p).att = p.att ∧ (retotal i p).free = p.free := by
  simp [retotal]

@[simp] theorem enterMarks_frame (i : SecId) (p : Part) :
      (enterMarks i p).base = p.base ∧ (enterMarks i p).ms = p.ms ∧ (enterMarks i p).img = p.img ∧
      (enterMarks i p).gens = p.gens ∧ (enterMarks i p).sharing = p.sharing ∧ (enterMarks i p).cmd = p.cmd ∧
      (enterMarks i p).cons = p.cons ∧ (enterMarks i p).drives = p.drives ∧
      (enterMarks i p).shedList = p.shedList ∧ (enterMarks i p).sq = p.sq ∧ (enterMarks i p).lu = p.lu ∧
      (enterMarks i p).plans = p.plans ∧ (enterMarks i p).free = p.free := by
  unfold enterMarks
  simp only []
  split <;> simp

@[simp] theorem updateInner_frame (i : SecId) (p : Part) :
      (updateInner i p).base = p.base ∧ (updateInner i p).ms = p.ms ∧ (updateInner i p).img = p.img ∧
      (updateInner i p).gens = p.gens ∧ (updateInner i p).sharing = p.sharing ∧ (updateInner i p).cmd = p.cmd ∧
      (updateInner i p).cons = p.cons ∧ (updateInner i p).drives = p.drives ∧
      (updateInner i p).shedList = p.shedList ∧ (updateInner i p).sq = p.sq ∧ (updateInner i p).lu = p.lu ∧
      (updateInner i p).plans = p.plans ∧ (updateInner i p).free = p.free := by
  unfold updateInner
  simp only []
  split <;> simp

@[simp] theorem updateInnerOf_frame (i : Option SecId) (p : Part) :
      (updateInnerOf i p).base = p.base ∧ (updateInnerOf i p).ms = p.ms ∧ (updateInnerOf i p).img = p.img ∧
      (updateInnerOf i p).gens = p.gens ∧ (updateInnerOf i p).sharing = p.sharing ∧
      (updateInnerOf i p).cmd = p.cmd ∧ (updateInnerOf i p).cons = p.cons ∧ (updateInnerOf i p).drives = p.drives ∧
      (updateInnerOf i p).shedList = p.shedList ∧ (updateInnerOf i p).sq = p.sq ∧ (updateInnerOf i p).lu = p.lu ∧
      (updateInnerOf i p).plans = p.plans ∧ (updateInnerOf i p).free = p.free := by
  unfold updateInnerOf
  repeat' split
  all_goals simp

@[simp] theorem judgeReleaseOf_frame (i : Option SecId) (p : Part) :
      (judgeReleaseOf i p).base = p.base ∧ (judgeReleaseOf i p).ms = p.ms ∧ (judgeReleaseOf i p).img = p.img ∧
      (judgeReleaseOf i p).gens = p.gens ∧ (judgeReleaseOf i p).sharing = p.sharing ∧
      (judgeReleaseOf i p).cmd = p.cmd ∧ (judgeReleaseOf i p).cons = p.cons ∧
      (judgeReleaseOf i p).drives = p.drives ∧ (judgeReleaseOf i p).shedList = p.shedList ∧
      (judgeReleaseOf i p).sq = p.sq ∧ (judgeReleaseOf i p).lu = p.lu ∧ (judgeReleaseOf i p).plans = p.plans ∧
      (judgeReleaseOf i p).att = p.att ∧ (judgeReleaseOf i p).free = p.free := by
  unfold judgeReleaseOf
  repeat' split
  all_goals simp

/-! ## The share unit -/

@[simp] theorem removeCap_frame (g : GenId) (p : Part) :
      (removeCap g p).base = p.base ∧ (removeCap g p).ms = p.ms ∧ (removeCap g p).img = p.img ∧
      (removeCap g p).islands = p.islands ∧ (removeCap g p).gens = p.gens ∧ (removeCap g p).cmd = p.cmd ∧
      (removeCap g p).cons = p.cons ∧ (removeCap g p).drives = p.drives ∧ (removeCap g p).shedList = p.shedList ∧
      (removeCap g p).sq = p.sq ∧ (removeCap g p).lu = p.lu ∧ (removeCap g p).plans = p.plans ∧
      (removeCap g p).att = p.att ∧ (removeCap g p).free = p.free := by
  unfold removeCap
  simp

@[simp] theorem writeTarget_frame (g : GenId) (t : Nat) (p : Part) :
      (writeTarget g t p).base = p.base ∧ (writeTarget g t p).ms = p.ms ∧ (writeTarget g t p).img = p.img ∧
      (writeTarget g t p).islands = p.islands ∧ (writeTarget g t p).gens = p.gens ∧
      (writeTarget g t p).cmd = p.cmd ∧ (writeTarget g t p).cons = p.cons ∧ (writeTarget g t p).drives = p.drives ∧
      (writeTarget g t p).shedList = p.shedList ∧ (writeTarget g t p).lu = p.lu ∧
      (writeTarget g t p).plans = p.plans ∧ (writeTarget g t p).att = p.att ∧ (writeTarget g t p).free = p.free := by
  unfold writeTarget
  simp

@[simp] theorem offerTarget_frame (db : Nat) (forced : Option GenId) (g : GenId) (t : Nat) (p : Part) :
      (offerTarget db forced g t p).base = p.base ∧ (offerTarget db forced g t p).ms = p.ms ∧
      (offerTarget db forced g t p).img = p.img ∧ (offerTarget db forced g t p).islands = p.islands ∧
      (offerTarget db forced g t p).gens = p.gens ∧ (offerTarget db forced g t p).cmd = p.cmd ∧
      (offerTarget db forced g t p).cons = p.cons ∧ (offerTarget db forced g t p).drives = p.drives ∧
      (offerTarget db forced g t p).shedList = p.shedList ∧ (offerTarget db forced g t p).lu = p.lu ∧
      (offerTarget db forced g t p).plans = p.plans ∧ (offerTarget db forced g t p).att = p.att ∧
      (offerTarget db forced g t p).free = p.free := by
  unfold offerTarget
  repeat' split
  all_goals simp

@[simp] theorem dropReachedCaps_frame (i : SecId) (p : Part) :
      (dropReachedCaps i p).base = p.base ∧ (dropReachedCaps i p).ms = p.ms ∧ (dropReachedCaps i p).img = p.img ∧
      (dropReachedCaps i p).islands = p.islands ∧ (dropReachedCaps i p).gens = p.gens ∧
      (dropReachedCaps i p).cmd = p.cmd ∧ (dropReachedCaps i p).cons = p.cons ∧
      (dropReachedCaps i p).drives = p.drives ∧ (dropReachedCaps i p).shedList = p.shedList ∧
      (dropReachedCaps i p).sq = p.sq ∧ (dropReachedCaps i p).lu = p.lu ∧ (dropReachedCaps i p).plans = p.plans ∧
      (dropReachedCaps i p).att = p.att ∧ (dropReachedCaps i p).free = p.free := by
  refine ⟨?_, ?_, ?_, ?_, ?_, ?_, ?_, ?_, ?_, ?_, ?_, ?_, ?_, ?_⟩ <;> rfl

@[simp] theorem judgeNoSharer_frame (i : SecId) (p : Part) :
      (judgeNoSharer i p).base = p.base ∧ (judgeNoSharer i p).ms = p.ms ∧ (judgeNoSharer i p).img = p.img ∧
      (judgeNoSharer i p).gens = p.gens ∧ (judgeNoSharer i p).sharing = p.sharing ∧
      (judgeNoSharer i p).cmd = p.cmd ∧ (judgeNoSharer i p).cons = p.cons ∧ (judgeNoSharer i p).drives = p.drives ∧
      (judgeNoSharer i p).shedList = p.shedList ∧ (judgeNoSharer i p).sq = p.sq ∧ (judgeNoSharer i p).lu = p.lu ∧
      (judgeNoSharer i p).plans = p.plans ∧ (judgeNoSharer i p).free = p.free := by
  unfold judgeNoSharer
  simp only []
  split <;> simp

@[simp] theorem computeTargets_frame (i : SecId) (forced : Option GenId) (p : Part) :
      (computeTargets i forced p).base = p.base ∧ (computeTargets i forced p).ms = p.ms ∧
      (computeTargets i forced p).img = p.img ∧ (computeTargets i forced p).gens = p.gens ∧
      (computeTargets i forced p).cmd = p.cmd ∧ (computeTargets i forced p).cons = p.cons ∧
      (computeTargets i forced p).drives = p.drives ∧ (computeTargets i forced p).shedList = p.shedList ∧
      (computeTargets i forced p).lu = p.lu ∧ (computeTargets i forced p).plans = p.plans ∧
      (computeTargets i forced p).free = p.free := by
  unfold computeTargets
  refine ⟨(foldl_keep Part.base _ _ _ ?_).trans ?_,
    (foldl_keep Part.ms _ _ _ ?_).trans ?_,
    (foldl_keep Part.img _ _ _ ?_).trans ?_,
    (foldl_keep Part.gens _ _ _ ?_).trans ?_,
    (foldl_keep Part.cmd _ _ _ ?_).trans ?_,
    (foldl_keep Part.cons _ _ _ ?_).trans ?_,
    (foldl_keep Part.drives _ _ _ ?_).trans ?_,
    (foldl_keep Part.shedList _ _ _ ?_).trans ?_,
    (foldl_keep Part.lu _ _ _ ?_).trans ?_,
    (foldl_keep Part.plans _ _ _ ?_).trans ?_,
    (foldl_keep Part.free _ _ _ ?_).trans ?_⟩
  all_goals simp

@[simp] theorem zeroTarget_frame (g : GenId) (p : Part) :
      (zeroTarget g p).base = p.base ∧ (zeroTarget g p).ms = p.ms ∧ (zeroTarget g p).img = p.img ∧
      (zeroTarget g p).islands = p.islands ∧ (zeroTarget g p).gens = p.gens ∧ (zeroTarget g p).cmd = p.cmd ∧
      (zeroTarget g p).cons = p.cons ∧ (zeroTarget g p).drives = p.drives ∧
      (zeroTarget g p).shedList = p.shedList ∧ (zeroTarget g p).lu = p.lu ∧ (zeroTarget g p).plans = p.plans ∧
      (zeroTarget g p).att = p.att ∧ (zeroTarget g p).free = p.free := by
  unfold zeroTarget
  simp

/-! ## The generator sequencer -/

@[simp] theorem changeState_frame (g : GenId) (e : Gen) (p : Part) :
      (changeState g e p).base = p.base ∧ (changeState g e p).ms = p.ms ∧ (changeState g e p).img = p.img ∧
      (changeState g e p).islands = p.islands ∧ (changeState g e p).cmd = p.cmd ∧
      (changeState g e p).cons = p.cons ∧ (changeState g e p).drives = p.drives ∧
      (changeState g e p).shedList = p.shedList ∧ (changeState g e p).lu = p.lu ∧
      (changeState g e p).plans = p.plans ∧ (changeState g e p).att = p.att ∧ (changeState g e p).free = p.free := by
  unfold changeState
  simp only []
  repeat' split
  all_goals simp

@[simp] theorem afterGenInner_frame (g : GenId) (forced : Option GenId) (p : Part) :
      (afterGenInner g forced p).base = p.base ∧ (afterGenInner g forced p).ms = p.ms ∧
      (afterGenInner g forced p).img = p.img ∧ (afterGenInner g forced p).gens = p.gens ∧
      (afterGenInner g forced p).cmd = p.cmd ∧ (afterGenInner g forced p).cons = p.cons ∧
      (afterGenInner g forced p).drives = p.drives ∧ (afterGenInner g forced p).shedList = p.shedList ∧
      (afterGenInner g forced p).lu = p.lu ∧ (afterGenInner g forced p).plans = p.plans ∧
      (afterGenInner g forced p).free = p.free := by
  unfold afterGenInner
  simp only []
  repeat' split
  all_goals simp

@[simp] theorem giveGen_frame (g : GenId) (k : CmdKind) (cause : Nat) (a b : Word) (p : Part) :
      (giveGen g k cause a b p).base = p.base ∧ (giveGen g k cause a b p).ms = p.ms ∧
      (giveGen g k cause a b p).img = p.img ∧ (giveGen g k cause a b p).islands = p.islands ∧
      (giveGen g k cause a b p).gens = p.gens ∧ (giveGen g k cause a b p).sharing = p.sharing ∧
      (giveGen g k cause a b p).cmd = p.cmd ∧ (giveGen g k cause a b p).cons = p.cons ∧
      (giveGen g k cause a b p).drives = p.drives ∧ (giveGen g k cause a b p).shedList = p.shedList ∧
      (giveGen g k cause a b p).sq = p.sq ∧ (giveGen g k cause a b p).plans = p.plans ∧
      (giveGen g k cause a b p).free = p.free := by
  unfold giveGen
  simp

@[simp] theorem noticeGen_frame (g : GenId) (k : NoticeKind) (cause detail : Nat) (a b : Word) (p : Part) :
      (noticeGen g k cause detail a b p).base = p.base ∧ (noticeGen g k cause detail a b p).ms = p.ms ∧
      (noticeGen g k cause detail a b p).img = p.img ∧ (noticeGen g k cause detail a b p).islands = p.islands ∧
      (noticeGen g k cause detail a b p).gens = p.gens ∧ (noticeGen g k cause detail a b p).sharing = p.sharing ∧
      (noticeGen g k cause detail a b p).cmd = p.cmd ∧ (noticeGen g k cause detail a b p).cons = p.cons ∧
      (noticeGen g k cause detail a b p).drives = p.drives ∧
      (noticeGen g k cause detail a b p).shedList = p.shedList ∧ (noticeGen g k cause detail a b p).sq = p.sq ∧
      (noticeGen g k cause detail a b p).plans = p.plans ∧ (noticeGen g k cause detail a b p).free = p.free := by
  unfold noticeGen
  simp

@[simp] theorem noticeGenState_frame (g : GenId) (new former : GenState) (a b : Word) (p : Part) :
      (noticeGenState g new former a b p).base = p.base ∧ (noticeGenState g new former a b p).ms = p.ms ∧
      (noticeGenState g new former a b p).img = p.img ∧ (noticeGenState g new former a b p).islands = p.islands ∧
      (noticeGenState g new former a b p).gens = p.gens ∧ (noticeGenState g new former a b p).sharing = p.sharing ∧
      (noticeGenState g new former a b p).cmd = p.cmd ∧ (noticeGenState g new former a b p).cons = p.cons ∧
      (noticeGenState g new former a b p).drives = p.drives ∧
      (noticeGenState g new former a b p).shedList = p.shedList ∧ (noticeGenState g new former a b p).sq = p.sq ∧
      (noticeGenState g new former a b p).plans = p.plans ∧ (noticeGenState g new former a b p).free = p.free := by
  unfold noticeGenState
  simp

@[simp] theorem clearStandbyOf_frame (g : GenId) (p : Part) :
      (clearStandbyOf g p).base = p.base ∧ (clearStandbyOf g p).ms = p.ms ∧ (clearStandbyOf g p).img = p.img ∧
      (clearStandbyOf g p).gens = p.gens ∧ (clearStandbyOf g p).sharing = p.sharing ∧
      (clearStandbyOf g p).cmd = p.cmd ∧ (clearStandbyOf g p).cons = p.cons ∧
      (clearStandbyOf g p).drives = p.drives ∧ (clearStandbyOf g p).shedList = p.shedList ∧
      (clearStandbyOf g p).sq = p.sq ∧ (clearStandbyOf g p).lu = p.lu ∧ (clearStandbyOf g p).plans = p.plans ∧
      (clearStandbyOf g p).att = p.att ∧ (clearStandbyOf g p).free = p.free := by
  unfold clearStandbyOf
  repeat' split
  all_goals simp

@[simp] theorem startGenerator_frame (g : GenId) (auto : Bool) (cause : StartCause) (p : Part) :
      (startGenerator g auto cause p).base = p.base ∧ (startGenerator g auto cause p).ms = p.ms ∧
      (startGenerator g auto cause p).img = p.img ∧ (startGenerator g auto cause p).cmd = p.cmd ∧
      (startGenerator g auto cause p).cons = p.cons ∧ (startGenerator g auto cause p).drives = p.drives ∧
      (startGenerator g auto cause p).shedList = p.shedList ∧ (startGenerator g auto cause p).plans = p.plans ∧
      (startGenerator g auto cause p).free = p.free := by
  simp [startGenerator]

@[simp] theorem abortUnloading_frame (g : GenId) (cause : AbortCause) (p : Part) :
      (abortUnloading g cause p).base = p.base ∧ (abortUnloading g cause p).ms = p.ms ∧
      (abortUnloading g cause p).img = p.img ∧ (abortUnloading g cause p).cmd = p.cmd ∧
      (abortUnloading g cause p).cons = p.cons ∧ (abortUnloading g cause p).drives = p.drives ∧
      (abortUnloading g cause p).shedList = p.shedList ∧ (abortUnloading g cause p).plans = p.plans ∧
      (abortUnloading g cause p).free = p.free := by
  unfold abortUnloading
  simp only []
  split <;> simp

@[simp] theorem abortAll_frame (i : SecId) (cause : AbortCause) (p : Part) :
      (abortAll i cause p).base = p.base ∧ (abortAll i cause p).ms = p.ms ∧ (abortAll i cause p).img = p.img ∧
      (abortAll i cause p).cmd = p.cmd ∧ (abortAll i cause p).cons = p.cons ∧
      (abortAll i cause p).drives = p.drives ∧ (abortAll i cause p).shedList = p.shedList ∧
      (abortAll i cause p).plans = p.plans ∧ (abortAll i cause p).free = p.free := by
  unfold abortAll
  refine ⟨(foldl_keep Part.base _ _ _ ?_).trans ?_,
    (foldl_keep Part.ms _ _ _ ?_).trans ?_,
    (foldl_keep Part.img _ _ _ ?_).trans ?_,
    (foldl_keep Part.cmd _ _ _ ?_).trans ?_,
    (foldl_keep Part.cons _ _ _ ?_).trans ?_,
    (foldl_keep Part.drives _ _ _ ?_).trans ?_,
    (foldl_keep Part.shedList _ _ _ ?_).trans ?_,
    (foldl_keep Part.plans _ _ _ ?_).trans ?_,
    (foldl_keep Part.free _ _ _ ?_).trans ?_⟩
  all_goals first
    | rfl
    | (intro q x; (try split) <;> simp)

@[simp] theorem noStandby_frame (i : SecId) (cause : StartCause) (p : Part) :
      (noStandby i cause p).base = p.base ∧ (noStandby i cause p).ms = p.ms ∧ (noStandby i cause p).img = p.img ∧
      (noStandby i cause p).gens = p.gens ∧ (noStandby i cause p).sharing = p.sharing ∧
      (noStandby i cause p).cmd = p.cmd ∧ (noStandby i cause p).cons = p.cons ∧
      (noStandby i cause p).drives = p.drives ∧ (noStandby i cause p).shedList = p.shedList ∧
      (noStandby i cause p).sq = p.sq ∧ (noStandby i cause p).plans = p.plans ∧ (noStandby i cause p).free = p.free := by
  unfold noStandby
  repeat' split
  all_goals simp

@[simp] theorem requestStandby_frame (i : SecId) (cause : StartCause) (p : Part) :
      (requestStandby i cause p).base = p.base ∧ (requestStandby i cause p).ms = p.ms ∧
      (requestStandby i cause p).img = p.img ∧ (requestStandby i cause p).cmd = p.cmd ∧
      (requestStandby i cause p).cons = p.cons ∧ (requestStandby i cause p).drives = p.drives ∧
      (requestStandby i cause p).shedList = p.shedList ∧ (requestStandby i cause p).plans = p.plans ∧
      (requestStandby i cause p).free = p.free := by
  unfold requestStandby
  repeat' split
  all_goals simp

@[simp] theorem giveOpenGen_frame (g : GenId) (p : Part) :
      (giveOpenGen g p).base = p.base ∧ (giveOpenGen g p).ms = p.ms ∧ (giveOpenGen g p).img = p.img ∧
      (giveOpenGen g p).islands = p.islands ∧ (giveOpenGen g p).sharing = p.sharing ∧
      (giveOpenGen g p).cmd = p.cmd ∧ (giveOpenGen g p).cons = p.cons ∧ (giveOpenGen g p).drives = p.drives ∧
      (giveOpenGen g p).shedList = p.shedList ∧ (giveOpenGen g p).sq = p.sq ∧ (giveOpenGen g p).plans = p.plans ∧
      (giveOpenGen g p).free = p.free := by
  unfold giveOpenGen
  simp

/-! ## The ladder's transactions -/

@[simp] theorem giveCons_frame (c : ConsId) (k : CmdKind) (cause : Nat) (a b : Word) (p : Part) :
      (giveCons c k cause a b p).base = p.base ∧ (giveCons c k cause a b p).ms = p.ms ∧
      (giveCons c k cause a b p).img = p.img ∧ (giveCons c k cause a b p).islands = p.islands ∧
      (giveCons c k cause a b p).gens = p.gens ∧ (giveCons c k cause a b p).sharing = p.sharing ∧
      (giveCons c k cause a b p).cmd = p.cmd ∧ (giveCons c k cause a b p).cons = p.cons ∧
      (giveCons c k cause a b p).drives = p.drives ∧ (giveCons c k cause a b p).shedList = p.shedList ∧
      (giveCons c k cause a b p).sq = p.sq ∧ (giveCons c k cause a b p).plans = p.plans ∧
      (giveCons c k cause a b p).free = p.free := by
  unfold giveCons
  simp

@[simp] theorem noticeTarget_frame (t : Target) (k : NoticeKind) (cause detail : Nat) (a b : Word) (p : Part) :
      (noticeTarget t k cause detail a b p).base = p.base ∧ (noticeTarget t k cause detail a b p).ms = p.ms ∧
      (noticeTarget t k cause detail a b p).img = p.img ∧
      (noticeTarget t k cause detail a b p).islands = p.islands ∧
      (noticeTarget t k cause detail a b p).gens = p.gens ∧
      (noticeTarget t k cause detail a b p).sharing = p.sharing ∧
      (noticeTarget t k cause detail a b p).cmd = p.cmd ∧ (noticeTarget t k cause detail a b p).cons = p.cons ∧
      (noticeTarget t k cause detail a b p).drives = p.drives ∧
      (noticeTarget t k cause detail a b p).shedList = p.shedList ∧
      (noticeTarget t k cause detail a b p).sq = p.sq ∧ (noticeTarget t k cause detail a b p).plans = p.plans ∧
      (noticeTarget t k cause detail a b p).free = p.free := by
  unfold noticeTarget
  simp

@[simp] theorem writeDriveLimit_frame (d : DriveId) (p : Part) :
      (writeDriveLimit d p).base = p.base ∧ (writeDriveLimit d p).ms = p.ms ∧ (writeDriveLimit d p).img = p.img ∧
      (writeDriveLimit d p).islands = p.islands ∧ (writeDriveLimit d p).gens = p.gens ∧
      (writeDriveLimit d p).sharing = p.sharing ∧ (writeDriveLimit d p).cmd = p.cmd ∧
      (writeDriveLimit d p).cons = p.cons ∧ (writeDriveLimit d p).drives = p.drives ∧
      (writeDriveLimit d p).shedList = p.shedList ∧ (writeDriveLimit d p).plans = p.plans ∧
      (writeDriveLimit d p).free = p.free := by
  unfold writeDriveLimit
  simp

@[simp] theorem shedConsumer_frame (c : ConsId) (cause : ShedCause) (credit : Nat) (p : Part) :
      (shedConsumer c cause credit p).base = p.base ∧ (shedConsumer c cause credit p).ms = p.ms ∧
      (shedConsumer c cause credit p).img = p.img ∧ (shedConsumer c cause credit p).gens = p.gens ∧
      (shedConsumer c cause credit p).sharing = p.sharing ∧ (shedConsumer c cause credit p).drives = p.drives ∧
      (shedConsumer c cause credit p).plans = p.plans ∧ (shedConsumer c cause credit p).free = p.free := by
  simp [shedConsumer]

@[simp] theorem noticeDriveShed_frame (d : DriveId) (cause : ShedCause) (credit : Nat) (p : Part) :
      (noticeDriveShed d cause credit p).base = p.base ∧ (noticeDriveShed d cause credit p).ms = p.ms ∧
      (noticeDriveShed d cause credit p).img = p.img ∧ (noticeDriveShed d cause credit p).islands = p.islands ∧
      (noticeDriveShed d cause credit p).gens = p.gens ∧ (noticeDriveShed d cause credit p).sharing = p.sharing ∧
      (noticeDriveShed d cause credit p).cmd = p.cmd ∧ (noticeDriveShed d cause credit p).cons = p.cons ∧
      (noticeDriveShed d cause credit p).drives = p.drives ∧
      (noticeDriveShed d cause credit p).shedList = p.shedList ∧ (noticeDriveShed d cause credit p).sq = p.sq ∧
      (noticeDriveShed d cause credit p).plans = p.plans ∧ (noticeDriveShed d cause credit p).free = p.free := by
  simp [noticeDriveShed]

@[simp] theorem shedDrive_frame (d : DriveId) (cause : ShedCause) (credit cut : Nat) (p : Part) :
      (shedDrive d cause credit cut p).base = p.base ∧ (shedDrive d cause credit cut p).ms = p.ms ∧
      (shedDrive d cause credit cut p).img = p.img ∧ (shedDrive d cause credit cut p).gens = p.gens ∧
      (shedDrive d cause credit cut p).sharing = p.sharing ∧ (shedDrive d cause credit cut p).cmd = p.cmd ∧
      (shedDrive d cause credit cut p).cons = p.cons ∧ (shedDrive d cause credit cut p).plans = p.plans ∧
      (shedDrive d cause credit cut p).free = p.free := by
  simp [shedDrive]

@[simp] theorem reshed_frame (c : ConsId) (p : Part) :
      (reshed c p).base = p.base ∧ (reshed c p).ms = p.ms ∧ (reshed c p).img = p.img ∧ (reshed c p).gens = p.gens ∧
      (reshed c p).sharing = p.sharing ∧ (reshed c p).drives = p.drives ∧ (reshed c p).plans = p.plans ∧
      (reshed c p).free = p.free := by
  simp [reshed]

@[simp] theorem reshedAll_frame (ts : List Target) (p : Part) :
      (reshedAll ts p).base = p.base ∧ (reshedAll ts p).ms = p.ms ∧ (reshedAll ts p).img = p.img ∧
      (reshedAll ts p).gens = p.gens ∧ (reshedAll ts p).sharing = p.sharing ∧ (reshedAll ts p).drives = p.drives ∧
      (reshedAll ts p).plans = p.plans ∧ (reshedAll ts p).free = p.free := by
  unfold reshedAll
  refine ⟨(foldl_keep Part.base _ _ _ ?_).trans ?_,
    (foldl_keep Part.ms _ _ _ ?_).trans ?_,
    (foldl_keep Part.img _ _ _ ?_).trans ?_,
    (foldl_keep Part.gens _ _ _ ?_).trans ?_,
    (foldl_keep Part.sharing _ _ _ ?_).trans ?_,
    (foldl_keep Part.drives _ _ _ ?_).trans ?_,
    (foldl_keep Part.plans _ _ _ ?_).trans ?_,
    (foldl_keep Part.free _ _ _ ?_).trans ?_⟩
  all_goals first
    | rfl
    | (intro q x; (try split) <;> simp)

@[simp] theorem takeCandidate_frame (cause : ShedCause) (t : Target) (need : Int) (p : Part) :
      ((takeCandidate cause t need p).2).base = p.base ∧ ((takeCandidate cause t need p).2).ms = p.ms ∧
      ((takeCandidate cause t need p).2).img = p.img ∧ ((takeCandidate cause t need p).2).gens = p.gens ∧
      ((takeCandidate cause t need p).2).sharing = p.sharing ∧ ((takeCandidate cause t need p).2).plans = p.plans ∧
      ((takeCandidate cause t need p).2).free = p.free := by
  unfold takeCandidate
  simp only []
  repeat' split
  all_goals simp

@[simp] theorem walkCandidates_frame (cause : ShedCause) (ts : List Target) (need : Int) (p : Part) :
      ((walkCandidates cause ts need p).2).base = p.base ∧ ((walkCandidates cause ts need p).2).ms = p.ms ∧
      ((walkCandidates cause ts need p).2).img = p.img ∧ ((walkCandidates cause ts need p).2).gens = p.gens ∧
      ((walkCandidates cause ts need p).2).sharing = p.sharing ∧
      ((walkCandidates cause ts need p).2).plans = p.plans ∧ ((walkCandidates cause ts need p).2).free = p.free := by
  induction ts generalizing need p with
  | nil => simp [walkCandidates]
  | cons t ts ih =>
    unfold walkCandidates
    split
    · simp
    · simp [ih]

@[simp] theorem stepMet_frame (i : SecId) (p : Part) :
      (stepMet i p).base = p.base ∧ (stepMet i p).ms = p.ms ∧ (stepMet i p).img = p.img ∧
      (stepMet i p).gens = p.gens ∧ (stepMet i p).sharing = p.sharing ∧ (stepMet i p).cmd = p.cmd ∧
      (stepMet i p).cons = p.cons ∧ (stepMet i p).drives = p.drives ∧ (stepMet i p).shedList = p.shedList ∧
      (stepMet i p).sq = p.sq ∧ (stepMet i p).lu = p.lu ∧ (stepMet i p).plans = p.plans ∧
      (stepMet i p).att = p.att ∧ (stepMet i p).free = p.free := by
  simp [stepMet]

@[simp] theorem stepUnmet_frame (i : SecId) (cause : ShedCause) (need : Nat) (p : Part) :
      (stepUnmet i cause need p).base = p.base ∧ (stepUnmet i cause need p).ms = p.ms ∧
      (stepUnmet i cause need p).img = p.img ∧ (stepUnmet i cause need p).gens = p.gens ∧
      (stepUnmet i cause need p).sharing = p.sharing ∧ (stepUnmet i cause need p).cmd = p.cmd ∧
      (stepUnmet i cause need p).cons = p.cons ∧ (stepUnmet i cause need p).drives = p.drives ∧
      (stepUnmet i cause need p).shedList = p.shedList ∧ (stepUnmet i cause need p).sq = p.sq ∧
      (stepUnmet i cause need p).plans = p.plans := by
  unfold stepUnmet
  simp only []
  split <;> simp

@[simp] theorem shedStep_frame (i : SecId) (cause : ShedCause) (need : Int) (p : Part) :
      (shedStep i cause need p).base = p.base ∧ (shedStep i cause need p).ms = p.ms ∧
      (shedStep i cause need p).img = p.img ∧ (shedStep i cause need p).gens = p.gens ∧
      (shedStep i cause need p).sharing = p.sharing ∧ (shedStep i cause need p).plans = p.plans := by
  unfold shedStep
  simp only []
  repeat' split
  all_goals simp

/-- What `takeFirst` gives is one candidate taken. -/
theorem takeFirst_some {cause : ShedCause} {need : Int} {ts : List Target} {p q : Part}
    (h : takeFirst cause need ts p = some q) : ∃ t ∈ ts, q = (takeCandidate cause t need p).2 := by
  induction ts with
  | nil => simp [takeFirst] at h
  | cons t ts ih =>
    unfold takeFirst at h
    cases t with
    | cons c => exact ⟨.cons c, by simp, by simpa using h.symm⟩
    | drive d =>
      simp only [] at h
      split at h
      · obtain ⟨u, hu, e⟩ := ih h
        exact ⟨u, by simp [hu], e⟩
      · exact ⟨.drive d, by simp, by simpa using h.symm⟩

@[simp] theorem slowStep_frame (i : SecId) (p : Part) :
      (slowStep i p).base = p.base ∧ (slowStep i p).ms = p.ms ∧ (slowStep i p).img = p.img ∧
      (slowStep i p).gens = p.gens ∧ (slowStep i p).sharing = p.sharing ∧ (slowStep i p).plans = p.plans := by
  unfold slowStep
  simp only []
  split
  · next h =>
    obtain ⟨t, -, rfl⟩ := takeFirst_some h
    simp
  · simp

@[simp] theorem fastStep_frame (i : SecId) (snap : Nat) (p : Part) :
      (fastStep i snap p).base = p.base ∧ (fastStep i snap p).ms = p.ms ∧ (fastStep i snap p).img = p.img ∧
      (fastStep i snap p).gens = p.gens ∧ (fastStep i snap p).sharing = p.sharing ∧
      (fastStep i snap p).plans = p.plans := by
  unfold fastStep
  simp only []
  split <;> simp

@[simp] theorem splitStep_frame (i : SecId) (p : Part) :
      (splitStep i p).base = p.base ∧ (splitStep i p).ms = p.ms ∧ (splitStep i p).img = p.img ∧
      (splitStep i p).gens = p.gens ∧ (splitStep i p).sharing = p.sharing ∧ (splitStep i p).plans = p.plans := by
  unfold splitStep
  simp only []
  split <;> simp

@[simp] theorem deadTake_frame (p : Part) (t : Target) :
      (deadTake p t).base = p.base ∧ (deadTake p t).ms = p.ms ∧ (deadTake p t).img = p.img ∧
      (deadTake p t).gens = p.gens ∧ (deadTake p t).sharing = p.sharing ∧ (deadTake p t).plans = p.plans ∧
      (deadTake p t).free = p.free := by
  cases t <;> simp [deadTake]

@[simp] theorem deadLower_frame (i : SecId) (p : Part) (d : DriveId) :
      (deadLower i p d).base = p.base ∧ (deadLower i p d).ms = p.ms ∧ (deadLower i p d).img = p.img ∧
      (deadLower i p d).gens = p.gens ∧ (deadLower i p d).sharing = p.sharing ∧ (deadLower i p d).cmd = p.cmd ∧
      (deadLower i p d).cons = p.cons ∧ (deadLower i p d).plans = p.plans ∧ (deadLower i p d).free = p.free := by
  unfold deadLower
  simp only []
  split <;> simp

@[simp] theorem deadShed_frame (i : SecId) (p : Part) :
      (deadShed i p).base = p.base ∧ (deadShed i p).ms = p.ms ∧ (deadShed i p).img = p.img ∧
      (deadShed i p).gens = p.gens ∧ (deadShed i p).sharing = p.sharing ∧ (deadShed i p).plans = p.plans ∧
      (deadShed i p).free = p.free := by
  unfold deadShed
  simp only []
  refine ⟨(foldl_keep Part.base _ _ _ ?_).trans ((foldl_keep Part.base _ _ _ ?_).trans ?_),
    (foldl_keep Part.ms _ _ _ ?_).trans ((foldl_keep Part.ms _ _ _ ?_).trans ?_),
    (foldl_keep Part.img _ _ _ ?_).trans ((foldl_keep Part.img _ _ _ ?_).trans ?_),
    (foldl_keep Part.gens _ _ _ ?_).trans ((foldl_keep Part.gens _ _ _ ?_).trans ?_),
    (foldl_keep Part.sharing _ _ _ ?_).trans ((foldl_keep Part.sharing _ _ _ ?_).trans ?_),
    (foldl_keep Part.plans _ _ _ ?_).trans ((foldl_keep Part.plans _ _ _ ?_).trans ?_),
    (foldl_keep Part.free _ _ _ ?_).trans ((foldl_keep Part.free _ _ _ ?_).trans ?_)⟩
  all_goals simp

/-! ## Entries to a condition -/

@[simp] theorem enterSequencer_frame (i : SecId) (c : Condition) (p : Part) :
      (enterSequencer i c p).base = p.base ∧ (enterSequencer i c p).ms = p.ms ∧
      (enterSequencer i c p).img = p.img ∧ (enterSequencer i c p).cmd = p.cmd ∧
      (enterSequencer i c p).cons = p.cons ∧ (enterSequencer i c p).drives = p.drives ∧
      (enterSequencer i c p).shedList = p.shedList ∧ (enterSequencer i c p).plans = p.plans ∧
      (enterSequencer i c p).free = p.free := by
  unfold enterSequencer
  repeat' split
  all_goals simp

@[simp] theorem enterLadder_frame (i : SecId) (c : Condition) (p : Part) :
      (enterLadder i c p).base = p.base ∧ (enterLadder i c p).ms = p.ms ∧ (enterLadder i c p).img = p.img ∧
      (enterLadder i c p).gens = p.gens ∧ (enterLadder i c p).sharing = p.sharing ∧
      (enterLadder i c p).plans = p.plans ∧ (enterLadder i c p).free = p.free := by
  unfold enterLadder
  repeat' split
  all_goals simp

@[simp] theorem enterCondition_frame (i : SecId) (p : Part) :
      (enterCondition i p).base = p.base ∧ (enterCondition i p).ms = p.ms ∧ (enterCondition i p).img = p.img ∧
      (enterCondition i p).plans = p.plans ∧ (enterCondition i p).free = p.free := by
  simp [enterCondition]

@[simp] theorem update_frame (i : SecId) (p : Part) :
      (update i p).base = p.base ∧ (update i p).ms = p.ms ∧ (update i p).img = p.img ∧
      (update i p).plans = p.plans ∧ (update i p).free = p.free := by
  unfold update
  simp only []
  split <;> simp

@[simp] theorem updateOf_frame (i : Option SecId) (p : Part) :
      (updateOf i p).base = p.base ∧ (updateOf i p).ms = p.ms ∧ (updateOf i p).img = p.img ∧
      (updateOf i p).plans = p.plans ∧ (updateOf i p).free = p.free := by
  unfold updateOf
  repeat' split
  all_goals simp

@[simp] theorem updateCredit_frame (i : SecId) (p : Part) :
      (updateCredit i p).base = p.base ∧ (updateCredit i p).ms = p.ms ∧ (updateCredit i p).img = p.img ∧
      (updateCredit i p).cmd = p.cmd ∧ (updateCredit i p).cons = p.cons ∧
      (updateCredit i p).drives = p.drives ∧ (updateCredit i p).shedList = p.shedList ∧
      (updateCredit i p).plans = p.plans ∧ (updateCredit i p).free = p.free := by
  unfold updateCredit
  simp only []
  split <;> simp

@[simp] theorem updateCreditOf_frame (i : Option SecId) (p : Part) :
      (updateCreditOf i p).base = p.base ∧ (updateCreditOf i p).ms = p.ms ∧
      (updateCreditOf i p).img = p.img ∧ (updateCreditOf i p).cmd = p.cmd ∧
      (updateCreditOf i p).cons = p.cons ∧ (updateCreditOf i p).drives = p.drives ∧
      (updateCreditOf i p).shedList = p.shedList ∧ (updateCreditOf i p).plans = p.plans ∧
      (updateCreditOf i p).free = p.free := by
  unfold updateCreditOf
  repeat' split
  all_goals simp

@[simp] theorem afterGen_frame (g : GenId) (forced : Option GenId) (p : Part) :
      (afterGen g forced p).base = p.base ∧ (afterGen g forced p).ms = p.ms ∧ (afterGen g forced p).img = p.img ∧
      (afterGen g forced p).plans = p.plans ∧ (afterGen g forced p).free = p.free := by
  unfold afterGen
  simp only []
  repeat' split
  all_goals simp

@[simp] theorem toRunning_frame (p : Part) :
      (toRunning p).base = p.base ∧ (toRunning p).ms = p.ms ∧ (toRunning p).img = p.img ∧
      (toRunning p).plans.staging = p.plans.staging ∧ (toRunning p).plans.active = p.plans.active ∧
      (toRunning p).plans.loader = p.plans.loader ∧ (toRunning p).plans.key = p.plans.key ∧
      (toRunning p).free = p.free := by
  unfold toRunning
  refine ⟨(foldl_keep Part.base _ _ _ ?_).trans ((foldl_keep Part.base _ _ _ ?_).trans ?_),
    (foldl_keep Part.ms _ _ _ ?_).trans ((foldl_keep Part.ms _ _ _ ?_).trans ?_),
    (foldl_keep Part.img _ _ _ ?_).trans ((foldl_keep Part.img _ _ _ ?_).trans ?_),
    (foldl_keep (fun q : Part => q.plans.staging) _ _ _ ?_).trans ((foldl_keep (fun q : Part => q.plans.staging) _ _ _ ?_).trans ?_),
    (foldl_keep (fun q : Part => q.plans.active) _ _ _ ?_).trans ((foldl_keep (fun q : Part => q.plans.active) _ _ _ ?_).trans ?_),
    (foldl_keep (fun q : Part => q.plans.loader) _ _ _ ?_).trans ((foldl_keep (fun q : Part => q.plans.loader) _ _ _ ?_).trans ?_),
    (foldl_keep (fun q : Part => q.plans.key) _ _ _ ?_).trans ((foldl_keep (fun q : Part => q.plans.key) _ _ _ ?_).trans ?_),
    (foldl_keep Part.free _ _ _ ?_).trans ((foldl_keep Part.free _ _ _ ?_).trans ?_)⟩
  all_goals simp

@[simp] theorem judgeSettled_frame (p : Part) :
      (judgeSettled p).base = p.base ∧ (judgeSettled p).ms = p.ms ∧ (judgeSettled p).img = p.img ∧
      (judgeSettled p).plans.staging = p.plans.staging ∧ (judgeSettled p).plans.active = p.plans.active ∧
      (judgeSettled p).plans.loader = p.plans.loader ∧ (judgeSettled p).plans.key = p.plans.key ∧
      (judgeSettled p).free = p.free := by
  unfold judgeSettled
  repeat' split
  all_goals simp

/-! ## The partition change -/

@[simp] theorem formIsland_frame (old new : MeasCopy) (p : Part) (i : SecId) :
      (formIsland old new p i).base = p.base ∧ (formIsland old new p i).ms = p.ms ∧
      (formIsland old new p i).img = p.img ∧ (formIsland old new p i).gens = p.gens ∧
      (formIsland old new p i).sharing = p.sharing ∧ (formIsland old new p i).cmd = p.cmd ∧
      (formIsland old new p i).cons = p.cons ∧ (formIsland old new p i).drives = p.drives ∧
      (formIsland old new p i).shedList = p.shedList ∧ (formIsland old new p i).sq = p.sq ∧
      (formIsland old new p i).lu = p.lu ∧ (formIsland old new p i).plans = p.plans ∧
      (formIsland old new p i).att = p.att ∧ (formIsland old new p i).free = p.free := by
  unfold formIsland
  repeat' split
  all_goals simp

@[simp] theorem standIsland_frame (old new : MeasCopy) (p : Part) (i : SecId) :
      (standIsland old new p i).base = p.base ∧ (standIsland old new p i).ms = p.ms ∧
      (standIsland old new p i).img = p.img ∧ (standIsland old new p i).gens = p.gens ∧
      (standIsland old new p i).sharing = p.sharing ∧ (standIsland old new p i).cmd = p.cmd ∧
      (standIsland old new p i).cons = p.cons ∧ (standIsland old new p i).drives = p.drives ∧
      (standIsland old new p i).shedList = p.shedList ∧ (standIsland old new p i).sq = p.sq ∧
      (standIsland old new p i).lu = p.lu ∧ (standIsland old new p i).plans = p.plans ∧
      (standIsland old new p i).att = p.att ∧ (standIsland old new p i).free = p.free := by
  unfold standIsland
  repeat' split
  all_goals simp

@[simp] theorem recheckStops_frame (i : SecId) (p : Part) :
      (recheckStops i p).base = p.base ∧ (recheckStops i p).ms = p.ms ∧ (recheckStops i p).img = p.img ∧
      (recheckStops i p).cmd = p.cmd ∧ (recheckStops i p).cons = p.cons ∧ (recheckStops i p).drives = p.drives ∧
      (recheckStops i p).shedList = p.shedList ∧ (recheckStops i p).plans = p.plans ∧
      (recheckStops i p).free = p.free := by
  unfold recheckStops
  split
  case isFalse => simp
  refine ⟨(foldl_keep Part.base _ _ _ ?_).trans ?_,
    (foldl_keep Part.ms _ _ _ ?_).trans ?_,
    (foldl_keep Part.img _ _ _ ?_).trans ?_,
    (foldl_keep Part.cmd _ _ _ ?_).trans ?_,
    (foldl_keep Part.cons _ _ _ ?_).trans ?_,
    (foldl_keep Part.drives _ _ _ ?_).trans ?_,
    (foldl_keep Part.shedList _ _ _ ?_).trans ?_,
    (foldl_keep Part.plans _ _ _ ?_).trans ?_,
    (foldl_keep Part.free _ _ _ ?_).trans ?_⟩
  all_goals first
    | rfl
    | (intro q x; split <;> simp)

@[simp] theorem ladderAtPartition_frame (old new : MeasCopy) (p : Part) (i : SecId) :
      (ladderAtPartition old new p i).base = p.base ∧ (ladderAtPartition old new p i).ms = p.ms ∧
      (ladderAtPartition old new p i).img = p.img ∧ (ladderAtPartition old new p i).plans = p.plans := by
  unfold ladderAtPartition
  repeat' split
  all_goals simp

@[simp] theorem partitionChange_frame (old : MeasCopy) (p : Part) :
      (partitionChange old p).base = p.base ∧ (partitionChange old p).ms = p.ms ∧
      (partitionChange old p).img = p.img ∧ (partitionChange old p).plans = p.plans := by
  unfold partitionChange
  refine ⟨(foldl_keep Part.base _ _ _ ?_).trans ((foldl_keep Part.base _ _ _ ?_).trans ((foldl_keep Part.base _ _ _ ?_).trans ((foldl_keep Part.base _ _ _ ?_).trans ((foldl_keep Part.base _ _ _ ?_).trans ((foldl_keep Part.base _ _ _ ?_).trans ((foldl_keep Part.base _ _ _ ?_).trans ?_)))))),
    (foldl_keep Part.ms _ _ _ ?_).trans ((foldl_keep Part.ms _ _ _ ?_).trans ((foldl_keep Part.ms _ _ _ ?_).trans ((foldl_keep Part.ms _ _ _ ?_).trans ((foldl_keep Part.ms _ _ _ ?_).trans ((foldl_keep Part.ms _ _ _ ?_).trans ((foldl_keep Part.ms _ _ _ ?_).trans ?_)))))),
    (foldl_keep Part.img _ _ _ ?_).trans ((foldl_keep Part.img _ _ _ ?_).trans ((foldl_keep Part.img _ _ _ ?_).trans ((foldl_keep Part.img _ _ _ ?_).trans ((foldl_keep Part.img _ _ _ ?_).trans ((foldl_keep Part.img _ _ _ ?_).trans ((foldl_keep Part.img _ _ _ ?_).trans ?_)))))),
    (foldl_keep Part.plans _ _ _ ?_).trans ((foldl_keep Part.plans _ _ _ ?_).trans ((foldl_keep Part.plans _ _ _ ?_).trans ((foldl_keep Part.plans _ _ _ ?_).trans ((foldl_keep Part.plans _ _ _ ?_).trans ((foldl_keep Part.plans _ _ _ ?_).trans ((foldl_keep Part.plans _ _ _ ?_).trans ?_))))))⟩
  all_goals simp

@[simp] theorem tiesEvent_frame (old : MeasCopy) (p : Part) :
      (tiesEvent old p).base = p.base ∧ (tiesEvent old p).ms = p.ms ∧ (tiesEvent old p).img = p.img ∧
      (tiesEvent old p).plans.staging = p.plans.staging ∧ (tiesEvent old p).plans.active = p.plans.active ∧
      (tiesEvent old p).plans.loader = p.plans.loader ∧ (tiesEvent old p).plans.key = p.plans.key := by
  unfold tiesEvent
  simp only []
  split <;> simp

/-! ## Events of a generator -/

@[simp] theorem goOnline_frame (g : GenId) (p : Part) :
      (goOnline g p).base = p.base ∧ (goOnline g p).ms = p.ms ∧ (goOnline g p).img = p.img ∧
      (goOnline g p).plans = p.plans ∧ (goOnline g p).free = p.free := by
  simp [goOnline]

@[simp] theorem noteReady_frame (g : GenId) (p : Part) :
      (noteReady g p).base = p.base ∧ (noteReady g p).ms = p.ms ∧ (noteReady g p).img = p.img ∧
      (noteReady g p).plans = p.plans ∧ (noteReady g p).free = p.free := by
  unfold noteReady
  repeat' split
  all_goals simp

@[simp] theorem stopCompleted_frame (g : GenId) (p : Part) :
      (stopCompleted g p).base = p.base ∧ (stopCompleted g p).ms = p.ms ∧ (stopCompleted g p).img = p.img ∧
      (stopCompleted g p).plans = p.plans ∧ (stopCompleted g p).free = p.free := by
  simp [stopCompleted]

@[simp] theorem trip_frame (g : GenId) (last : Nat) (p : Part) :
      (trip g last p).base = p.base ∧ (trip g last p).ms = p.ms ∧ (trip g last p).img = p.img ∧
      (trip g last p).plans = p.plans := by
  unfold trip
  split <;> simp

@[simp] theorem moveByBreaker_frame (g : GenId) (last : Nat) (p : Part) :
      (moveByBreaker g last p).base = p.base ∧ (moveByBreaker g last p).ms = p.ms ∧
      (moveByBreaker g last p).img = p.img ∧ (moveByBreaker g last p).plans = p.plans := by
  unfold moveByBreaker
  repeat' split
  all_goals simp

@[simp] theorem genMeasEvent_frame (g : GenId) (old : MeasCopy) (p : Part) :
      (genMeasEvent g old p).base = p.base ∧ (genMeasEvent g old p).ms = p.ms ∧
      (genMeasEvent g old p).img = p.img ∧ (genMeasEvent g old p).plans.staging = p.plans.staging ∧
      (genMeasEvent g old p).plans.active = p.plans.active ∧ (genMeasEvent g old p).plans.loader = p.plans.loader ∧
      (genMeasEvent g old p).plans.key = p.plans.key := by
  unfold genMeasEvent
  repeat' split
  all_goals simp

@[simp] theorem refuseStop_frame (g : GenId) (r : Nat) (m : Int) (p : Part) :
      (refuseStop g r m p).base = p.base ∧ (refuseStop g r m p).ms = p.ms ∧ (refuseStop g r m p).img = p.img ∧
      (refuseStop g r m p).islands = p.islands ∧ (refuseStop g r m p).gens = p.gens ∧
      (refuseStop g r m p).sharing = p.sharing ∧ (refuseStop g r m p).cmd = p.cmd ∧
      (refuseStop g r m p).cons = p.cons ∧ (refuseStop g r m p).drives = p.drives ∧
      (refuseStop g r m p).shedList = p.shedList ∧ (refuseStop g r m p).sq = p.sq ∧
      (refuseStop g r m p).plans = p.plans ∧ (refuseStop g r m p).free = p.free := by
  simp [refuseStop]

@[simp] theorem enterUnloading_frame (g : GenId) (p : Part) :
      (enterUnloading g p).base = p.base ∧ (enterUnloading g p).ms = p.ms ∧ (enterUnloading g p).img = p.img ∧
      (enterUnloading g p).plans = p.plans ∧ (enterUnloading g p).free = p.free := by
  unfold enterUnloading
  simp only []
  split <;> simp

@[simp] theorem stopCheck_frame (g : GenId) (p : Part) :
      (stopCheck g p).base = p.base ∧ (stopCheck g p).ms = p.ms ∧ (stopCheck g p).img = p.img ∧
      (stopCheck g p).plans = p.plans ∧ (stopCheck g p).free = p.free := by
  unfold stopCheck
  simp only []
  repeat' split
  all_goals simp

@[simp] theorem stopStarting_frame (g : GenId) (p : Part) :
      (stopStarting g p).base = p.base ∧ (stopStarting g p).ms = p.ms ∧ (stopStarting g p).img = p.img ∧
      (stopStarting g p).plans = p.plans ∧ (stopStarting g p).free = p.free := by
  simp [stopStarting]

@[simp] theorem clearFault_frame (g : GenId) (p : Part) :
      (clearFault g p).base = p.base ∧ (clearFault g p).ms = p.ms ∧ (clearFault g p).img = p.img ∧
      (clearFault g p).plans = p.plans ∧ (clearFault g p).free = p.free := by
  simp [clearFault]

@[simp] theorem genAction_frame (g : GenId) (a : Action) (p : Part) :
      (genAction g a p).base = p.base ∧ (genAction g a p).ms = p.ms ∧ (genAction g a p).img = p.img ∧
      (genAction g a p).plans = p.plans ∧ (genAction g a p).free = p.free := by
  unfold genAction
  repeat' split
  all_goals simp

@[simp] theorem shareChange_frame (g : GenId) (ch : Bool) (p : Part) :
      (shareChange g ch p).base = p.base ∧ (shareChange g ch p).ms = p.ms ∧ (shareChange g ch p).img = p.img ∧
      (shareChange g ch p).gens = p.gens ∧ (shareChange g ch p).cmd = p.cmd ∧ (shareChange g ch p).cons = p.cons ∧
      (shareChange g ch p).drives = p.drives ∧ (shareChange g ch p).shedList = p.shedList ∧
      (shareChange g ch p).lu = p.lu ∧ (shareChange g ch p).plans = p.plans ∧ (shareChange g ch p).free = p.free := by
  unfold shareChange
  repeat' split
  all_goals simp

@[simp] theorem genReqEvent_frame (g : GenId) (a : Action) (old : Word) (p : Part) :
      (genReqEvent g a old p).base = p.base ∧ (genReqEvent g a old p).ms = p.ms ∧
      (genReqEvent g a old p).img = p.img ∧ (genReqEvent g a old p).plans = p.plans ∧
      (genReqEvent g a old p).free = p.free := by
  simp [genReqEvent]

@[simp] theorem genFixedEvent_frame (g : GenId) (old : Word) (p : Part) :
      (genFixedEvent g old p).base = p.base ∧ (genFixedEvent g old p).ms = p.ms ∧
      (genFixedEvent g old p).img = p.img ∧ (genFixedEvent g old p).gens = p.gens ∧
      (genFixedEvent g old p).cmd = p.cmd ∧ (genFixedEvent g old p).cons = p.cons ∧
      (genFixedEvent g old p).drives = p.drives ∧ (genFixedEvent g old p).shedList = p.shedList ∧
      (genFixedEvent g old p).lu = p.lu ∧ (genFixedEvent g old p).plans = p.plans ∧
      (genFixedEvent g old p).free = p.free := by
  simp [genFixedEvent]

@[simp] theorem startTimeout_frame (g : GenId) (p : Part) :
      (startTimeout g p).base = p.base ∧ (startTimeout g p).ms = p.ms ∧ (startTimeout g p).img = p.img ∧
      (startTimeout g p).plans = p.plans ∧ (startTimeout g p).free = p.free := by
  unfold startTimeout
  simp only []
  repeat' split
  all_goals simp

@[simp] theorem rampDown_frame (g : GenId) (p : Part) :
      (rampDown g p).base = p.base ∧ (rampDown g p).ms = p.ms ∧ (rampDown g p).img = p.img ∧
      (rampDown g p).cmd = p.cmd ∧ (rampDown g p).cons = p.cons ∧ (rampDown g p).drives = p.drives ∧
      (rampDown g p).shedList = p.shedList ∧ (rampDown g p).plans = p.plans ∧ (rampDown g p).free = p.free := by
  unfold rampDown
  simp only []
  repeat' split
  all_goals simp

@[simp] theorem openTimeout_frame (g : GenId) (p : Part) :
      (openTimeout g p).base = p.base ∧ (openTimeout g p).ms = p.ms ∧ (openTimeout g p).img = p.img ∧
      (openTimeout g p).plans = p.plans ∧ (openTimeout g p).free = p.free := by
  unfold openTimeout
  simp only []
  repeat' split
  all_goals simp

@[simp] theorem raiseCap_frame (g : GenId) (p : Part) :
      (raiseCap g p).base = p.base ∧ (raiseCap g p).ms = p.ms ∧ (raiseCap g p).img = p.img ∧
      (raiseCap g p).gens = p.gens ∧ (raiseCap g p).cmd = p.cmd ∧ (raiseCap g p).cons = p.cons ∧
      (raiseCap g p).drives = p.drives ∧ (raiseCap g p).shedList = p.shedList ∧ (raiseCap g p).lu = p.lu ∧
      (raiseCap g p).plans = p.plans := by
  unfold raiseCap
  simp only []
  repeat' split
  all_goals simp

@[simp] theorem startDelayExpiry_frame (i : SecId) (p : Part) :
      (startDelayExpiry i p).base = p.base ∧ (startDelayExpiry i p).ms = p.ms ∧
      (startDelayExpiry i p).img = p.img ∧ (startDelayExpiry i p).cmd = p.cmd ∧
      (startDelayExpiry i p).cons = p.cons ∧ (startDelayExpiry i p).drives = p.drives ∧
      (startDelayExpiry i p).shedList = p.shedList ∧ (startDelayExpiry i p).plans = p.plans ∧
      (startDelayExpiry i p).free = p.free := by
  unfold startDelayExpiry
  split
  · simp only []
    split <;> simp
  all_goals simp

/-! ## Events of the ladder -/

@[simp] theorem verified_frame (c : ConsId) (p : Part) :
      (verified c p).base = p.base ∧ (verified c p).ms = p.ms ∧ (verified c p).img = p.img ∧
      (verified c p).plans = p.plans ∧ (verified c p).free = p.free := by
  simp [verified]

@[simp] theorem reclose_frame (c : ConsId) (p : Part) :
      (reclose c p).base = p.base ∧ (reclose c p).ms = p.ms ∧ (reclose c p).img = p.img ∧
      (reclose c p).plans = p.plans ∧ (reclose c p).free = p.free := by
  unfold reclose
  repeat' split
  all_goals simp

@[simp] theorem consMeasEvent_frame (c : ConsId) (p : Part) :
      (consMeasEvent c p).base = p.base ∧ (consMeasEvent c p).ms = p.ms ∧ (consMeasEvent c p).img = p.img ∧
      (consMeasEvent c p).plans = p.plans ∧ (consMeasEvent c p).free = p.free := by
  unfold consMeasEvent
  repeat' split
  all_goals simp

@[simp] theorem escalate_frame (c : ConsId) (credit : Nat) (p : Part) :
      (escalate c credit p).base = p.base ∧ (escalate c credit p).ms = p.ms ∧ (escalate c credit p).img = p.img ∧
      (escalate c credit p).gens = p.gens ∧ (escalate c credit p).sharing = p.sharing ∧
      (escalate c credit p).plans = p.plans := by
  unfold escalate
  repeat' split
  all_goals simp

@[simp] theorem stuckVerdict_frame (c : ConsId) (e : ShedEntry) (p : Part) :
      (stuckVerdict c e p).base = p.base ∧ (stuckVerdict c e p).ms = p.ms ∧ (stuckVerdict c e p).img = p.img ∧
      (stuckVerdict c e p).plans = p.plans := by
  simp [stuckVerdict]

@[simp] theorem verifyReached_frame (c : ConsId) (p : Part) :
      (verifyReached c p).base = p.base ∧ (verifyReached c p).ms = p.ms ∧ (verifyReached c p).img = p.img ∧
      (verifyReached c p).plans = p.plans := by
  unfold verifyReached
  repeat' split
  all_goals simp

@[simp] theorem restoreReached_frame (c : ConsId) (p : Part) :
      (restoreReached c p).base = p.base ∧ (restoreReached c p).ms = p.ms ∧ (restoreReached c p).img = p.img ∧
      (restoreReached c p).islands = p.islands ∧ (restoreReached c p).gens = p.gens ∧
      (restoreReached c p).sharing = p.sharing ∧ (restoreReached c p).cmd = p.cmd ∧
      (restoreReached c p).drives = p.drives ∧ (restoreReached c p).shedList = p.shedList ∧
      (restoreReached c p).sq = p.sq ∧ (restoreReached c p).plans = p.plans ∧ (restoreReached c p).free = p.free := by
  unfold restoreReached
  repeat' split
  all_goals simp

@[simp] theorem releaseConsumer_frame (c : ConsId) (e : ShedEntry) (p : Part) :
      (releaseConsumer c e p).base = p.base ∧ (releaseConsumer c e p).ms = p.ms ∧
      (releaseConsumer c e p).img = p.img ∧ (releaseConsumer c e p).islands = p.islands ∧
      (releaseConsumer c e p).gens = p.gens ∧ (releaseConsumer c e p).sharing = p.sharing ∧
      (releaseConsumer c e p).drives = p.drives ∧ (releaseConsumer c e p).plans = p.plans ∧
      (releaseConsumer c e p).free = p.free := by
  unfold releaseConsumer
  simp only []
  split <;> simp

@[simp] theorem releaseDrive_frame (d : DriveId) (e : ShedEntry) (p : Part) :
      (releaseDrive d e p).base = p.base ∧ (releaseDrive d e p).ms = p.ms ∧ (releaseDrive d e p).img = p.img ∧
      (releaseDrive d e p).islands = p.islands ∧ (releaseDrive d e p).gens = p.gens ∧
      (releaseDrive d e p).sharing = p.sharing ∧ (releaseDrive d e p).cmd = p.cmd ∧
      (releaseDrive d e p).cons = p.cons ∧ (releaseDrive d e p).plans = p.plans ∧
      (releaseDrive d e p).free = p.free := by
  simp [releaseDrive]

@[simp] theorem releaseEntry_frame (e : ShedEntry) (p : Part) :
      (releaseEntry e p).base = p.base ∧ (releaseEntry e p).ms = p.ms ∧ (releaseEntry e p).img = p.img ∧
      (releaseEntry e p).islands = p.islands ∧ (releaseEntry e p).gens = p.gens ∧
      (releaseEntry e p).sharing = p.sharing ∧ (releaseEntry e p).plans = p.plans ∧
      (releaseEntry e p).free = p.free := by
  unfold releaseEntry
  repeat' split
  all_goals simp

@[simp] theorem releaseHoldExpiry_frame (i : SecId) (p : Part) :
      (releaseHoldExpiry i p).base = p.base ∧ (releaseHoldExpiry i p).ms = p.ms ∧
      (releaseHoldExpiry i p).img = p.img ∧ (releaseHoldExpiry i p).gens = p.gens ∧
      (releaseHoldExpiry i p).sharing = p.sharing ∧ (releaseHoldExpiry i p).plans = p.plans ∧
      (releaseHoldExpiry i p).free = p.free := by
  unfold releaseHoldExpiry
  split
  · simp
  · split
    · simp only []
      split <;> simp
    · simp

@[simp] theorem overloadExpiry_frame (i : SecId) (p : Part) :
      (overloadExpiry i p).base = p.base ∧ (overloadExpiry i p).ms = p.ms ∧ (overloadExpiry i p).img = p.img ∧
      (overloadExpiry i p).gens = p.gens ∧ (overloadExpiry i p).sharing = p.sharing ∧
      (overloadExpiry i p).plans = p.plans := by
  unfold overloadExpiry
  simp only []
  repeat' split
  all_goals simp

@[simp] theorem driveReqEvent_frame (d : DriveId) (p : Part) :
      (driveReqEvent d p).base = p.base ∧ (driveReqEvent d p).ms = p.ms ∧ (driveReqEvent d p).img = p.img ∧
      (driveReqEvent d p).islands = p.islands ∧ (driveReqEvent d p).gens = p.gens ∧
      (driveReqEvent d p).sharing = p.sharing ∧ (driveReqEvent d p).cmd = p.cmd ∧
      (driveReqEvent d p).cons = p.cons ∧ (driveReqEvent d p).drives = p.drives ∧
      (driveReqEvent d p).shedList = p.shedList ∧ (driveReqEvent d p).plans = p.plans ∧
      (driveReqEvent d p).free = p.free := by
  unfold driveReqEvent
  repeat' split
  all_goals simp

@[simp] theorem acknowledge_frame (c : ConsId) (p : Part) :
      (acknowledge c p).base = p.base ∧ (acknowledge c p).ms = p.ms ∧ (acknowledge c p).img = p.img ∧
      (acknowledge c p).islands = p.islands ∧ (acknowledge c p).gens = p.gens ∧
      (acknowledge c p).sharing = p.sharing ∧ (acknowledge c p).drives = p.drives ∧
      (acknowledge c p).shedList = p.shedList ∧ (acknowledge c p).lu = p.lu ∧ (acknowledge c p).plans = p.plans ∧
      (acknowledge c p).att = p.att ∧ (acknowledge c p).free = p.free := by
  unfold acknowledge
  repeat' split
  all_goals simp

@[simp] theorem reconcile_frame (c : ConsId) (p : Part) :
      (reconcile c p).base = p.base ∧ (reconcile c p).ms = p.ms ∧ (reconcile c p).img = p.img ∧
      (reconcile c p).islands = p.islands ∧ (reconcile c p).gens = p.gens ∧ (reconcile c p).sharing = p.sharing ∧
      (reconcile c p).cons = p.cons ∧ (reconcile c p).drives = p.drives ∧ (reconcile c p).shedList = p.shedList ∧
      (reconcile c p).lu = p.lu ∧ (reconcile c p).plans = p.plans ∧ (reconcile c p).att = p.att ∧
      (reconcile c p).free = p.free := by
  unfold reconcile
  repeat' split
  all_goals simp

@[simp] theorem cmdEvent_frame (c : ConsId) (w : Word) (ack masked : Bool) (p : Part) :
      (cmdEvent c w ack masked p).base = p.base ∧ (cmdEvent c w ack masked p).ms = p.ms ∧
      (cmdEvent c w ack masked p).img = p.img ∧ (cmdEvent c w ack masked p).islands = p.islands ∧
      (cmdEvent c w ack masked p).gens = p.gens ∧ (cmdEvent c w ack masked p).sharing = p.sharing ∧
      (cmdEvent c w ack masked p).drives = p.drives ∧ (cmdEvent c w ack masked p).shedList = p.shedList ∧
      (cmdEvent c w ack masked p).lu = p.lu ∧ (cmdEvent c w ack masked p).plans = p.plans ∧
      (cmdEvent c w ack masked p).free = p.free := by
  unfold cmdEvent
  simp only []
  repeat' split
  all_goals simp

/-! ## Freshness -/

@[simp] theorem setCopy_frame (r : RecordId) (m : MeasCopy) (p : Part) :
      (setCopy r m p).base = p.base ∧ (setCopy r m p).ms = p.ms ∧ (setCopy r m p).img.genReq = p.img.genReq ∧
      (setCopy r m p).img.genFixed = p.img.genFixed ∧ (setCopy r m p).img.driveReq = p.img.driveReq ∧
      (setCopy r m p).img.planLoad = p.img.planLoad ∧ (setCopy r m p).img.key = p.img.key ∧
      (setCopy r m p).img.activate = p.img.activate ∧ (setCopy r m p).img.attMask = p.img.attMask ∧
      (setCopy r m p).img.refused = p.img.refused ∧ (setCopy r m p).islands = p.islands ∧
      (setCopy r m p).gens = p.gens ∧ (setCopy r m p).sharing = p.sharing ∧ (setCopy r m p).cmd = p.cmd ∧
      (setCopy r m p).cons = p.cons ∧ (setCopy r m p).drives = p.drives ∧ (setCopy r m p).shedList = p.shedList ∧
      (setCopy r m p).sq = p.sq ∧ (setCopy r m p).lu = p.lu ∧ (setCopy r m p).plans = p.plans ∧
      (setCopy r m p).att = p.att ∧ (setCopy r m p).free = p.free := by
  cases r <;> simp [setCopy]

@[simp] theorem takeCopy_frame (r : RecordId) (w : Word) (p : Part) :
      (takeCopy r w p).base = p.base ∧ (takeCopy r w p).ms = p.ms ∧ (takeCopy r w p).img.genReq = p.img.genReq ∧
      (takeCopy r w p).img.genFixed = p.img.genFixed ∧ (takeCopy r w p).img.driveReq = p.img.driveReq ∧
      (takeCopy r w p).img.planLoad = p.img.planLoad ∧ (takeCopy r w p).img.key = p.img.key ∧
      (takeCopy r w p).img.activate = p.img.activate ∧ (takeCopy r w p).img.attMask = p.img.attMask ∧
      (takeCopy r w p).img.refused = p.img.refused ∧ (takeCopy r w p).islands = p.islands ∧
      (takeCopy r w p).gens = p.gens ∧ (takeCopy r w p).sharing = p.sharing ∧ (takeCopy r w p).cmd = p.cmd ∧
      (takeCopy r w p).cons = p.cons ∧ (takeCopy r w p).drives = p.drives ∧
      (takeCopy r w p).shedList = p.shedList ∧ (takeCopy r w p).sq = p.sq ∧ (takeCopy r w p).lu = p.lu ∧
      (takeCopy r w p).plans = p.plans ∧ (takeCopy r w p).att = p.att ∧ (takeCopy r w p).free = p.free := by
  simp [takeCopy]

@[simp] theorem freshnessExpiry_frame (r : RecordId) (p : Part) :
      (freshnessExpiry r p).base = p.base ∧ (freshnessExpiry r p).ms = p.ms ∧
      (freshnessExpiry r p).img.genReq = p.img.genReq ∧ (freshnessExpiry r p).img.genFixed = p.img.genFixed ∧
      (freshnessExpiry r p).img.driveReq = p.img.driveReq ∧ (freshnessExpiry r p).img.planLoad = p.img.planLoad ∧
      (freshnessExpiry r p).img.key = p.img.key ∧ (freshnessExpiry r p).img.activate = p.img.activate ∧
      (freshnessExpiry r p).img.attMask = p.img.attMask ∧ (freshnessExpiry r p).img.refused = p.img.refused ∧
      (freshnessExpiry r p).plans = p.plans ∧ (freshnessExpiry r p).free = p.free := by
  unfold freshnessExpiry
  split
  · simp only []
    split <;> simp
  · simp

/-! ## The plan unit -/

@[simp] theorem noticePlan_frame (k : NoticeKind) (cause : Nat) (a b : Word) (p : Part) :
      (noticePlan k cause a b p).base = p.base ∧ (noticePlan k cause a b p).ms = p.ms ∧
      (noticePlan k cause a b p).img = p.img ∧ (noticePlan k cause a b p).islands = p.islands ∧
      (noticePlan k cause a b p).gens = p.gens ∧ (noticePlan k cause a b p).sharing = p.sharing ∧
      (noticePlan k cause a b p).cmd = p.cmd ∧ (noticePlan k cause a b p).cons = p.cons ∧
      (noticePlan k cause a b p).drives = p.drives ∧ (noticePlan k cause a b p).shedList = p.shedList ∧
      (noticePlan k cause a b p).sq = p.sq ∧ (noticePlan k cause a b p).plans = p.plans ∧
      (noticePlan k cause a b p).free = p.free := by
  simp [noticePlan]

@[simp] theorem failLoad_frame (r : LoadFailure) (a b : Nat) (p : Part) :
      (failLoad r a b p).base = p.base ∧ (failLoad r a b p).ms = p.ms ∧ (failLoad r a b p).img = p.img ∧
      (failLoad r a b p).islands = p.islands ∧ (failLoad r a b p).gens = p.gens ∧
      (failLoad r a b p).sharing = p.sharing ∧ (failLoad r a b p).cmd = p.cmd ∧ (failLoad r a b p).cons = p.cons ∧
      (failLoad r a b p).drives = p.drives ∧ (failLoad r a b p).shedList = p.shedList ∧
      (failLoad r a b p).sq = p.sq ∧ (failLoad r a b p).plans.staging = p.plans.staging ∧
      (failLoad r a b p).plans.active = p.plans.active ∧ (failLoad r a b p).plans.key = p.plans.key ∧
      (failLoad r a b p).plans.partState = p.plans.partState ∧
      (failLoad r a b p).plans.settlingTimer = p.plans.settlingTimer ∧ (failLoad r a b p).free = p.free := by
  simp [failLoad]

@[simp] theorem enterDescriptor_frame (w : Walk) (p : Part) :
      (enterDescriptor w p).base = p.base ∧ (enterDescriptor w p).ms = p.ms ∧ (enterDescriptor w p).img = p.img ∧
      (enterDescriptor w p).islands = p.islands ∧ (enterDescriptor w p).gens = p.gens ∧
      (enterDescriptor w p).sharing = p.sharing ∧ (enterDescriptor w p).cmd = p.cmd ∧
      (enterDescriptor w p).cons = p.cons ∧ (enterDescriptor w p).drives = p.drives ∧
      (enterDescriptor w p).shedList = p.shedList ∧ (enterDescriptor w p).sq = p.sq ∧
      (enterDescriptor w p).plans.staging = p.plans.staging ∧ (enterDescriptor w p).plans.active = p.plans.active ∧
      (enterDescriptor w p).plans.key = p.plans.key ∧ (enterDescriptor w p).plans.partState = p.plans.partState ∧
      (enterDescriptor w p).plans.settlingTimer = p.plans.settlingTimer ∧ (enterDescriptor w p).free = p.free := by
  unfold enterDescriptor
  repeat' split
  all_goals simp

@[simp] theorem startLoad_frame (w : Word) (p : Part) :
      (startLoad w p).base = p.base ∧ (startLoad w p).ms = p.ms ∧ (startLoad w p).img = p.img ∧
      (startLoad w p).islands = p.islands ∧ (startLoad w p).gens = p.gens ∧ (startLoad w p).sharing = p.sharing ∧
      (startLoad w p).cmd = p.cmd ∧ (startLoad w p).cons = p.cons ∧ (startLoad w p).drives = p.drives ∧
      (startLoad w p).shedList = p.shedList ∧ (startLoad w p).sq = p.sq ∧
      (startLoad w p).plans.active = p.plans.active ∧ (startLoad w p).plans.key = p.plans.key ∧
      (startLoad w p).plans.partState = p.plans.partState ∧
      (startLoad w p).plans.settlingTimer = p.plans.settlingTimer ∧ (startLoad w p).free = p.free := by
  simp [startLoad]

@[simp] theorem finishLoad_frame (w : Walk) (p : Part) :
      (finishLoad w p).base = p.base ∧ (finishLoad w p).ms = p.ms ∧ (finishLoad w p).img = p.img ∧
      (finishLoad w p).islands = p.islands ∧ (finishLoad w p).gens = p.gens ∧
      (finishLoad w p).sharing = p.sharing ∧ (finishLoad w p).cmd = p.cmd ∧ (finishLoad w p).cons = p.cons ∧
      (finishLoad w p).drives = p.drives ∧ (finishLoad w p).shedList = p.shedList ∧ (finishLoad w p).sq = p.sq ∧
      (finishLoad w p).plans.staging = p.plans.staging ∧ (finishLoad w p).plans.active = p.plans.active ∧
      (finishLoad w p).plans.key = p.plans.key ∧ (finishLoad w p).plans.partState = p.plans.partState ∧
      (finishLoad w p).plans.settlingTimer = p.plans.settlingTimer ∧ (finishLoad w p).free = p.free := by
  unfold finishLoad
  repeat' split
  all_goals simp

@[simp] theorem finishRun_frame (w : Walk) (d : Descriptor) (p : Part) :
      (finishRun w d p).base = p.base ∧ (finishRun w d p).ms = p.ms ∧ (finishRun w d p).img = p.img ∧
      (finishRun w d p).islands = p.islands ∧ (finishRun w d p).gens = p.gens ∧
      (finishRun w d p).sharing = p.sharing ∧ (finishRun w d p).cmd = p.cmd ∧ (finishRun w d p).cons = p.cons ∧
      (finishRun w d p).drives = p.drives ∧ (finishRun w d p).shedList = p.shedList ∧ (finishRun w d p).sq = p.sq ∧
      (finishRun w d p).plans.staging = p.plans.staging ∧ (finishRun w d p).plans.active = p.plans.active ∧
      (finishRun w d p).plans.key = p.plans.key ∧ (finishRun w d p).plans.partState = p.plans.partState ∧
      (finishRun w d p).plans.settlingTimer = p.plans.settlingTimer ∧ (finishRun w d p).free = p.free := by
  unfold finishRun
  repeat' split
  all_goals simp

@[simp] theorem finishDescriptor_frame (w : Walk) (ws : List Word) (p : Part) :
      (finishDescriptor w ws p).base = p.base ∧ (finishDescriptor w ws p).ms = p.ms ∧
      (finishDescriptor w ws p).img = p.img ∧ (finishDescriptor w ws p).islands = p.islands ∧
      (finishDescriptor w ws p).gens = p.gens ∧ (finishDescriptor w ws p).sharing = p.sharing ∧
      (finishDescriptor w ws p).cmd = p.cmd ∧ (finishDescriptor w ws p).cons = p.cons ∧
      (finishDescriptor w ws p).drives = p.drives ∧ (finishDescriptor w ws p).shedList = p.shedList ∧
      (finishDescriptor w ws p).sq = p.sq ∧ (finishDescriptor w ws p).plans.staging = p.plans.staging ∧
      (finishDescriptor w ws p).plans.active = p.plans.active ∧ (finishDescriptor w ws p).plans.key = p.plans.key ∧
      (finishDescriptor w ws p).plans.partState = p.plans.partState ∧
      (finishDescriptor w ws p).plans.settlingTimer = p.plans.settlingTimer ∧
      (finishDescriptor w ws p).free = p.free := by
  unfold finishDescriptor
  split
  · simp
  · split <;> simp

@[simp] theorem takeRunWord_frame (w : Walk) (d : Descriptor) (n : Nat) (x : Word) (p : Part) :
      (takeRunWord w d n x p).base = p.base ∧ (takeRunWord w d n x p).ms = p.ms ∧
      (takeRunWord w d n x p).img = p.img ∧ (takeRunWord w d n x p).islands = p.islands ∧
      (takeRunWord w d n x p).gens = p.gens ∧ (takeRunWord w d n x p).sharing = p.sharing ∧
      (takeRunWord w d n x p).cmd = p.cmd ∧ (takeRunWord w d n x p).cons = p.cons ∧
      (takeRunWord w d n x p).drives = p.drives ∧ (takeRunWord w d n x p).shedList = p.shedList ∧
      (takeRunWord w d n x p).sq = p.sq ∧ (takeRunWord w d n x p).plans.active = p.plans.active ∧
      (takeRunWord w d n x p).plans.key = p.plans.key ∧
      (takeRunWord w d n x p).plans.partState = p.plans.partState ∧
      (takeRunWord w d n x p).plans.settlingTimer = p.plans.settlingTimer ∧ (takeRunWord w d n x p).free = p.free := by
  unfold takeRunWord
  simp only []
  repeat' split
  all_goals simp

@[simp] theorem loaderWord_frame (w : Walk) (x : Word) (good : Bool) (p : Part) :
      (loaderWord w x good p).base = p.base ∧ (loaderWord w x good p).ms = p.ms ∧
      (loaderWord w x good p).img = p.img ∧ (loaderWord w x good p).islands = p.islands ∧
      (loaderWord w x good p).gens = p.gens ∧ (loaderWord w x good p).sharing = p.sharing ∧
      (loaderWord w x good p).cmd = p.cmd ∧ (loaderWord w x good p).cons = p.cons ∧
      (loaderWord w x good p).drives = p.drives ∧ (loaderWord w x good p).shedList = p.shedList ∧
      (loaderWord w x good p).sq = p.sq ∧ (loaderWord w x good p).plans.active = p.plans.active ∧
      (loaderWord w x good p).plans.key = p.plans.key ∧
      (loaderWord w x good p).plans.partState = p.plans.partState ∧
      (loaderWord w x good p).plans.settlingTimer = p.plans.settlingTimer ∧ (loaderWord w x good p).free = p.free := by
  unfold loaderWord
  split
  · split
    · simp only []
      split <;> simp
    · simp
  · simp

@[simp] theorem gapTick_frame (n : Nat) (p : Part) :
      (gapTick n p).base = p.base ∧ (gapTick n p).ms = p.ms ∧ (gapTick n p).img = p.img ∧
      (gapTick n p).islands = p.islands ∧ (gapTick n p).gens = p.gens ∧ (gapTick n p).sharing = p.sharing ∧
      (gapTick n p).cmd = p.cmd ∧ (gapTick n p).cons = p.cons ∧ (gapTick n p).drives = p.drives ∧
      (gapTick n p).shedList = p.shedList ∧ (gapTick n p).sq = p.sq ∧ (gapTick n p).lu = p.lu ∧
      (gapTick n p).plans.staging = p.plans.staging ∧ (gapTick n p).plans.active = p.plans.active ∧
      (gapTick n p).plans.key = p.plans.key ∧ (gapTick n p).plans.partState = p.plans.partState ∧
      (gapTick n p).plans.settlingTimer = p.plans.settlingTimer ∧ (gapTick n p).att = p.att ∧ (gapTick n p).free = p.free := by
  unfold gapTick
  repeat' split
  all_goals simp

@[simp] theorem activateDrive_frame (old : Plan) (p : Part) (d : DriveId) :
      (activateDrive old p d).base = p.base ∧ (activateDrive old p d).ms = p.ms ∧
      (activateDrive old p d).img = p.img ∧ (activateDrive old p d).islands = p.islands ∧
      (activateDrive old p d).gens = p.gens ∧ (activateDrive old p d).sharing = p.sharing ∧
      (activateDrive old p d).cmd = p.cmd ∧ (activateDrive old p d).cons = p.cons ∧
      (activateDrive old p d).plans = p.plans ∧ (activateDrive old p d).free = p.free := by
  unfold activateDrive
  simp only []
  repeat' split
  all_goals simp

@[simp] theorem activatePartState_frame (p : Part) :
      (activatePartState p).base = p.base ∧ (activatePartState p).ms = p.ms ∧ (activatePartState p).img = p.img ∧
      (activatePartState p).islands = p.islands ∧ (activatePartState p).gens = p.gens ∧
      (activatePartState p).sharing = p.sharing ∧ (activatePartState p).cmd = p.cmd ∧
      (activatePartState p).cons = p.cons ∧ (activatePartState p).drives = p.drives ∧
      (activatePartState p).shedList = p.shedList ∧ (activatePartState p).sq = p.sq ∧
      (activatePartState p).lu = p.lu ∧ (activatePartState p).plans.staging = p.plans.staging ∧
      (activatePartState p).plans.active = p.plans.active ∧ (activatePartState p).plans.loader = p.plans.loader ∧
      (activatePartState p).plans.key = p.plans.key ∧ (activatePartState p).att = p.att ∧
      (activatePartState p).free = p.free := by
  unfold activatePartState
  repeat' split
  all_goals simp

@[simp] theorem activatePlan_frame (p : Part) :
      (activatePlan p).base = p.base ∧ (activatePlan p).ms = p.ms ∧ (activatePlan p).img = p.img ∧
      (activatePlan p).plans.staging = p.plans.staging ∧ (activatePlan p).plans.key = p.plans.key ∧
      (activatePlan p).free = p.free := by
  unfold activatePlan
  simp only [judgeSettled_frame]
  refine ⟨(foldl_keep Part.base _ _ _ ?_).trans ((foldl_keep Part.base _ _ _ ?_).trans ((foldl_keep Part.base _ _ _ ?_).trans ((foldl_keep Part.base _ _ _ ?_).trans ((foldl_keep Part.base _ _ _ ?_).trans ?_)))),
    (foldl_keep Part.ms _ _ _ ?_).trans ((foldl_keep Part.ms _ _ _ ?_).trans ((foldl_keep Part.ms _ _ _ ?_).trans ((foldl_keep Part.ms _ _ _ ?_).trans ((foldl_keep Part.ms _ _ _ ?_).trans ?_)))),
    (foldl_keep Part.img _ _ _ ?_).trans ((foldl_keep Part.img _ _ _ ?_).trans ((foldl_keep Part.img _ _ _ ?_).trans ((foldl_keep Part.img _ _ _ ?_).trans ((foldl_keep Part.img _ _ _ ?_).trans ?_)))),
    (foldl_keep (fun q : Part => q.plans.staging) _ _ _ ?_).trans ((foldl_keep (fun q : Part => q.plans.staging) _ _ _ ?_).trans ((foldl_keep (fun q : Part => q.plans.staging) _ _ _ ?_).trans ((foldl_keep (fun q : Part => q.plans.staging) _ _ _ ?_).trans ((foldl_keep (fun q : Part => q.plans.staging) _ _ _ ?_).trans ?_)))),
    (foldl_keep (fun q : Part => q.plans.key) _ _ _ ?_).trans ((foldl_keep (fun q : Part => q.plans.key) _ _ _ ?_).trans ((foldl_keep (fun q : Part => q.plans.key) _ _ _ ?_).trans ((foldl_keep (fun q : Part => q.plans.key) _ _ _ ?_).trans ((foldl_keep (fun q : Part => q.plans.key) _ _ _ ?_).trans ?_)))),
    (foldl_keep Part.free _ _ _ ?_).trans ((foldl_keep Part.free _ _ _ ?_).trans ((foldl_keep Part.free _ _ _ ?_).trans ((foldl_keep Part.free _ _ _ ?_).trans ((foldl_keep Part.free _ _ _ ?_).trans ?_))))⟩
  all_goals first
    | (intro q i; split <;> simp)
    | simp

@[simp] theorem requestActivation_frame (p : Part) :
      (requestActivation p).base = p.base ∧ (requestActivation p).ms = p.ms ∧ (requestActivation p).img = p.img ∧
      (requestActivation p).plans.staging = p.plans.staging ∧ (requestActivation p).free = p.free := by
  unfold requestActivation
  repeat' split
  all_goals simp

@[simp] theorem controllerResetPart_frame (p : Part) :
      (controllerResetPart p).base = p.base ∧ (controllerResetPart p).ms = p.ms ∧
      (controllerResetPart p).img = p.img ∧ (controllerResetPart p).islands = p.islands ∧
      (controllerResetPart p).gens = p.gens ∧ (controllerResetPart p).sharing = p.sharing ∧
      (controllerResetPart p).cmd = p.cmd ∧ (controllerResetPart p).cons = p.cons ∧
      (controllerResetPart p).drives = p.drives ∧ (controllerResetPart p).shedList = p.shedList ∧
      (controllerResetPart p).sq = p.sq ∧ (controllerResetPart p).plans.staging = p.plans.staging ∧
      (controllerResetPart p).plans.active = p.plans.active ∧
      (controllerResetPart p).plans.partState = p.plans.partState ∧
      (controllerResetPart p).plans.settlingTimer = p.plans.settlingTimer ∧ (controllerResetPart p).free = p.free := by
  unfold controllerResetPart
  simp only []
  split <;> simp

@[simp] theorem settlingExpiry_frame (p : Part) :
      (settlingExpiry p).base = p.base ∧ (settlingExpiry p).ms = p.ms ∧ (settlingExpiry p).img = p.img ∧
      (settlingExpiry p).plans.staging = p.plans.staging ∧ (settlingExpiry p).plans.active = p.plans.active ∧
      (settlingExpiry p).plans.loader = p.plans.loader ∧ (settlingExpiry p).plans.key = p.plans.key ∧
      (settlingExpiry p).free = p.free := by
  unfold settlingExpiry
  repeat' split
  all_goals simp

end Sys2Proof.Machine
end

