-- ==== Sys2Proof/Laws/Guards.lean ====
section
/-! SUPPORT. How an event keeps the law of the guarded word: consumer by consumer, the copy agrees with the standing, and
where the copy changes or a consumer comes under the guard its word stands in the store queue. -/

namespace Sys2Proof.Machine

/-- The guard law for one consumer (R138, R142). -/
def lawAt (p : Part) (c : ConsId) : Prop :=
  cmdAgrees c p = true ∧ (p.cons[c].state = .stuck ∨ p.cons[c].state = .restoring → hasEntry p (.cons c) = false)

theorem guardLaw_iff (p : Part) : p.guardLaw ↔ ∀ c, lawAt p c := Iff.rfl

/-- The store-queue entry of a consumer's CMD word. -/
def cmdEntry (q : List SqEntry) (c : ConsId) : Option SqEntry := q.find? fun e => e.word == .consCmd c

/-- What a change keeps for one consumer: its law, and its word, which stands as it was with no new guard, or is in the
store queue with the copy's value. -/
def guardsAt (p q : Part) (c : ConsId) : Prop :=
  (lawAt p c → lawAt q c) ∧
    ((cmdEntry q.sq c).map SqEntry.data = some q.cmd[c] ∨
      (cmdEntry q.sq c = cmdEntry p.sq c ∧ q.cmd[c] = p.cmd[c] ∧ (isGuarded q c = true → isGuarded p c = true)))

/-- What a change keeps for the consumers of a set. -/
def Guards (S : ConsId → Prop) (p q : Part) : Prop := ∀ c, S c → guardsAt p q c

theorem guardsAt_refl (p : Part) (c : ConsId) : guardsAt p p c := ⟨id, .inr ⟨rfl, rfl, id⟩⟩

theorem guardsAt_trans {p q r : Part} {c : ConsId} (h : guardsAt p q c) (k : guardsAt q r c) : guardsAt p r c := by
  refine ⟨fun l => k.1 (h.1 l), ?_⟩
  rcases k.2 with k2 | ⟨k2, k3, k4⟩
  · exact .inl k2
  · rcases h.2 with h2 | ⟨h2, h3, h4⟩
    · exact .inl (by rw [k2, k3]; exact h2)
    · exact .inr ⟨k2.trans h2, k3.trans h3, fun g => h4 (k4 g)⟩

theorem Guards.refl (S : ConsId → Prop) (p : Part) : Guards S p p := fun c _ => guardsAt_refl p c

theorem Guards.trans {S : ConsId → Prop} {p q r : Part} (h : Guards S p q) (k : Guards S q r) : Guards S p r :=
  fun c hc => guardsAt_trans (h c hc) (k c hc)

/-- A change that keeps every consumer keeps those of any set. -/
theorem Guards.weaken {S : ConsId → Prop} {p q : Part} (h : Guards (fun _ => True) p q) : Guards S p q :=
  fun c _ => h c trivial

theorem Guards.fold {α : Type} {S : ConsId → Prop} (f : Part → α → Part) (h : ∀ q a, Guards S q (f q a)) (l : List α)
    (p : Part) : Guards S p (l.foldl f p) := by
  induction l generalizing p with
  | nil => exact .refl S p
  | cons a l ih => exact (h p a).trans (ih (f p a))

/-- A consumer whose standing, copy and store-queue entry stand is kept. -/
theorem guardsAt_same {p q : Part} {c : ConsId} (hs : cmdEntry q.sq c = cmdEntry p.sq c) (hm : q.cmd[c] = p.cmd[c])
    (he : hasEntry q (.cons c) = hasEntry p (.cons c)) (hc : (q.cons[c].state == .stuck) = (p.cons[c].state == .stuck))
    (hr : q.cons[c].state = .restoring → p.cons[c].state = .restoring) : guardsAt p q c := by
  have hg : isGuarded q c = isGuarded p c := by simp only [isGuarded, he, hc]
  refine ⟨fun h => ⟨?_, fun hk => ?_⟩, .inr ⟨hs, hm, by rw [hg]; exact id⟩⟩
  · have h1 := h.1
    unfold cmdAgrees at h1 ⊢
    simp only [hm, he, hc, hg]
    exact h1
  · rw [he]
    refine h.2 (hk.imp (fun k => ?_) hr)
    have : (p.cons[c].state == .stuck) = true := by rw [← hc, k]; rfl
    exact eq_of_beq this

/-- A change that leaves the ladder's tables and the store queue. -/
theorem Guards.plant {S : ConsId → Prop} {p q : Part}
    (h : q.sq = p.sq ∧ q.cmd = p.cmd ∧ q.cons = p.cons ∧ q.shedList = p.shedList) : Guards S p q :=
  fun c _ => guardsAt_same (by rw [h.1]) (by rw [h.2.1]) (by unfold hasEntry; rw [h.2.2.2]) (by rw [h.2.2.1])
    (by rw [h.2.2.1]; exact id)

theorem cmdEntry_put_other (w : SqWord) (d : Word) (q : List SqEntry) (c : ConsId) (h : w ≠ .consCmd c) :
    cmdEntry (sqPut w d q) c = cmdEntry q c := by
  unfold cmdEntry
  induction q with
  | nil => simp [sqPut, h]
  | cons e q ih =>
    unfold sqPut
    split
    · next he => simp [he, h]
    · simp only [List.find?_cons, ih]

theorem cmdEntry_put (d : Word) (q : List SqEntry) (c : ConsId) :
    cmdEntry (sqPut (.consCmd c) d q) c = some ⟨.consCmd c, d⟩ := by
  unfold cmdEntry
  induction q with
  | nil => simp [sqPut]
  | cons e q ih =>
    unfold sqPut
    split
    · simp
    · next he => simp [he, ih]

/-- An enqueue of another word. -/
theorem Guards.put {S : ConsId → Prop} (w : SqWord) (d : Word) (p : Part) (h : ∀ c, w ≠ .consCmd c) :
    Guards S p (enqueue w d p) :=
  fun c _ => guardsAt_same (cmdEntry_put_other w d p.sq c (h c)) rfl rfl rfl id

/-! ## One consumer's standing changed: the others are kept -/

/-- A change of one consumer's tables and entry keeps the others. -/
theorem Guards.others {p q : Part} {c : ConsId} (hs : ∀ x, x ≠ c → cmdEntry q.sq x = cmdEntry p.sq x)
    (hm : ∀ x, x ≠ c → q.cmd[x] = p.cmd[x]) (he : ∀ x, x ≠ c → hasEntry q (.cons x) = hasEntry p (.cons x))
    (hc : ∀ x, x ≠ c → q.cons[x] = p.cons[x]) : Guards (· ≠ c) p q :=
  fun x hx => guardsAt_same (hs x hx) (hm x hx) (he x hx) (by rw [hc x hx]) (by rw [hc x hx]; exact id)

theorem guards_setCons (c : ConsId) (e : Consumer) (p : Part) : Guards (· ≠ c) p (setCons c e p) :=
  .others (fun _ _ => rfl) (fun _ _ => rfl) (fun _ _ => rfl) fun _ hx => setAt_other p.cons e (Ne.symm hx)

theorem guards_setConsState (c : ConsId) (st : ConsState) (p : Part) : Guards (· ≠ c) p (setConsState c st p) :=
  guards_setCons c _ p

theorem hasEntry_append (e : ShedEntry) (t : Target) (p : Part) :
    hasEntry (appendEntry e p) t = (hasEntry p t || e.target == t) := by
  simp [hasEntry]

theorem hasEntry_remove (t u : Target) (p : Part) : hasEntry (removeEntry t p) u = (hasEntry p u && decide (u ≠ t)) := by
  unfold hasEntry
  rw [removeEntry_shedList, List.any_filter, Bool.eq_iff_iff]
  simp only [List.any_eq_true, Bool.and_eq_true, decide_eq_true_eq, beq_iff_eq]
  constructor
  · rintro ⟨e, he, h, rfl⟩
    exact ⟨⟨e, he, rfl⟩, h⟩
  · rintro ⟨⟨e, he, rfl⟩, h⟩
    exact ⟨e, he, h, rfl⟩

theorem hasEntry_change (t u : Target) (f : ShedEntry → ShedEntry) (hf : ∀ e, (f e).target = e.target) (p : Part) :
    hasEntry (changeEntry t f p) u = hasEntry p u := by
  unfold hasEntry
  rw [changeEntry_shedList, List.any_map]
  congr 1
  funext e
  simp only [Function.comp]
  split <;> simp [hf]

theorem guards_appendEntry (c : ConsId) (e : ShedEntry) (he : e.target = .cons c) (p : Part) :
    Guards (· ≠ c) p (appendEntry e p) :=
  .others (fun _ _ => rfl) (fun _ _ => rfl)
    (fun x hx => by
      rw [hasEntry_append, he]
      have : (Target.cons c == Target.cons x) = false := by simpa using fun h => hx h.symm
      rw [this, Bool.or_false])
    fun _ _ => rfl

theorem guards_removeEntry (c : ConsId) (p : Part) : Guards (· ≠ c) p (removeEntry (.cons c) p) :=
  .others (fun _ _ => rfl) (fun _ _ => rfl) (fun x hx => by rw [hasEntry_remove]; simp [hx]) fun _ _ => rfl

theorem guards_setCmd (c : ConsId) (req : Nat) (shed stuck : Bool) (p : Part) :
    Guards (· ≠ c) p (setCmd c req shed stuck p) :=
  .others (fun x hx => by rw [setCmd_sq]; exact cmdEntry_put_other _ _ _ _ (by simpa using fun h => hx h.symm))
    (fun x hx => by rw [setCmd_cmd]; exact setAt_other _ _ (Ne.symm hx)) (fun _ _ => rfl) fun _ _ => rfl

/-! ## Entries of drives, and entries changed in place -/

theorem Guards.entries {S : ConsId → Prop} {p q : Part} (h : q.sq = p.sq ∧ q.cmd = p.cmd ∧ q.cons = p.cons)
    (he : ∀ c, hasEntry q (.cons c) = hasEntry p (.cons c)) : Guards S p q :=
  fun c _ => guardsAt_same (by rw [h.1]) (by rw [h.2.1]) (he c) (by rw [h.2.2]) (by rw [h.2.2]; exact id)

theorem guards_appendDrive {S : ConsId → Prop} (d : DriveId) (e : ShedEntry) (he : e.target = .drive d) (p : Part) :
    Guards S p (appendEntry e p) :=
  .entries ⟨rfl, rfl, rfl⟩ fun c => by rw [hasEntry_append, he]; simp

theorem guards_removeDrive {S : ConsId → Prop} (d : DriveId) (p : Part) : Guards S p (removeEntry (.drive d) p) :=
  .entries ⟨rfl, rfl, rfl⟩ fun c => by rw [hasEntry_remove]; simp

theorem guards_changeEntry {S : ConsId → Prop} (t : Target) (f : ShedEntry → ShedEntry)
    (hf : ∀ e, (f e).target = e.target) (p : Part) : Guards S p (changeEntry t f p) :=
  .entries ⟨rfl, rfl, rfl⟩ fun _ => hasEntry_change t _ f hf p

/-- A consumer's state changed from one that is not STUCK to one that is neither STUCK nor RESTORING. -/
theorem guards_move {S : ConsId → Prop} (c : ConsId) (st : ConsState) (p : Part) (h : p.cons[c].state ≠ .stuck)
    (k : st ≠ .stuck ∧ st ≠ .restoring) : Guards S p (setConsState c st p) := by
  intro x _
  by_cases hx : x = c
  · subst hx
    have h1 : (setConsState x st p).cons[x] = ⟨st, none⟩ := setAt_same ..
    refine guardsAt_same rfl rfl rfl ?_ ?_ <;> rw [h1]
    · rw [beq_eq_false_iff_ne.mpr k.1, beq_eq_false_iff_ne.mpr h]
    · exact fun e => absurd e k.2
  · have h1 : (setConsState c st p).cons[x] = p.cons[x] := setAt_other _ _ (Ne.symm hx)
    refine guardsAt_same rfl rfl rfl ?_ ?_ <;> rw [h1]
    exact id

/-! ## A consumer's transaction closed: its word is in the store queue and agrees -/

/-- The others kept, and this consumer's word enqueued in agreement with its standing: every consumer is kept. -/
theorem Guards.close {p q : Part} {c : ConsId} (h : Guards (· ≠ c) p q) (hl : lawAt q c)
    (hw : (cmdEntry q.sq c).map SqEntry.data = some q.cmd[c]) : Guards (fun _ => True) p q := by
  intro x _
  by_cases hx : x = c
  · subst hx
    exact ⟨fun _ => hl, .inl hw⟩
  · exact h x hx

/-- A CMD word set in agreement with the standing, which is OPEN if the consumer is guarded. -/
theorem lawAt_setCmd (c : ConsId) (req : Nat) (p : Part)
    (hr : isGuarded p c = true → req % 4 = 1)
    (hs : p.cons[c].state = .stuck ∨ p.cons[c].state = .restoring → hasEntry p (.cons c) = false) :
    lawAt (setCmd c req (hasEntry p (.cons c)) (p.cons[c].state == .stuck) p) c := by
  refine ⟨?_, hs⟩
  unfold cmdAgrees
  have hg : isGuarded (setCmd c req (hasEntry p (.cons c)) (p.cons[c].state == .stuck) p) c = isGuarded p c := rfl
  simp only [hg, setCmd_cmd, setAt_same, cmdShed_cmdWord, cmdStuck_cmdWord, cmdReq_cmdWord]
  have h1 : hasEntry (setCmd c req (hasEntry p (.cons c)) (p.cons[c].state == .stuck) p) (.cons c)
      = hasEntry p (.cons c) := rfl
  have h2 : (setCmd c req (hasEntry p (.cons c)) (p.cons[c].state == .stuck) p).cons = p.cons := rfl
  rw [h1, h2]
  cases hgg : isGuarded p c
  · simp
  · simp [hr hgg, reqOpen]

theorem cmdEntry_setCmd (c : ConsId) (req : Nat) (shed stuck : Bool) (p : Part) :
    (cmdEntry (setCmd c req shed stuck p).sq c).map SqEntry.data = some (setCmd c req shed stuck p).cmd[c] := by
  rw [setCmd_sq, cmdEntry_put, setCmd_cmd, setAt_same]
  rfl

/-- The transaction of one consumer: the others kept up to the CMD word's setting, which agrees with the standing. -/
theorem Guards.closeCmd {p q : Part} {c : ConsId} (req : Nat) (shed stuck : Bool) (h : Guards (· ≠ c) p q)
    (h1 : hasEntry q (.cons c) = shed) (h2 : (q.cons[c].state == .stuck) = stuck)
    (h3 : shed = true ∨ stuck = true → req % 4 = 1)
    (h4 : shed = true → stuck = false ∧ q.cons[c].state ≠ .restoring) :
    Guards (fun _ => True) p (setCmd c req shed stuck q) := by
  subst h1 h2
  refine Guards.close (h.trans (guards_setCmd c _ _ _ q)) (lawAt_setCmd c req q ?_ ?_) (cmdEntry_setCmd ..)
  · intro hg
    apply h3
    simpa [isGuarded] using hg
  · intro hs
    cases he : hasEntry q (.cons c)
    · rfl
    · obtain ⟨k, l⟩ := h4 he
      rcases hs with hs | hs
      · rw [hs] at k; exact absurd k (by decide)
      · exact absurd hs l

end Sys2Proof.Machine
end

