-- ==== Sys2Proof/Laws/Effects.lean ====
section
/-! SUPPORT. How an event of the plant reaches the reporting side: by setting attention bits, queueing notices, giving
commands and enqueueing words, and in no other way. One lemma per operation, and what follows by one induction. -/

namespace Sys2Proof.Machine

/-- The changes an event of the plant makes that the reporting side sees, one after the other. -/
inductive Reports : Part → Part → Prop where
  | refl (p : Part) : Reports p p
  | trans {p q r : Part} : Reports p q → Reports q r → Reports p r
  | plant {p q : Part} (h : q.base = p.base ∧ q.ms = p.ms ∧ q.sq = p.sq ∧ q.lu = p.lu ∧ q.att = p.att) : Reports p q
  | attention (b : AttBit) (p : Part) : Reports p (setAtt b p)
  | report (n : Notice) (p : Part) : Reports p (queueNotice n p)
  | command (c : Command) (p : Part) : Reports p (giveCommand c p)
  | put (w : SqWord) (d : Word) (p : Part) : Reports p (enqueue w d p)

/-- What an event of the plant does: how it reaches the reporting side, and that it keeps the law of the guarded word. -/
structure Effects (p q : Part) : Prop where
  reports : Reports p q
  guards : Guards (fun _ => True) p q

theorem Effects.refl (p : Part) : Effects p p := ⟨.refl p, .refl _ p⟩

theorem Effects.trans {p q r : Part} (h : Effects p q) (k : Effects q r) : Effects p r :=
  ⟨h.reports.trans k.reports, h.guards.trans k.guards⟩

theorem Effects.plant {p q : Part}
    (h : (q.base = p.base ∧ q.ms = p.ms ∧ q.sq = p.sq ∧ q.lu = p.lu ∧ q.att = p.att) ∧ q.cmd = p.cmd ∧
      q.cons = p.cons ∧ q.shedList = p.shedList) : Effects p q :=
  ⟨.plant h.1, .plant ⟨h.1.2.2.1, h.2⟩⟩

theorem Effects.attention (b : AttBit) (p : Part) : Effects p (setAtt b p) := ⟨.attention b p, .plant (by simp)⟩

theorem Effects.report (n : Notice) (p : Part) : Effects p (queueNotice n p) := ⟨.report n p, .plant (by simp)⟩

theorem Effects.command (c : Command) (p : Part) : Effects p (giveCommand c p) := ⟨.command c p, .plant (by simp)⟩

/-- An enqueue of a word other than a CMD word. -/
theorem Effects.put (w : SqWord) (d : Word) (p : Part) (h : ∀ c, w ≠ .consCmd c) : Effects p (enqueue w d p) :=
  ⟨.put w d p, .put w d p h⟩

theorem Effects.fold {α : Type} (f : Part → α → Part) (h : ∀ q a, Effects q (f q a)) (l : List α) (p : Part) :
    Effects p (l.foldl f p) := by
  induction l generalizing p with
  | nil => exact .refl p
  | cons a l ih => exact (h p a).trans (ih (f p a))

theorem Effects.foldAfter {α : Type} {f : Part → α → Part} (h : ∀ q a, Effects q (f q a)) (l : List α) {p q : Part}
    (k : Effects p q) : Effects p (l.foldl f q) :=
  k.trans (Effects.fold f h l q)

theorem effects_setIsland (i : SecId) (r : Island) (p : Part) : Effects p (setIsland i r p) :=
  .plant (by simp)

theorem effects_syncTimers (i : SecId) (p : Part) : Effects p (syncTimers i p) :=
  .plant (by simp)

theorem effects_stopTimers (i : SecId) (p : Part) : Effects p (stopTimers i p) :=
  .plant (by simp)

theorem effects_retotal (i : SecId) (p : Part) : Effects p (retotal i p) :=
  .plant (by simp)

theorem effects_judgeReleaseOf (i : Option SecId) (p : Part) : Effects p (judgeReleaseOf i p) :=
  .plant (by simp)

theorem effects_setSharing (g : GenId) (e : Sharing) (p : Part) : Effects p (setSharing g e p) :=
  .plant (by simp)

theorem effects_removeCap (g : GenId) (p : Part) : Effects p (removeCap g p) :=
  .plant (by simp)

theorem effects_dropReachedCaps (i : SecId) (p : Part) : Effects p (dropReachedCaps i p) :=
  .plant (by simp)

theorem effects_setGen (g : GenId) (e : Gen) (p : Part) : Effects p (setGen g e p) :=
  .plant (by simp)

theorem effects_clearStandbyOf (g : GenId) (p : Part) : Effects p (clearStandbyOf g p) :=
  .plant (by simp)

theorem reports_setCons (c : ConsId) (e : Consumer) (p : Part) : Reports p (setCons c e p) :=
  .plant (by simp)

theorem reports_setConsState (c : ConsId) (st : ConsState) (p : Part) : Reports p (setConsState c st p) :=
  .plant (by simp)

theorem effects_setDrive (d : DriveId) (e : Drive) (p : Part) : Effects p (setDrive d e p) :=
  .plant (by simp)

theorem reports_appendEntry (e : ShedEntry) (p : Part) : Reports p (appendEntry e p) :=
  .plant (by simp)

theorem reports_removeEntry (t : Target) (p : Part) : Reports p (removeEntry t p) :=
  .plant (by simp)

theorem reports_changeEntry (t : Target) (f : ShedEntry → ShedEntry) (p : Part) : Reports p (changeEntry t f p) :=
  .plant (by simp)

theorem effects_stepMet (i : SecId) (p : Part) : Effects p (stepMet i p) :=
  .plant (by simp)

theorem effects_setCopy (r : RecordId) (m : MeasCopy) (p : Part) : Effects p (setCopy r m p) :=
  .plant (by simp)

theorem effects_takeCopy (r : RecordId) (w : Word) (p : Part) : Effects p (takeCopy r w p) :=
  .plant (by simp)

theorem effects_setLoader (l : LoaderState) (p : Part) : Effects p (setLoader l p) :=
  .plant (by simp)

theorem effects_setKey (k : KeyState) (p : Part) : Effects p (setKey k p) :=
  .plant (by simp)

theorem effects_activatePartState (p : Part) : Effects p (activatePartState p) :=
  .plant (by simp)

theorem effects_gapTick (n : Nat) (p : Part) : Effects p (gapTick n p) :=
  .plant (by simp)

theorem reports_setCmd (c : ConsId) (req : Nat) (sh st : Bool) (p : Part) : Reports p (setCmd c req sh st p) :=
  (Reports.plant (by simp)).trans (.put _ _ { p with cmd := setAt p.cmd c (cmdWord p.cmd[c] req sh st) })

/-- An entry changed in place for the same target. -/
theorem effects_changeEntry (t : Target) (f : ShedEntry → ShedEntry) (p : Part) (h : ∀ e, (f e).target = e.target) :
    Effects p (changeEntry t f p) :=
  ⟨reports_changeEntry t f p, guards_changeEntry t f h p⟩

/-- A consumer that is not STUCK moves to a state that is neither STUCK nor RESTORING. -/
theorem effects_move (c : ConsId) (st : ConsState) (p : Part) (h : p.cons[c].state ≠ .stuck)
    (k : st ≠ .stuck ∧ st ≠ .restoring) :
    Effects p (setConsState c st p) :=
  ⟨reports_setConsState c st p, guards_move c st p h k⟩

theorem effects_enterMarks (i : SecId) (p : Part) : Effects p (enterMarks i p) := by
  unfold enterMarks
  simp only []
  split
  · exact effects_setIsland ..
  · exact effects_setIsland ..
  · exact effects_setIsland ..
  · exact (effects_setIsland ..).trans (.attention ..)

theorem effects_updateInner (i : SecId) (p : Part) : Effects p (updateInner i p) := by
  unfold updateInner
  simp only []
  split
  · exact (effects_retotal i p).trans (effects_enterMarks ..)
  · exact effects_retotal i p

theorem effects_updateInnerOf (i : Option SecId) (p : Part) : Effects p (updateInnerOf i p) := by
  cases i with
  | none => exact .refl p
  | some i => exact effects_updateInner i p

theorem effects_writeTarget (g : GenId) (t : Nat) (p : Part) : Effects p (writeTarget g t p) :=
  (effects_setSharing ..).trans (.put _ _ _ (by simp))

theorem effects_offerTarget (db : Nat) (forced : Option GenId) (g : GenId) (t : Nat) (p : Part) : Effects p (offerTarget db forced g t p) := by
  unfold offerTarget
  split
  · exact effects_writeTarget g t p
  · exact .refl p

theorem effects_judgeNoSharer (i : SecId) (p : Part) : Effects p (judgeNoSharer i p) := by
  unfold judgeNoSharer
  simp only []
  split
  · exact (effects_setIsland ..).trans (.attention ..)
  · exact effects_setIsland ..

theorem effects_computeTargets (i : SecId) (forced : Option GenId) (p : Part) : Effects p (computeTargets i forced p) := by
  unfold computeTargets
  exact (effects_dropReachedCaps i p).trans ((effects_judgeNoSharer i _).trans
    (Effects.fold _ (fun _ _ => effects_offerTarget ..) _ _))

theorem effects_changeState (g : GenId) (e : Gen) (p : Part) : Effects p (changeState g e p) := by
  unfold changeState
  simp only []
  have h : ∀ q, Effects p q → Effects p (zeroTarget g q) := fun q hq => hq.trans (effects_writeTarget g 0 q)
  have k : Effects p (setGen g e p) := effects_setGen g e p
  split <;> split <;> first
    | exact h _ (k.trans (effects_removeCap g _))
    | exact h _ k
    | exact k.trans (effects_removeCap g _)
    | exact k

theorem effects_afterGenInner (g : GenId) (forced : Option GenId) (p : Part) : Effects p (afterGenInner g forced p) := by
  unfold afterGenInner
  split
  · exact .refl p
  · next i _ =>
    have h := (effects_retotal i p).trans (effects_computeTargets i forced _)
    simp only []
    split
    · exact h.trans (effects_enterMarks ..)
    · exact h

theorem effects_startGenerator (g : GenId) (auto : Bool) (cause : StartCause) (p : Part) : Effects p (startGenerator g auto cause p) :=
  (effects_changeState ..).trans ((Effects.command ..).trans ((Effects.report ..).trans (effects_afterGenInner ..)))

theorem effects_abortUnloading (g : GenId) (cause : AbortCause) (p : Part) : Effects p (abortUnloading g cause p) := by
  unfold abortUnloading
  simp only []
  have tail : ∀ q, Effects p q → Effects p (q |> noticeGen g .unloadAborted (abortCauseCode cause) 0 (kw p.gens[g].ramp) 0#32
     |> setAtt .stopEnd |> afterGenInner g (some g)) := fun q h =>
    h.trans ((Effects.report ..).trans ((Effects.attention ..).trans (effects_afterGenInner ..)))
  split
  · exact tail _ ((effects_changeState ..).trans (.command ..))
  · exact tail _ (effects_changeState ..)

theorem effects_abortAll (i : SecId) (cause : AbortCause) (p : Part) : Effects p (abortAll i cause p) := by
  unfold abortAll
  refine Effects.fold _ (fun q g => ?_) _ _
  split
  · exact effects_abortUnloading g cause q
  · exact .refl q

theorem effects_noStandby (i : SecId) (cause : StartCause) (p : Part) : Effects p (noStandby i cause p) := by
  unfold noStandby
  split
  · exact .refl p
  · exact (Effects.report ..).trans ((Effects.attention ..).trans (effects_setIsland ..))

theorem effects_requestStandby (i : SecId) (cause : StartCause) (p : Part) : Effects p (requestStandby i cause p) := by
  unfold requestStandby
  split
  · split
    · exact (effects_setIsland ..).trans (effects_startGenerator ..)
    · exact effects_noStandby i cause p
  · exact .refl p

theorem effects_giveOpenGen (g : GenId) (p : Part) : Effects p (giveOpenGen g p) :=
  (effects_setGen ..).trans (.command ..)

theorem effects_writeDriveLimit (d : DriveId) (p : Part) : Effects p (writeDriveLimit d p) :=
  (Effects.put _ _ _ (by simp)).trans (.command ..)

theorem effects_shedConsumer (c : ConsId) (cause : ShedCause) (credit : Nat) (p : Part) :
    Effects p (shedConsumer c cause credit p) := by
  refine .trans ⟨?_, ?_⟩ ((Effects.command ..).trans ((Effects.report ..).trans (.attention ..)))
  · exact (reports_appendEntry ..).trans ((effects_updateInnerOf ..).reports.trans
      ((reports_setConsState ..).trans (reports_setCmd ..)))
  · refine Guards.closeCmd (c := c) _ _ _ ((guards_appendEntry c ⟨.cons c, _, _, _, _⟩ rfl p).trans
      ((effects_updateInnerOf ..).guards.weaken.trans (guards_setConsState c _ _))) ?_ ?_ ?_ ?_
    · simp [hasEntry]
    · simp
    · simp [reqOpen]
    · simp

theorem effects_noticeDriveShed (d : DriveId) (cause : ShedCause) (credit : Nat) (p : Part) : Effects p (noticeDriveShed d cause credit p) :=
  (Effects.report ..).trans (.attention ..)

theorem effects_shedDrive (d : DriveId) (cause : ShedCause) (credit cut : Nat) (p : Part) :
    Effects p (shedDrive d cause credit cut p) :=
  Effects.trans ⟨reports_appendEntry .., guards_appendDrive d ⟨.drive d, _, _, _, _⟩ rfl p⟩ ((effects_judgeReleaseOf ..).trans
    ((effects_setDrive ..).trans ((effects_writeDriveLimit ..).trans (effects_noticeDriveShed ..))))

theorem effects_reshed (c : ConsId) (p : Part) : Effects p (reshed c p) := by
  refine .trans ⟨?_, ?_⟩ ((Effects.command ..).trans ((Effects.report ..).trans (.attention ..)))
  · exact (reports_appendEntry ..).trans ((effects_judgeReleaseOf ..).reports.trans
      ((reports_setConsState ..).trans (reports_setCmd ..)))
  · refine Guards.closeCmd (c := c) _ _ _ ((guards_appendEntry c ⟨.cons c, _, _, _, _⟩ rfl p).trans
      ((effects_judgeReleaseOf ..).guards.weaken.trans (guards_setConsState c _ _))) ?_ ?_ ?_ ?_
    · simp [hasEntry]
    · simp
    · simp [reqOpen]
    · simp

theorem effects_reshedAll (ts : List Target) (p : Part) : Effects p (reshedAll ts p) := by
  unfold reshedAll
  refine Effects.fold _ (fun q t => ?_) _ _
  split
  · exact effects_reshed ..
  · exact .refl q

theorem effects_takeCandidate (cause : ShedCause) (t : Target) (need : Int) (p : Part) : Effects p ((takeCandidate cause t need p).2) := by
  unfold takeCandidate
  split
  · exact effects_shedConsumer ..
  · simp only []
    split
    · exact .refl p
    · exact effects_shedDrive ..

theorem effects_walkCandidates (cause : ShedCause) (ts : List Target) (need : Int) (p : Part) : Effects p ((walkCandidates cause ts need p).2) := by
  induction ts generalizing need p with
  | nil => exact .refl p
  | cons t ts ih =>
    unfold walkCandidates
    split
    · exact .refl p
    · exact (effects_takeCandidate ..).trans (ih ..)

theorem effects_stepUnmet (i : SecId) (cause : ShedCause) (need : Nat) (p : Part) : Effects p (stepUnmet i cause need p) := by
  unfold stepUnmet
  simp only []
  split
  · exact .plant (by simp)
  · exact (Effects.plant (by simp)).trans ((Effects.report ..).trans (.attention ..))

theorem effects_shedStep (i : SecId) (cause : ShedCause) (need : Int) (p : Part) : Effects p (shedStep i cause need p) := by
  unfold shedStep
  split
  · exact effects_stepMet i p
  · have h := (effects_reshedAll (restoringOf p i) p).trans (effects_walkCandidates cause (candidatesOf p i) need _)
    simp only []
    split
    · exact h.trans (effects_stepMet ..)
    · exact h.trans (effects_stepUnmet ..)

theorem effects_slowStep (i : SecId) (p : Part) : Effects p (slowStep i p) := by
  unfold slowStep
  simp only []
  split
  · next h =>
    obtain ⟨t, -, rfl⟩ := takeFirst_some h
    exact (effects_reshedAll ..).trans ((effects_takeCandidate ..).trans (effects_stepMet ..))
  · exact (effects_reshedAll ..).trans (effects_stepUnmet ..)

theorem effects_fastStep (i : SecId) (snap : Nat) (p : Part) : Effects p (fastStep i snap p) := by
  unfold fastStep
  simp only []
  split
  · exact effects_shedStep ..
  · exact .refl p

theorem effects_splitStep (i : SecId) (p : Part) : Effects p (splitStep i p) := by
  unfold splitStep
  simp only []
  split
  · exact effects_stepMet ..
  · exact effects_shedStep ..

theorem effects_deadTake (p : Part) (t : Target) : Effects p (deadTake p t) := by
  cases t with
  | cons c => exact effects_shedConsumer ..
  | drive d => exact effects_shedDrive ..

theorem effects_deadLower (i : SecId) (p : Part) (d : DriveId) : Effects p (deadLower i p d) := by
  unfold deadLower
  simp only []
  split
  · exact (effects_changeEntry _ _ _ (by simp)).trans ((effects_setDrive ..).trans ((effects_judgeReleaseOf ..).trans
      ((effects_writeDriveLimit ..).trans (effects_noticeDriveShed ..))))
  · exact .refl p

theorem effects_deadShed (i : SecId) (p : Part) : Effects p (deadShed i p) :=
  (effects_reshedAll ..).trans ((Effects.fold _ effects_deadTake _ _).trans (Effects.fold _ (effects_deadLower i) _ _))

theorem effects_enterSequencer (i : SecId) (c : Condition) (p : Part) : Effects p (enterSequencer i c p) := by
  unfold enterSequencer
  split
  · split
    · exact effects_abortAll ..
    · exact effects_requestStandby ..
    · exact .refl p
    · exact .refl p
  · exact .refl p

theorem effects_enterLadder (i : SecId) (c : Condition) (p : Part) : Effects p (enterLadder i c p) := by
  unfold enterLadder
  split
  · exact effects_deadShed i p
  · exact .refl p

theorem effects_enterCondition (i : SecId) (p : Part) : Effects p (enterCondition i p) :=
  (effects_enterMarks i p).trans ((effects_enterSequencer ..).trans (effects_enterLadder ..))

theorem effects_update (i : SecId) (p : Part) : Effects p (update i p) := by
  unfold update
  simp only []
  split
  · exact (effects_retotal i p).trans (effects_enterCondition ..)
  · exact effects_retotal i p

theorem effects_updateOf (i : Option SecId) (p : Part) : Effects p (updateOf i p) := by
  cases i with
  | none => exact .refl p
  | some i => exact effects_update i p

theorem effects_updateCredit (i : SecId) (p : Part) : Effects p (updateCredit i p) := by
  unfold updateCredit
  simp only []
  split
  · exact (effects_retotal i p).trans ((effects_enterMarks ..).trans (effects_enterSequencer ..))
  · exact effects_retotal i p

theorem effects_updateCreditOf (i : Option SecId) (p : Part) : Effects p (updateCreditOf i p) := by
  cases i with
  | none => exact .refl p
  | some i => exact effects_updateCredit i p

theorem effects_afterGen (g : GenId) (forced : Option GenId) (p : Part) : Effects p (afterGen g forced p) := by
  unfold afterGen
  split
  · exact .refl p
  · next i _ =>
    have h := (effects_retotal i p).trans (effects_computeTargets i forced _)
    simp only []
    split
    · exact h.trans (effects_enterCondition ..)
    · exact h

theorem effects_toRunning (p : Part) : Effects p (toRunning p) := by
  unfold toRunning
  exact (Effects.plant (by simp)).trans ((Effects.fold _ (fun q i => effects_syncTimers i q) _ _).trans
    (Effects.fold _ (fun q i => effects_enterCondition i q) _ _))

theorem effects_judgeSettled (p : Part) : Effects p (judgeSettled p) := by
  unfold judgeSettled
  split
  · exact effects_toRunning p
  · exact .refl p

theorem effects_formIsland (old new : MeasCopy) (p : Part) (i : SecId) : Effects p (formIsland old new p i) :=
  .plant (by simp)

theorem effects_standIsland (old new : MeasCopy) (p : Part) (i : SecId) : Effects p (standIsland old new p i) :=
  .plant (by simp)

theorem effects_recheckStops (i : SecId) (p : Part) : Effects p (recheckStops i p) := by
  unfold recheckStops
  split
  · refine Effects.fold _ (fun q g => ?_) _ _
    split
    · exact effects_abortUnloading ..
    · exact .refl q
  · exact .refl p

theorem effects_ladderAtPartition (old new : MeasCopy) (p : Part) (i : SecId) : Effects p (ladderAtPartition old new p i) := by
  unfold ladderAtPartition
  split
  · exact .refl p
  · split
    · exact effects_enterLadder ..
    · split
      · exact effects_splitStep ..
      · exact .refl p

theorem effects_partitionChange (old : MeasCopy) (p : Part) : Effects p (partitionChange old p) := by
  unfold partitionChange
  generalize allSecs = secs, islandIds p = ids
  simp only []
  refine Effects.foldAfter (effects_ladderAtPartition _ _) _ ?_
  refine Effects.foldAfter (fun q i => effects_recheckStops i q) _ ?_
  refine Effects.foldAfter (fun q i => effects_enterSequencer i _ q) _ ?_
  refine Effects.foldAfter (fun q i => effects_computeTargets i none q) _ ?_
  refine Effects.foldAfter (fun q i => effects_enterMarks i q) _ ?_
  refine Effects.foldAfter (effects_standIsland _ _) _ ?_
  refine Effects.foldAfter (effects_formIsland _ _) _ ?_
  exact .report ..

theorem effects_tiesEvent (old : MeasCopy) (p : Part) : Effects p (tiesEvent old p) := by
  unfold tiesEvent
  simp only []
  split
  · exact effects_judgeSettled p
  · exact (effects_partitionChange old p).trans (effects_judgeSettled _)

theorem effects_goOnline (g : GenId) (p : Part) : Effects p (goOnline g p) :=
  (effects_changeState ..).trans ((effects_setSharing ..).trans ((Effects.report ..).trans (effects_afterGen ..)))

theorem effects_noteReady (g : GenId) (p : Part) : Effects p (noteReady g p) := by
  unfold noteReady
  split
  · exact (effects_setGen ..).trans ((Effects.report ..).trans (effects_afterGen ..))
  · exact effects_afterGen ..

theorem effects_stopCompleted (g : GenId) (p : Part) : Effects p (stopCompleted g p) :=
  (effects_changeState ..).trans ((Effects.command ..).trans ((Effects.report ..).trans
    ((effects_clearStandbyOf ..).trans (effects_afterGen ..))))

theorem effects_noticeGenState (g : GenId) (new former : GenState) (a b : Word) (p : Part) :
    Effects p (noticeGenState g new former a b p) :=
  .report ..

theorem effects_trip (g : GenId) (last : Nat) (p : Part) : Effects p (trip g last p) := by
  unfold trip
  split
  · exact .refl p
  · extract_lets snapshot former
    refine .trans ?_ (effects_requestStandby ..)
    refine .trans ?_ (effects_noticeGenState ..)
    refine .trans ?_ (.attention ..)
    refine .trans ?_ (effects_fastStep ..)
    refine .trans ?_ (effects_abortAll ..)
    exact (effects_changeState ..).trans (effects_afterGen ..)

theorem effects_moveByBreaker (g : GenId) (last : Nat) (p : Part) : Effects p (moveByBreaker g last p) := by
  unfold moveByBreaker
  split
  · split <;> first | exact effects_goOnline g p | exact effects_afterGen g none p
  · split
    · exact effects_noteReady g p
    · exact effects_trip g last p
    · split
      · exact effects_stopCompleted g p
      · exact effects_trip g last p
    all_goals exact effects_afterGen g none p

theorem effects_genMeasEvent (g : GenId) (old : MeasCopy) (p : Part) : Effects p (genMeasEvent g old p) := by
  unfold genMeasEvent
  split
  · exact (effects_moveByBreaker ..).trans (effects_judgeSettled _)
  · exact .refl p

theorem effects_refuseStop (g : GenId) (r : Nat) (m : Int) (p : Part) : Effects p (refuseStop g r m p) :=
  (Effects.report ..).trans (.attention ..)

theorem effects_enterUnloading (g : GenId) (p : Part) : Effects p (enterUnloading g p) := by
  unfold enterUnloading
  simp only []
  split
  · exact (effects_changeState ..).trans ((effects_giveOpenGen ..).trans ((Effects.report ..).trans (effects_afterGen ..)))
  · exact (effects_changeState ..).trans ((Effects.report ..).trans (effects_afterGen ..))

theorem effects_stopCheck (g : GenId) (p : Part) : Effects p (stopCheck g p) := by
  unfold stopCheck
  split
  · exact .refl p
  · split
    · simp only []
      split
      · exact effects_refuseStop ..
      · split
        · exact effects_refuseStop ..
        · exact effects_enterUnloading g p
    · exact effects_refuseStop ..

theorem effects_stopStarting (g : GenId) (p : Part) : Effects p (stopStarting g p) :=
  (effects_changeState ..).trans ((Effects.command ..).trans ((Effects.report ..).trans
    ((effects_clearStandbyOf ..).trans (effects_afterGen ..))))

theorem effects_clearFault (g : GenId) (p : Part) : Effects p (clearFault g p) :=
  (effects_changeState ..).trans ((Effects.report ..).trans ((effects_clearStandbyOf ..).trans (effects_afterGen ..)))

theorem effects_genAction (g : GenId) (a : Action) (p : Part) : Effects p (genAction g a p) := by
  unfold genAction
  split
  · exact .refl p
  · split
    · exact effects_startGenerator ..
    · exact effects_abortUnloading ..
    · exact effects_stopStarting g p
    · exact effects_stopCheck g p
    · exact effects_clearFault g p
    · exact effects_clearFault g p
    · exact .refl p

theorem effects_shareChange (g : GenId) (ch : Bool) (p : Part) : Effects p (shareChange g ch p) := by
  unfold shareChange
  split
  · split
    · exact .refl p
    · exact effects_computeTargets ..
  · exact .refl p

theorem effects_genReqEvent (g : GenId) (a : Action) (old : Word) (p : Part) : Effects p (genReqEvent g a old p) :=
  (effects_genAction g a p).trans (effects_shareChange ..)

theorem effects_genFixedEvent (g : GenId) (old : Word) (p : Part) : Effects p (genFixedEvent g old p) :=
  effects_shareChange ..

theorem effects_startTimeout (g : GenId) (p : Part) : Effects p (startTimeout g p) := by
  unfold startTimeout
  simp only []
  split
  · split
    · exact (effects_changeState ..).trans ((Effects.command ..).trans
        ((Effects.report ..).trans ((Effects.attention ..).trans (effects_afterGen ..))))
    · split
      · exact (effects_changeState ..).trans ((Effects.command ..).trans ((Effects.report ..).trans
          ((Effects.attention ..).trans ((effects_afterGen ..).trans (effects_requestStandby ..)))))
      · exact (effects_changeState ..).trans ((Effects.command ..).trans
          ((Effects.report ..).trans ((Effects.attention ..).trans (effects_afterGen ..))))
  · exact .refl p

theorem effects_rampDown (g : GenId) (p : Part) : Effects p (rampDown g p) := by
  unfold rampDown
  extract_lets e rate ramp p1
  split
  · have k : Effects p p1 := by
      unfold p1
      split
      · exact (effects_setGen ..).trans (effects_giveOpenGen ..)
      · exact effects_setGen ..
    split
    · exact k
    · exact k.trans (effects_computeTargets ..)
  · exact .refl p

theorem effects_openTimeout (g : GenId) (p : Part) : Effects p (openTimeout g p) := by
  unfold openTimeout
  simp only []
  split
  · exact (effects_changeState ..).trans ((Effects.command ..).trans ((Effects.report ..).trans
      ((Effects.attention ..).trans (effects_afterGen ..))))
  · exact .refl p

theorem effects_raiseCap (g : GenId) (p : Part) : Effects p (raiseCap g p) := by
  unfold raiseCap
  simp only []
  split
  · have h : ∀ (e : Sharing) (n : Nat), Effects p (setSharing g e { p with free := n }) := fun _ _ => .plant (by simp)
    split
    · exact h ..
    · exact (h ..).trans (effects_computeTargets ..)
  · exact .refl p

theorem effects_startDelayExpiry (i : SecId) (p : Part) : Effects p (startDelayExpiry i p) := by
  unfold startDelayExpiry
  split
  · split
    · exact (effects_setIsland ..).trans ((effects_requestStandby ..).trans (effects_syncTimers ..))
    · exact .refl p
  · exact .refl p
  · exact .refl p

theorem effects_verified (c : ConsId) (p : Part) (h : p.cons[c].state ≠ .stuck) : Effects p (verified c p) :=
  (effects_changeEntry _ _ _ (by simp)).trans ((effects_move _ _ _ (by simpa using h) (by simp)).trans
    (effects_updateCreditOf ..))

theorem effects_reclose (c : ConsId) (p : Part) (h : p.cons[c].state ≠ .stuck) : Effects p (reclose c p) := by
  unfold reclose
  split
  · exact .refl p
  · exact (effects_changeEntry _ _ _ (by simp)).trans ((effects_updateCreditOf ..).trans
      ((effects_move _ _ _ (by simpa using h) (by simp)).trans
      ((Effects.command ..).trans ((Effects.report ..).trans (.attention ..)))))

theorem effects_consMeasEvent (c : ConsId) (p : Part) : Effects p (consMeasEvent c p) := by
  unfold consMeasEvent
  split
  · exact .refl p
  · split
    · next h _ => exact effects_move _ _ _ (by rw [h]; decide) (by simp)
    · next h _ => exact effects_move _ _ _ (by rw [h]; decide) (by simp)
    · next h _ => exact effects_verified c p (by rw [h]; decide)
    · next h _ => exact effects_reclose c p (by rw [h]; decide)
    · next h _ => exact effects_move _ _ _ (by rw [h]; decide) (by simp)
    · exact .refl p

theorem effects_escalate (c : ConsId) (credit : Nat) (p : Part) : Effects p (escalate c credit p) := by
  unfold escalate
  split
  · exact .refl p
  · split
    · exact effects_shedStep ..
    · exact .refl p

theorem effects_stuckVerdict (c : ConsId) (e : ShedEntry) (p : Part) : Effects p (stuckVerdict c e p) := by
  refine .trans ⟨?_, ?_⟩ ((Effects.report ..).trans ((Effects.attention ..).trans (effects_escalate ..)))
  · exact (reports_removeEntry ..).trans ((effects_updateCreditOf ..).reports.trans
      ((reports_setConsState ..).trans (reports_setCmd ..)))
  · refine Guards.closeCmd (c := c) _ _ _ ((guards_removeEntry c p).trans
      ((effects_updateCreditOf ..).guards.weaken.trans (guards_setConsState c _ _))) ?_ ?_ ?_ ?_
    · simp [hasEntry]
    · simp
    · simp [reqOpen]
    · simp

theorem effects_verifyReached (c : ConsId) (p : Part) : Effects p (verifyReached c p) := by
  unfold verifyReached
  split
  · exact .refl p
  · split
    · split
      · exact effects_stuckVerdict ..
      · exact .refl p
    · exact .refl p

theorem effects_restoreReached (c : ConsId) (p : Part) : Effects p (restoreReached c p) := by
  unfold restoreReached
  split
  · next h =>
    exact (effects_move _ _ _ (by rw [h.1]; decide) (by simp)).trans ((Effects.report ..).trans (.attention ..))
  · exact .refl p

theorem effects_releaseConsumer (c : ConsId) (e : ShedEntry) (p : Part) : Effects p (releaseConsumer c e p) := by
  unfold releaseConsumer
  simp only []
  split
  · refine .trans ⟨?_, ?_⟩ ((Effects.command ..).trans ((Effects.report ..).trans (.attention ..)))
    · exact (reports_removeEntry ..).trans ((reports_setCons ..).trans (reports_setCmd ..))
    · refine Guards.closeCmd (c := c) _ _ _ ((guards_removeEntry c p).trans (guards_setCons c _ _)) ?_ ?_ ?_ ?_
      · simp [hasEntry]
      · simp
      · simp
      · simp
  · refine .trans ⟨?_, ?_⟩ ((Effects.report ..).trans (.attention ..))
    · exact (reports_removeEntry ..).trans ((reports_setConsState ..).trans (reports_setCmd ..))
    · refine Guards.closeCmd (c := c) _ _ _ ((guards_removeEntry c p).trans (guards_setConsState c _ _)) ?_ ?_ ?_ ?_
      · simp [hasEntry]
      · simp
      · simp
      · simp

theorem effects_releaseDrive (d : DriveId) (e : ShedEntry) (p : Part) : Effects p (releaseDrive d e p) :=
  Effects.trans ⟨reports_removeEntry .., guards_removeDrive d p⟩ ((effects_setDrive ..).trans ((effects_writeDriveLimit ..).trans
    ((Effects.report ..).trans (.attention ..))))

theorem effects_releaseEntry (e : ShedEntry) (p : Part) : Effects p (releaseEntry e p) := by
  unfold releaseEntry
  split
  · exact effects_releaseConsumer ..
  · exact effects_releaseDrive ..

theorem effects_releaseHoldExpiry (i : SecId) (p : Part) : Effects p (releaseHoldExpiry i p) := by
  unfold releaseHoldExpiry
  split
  · exact .refl p
  · split
    · simp only []
      split
      · exact (effects_setIsland ..).trans (effects_syncTimers ..)
      · exact (effects_setIsland ..).trans ((effects_releaseEntry ..).trans (effects_syncTimers ..))
    · exact .refl p

theorem effects_overloadExpiry (i : SecId) (p : Part) : Effects p (overloadExpiry i p) := by
  unfold overloadExpiry
  split
  · simp only []
    split
    · exact (effects_setIsland ..).trans ((effects_slowStep ..).trans (effects_syncTimers ..))
    · exact (effects_setIsland ..).trans (effects_syncTimers ..)
  · exact .refl p

theorem effects_driveReqEvent (d : DriveId) (p : Part) : Effects p (driveReqEvent d p) := by
  unfold driveReqEvent
  split
  · exact effects_writeDriveLimit d p
  · exact .refl p

/-- An acknowledgement of a consumer that has no entry. -/
theorem effects_acknowledge (c : ConsId) (p : Part)
    (h : p.cons[c].state = .stuck ∨ p.cons[c].state = .restoring → hasEntry p (.cons c) = false) :
    Effects p (acknowledge c p) := by
  unfold acknowledge
  split
  · next hs =>
    refine ⟨(reports_setConsState ..).trans (reports_setCmd ..), ?_⟩
    refine Guards.closeCmd (c := c) _ _ _ (guards_setConsState c _ p) ?_ ?_ ?_ ?_
    · simpa [hasEntry] using h (.inl hs)
    · simp only [setConsState_cons, setAt_same]
      split <;> rfl
    · simp
    · simp
  · exact .refl p

/-- Reconciliation of a consumer that is not on the shed list where it is STUCK or RESTORING. -/
theorem effects_reconcile (c : ConsId) (p : Part)
    (h : p.cons[c].state = .stuck ∨ p.cons[c].state = .restoring → hasEntry p (.cons c) = false) :
    Effects p (reconcile c p) := by
  unfold reconcile
  split
  · exact .refl p
  · refine ⟨reports_setCmd .., Guards.closeCmd (c := c) _ _ _ (.refl _ p) rfl rfl ?_ ?_⟩
    · intro hg
      have : isGuarded p c = true := by simpa [isGuarded] using hg
      simp [this, reqOpen]
    · intro he
      refine ⟨beq_eq_false_iff_ne.mpr fun hs => ?_, fun hs => ?_⟩
      · rw [h (.inl hs)] at he; exact absurd he (by simp)
      · rw [h (.inr hs)] at he; exact absurd he (by simp)

theorem effects_freshnessExpiry (r : RecordId) (p : Part) : Effects p (freshnessExpiry r p) := by
  unfold freshnessExpiry
  extract_lets m p1
  split
  · have h : Effects p p1 := (effects_setCopy r _ p).trans ((Effects.attention .stale _).trans (.report ..))
    split
    · exact h.trans (effects_updateOf ..)
    · exact h
    · exact h
    · exact h
  · exact .refl p

theorem effects_noticePlan (k : NoticeKind) (cause : Nat) (a b : Word) (p : Part) : Effects p (noticePlan k cause a b p) :=
  (Effects.report ..).trans (.attention ..)

theorem effects_failLoad (r : LoadFailure) (a b : Nat) (p : Part) : Effects p (failLoad r a b p) :=
  (effects_setLoader ..).trans (effects_noticePlan ..)

theorem effects_enterDescriptor (w : Walk) (p : Part) : Effects p (enterDescriptor w p) := by
  unfold enterDescriptor
  split
  · exact effects_setLoader ..
  · exact effects_failLoad ..

theorem effects_startLoad (w : Word) (p : Part) : Effects p (startLoad w p) :=
  (Effects.plant (by simp)).trans (effects_enterDescriptor ..)

theorem effects_finishLoad (w : Walk) (p : Part) : Effects p (finishLoad w p) := by
  unfold finishLoad
  split
  · exact effects_failLoad ..
  · exact (effects_setLoader ..).trans (effects_noticePlan ..)

theorem effects_finishRun (w : Walk) (d : Descriptor) (p : Part) : Effects p (finishRun w d p) := by
  unfold finishRun
  split
  · exact effects_finishLoad ..
  · split
    · exact effects_failLoad ..
    · exact effects_enterDescriptor ..

theorem effects_finishDescriptor (w : Walk) (ws : List Word) (p : Part) : Effects p (finishDescriptor w ws p) := by
  unfold finishDescriptor
  split
  · exact effects_failLoad ..
  · split
    · exact effects_failLoad ..
    · exact effects_setLoader ..

theorem effects_takeRunWord (w : Walk) (d : Descriptor) (n : Nat) (x : Word) (p : Part) : Effects p (takeRunWord w d n x p) := by
  unfold takeRunWord
  simp only []
  have h : ∀ pl : Plan, Effects p { p with plans := { p.plans with staging := pl } } := fun _ => .plant (by simp)
  split <;> split <;> first
    | exact effects_finishRun ..
    | exact effects_setLoader ..
    | exact (h _).trans (effects_finishRun ..)
    | exact (h _).trans (effects_setLoader ..)

theorem effects_loaderWord (w : Walk) (x : Word) (good : Bool) (p : Part) : Effects p (loaderWord w x good p) := by
  unfold loaderWord
  split
  · split
    · simp only []
      split
      · exact effects_setLoader ..
      · exact effects_finishDescriptor ..
    · exact effects_takeRunWord ..
  · exact effects_failLoad ..

theorem effects_activateDrive (old : Plan) (p : Part) (d : DriveId) : Effects p (activateDrive old p d) := by
  unfold activateDrive
  split
  · exact .refl p
  · simp only []
    split
    · exact (effects_changeEntry _ _ _ (by simp)).trans ((effects_setDrive ..).trans (effects_writeDriveLimit ..))
    · split
      · exact effects_writeDriveLimit ..
      · exact .refl p

theorem effects_activatePlan (p : Part) : Effects p (activatePlan p) := by
  unfold activatePlan
  refine (Effects.plant (by simp)).trans ((effects_noticePlan ..).trans ((effects_activatePartState _).trans
    ((Effects.fold _ (fun q i => effects_setIsland ..) _ _).trans ((Effects.fold _ (effects_activateDrive _) _ _).trans
    ((Effects.fold _ (fun q i => effects_retotal i q) _ _).trans
    ((Effects.fold _ (fun q i => effects_computeTargets i none q) _ _).trans
    ((Effects.fold _ (fun q i => ?_) _ _).trans (effects_judgeSettled _))))))))
  split
  · exact effects_enterCondition i q
  · exact .refl q

theorem effects_requestActivation (p : Part) : Effects p (requestActivation p) := by
  unfold requestActivation
  split
  · exact (effects_setKey ..).trans (effects_noticePlan ..)
  · exact (effects_activatePlan p).trans (effects_setKey ..)

theorem effects_planLoadEvent (w : Word) (p : Part) : Effects p (planLoadEvent w p) :=
  (Effects.plant (by simp)).trans ((effects_setKey ..).trans (effects_startLoad ..))

theorem effects_keyEvent (w : Word) (p : Part) : Effects p (keyEvent w p) :=
  (Effects.plant (by simp)).trans (effects_setKey ..)

theorem effects_activateEvent (w : Word) (p : Part) : Effects p (activateEvent w p) :=
  (Effects.plant (by simp)).trans (effects_requestActivation _)

theorem effects_settlingExpiry (p : Part) : Effects p (settlingExpiry p) := by
  unfold settlingExpiry
  split
  · exact effects_toRunning p
  · exact .refl p

theorem effects_refuse (port : Port) (off : Nat) (r : Reason) (p : Part) : Effects p (refuse port off r p) :=
  (Effects.plant (by simp)).trans ((Effects.attention ..).trans (.report ..))

theorem effects_parityFailure (port : Port) (a : WordAddr) (p : Part) : Effects p (parityFailure port a p) :=
  (Effects.attention ..).trans (.report ..)

theorem sqRemove_entry_same (c : ConsId) (q : List SqEntry) : cmdEntry (sqRemove (.consCmd c) q) c = none := by
  simp [cmdEntry, sqRemove]

theorem sqRemove_entry_other (c x : ConsId) (h : x ≠ c) (q : List SqEntry) :
    cmdEntry (sqRemove (.consCmd c) q) x = cmdEntry q x := by
  unfold cmdEntry sqRemove
  induction q with
  | nil => rfl
  | cons e q ih =>
    by_cases he : e.word = .consCmd c
    · have hn : (e.word == .consCmd x) = false := by rw [he]; simpa using fun k => h k.symm
      rw [List.filter_cons_of_neg (by simp [he]), ih, List.find?_cons, hn]
    · rw [List.filter_cons_of_pos (by simp [he]), List.find?_cons, List.find?_cons, ih]

/-- A CMD write at its grant keeps the law of every consumer; the written consumer's word then stands in the store queue
with the copy's value, or is the value stored and the copy's (R142). -/
theorem cmdEvent_guards (c : ConsId) (w : Word) (ack masked : Bool) (p : Part) (h : p.guardLaw) :
    (cmdEvent c w ack masked p).guardLaw ∧ Guards (· ≠ c) p (cmdEvent c w ack masked p) ∧
      ((cmdEntry (cmdEvent c w ack masked p).sq c).map SqEntry.data = some (cmdEvent c w ack masked p).cmd[c] ∨
        (cmdEntry (cmdEvent c w ack masked p).sq c = none ∧ (cmdEvent c w ack masked p).cmd[c] = w)) := by
  have h1 : Guards (· ≠ c) p { p with sq := sqRemove (.consCmd c) p.sq, cmd := setAt p.cmd c w } :=
    .others (fun x hx => sqRemove_entry_other c x hx p.sq) (fun x hx => setAt_other _ _ (Ne.symm hx))
      (fun _ _ => rfl) fun _ _ => rfl
  have n1 := (h c).2
  unfold cmdEvent
  generalize hp1 : ({ p with sq := sqRemove (.consCmd c) p.sq, cmd := setAt p.cmd c w } : Part) = p1 at h1
  have s1 : p1.cons[c].state = .stuck ∨ p1.cons[c].state = .restoring → hasEntry p1 (.cons c) = false := by
    subst hp1; exact n1
  have e1 : cmdEntry p1.sq c = none ∧ p1.cmd[c] = w := by
    subst hp1
    exact ⟨sqRemove_entry_same c p.sq, setAt_same ..⟩
  simp only []
  have h2 : Effects p1 (if ack then acknowledge c p1 else p1) := by
    split
    · exact effects_acknowledge c p1 s1
    · exact .refl p1
  have s2 : (if ack then acknowledge c p1 else p1).cons[c].state = .stuck ∨
      (if ack then acknowledge c p1 else p1).cons[c].state = .restoring →
      hasEntry (if ack then acknowledge c p1 else p1) (.cons c) = false := by
    split
    · unfold acknowledge
      split
      · next hs => intro _; simpa [hasEntry] using s1 (.inl hs)
      · exact s1
    · exact s1
  generalize (if ack then acknowledge c p1 else p1) = p2 at h2 s2
  have h3 : Effects p2 (if masked then setAtt .closeMasked p2 else p2) := by
    split
    · exact .attention ..
    · exact .refl p2
  have s3 : (if masked then setAtt .closeMasked p2 else p2).cons[c].state = .stuck ∨
      (if masked then setAtt .closeMasked p2 else p2).cons[c].state = .restoring →
      hasEntry (if masked then setAtt .closeMasked p2 else p2) (.cons c) = false := by
    split
    · exact s2
    · exact s2
  generalize (if masked then setAtt .closeMasked p2 else p2) = p3 at h3 s3
  have h13 : Effects p1 (reconcile c p3) := (h2.trans h3).trans (effects_reconcile c p3 s3)
  have hall : Guards (· ≠ c) p (reconcile c p3) := h1.trans h13.guards.weaken
  refine ⟨fun x => ?_, hall, ?_⟩
  · by_cases hx : x = c
    · subst hx
      unfold reconcile
      split
      · next ha => exact ⟨ha, s3⟩
      · exact lawAt_setCmd x _ p3 (fun hg => by rw [if_pos hg]; rfl) s3
    · exact (hall x hx).1 (h x)
  · exact (h13.guards c trivial).2.imp_right fun k => ⟨k.1.trans e1.1, k.2.1.trans e1.2⟩

end Sys2Proof.Machine
end

