-- ==== Sys2Proof/Laws/Lists.lean ====
section
/-! SUPPORT. What a post's start, a report and a command keep of the list unit and the attention word, and what follows
for every event of the plant by one induction over what it reports. -/

namespace Sys2Proof.Machine

/-! ## Attention (R178) -/

theorem attRises_refl (p : Part) : attRises p p := fun _ h => h

theorem attRises_trans {p q r : Part} (h : attRises p q) (k : attRises q r) : attRises p r :=
  fun n hn => k n (h n hn)

theorem attRises_of_eq {p q : Part} (h : q.att = p.att) : attRises p q := fun n hn => by rw [h]; exact hn

theorem attRises_setAtt (b : AttBit) (p : Part) : attRises p (setAtt b p) := fun n hn => by
  simp [setAtt, attWord, BitVec.getLsbD_or, hn]

/-! ## The start of a post (R161) -/

/-- Everything the start of a post can do to the list unit. -/
theorem tryPost_lu (ch : Chan) (p : Part) :
    (∀ other, other ≠ ch → getChan (tryPost ch p).lu other = getChan p.lu other) ∧
    (getChan (tryPost ch p).lu ch = getChan p.lu ch ∨
      (canPost (getChan p.lu ch) = true ∧ ∃ po, po.frame = ringFront (getChan p.lu ch).spare ∧ po.made = 0 ∧
        getChan (tryPost ch p).lu ch = beginPost (getChan p.lu ch) po)) ∧
    (tryPost ch p).lu.pendingCmds <:+ p.lu.pendingCmds ∧ (tryPost ch p).lu.notices <:+ p.lu.notices ∧
    (tryPost ch p).lu.spareMirror = p.lu.spareMirror ∧ (tryPost ch p).lu.lastServed = p.lu.lastServed := by
  cases ch with
  | command =>
    simp only [tryPost, tryPostCommand, getChan]
    split
    · next hc =>
      split
      · simp [List.suffix_rfl]
      · next c rest hp =>
        have hs : rest <:+ p.lu.pendingCmds := by rw [hp]; exact List.suffix_cons ..
        split <;>
          exact ⟨fun other ho => by cases other <;> simp_all [setAtt], Or.inr ⟨hc, _, rfl, rfl, rfl⟩, hs, List.suffix_rfl, rfl, rfl⟩
    · simp [List.suffix_rfl]
  | notice =>
    simp only [tryPost, tryPostNotice, getChan]
    split
    · next hc =>
      split
      · simp [List.suffix_rfl]
      · next c rest hp =>
        have hs : rest <:+ p.lu.notices := by rw [hp]; exact List.suffix_cons ..
        exact ⟨fun other ho => by cases other <;> simp_all, Or.inr ⟨hc, _, rfl, rfl, rfl⟩, List.suffix_rfl, hs, rfl, rfl⟩
    · simp [List.suffix_rfl]

theorem tryPost_att (ch : Chan) (p : Part) :
    attRises p (tryPost ch p) ∧ (tryPost ch p).att.mask = p.att.mask ∧
      (tryPost ch p).att.snapshot = p.att.snapshot := by
  cases ch with
  | command =>
    simp only [tryPost, tryPostCommand]
    repeat' split
    all_goals first
      | exact ⟨attRises_refl p, rfl, rfl⟩
      | exact ⟨attRises_of_eq rfl, rfl, rfl⟩
      | exact ⟨attRises_trans (attRises_of_eq rfl) (attRises_setAtt _ _), rfl, rfl⟩
  | notice =>
    simp only [tryPost, tryPostNotice]
    repeat' split
    all_goals exact ⟨attRises_refl p, rfl, rfl⟩

/-- A property of a channel that the start of a post keeps is kept by `tryPost` in both channels. -/
theorem tryPost_keeps (P : Channel → Prop)
    (h : ∀ c po, canPost c = true → po.frame = ringFront c.spare → P c → P (beginPost c po)) (ch : Chan) (p : Part)
    (hp : ∀ x, P (getChan p.lu x)) (x : Chan) : P (getChan (tryPost ch p).lu x) := by
  obtain ⟨ho, hc, -⟩ := tryPost_lu ch p
  by_cases hx : x = ch
  · subst hx
    rcases hc with hc | ⟨hcan, po, hf, -, hc⟩
    · rw [hc]; exact hp x
    · rw [hc]; exact h _ po hcan hf (hp x)
  · rw [ho x hx]; exact hp x

/-! ## Reports and commands -/

theorem queueNotice_keeps (P : Channel → Prop)
    (h : ∀ c po, canPost c = true → po.frame = ringFront c.spare → P c → P (beginPost c po)) (n : Notice) (p : Part)
    (hp : ∀ x, P (getChan p.lu x)) (x : Chan) : P (getChan (queueNotice n p).lu x) := by
  unfold queueNotice
  split
  · exact hp x
  · refine tryPost_keeps P h .notice { p with lu := { p.lu with notices := p.lu.notices ++ [n] } } (fun y => ?_) x
    cases y
    · exact hp .command
    · exact hp .notice

theorem giveCommand_keeps (P : Channel → Prop)
    (h : ∀ c po, canPost c = true → po.frame = ringFront c.spare → P c → P (beginPost c po)) (c : Command) (p : Part)
    (hp : ∀ x, P (getChan p.lu x)) (x : Chan) : P (getChan (giveCommand c p).lu x) := by
  unfold giveCommand
  refine tryPost_keeps P h .command _ (fun y => ?_) x
  split <;> cases y <;> first | exact hp .command | exact hp .notice

theorem queueNotice_att (n : Notice) (p : Part) :
    attRises p (queueNotice n p) ∧ (queueNotice n p).att.mask = p.att.mask ∧
      (queueNotice n p).att.snapshot = p.att.snapshot := by
  unfold queueNotice
  split
  · exact ⟨attRises_setAtt _ _, rfl, rfl⟩
  · have := tryPost_att .notice { p with lu := { p.lu with notices := p.lu.notices ++ [n] } }
    exact ⟨attRises_trans (attRises_of_eq rfl) this.1, this.2⟩

theorem giveCommand_att (c : Command) (p : Part) :
    attRises p (giveCommand c p) ∧ (giveCommand c p).att.mask = p.att.mask ∧
      (giveCommand c p).att.snapshot = p.att.snapshot := by
  unfold giveCommand
  simp only []
  split
  · obtain ⟨h, k⟩ := tryPost_att .command
      (setAtt .commandBlocked { p with lu := { p.lu with pendingCmds := cmdPut c p.lu.pendingCmds } })
    exact ⟨attRises_trans (attRises_trans (attRises_of_eq rfl) (attRises_setAtt _ _)) h, k⟩
  · obtain ⟨h, k⟩ := tryPost_att .command { p with lu := { p.lu with pendingCmds := cmdPut c p.lu.pendingCmds } }
    exact ⟨attRises_trans (attRises_of_eq rfl) h, k⟩

/-! ## The queues (R8, R153, R157, R160) -/

theorem sqPut_words (w : SqWord) (d : Word) (q : List SqEntry) (x : SqWord) :
    x ∈ (sqPut w d q).map SqEntry.word ↔ x = w ∨ x ∈ q.map SqEntry.word := by
  induction q with
  | nil => simp [sqPut]
  | cons e q ih =>
    unfold sqPut
    split
    · next h => simp [h]
    · simp only [List.map_cons, List.mem_cons, ih]
      tauto

theorem sqPut_nodup (w : SqWord) (d : Word) (q : List SqEntry) (h : (q.map SqEntry.word).Nodup) :
    ((sqPut w d q).map SqEntry.word).Nodup := by
  induction q with
  | nil => simp [sqPut]
  | cons e q ih =>
    unfold sqPut
    simp only [List.map_cons, List.nodup_cons] at h
    split
    · next he => simpa [← he] using h
    · next he =>
      simp only [List.map_cons, List.nodup_cons]
      refine ⟨?_, ih h.2⟩
      rw [sqPut_words]
      rintro (hw | hw)
      · exact he hw
      · exact h.1 hw

theorem sqRemove_nodup (w : SqWord) (q : List SqEntry) (h : (q.map SqEntry.word).Nodup) :
    ((sqRemove w q).map SqEntry.word).Nodup :=
  List.Nodup.sublist (List.Sublist.map _ List.filter_sublist) h

theorem cmdPut_targets (c : Command) (q : List Command) (x : CmdTarget) :
    x ∈ (cmdPut c q).map Command.target ↔ x = c.target ∨ x ∈ q.map Command.target := by
  induction q with
  | nil => simp [cmdPut]
  | cons e q ih =>
    unfold cmdPut
    split
    · next h => simp [h]
    · simp only [List.map_cons, List.mem_cons, ih]
      tauto

theorem cmdPut_nodup (c : Command) (q : List Command) (h : (q.map Command.target).Nodup) :
    ((cmdPut c q).map Command.target).Nodup := by
  induction q with
  | nil => simp [cmdPut]
  | cons e q ih =>
    unfold cmdPut
    simp only [List.map_cons, List.nodup_cons] at h
    split
    · next he => simpa [← he] using h
    · next he =>
      simp only [List.map_cons, List.nodup_cons]
      refine ⟨?_, ih h.2⟩
      rw [cmdPut_targets]
      rintro (hw | hw)
      · exact he hw
      · exact h.1 hw

theorem tryPost_queues (ch : Chan) (p : Part) (h : p.queuesBounded) : (tryPost ch p).queuesBounded := by
  obtain ⟨-, -, hc, hn, hm, -⟩ := tryPost_lu ch p
  obtain ⟨h1, h2, h3, h4⟩ := h
  refine ⟨by simpa using h1, List.Nodup.sublist (List.Sublist.map _ hc.sublist) h2, by rw [hm]; exact h3, ?_⟩
  exact le_trans hn.length_le h4

theorem queueNotice_queues (n : Notice) (p : Part) (h : p.queuesBounded) : (queueNotice n p).queuesBounded := by
  unfold queueNotice
  split
  · exact h
  · next hl =>
    refine tryPost_queues .notice _ ⟨h.1, h.2.1, h.2.2.1, ?_⟩
    simp
    omega

theorem giveCommand_queues (c : Command) (p : Part) (h : p.queuesBounded) : (giveCommand c p).queuesBounded := by
  unfold giveCommand
  simp only []
  split <;> exact tryPost_queues .command _ ⟨h.1, cmdPut_nodup _ _ h.2.1, h.2.2.1, h.2.2.2⟩

/-! ## Every event of the plant -/

theorem Reports.base {p q : Part} (h : Reports p q) : q.base = p.base ∧ q.ms = p.ms := by
  induction h with
  | refl => exact ⟨rfl, rfl⟩
  | trans _ _ h k => exact ⟨k.1.trans h.1, k.2.trans h.2⟩
  | plant h => exact ⟨h.1, h.2.1⟩
  | attention b p => exact ⟨rfl, rfl⟩
  | report n p => simp
  | command c p => simp
  | put w d p => exact ⟨rfl, rfl⟩

/-- Attention bits only rise, and the mask and the snapshot stand. -/
theorem Reports.attention_rises {p q : Part} (h : Reports p q) :
    attRises p q ∧ q.att.mask = p.att.mask ∧ q.att.snapshot = p.att.snapshot := by
  induction h with
  | refl p => exact ⟨attRises_refl p, rfl, rfl⟩
  | trans _ _ h k => exact ⟨attRises_trans h.1 k.1, k.2.1.trans h.2.1, k.2.2.trans h.2.2⟩
  | plant h => exact ⟨attRises_of_eq h.2.2.2.2, by rw [h.2.2.2.2], by rw [h.2.2.2.2]⟩
  | attention b p => exact ⟨attRises_setAtt b p, rfl, rfl⟩
  | report n p => exact queueNotice_att n p
  | command c p => exact giveCommand_att c p
  | put w d p => exact ⟨attRises_of_eq rfl, rfl, rfl⟩

/-- A property of a channel that the start of a post keeps is kept by every event, in both channels. -/
theorem Reports.channels (P : Channel → Prop)
    (hP : ∀ c po, canPost c = true → po.frame = ringFront c.spare → P c → P (beginPost c po)) {p q : Part}
    (h : Reports p q) : (∀ x, P (getChan p.lu x)) → ∀ x, P (getChan q.lu x) := by
  induction h with
  | refl => exact id
  | trans _ _ h k => exact fun hp => k (h hp)
  | plant h => intro hp x; rw [h.2.2.2.1]; exact hp x
  | attention b p => exact fun hp x => hp x
  | report n p => exact queueNotice_keeps P hP n p
  | command c p => exact giveCommand_keeps P hP c p
  | put w d p => exact fun hp x => hp x

theorem Reports.queues {p q : Part} (h : Reports p q) : p.queuesBounded → q.queuesBounded := by
  induction h with
  | refl => exact id
  | trans _ _ h k => exact fun hp => k (h hp)
  | plant h =>
    intro hp
    unfold Part.queuesBounded at *
    rw [h.2.2.1, h.2.2.2.1]
    exact hp
  | attention b p => exact id
  | report n p => exact queueNotice_queues n p
  | command c p => exact giveCommand_queues c p
  | put w d p => exact fun hp => ⟨sqPut_nodup _ _ _ hp.1, hp.2⟩

theorem Effects.base {p q : Part} (h : Effects p q) : q.base = p.base ∧ q.ms = p.ms := h.reports.base

theorem Effects.attention_rises {p q : Part} (h : Effects p q) :
    attRises p q ∧ q.att.mask = p.att.mask ∧ q.att.snapshot = p.att.snapshot := h.reports.attention_rises

theorem Effects.channels (P : Channel → Prop)
    (hP : ∀ c po, canPost c = true → po.frame = ringFront c.spare → P c → P (beginPost c po)) {p q : Part}
    (h : Effects p q) : (∀ x, P (getChan p.lu x)) → ∀ x, P (getChan q.lu x) := h.reports.channels P hP

theorem Effects.queues {p q : Part} (h : Effects p q) : p.queuesBounded → q.queuesBounded := h.reports.queues

/-- An event keeps the copies of the CMD words in agreement (R142). -/
theorem Effects.guardLaw {p q : Part} (h : Effects p q) (k : p.guardLaw) : q.guardLaw :=
  fun c => (h.guards c trivial).1 (k c)

/-- A guarded consumer's word after an event: in the store queue with the copy's value, or as it stood, guarded before. -/
theorem Effects.cmdWord {p q : Part} (h : Effects p q) (c : ConsId) (hg : isGuarded q c = true) :
    (cmdEntry q.sq c).map SqEntry.data = some q.cmd[c] ∨
      (cmdEntry q.sq c = cmdEntry p.sq c ∧ q.cmd[c] = p.cmd[c] ∧ isGuarded p c = true) :=
  (h.guards c trivial).2.imp_right fun k => ⟨k.1, k.2.1, k.2.2 hg⟩

/-! ## The ring law and the frames law at the start of a post (R161) -/

theorem ringLaw_beginPost (c : Channel) (po : Post) (h : canPost c = true) (k : ringLaw c) :
    ringLaw (beginPost c po) := by
  simp only [canPost, Bool.and_eq_true, Option.isNone_iff_eq_none, decide_eq_true_eq] at h
  obtain ⟨k1, k2⟩ := k
  simp only [h.1, Option.isSome_none, flag] at k2
  simp only [ringLaw, beginPost, ringRemove, Option.isSome_some, flag, BitVec.toNat_add, Fin.ofNat]
  refine ⟨?_, ?_⟩
  · simp only [k1]
    simp
  · simp at k2 ⊢
    omega

theorem ringList_remove (r : Ring) (h : 0 < r.count) : ringList r = ringFront r :: ringList (ringRemove r) := by
  obtain ⟨n, hn⟩ : ∃ n, r.count = n + 1 := ⟨r.count - 1, by omega⟩
  simp only [ringList, ringRemove, hn, List.range_succ_eq_map, List.map_cons, List.map_map, ringFront]
  congr 1
  · congr 1
    ext
    simp [Fin.ofNat]
  · simp only [Nat.add_sub_cancel]
    apply List.map_congr_left
    intro k _
    simp only [Function.comp]
    congr 1
    ext
    simp [Fin.ofNat]
    omega

theorem framesLaw_beginPost (c : Channel) (po : Post) (h : canPost c = true) (hf : po.frame = ringFront c.spare)
    (k : framesLaw c) : framesLaw (beginPost c po) := by
  simp only [canPost, Bool.and_eq_true, Option.isNone_iff_eq_none, decide_eq_true_eq] at h
  obtain ⟨k1, k2, k3⟩ := k
  have hl := ringList_remove c.spare h.2
  rw [hl] at k1
  simp only [List.nodup_cons] at k1
  refine ⟨k1.2, k2, fun f => ?_⟩
  have hk := k3 f
  rw [hl] at hk
  have hfill : c.frames[f] ≠ .filling := by
    rw [ne_eq, hk.2.2]
    simp [h.1]
  have hspare : c.frames[ringFront c.spare] = .spare := by
    rw [(k3 _).1, hl]
    simp
  by_cases hff : f = ringFront c.spare
  · subst hff
    simp only [beginPost, setAt_same]
    have hr : ringFront c.spare ∉ ringList c.ready := by
      rw [← (k3 _).2.1, hspare]
      simp
    simp [k1.1, hr, hf]
  · have he : (beginPost c po).frames[f] = c.frames[f] := by
      simp only [beginPost]
      exact setAt_other _ _ (Ne.symm hff)
    rw [he]
    refine ⟨?_, hk.2.1, ?_⟩
    · rw [hk.1]
      simp [hff, beginPost]
    · simp only [hfill, false_iff]
      rintro ⟨po', h1, h2⟩
      simp only [beginPost, Option.some.injEq] at h1
      subst h1
      exact hff (h2.symm.trans hf)

end Sys2Proof.Machine
end

