-- ==== Sys2Proof/Laws/Channels.lean ====
section
/-! SUPPORT. The ring law and the frames law at a GIVE, a TAKE and the end of a post (R154, R156, R162). -/

namespace Sys2Proof.Machine

/-! ## Rings (R152) -/

theorem ringList_length (r : Ring) : (ringList r).length = r.count := by simp [ringList]

theorem ringList_lt (r : Ring) (h : (ringList r).Nodup) (f : FrameId) (hf : f ∉ ringList r) : r.count < 64 := by
  have h1 : (f :: ringList r).Nodup := List.nodup_cons.mpr ⟨hf, h⟩
  have h2 := h1.length_le_card
  simp [ringList_length] at h2
  omega

theorem ringList_append (r : Ring) (f : FrameId) (h : r.count < 64) :
    ringList (ringAppend r f) = ringList r ++ [f] := by
  simp only [ringList, ringAppend, List.range_succ, List.map_append, List.map_cons, List.map_nil]
  congr 1
  · apply List.map_congr_left
    intro k hk
    simp only [List.mem_range] at hk
    apply setAt_other
    intro he
    simp only [ringTail, Fin.ofNat, Fin.mk.injEq] at he
    omega
  · congr 1
    exact setAt_same r.slots (ringTail r) f

/-- A channel with a frame at the tail of its spare ring, from OUT (R154). -/
theorem framesLaw_give (c : Channel) (f : FrameId) (hf : c.frames[f] = .out) (k : framesLaw c) :
    framesLaw { c with frames := setAt c.frames f .spare, spare := ringAppend c.spare f } := by
  obtain ⟨k1, k2, k3⟩ := k
  have hn : f ∉ ringList c.spare := by rw [← (k3 f).1, hf]; simp
  have hr : f ∉ ringList c.ready := by rw [← (k3 f).2.1, hf]; simp
  have hfill : ¬ ∃ po, c.post = some po ∧ po.frame = f := by rw [← (k3 f).2.2, hf]; simp
  have hl := ringList_append c.spare f (ringList_lt _ k1 f hn)
  refine ⟨?_, k2, fun g => ?_⟩
  · rw [hl]
    exact List.nodup_append.mpr ⟨k1, by simp, by simpa using fun a ha (e : a = f) => hn (e ▸ ha)⟩
  · rw [hl]
    by_cases hg : g = f
    · subst hg
      simp [hr, hfill]
    · have he : (setAt c.frames f .spare)[g] = c.frames[g] := setAt_other _ _ (Ne.symm hg)
      rw [he]
      simpa [hg] using k3 g

theorem ringLaw_give (c : Channel) (f : FrameId) (k : ringLaw c) :
    ringLaw { c with frames := setAt c.frames f .spare, spare := ringAppend c.spare f } := k

/-- A channel whose ready ring has lost its head, now OUT (R156). -/
theorem framesLaw_take (c : Channel) (hc : c.ready.count ≠ 0) (k : framesLaw c) :
    framesLaw { c with frames := setAt c.frames (ringFront c.ready) .out, ready := ringRemove c.ready } := by
  obtain ⟨k1, k2, k3⟩ := k
  have hl := ringList_remove c.ready (Nat.pos_of_ne_zero hc)
  rw [hl] at k2
  simp only [List.nodup_cons] at k2
  have hready : c.frames[ringFront c.ready] = .ready := by rw [(k3 _).2.1, hl]; simp
  refine ⟨k1, k2.2, fun g => ?_⟩
  have hk := k3 g
  rw [hl] at hk
  by_cases hg : g = ringFront c.ready
  · subst hg
    rw [hready] at hk
    simp only [setAt_same]
    have h1 : ringFront c.ready ∉ ringList c.spare := by simpa using hk.1
    have h2 := hk.2.2
    simp only [reduceCtorEq, false_iff] at h2
    simp [h1, k2.1, h2]
  · have he : (setAt c.frames (ringFront c.ready) .out)[g] = c.frames[g] := setAt_other _ _ (Ne.symm hg)
    rw [he]
    simpa [hg] using hk

theorem ringLaw_take (c : Channel) (hc : c.ready.count ≠ 0) (k : ringLaw c) :
    ringLaw { c with frames := setAt c.frames (ringFront c.ready) .out, ready := ringRemove c.ready } := by
  refine ⟨k.1, ?_⟩
  have h := k.2
  simp only [ringRemove, Fin.ofNat]
  omega

/-- A channel whose post has ended: its frame READY, at the tail of the ready ring (R162). -/
theorem framesLaw_end (c : Channel) (po : Post) (hp : c.post = some po) (k : framesLaw c) :
    framesLaw { c with frames := setAt c.frames po.frame .ready, ready := ringAppend c.ready po.frame, post := none } := by
  obtain ⟨k1, k2, k3⟩ := k
  have hfill : c.frames[po.frame] = .filling := (k3 _).2.2.mpr ⟨po, hp, rfl⟩
  have hs : po.frame ∉ ringList c.spare := by rw [← (k3 _).1, hfill]; simp
  have hr : po.frame ∉ ringList c.ready := by rw [← (k3 _).2.1, hfill]; simp
  have hl := ringList_append c.ready po.frame (ringList_lt _ k2 _ hr)
  refine ⟨k1, ?_, fun g => ?_⟩
  · rw [hl]
    exact List.nodup_append.mpr ⟨k2, by simp, by simpa using fun a ha (e : a = po.frame) => hr (e ▸ ha)⟩
  · rw [hl]
    by_cases hg : g = po.frame
    · subst hg
      simp [hs]
    · have he : (setAt c.frames po.frame .ready)[g] = c.frames[g] := setAt_other _ _ (Ne.symm hg)
      rw [he]
      have hk := k3 g
      have hnf : c.frames[g] ≠ .filling := by
        rw [ne_eq, hk.2.2]
        rintro ⟨po', h1, h2⟩
        rw [hp, Option.some.injEq] at h1
        exact hg (h2.symm.trans (by rw [h1]))
      simp only [List.mem_append, List.mem_singleton, hg, or_false, reduceCtorEq, false_and, exists_false, iff_false]
      exact ⟨hk.1, hk.2.1, hnf⟩

theorem ringLaw_end (c : Channel) (po : Post) (hp : c.post = some po) (k : ringLaw c) :
    ringLaw { c with frames := setAt c.frames po.frame .ready, ready := ringAppend c.ready po.frame, post := none } := by
  refine ⟨k.1, ?_⟩
  have h := k.2
  simp only [hp, Option.isSome_some, flag, if_true] at h
  simp only [ringAppend, Option.isSome_none, flag]
  simp
  omega

end Sys2Proof.Machine
end

