-- ==== Sys2Proof/Laws/Islands.lean ====
section
/-! SUPPORT. What the update of an island and of its timers leaves of the island: the totals, the condition and the HELD
mark it holds, and the laws of its timers. -/

namespace Sys2Proof.Machine

/-- The release condition that the timers follow is the one of R122. -/
theorem releaseFor_eq_some_iff (p : Part) (i : SecId) (tg : Target) : releaseFor p i = some tg ↔ releaseHolds p i tg := by
  unfold releaseFor releaseHolds reserve
  cases h : (entriesOf p i).getLast? with
  | none => simp
  | some e =>
    have hx : (entriesOf p i).any isOpening = false ↔ ∀ x ∈ entriesOf p i, x.state = .held := by
      rw [List.any_eq_false]
      refine forall₂_congr fun x _ => ?_
      cases hs : x.state <;> simp [isOpening, hs]
    simp only [Option.ite_none_right_eq_some, Bool.and_eq_true, Bool.not_eq_true', hx, beq_iff_eq, decide_eq_true_eq,
      Option.some.injEq, exists_eq_left']
    tauto

/-! ## What an island's members say does not depend on the island's record -/

@[simp] theorem entriesOf_setIsland (i j : SecId) (r : Island) (p : Part) : entriesOf (setIsland i r p) j = entriesOf p j := rfl

@[simp] theorem totalsOf_setIsland (i j : SecId) (r : Island) (p : Part) : totalsOf (setIsland i r p) j = totalsOf p j := rfl

@[simp] theorem conditionOf_setIsland (i j : SecId) (r : Island) (t : Totals) (p : Part) :
    conditionOf (setIsland i r p) j t = conditionOf p j t := rfl

@[simp] theorem heldOf_setIsland (i j : SecId) (r : Island) (p : Part) : heldOf (setIsland i r p) j = heldOf p j := rfl

/-- The record that `syncTimers` gives the island: its timers follow, the rest of it stands. -/
theorem syncTimers_eq (i : SecId) (p : Part) :
    ∃ o d h, syncTimers i p = setIsland i { p.islands[i] with overload := o, startDelay := d, releaseHold := h } p ∧
      (isRunning p = true → o = nextOverload p p.islands[i] ∧ d = nextStartDelay p p.islands[i] ∧
        h = nextReleaseHold p p.islands[i] (releaseFor p i)) ∧
      (isRunning p = false → o = none ∧ d = .stopped ∧ h = none) := by
  unfold syncTimers
  cases hr : isRunning p
  · exact ⟨_, _, _, rfl, nofun, fun _ => ⟨rfl, rfl, rfl⟩⟩
  · exact ⟨_, _, _, rfl, fun _ => ⟨rfl, rfl, rfl⟩, nofun⟩

/-- The timers of one island leave the records of the others. -/
theorem syncTimers_other {i j : SecId} (p : Part) (h : i ≠ j) : (syncTimers i p).islands[j] = p.islands[j] := by
  obtain ⟨o, d, k, e, -⟩ := syncTimers_eq i p
  rw [e, setIsland_islands, setAt_other _ _ h]

/-! ## An update -/

/-- After an update an island holds what its members give (R45, R46, R49). -/
theorem islandStands_retotal (i : SecId) (p : Part) : islandStands (retotal i p) i := by
  unfold retotal
  obtain ⟨o, d, k, e, -⟩ := syncTimers_eq i (setIsland i { p.islands[i] with
    totals := totalsOf p i, condition := conditionOf p i (totalsOf p i), held := heldOf p i } p)
  simp only [e]
  simp [islandStands, islandAgrees]

/-- An update of one island leaves the records of the others. -/
theorem retotal_other {i j : SecId} (p : Part) (h : i ≠ j) : (retotal i p).islands[j] = p.islands[j] := by
  unfold retotal
  rw [syncTimers_other _ h, setIsland_islands, setAt_other _ _ h]

/-- The timers leave every island as it stood by its members. -/
theorem islandStands_syncTimers (i j : SecId) (p : Part) : islandStands (syncTimers i p) j ↔ islandStands p j := by
  by_cases h : i = j
  · subst h
    obtain ⟨o, d, k, e, -⟩ := syncTimers_eq i p
    simp only [e]
    simp [islandStands, islandAgrees]
  · unfold islandStands islandAgrees
    rw [syncTimers_other p h]
    obtain ⟨o, d, k, e, -⟩ := syncTimers_eq i p
    simp only [e, totalsOf_setIsland, conditionOf_setIsland, heldOf_setIsland]

/-! ## The release-hold timer -/

/-- A stopped release-hold timer runs for nothing. -/
theorem releaseTimed_of_none {p : Part} {i : SecId} (h : p.islands[i].releaseHold = none) : releaseTimed p i := by
  intro tg e k; rw [h] at k; cases k

/-- What a running release-hold timer has to run for. -/
theorem releaseTimed_of_some {p : Part} {i : SecId} {tg : Target} {e : Word} (h : p.islands[i].releaseHold = some (tg, e))
    (last : (entriesOf p i).getLast?.map ShedEntry.target = some tg) (held : ∀ x ∈ entriesOf p i, x.state = .held) :
    releaseTimed p i := by
  intro tg' e' k
  rw [h] at k
  cases k
  exact ⟨last, held⟩

/-- The target that the next release-hold timer runs for is the one it is judged for. -/
theorem nextReleaseHold_target {p : Part} {r : Island} {judged : Option Target} {tg : Target} {e : Word}
    (h : nextReleaseHold p r judged = some (tg, e)) : judged = some tg := by
  unfold nextReleaseHold at h
  split at h
  · cases h
  · split at h
    · split at h
      · next hit => cases h; rw [hit]
      · cases h; rfl
    · cases h; rfl

/-- After its timers follow, an island's release-hold timer runs for its most recent entry (R122, R123). -/
theorem releaseTimed_syncTimers (i : SecId) (p : Part) : releaseTimed (syncTimers i p) i := by
  obtain ⟨o, d, k, e, run, idle⟩ := syncTimers_eq i p
  rw [e]
  intro tg w hw
  simp only [setIsland_islands, setAt_same] at hw
  simp only [entriesOf_setIsland]
  cases hr : isRunning p
  · rw [(idle hr).2.2] at hw; cases hw
  · rw [(run hr).2.2] at hw
    obtain ⟨-, -, -, held, x, last, hx, -⟩ := (releaseFor_eq_some_iff p i tg).1 (nextReleaseHold_target hw)
    exact ⟨by rw [last, Option.map_some, hx], held⟩

/-- In RUNNING an island's timers follow from those it had (R50, R51, R123). -/
theorem timersFollow_syncTimers (i : SecId) (p : Part) (hr : isRunning p = true) :
    timersFollow p.islands[i] (syncTimers i p) i := by
  obtain ⟨o, d, k, e, run, -⟩ := syncTimers_eq i p
  obtain ⟨ho, hd, hk⟩ := run hr
  have same : ∀ tg, releaseHolds (syncTimers i p) i tg ↔ releaseFor p i = some tg := by
    intro tg
    rw [releaseFor_eq_some_iff, e]
    simp only [releaseHolds, setIsland_islands, setAt_same, entriesOf_setIsland]
    rfl
  unfold timersFollow
  simp only [same]
  simp only [e, setIsland_islands, setAt_same]
  refine ⟨?_, ?_, ?_, ?_, ?_, ?_⟩
  · intro h; rw [ho, nextOverload, if_neg h]
  · intro h
    refine ⟨fun h0 => ?_, fun w hw => ?_⟩
    · simp only [ho, nextOverload, h, h0, if_true]; rfl
    · simp only [ho, nextOverload, h, hw, if_true]
  · intro h0 h1; rw [hd, nextStartDelay, if_neg (not_or.2 ⟨h0, h1⟩)]
  · intro h
    refine ⟨fun h0 => ?_, fun w hw => ?_, fun n hn => ?_⟩
    · rw [hd]; simp only [nextStartDelay, h, h0, if_true]
      cases p.islands[i].held <;> simp [setIsland, Part.header]
    · rw [hd]; simp only [nextStartDelay, h, hw, if_true]
      cases p.islands[i].held <;> simp [setIsland]
    · rw [hd]; simp only [nextStartDelay, h, hn, if_true]
      cases p.islands[i].held <;> simp [setIsland]
  · intro h
    rw [hk]
    cases hf : releaseFor p i with
    | none => rfl
    | some tg => exact absurd hf (h tg)
  · intro tg h
    refine ⟨fun w hw => ?_, fun hn => ?_⟩
    · rw [hk, h]; simp only [nextReleaseHold, hw, if_true]
    · rw [hk, h]
      unfold nextReleaseHold
      simp only
      split
      · next t w hw =>
        split
        · next ht => subst ht; exact absurd hw (hn w)
        · rfl
      · rfl

end Sys2Proof.Machine
end

