-- ==== Sys2Proof/Laws/Memory.lean ====
section
/-! SUPPORT. SRAM: what a read gives after a write, and the canonical form that every write keeps. -/

namespace Sys2Proof.Machine

/-! ## One plane -/

theorem Memory.get_set (m : List Host.Cell) (a b : Nat) (v : Byte) :
    Memory.get (Memory.set m a v) b = if a = b then some v else Memory.get m b := by
  induction m with
  | nil => simp [Memory.set, Memory.get]
  | cons c r ih =>
    obtain ⟨k, x⟩ := c
    unfold Memory.set
    split
    · simp [Memory.get]
    · split
      · next h => subst h; simp only [Memory.get]; split <;> simp_all
      · next h1 h2 =>
        simp only [Memory.get, ih]
        split <;> split <;> first | rfl | (exfalso; omega)

theorem Memory.risesFrom_set (m : List Host.Cell) (a lo : Nat) (v : Byte) (hlo : lo ≤ a)
    (h : Memory.risesFrom lo m = true) : Memory.risesFrom lo (Memory.set m a v) = true := by
  induction m generalizing lo with
  | nil => simp [Memory.set, Memory.risesFrom, hlo]
  | cons c r ih =>
    obtain ⟨k, x⟩ := c
    simp only [Memory.risesFrom, Bool.and_eq_true, decide_eq_true_eq] at h
    unfold Memory.set
    split
    · next hk => simp [Memory.risesFrom, hlo, h.2]; omega
    · split
      · next e => subst e; simp [Memory.risesFrom, h.1, h.2]
      · simp [Memory.risesFrom, h.1, ih (k + 1) (by omega) h.2]

/-- A write keeps the canonical form of a plane. -/
theorem Memory.wf_set (m : List Host.Cell) (a : Nat) (v : Byte) (h : Memory.wf m = true) :
    Memory.wf (Memory.set m a v) = true :=
  Memory.risesFrom_set m a 0 v (Nat.zero_le a) h

/-- The addresses listed after a write, which the value written does not decide. -/
theorem Memory.set_keys {m n : List Host.Cell} (a : Nat) (v w : Byte) (h : m.map Prod.fst = n.map Prod.fst) :
    (Memory.set m a v).map Prod.fst = (Memory.set n a w).map Prod.fst := by
  induction m generalizing n with
  | nil =>
    cases n with
    | nil => rfl
    | cons d s => simp at h
  | cons c r ih =>
    cases n with
    | nil => simp at h
    | cons d s =>
      obtain ⟨k, x⟩ := c
      obtain ⟨k', x'⟩ := d
      simp only [List.map_cons, List.cons.injEq] at h
      obtain ⟨rfl, h⟩ := h
      unfold Memory.set
      split
      · simp [h]
      · split
        · simp [h]
        · simp [ih h]

/-! ## SRAM -/

theorem Sram.wf_iff (m : Sram) :
    m.wf = true ↔ Memory.wf m.data = true ∧ Memory.wf m.parity = true ∧
      m.data.map Prod.fst = m.parity.map Prod.fst := by
  simp [Sram.wf, and_assoc]

theorem Sram.wf_writeByte (m : Sram) (a : Nat) (b : Byte) (p : Bool) (h : m.wf = true) :
    (m.writeByte a b p).wf = true := by
  rw [Sram.wf_iff] at *
  exact ⟨Memory.wf_set _ _ _ h.1, Memory.wf_set _ _ _ h.2.1, Memory.set_keys a b _ h.2.2⟩

theorem Sram.wf_writeLane (m : Sram) (w : WordAddr) (st : BitVec 4) (d : Word) (n : Nat) (h : m.wf = true) :
    (m.writeLane w st d n).wf = true := by
  unfold Sram.writeLane
  split
  · exact Sram.wf_writeByte _ _ _ _ h
  · exact h

/-- A write keeps the canonical form of the SRAM. -/
theorem Sram.wf_write (m : Sram) (w : WordAddr) (st : BitVec 4) (d : Word) (h : m.wf = true) :
    (m.write w st d).wf = true :=
  Sram.wf_writeLane _ _ _ _ _ (Sram.wf_writeLane _ _ _ _ _ (Sram.wf_writeLane _ _ _ _ _
    (Sram.wf_writeLane _ _ _ _ _ h)))

theorem Sram.wf_cutLane (m : Sram) (w : WordAddr) (st : BitVec 4) (k n : Nat) (h : m.wf = true) :
    (m.cutLane w st k n).wf = true := by
  unfold Sram.cutLane
  split
  · exact Sram.wf_writeByte _ _ _ _ h
  · exact h

/-- A write cut short keeps the canonical form of the SRAM. -/
theorem Sram.wf_cut (m : Sram) (w : WordAddr) (st : BitVec 4) (k : Nat) (h : m.wf = true) :
    (m.cut w st k).wf = true :=
  Sram.wf_cutLane _ _ _ _ _ (Sram.wf_cutLane _ _ _ _ _ (Sram.wf_cutLane _ _ _ _ _
    (Sram.wf_cutLane _ _ _ _ _ h)))

theorem Sram.readByte_writeByte (m : Sram) (a x : Nat) (b : Byte) (p : Bool) :
    (m.writeByte a b p).readByte x = if a = x then b else m.readByte x := by
  simp only [Sram.readByte, Sram.writeByte, Memory.get_set]
  split <;> rfl

theorem Sram.readParity_writeByte (m : Sram) (a x : Nat) (b : Byte) (p : Bool) :
    (m.writeByte a b p).readParity x = if a = x then p else m.readParity x := by
  simp only [Sram.readParity, Sram.writeByte, Memory.get_set]
  by_cases h : a = x
  · rw [if_pos h, if_pos h]; cases p <;> rfl
  · rw [if_neg h, if_neg h]

theorem Sram.readByte_writeLane (m : Sram) (w : WordAddr) (st : BitVec 4) (d : Word) (n x : Nat) :
    (m.writeLane w st d n).readByte x =
      if st.toNat.testBit n = true ∧ laneAddr w n = x then laneByte d n else m.readByte x := by
  unfold Sram.writeLane
  split
  · next h => simp [Sram.readByte_writeByte, h]
  · next h => simp [h]

theorem Sram.readParity_writeLane (m : Sram) (w : WordAddr) (st : BitVec 4) (d : Word) (n x : Nat) :
    (m.writeLane w st d n).readParity x =
      if st.toNat.testBit n = true ∧ laneAddr w n = x then oddParity (laneByte d n) else m.readParity x := by
  unfold Sram.writeLane
  split
  · next h => simp [Sram.readParity_writeByte, h]
  · next h => simp [h]

/-- One byte after a write: the byte written in a strobed lane of the word, every other as it was. -/
theorem Sram.readByte_write (m : Sram) (w : WordAddr) (st : BitVec 4) (d : Word) (x : Nat) :
    (m.write w st d).readByte x =
      if x / 4 = w.toNat ∧ st.toNat.testBit (x % 4) = true then laneByte d (x % 4) else m.readByte x := by
  have hx : x % 4 < 4 := Nat.mod_lt _ (by decide)
  simp only [Sram.write, Sram.readByte_writeLane, laneAddr]
  by_cases hw : x / 4 = w.toNat
  · have e : x = 4 * w.toNat + x % 4 := by omega
    rcases (show x % 4 = 0 ∨ x % 4 = 1 ∨ x % 4 = 2 ∨ x % 4 = 3 by omega) with h | h | h | h <;>
      (rw [h] at e ⊢; subst e; simp [hw])
  · have h0 : ∀ n, n < 4 → ¬ (4 * w.toNat + n = x) := by omega
    simp only [h0 0 (by decide), h0 1 (by decide), h0 2 (by decide), h0 3 (by decide), hw, and_false, false_and,
      if_false]

/-- One parity bit after a write. -/
theorem Sram.readParity_write (m : Sram) (w : WordAddr) (st : BitVec 4) (d : Word) (x : Nat) :
    (m.write w st d).readParity x =
      if x / 4 = w.toNat ∧ st.toNat.testBit (x % 4) = true then oddParity (laneByte d (x % 4))
      else m.readParity x := by
  have hx : x % 4 < 4 := Nat.mod_lt _ (by decide)
  simp only [Sram.write, Sram.readParity_writeLane, laneAddr]
  by_cases hw : x / 4 = w.toNat
  · have e : x = 4 * w.toNat + x % 4 := by omega
    rcases (show x % 4 = 0 ∨ x % 4 = 1 ∨ x % 4 = 2 ∨ x % 4 = 3 by omega) with h | h | h | h <;>
      (rw [h] at e ⊢; subst e; simp [hw])
  · have h0 : ∀ n, n < 4 → ¬ (4 * w.toNat + n = x) := by omega
    simp only [h0 0 (by decide), h0 1 (by decide), h0 2 (by decide), h0 3 (by decide), hw, and_false, false_and,
      if_false]

theorem laneAddr_div (w : WordAddr) {n : Nat} (h : n < 4) : laneAddr w n / 4 = w.toNat := by
  unfold laneAddr; omega

theorem laneAddr_mod (w : WordAddr) {n : Nat} (h : n < 4) : laneAddr w n % 4 = n := by
  unfold laneAddr; omega

/-- The four bytes of a word make it up. -/
theorem laneBytes_word (d : Word) :
    BitVec.ofNat 32 ((laneByte d 0).toNat + 2 ^ 8 * (laneByte d 1).toNat + 2 ^ 16 * (laneByte d 2).toNat
      + 2 ^ 24 * (laneByte d 3).toNat) = d := by
  apply BitVec.eq_of_toNat_eq
  have := d.isLt
  simp only [laneByte, BitVec.toNat_ofNat]
  omega

/-- A word just written with all four strobes is read back. -/
theorem Sram.read_write_all (m : Sram) (w : WordAddr) (d : Word) : (m.write w allStrobes d).read w = d := by
  have e : ∀ n, n < 4 → (m.write w allStrobes d).readByte (laneAddr w n) = laneByte d n := by
    intro n hn
    rw [Sram.readByte_write, laneAddr_div w hn, laneAddr_mod w hn, if_pos]
    refine ⟨rfl, ?_⟩
    rcases (show n = 0 ∨ n = 1 ∨ n = 2 ∨ n = 3 by omega) with rfl | rfl | rfl | rfl <;> decide
  unfold Sram.read
  rw [e 0 (by decide), e 1 (by decide), e 2 (by decide), e 3 (by decide)]
  exact laneBytes_word d

theorem Sram.laneGood_write_all (m : Sram) (w : WordAddr) (d : Word) (st : BitVec 4) {n : Nat} (hn : n < 4) :
    (m.write w allStrobes d).laneGood w st n = true := by
  have h : allStrobes.toNat.testBit n = true := by
    rcases (show n = 0 ∨ n = 1 ∨ n = 2 ∨ n = 3 by omega) with rfl | rfl | rfl | rfl <;> decide
  unfold Sram.laneGood
  rw [Sram.readByte_write, Sram.readParity_write, laneAddr_div w hn, laneAddr_mod w hn,
    if_pos ⟨rfl, h⟩, if_pos ⟨rfl, h⟩]
  simp

/-- A word just written with all four strobes passes its check. -/
theorem Sram.parityGood_write_all (m : Sram) (w : WordAddr) (d : Word) (st : BitVec 4) :
    (m.write w allStrobes d).parityGood w st = true := by
  simp [Sram.parityGood, Sram.laneGood_write_all]

end Sys2Proof.Machine
end

