-- ==== Sys2Proof/Laws/Ports.lean ====
section
/-! SUPPORT. What a master access does at a free port: one lemma for a refused write, one for a granted write, one for a
live word's write and read, one for a granted read, and the map of the window at the offsets that commands name. -/

namespace Sys2Proof.Machine

/-! ## Addresses (R4, R5, R15, R16) -/

theorem windowAddr_toNat (base : BitVec 8) (off : Nat) (h : off < 0x10000) :
    (windowAddr base off).toNat = base.toNat * 0x4000 + off / 4 := by
  have hb := base.isLt
  simp only [windowAddr, BitVec.toNat_ofNat]
  omega

theorem inWindow_windowAddr (base : BitVec 8) (off : Nat) (h : off < 0x10000) :
    inWindow base (windowAddr base off) = true := by
  simp only [inWindow, windowAddr_toNat base off h, beq_iff_eq]
  omega

theorem windowOffset_windowAddr (base : BitVec 8) (off : Nat) (h : off < 0x10000) (k : off % 4 = 0) :
    windowOffset (windowAddr base off) = off := by
  simp only [windowOffset, windowAddr_toNat base off h]
  omega

theorem windowAddr_inj (base : BitVec 8) {a b : Nat} (ha : a < 0x10000) (hb : b < 0x10000) (ka : a % 4 = 0)
    (kb : b % 4 = 0) (h : windowAddr base a = windowAddr base b) : a = b := by
  rw [← windowOffset_windowAddr base a ha ka, ← windowOffset_windowAddr base b hb kb, h]

theorem classify_genMeas : ∀ g : GenId, classify (genWordOffset g 0) = .genMeas g := by decide
theorem classify_genReq : ∀ g : GenId, classify (genWordOffset g 1) = .genReq g := by decide
theorem classify_genFixed : ∀ g : GenId, classify (genWordOffset g 2) = .genFixed g := by decide
theorem classify_genTarget : ∀ g : GenId, classify (genWordOffset g 3) = .genTarget g := by decide
theorem classify_genStatus : ∀ g : GenId, classify (genWordOffset g 4) = .live (.genStatus g) := by decide
theorem classify_consMeas : ∀ c : ConsId, classify (consWordOffset c 0) = .consMeas c := by decide +kernel
theorem classify_consCmd : ∀ c : ConsId, classify (consWordOffset c 1) = .consCmd c := by decide +kernel
theorem classify_driveMeas : ∀ d : DriveId, classify (driveWordOffset d 0) = .driveMeas d := by decide
theorem classify_driveReq : ∀ d : DriveId, classify (driveWordOffset d 1) = .driveReq d := by decide
theorem classify_driveLimit : ∀ d : DriveId, classify (driveWordOffset d 2) = .driveLimit d := by decide

/-! ## A free port (R6) -/

@[simp] theorem phaseOf_setPhase (port : Port) (ph : PortPhase) (b : Bus) : phaseOf port (setPhase port ph b) = ph := by
  cases port <;> rfl

theorem setPhase_setPhase (port : Port) (x y : PortPhase) (b : Bus) : setPhase port x (setPhase port y b) = setPhase port x b := by
  cases port <;> rfl

/-- At a free port the access just held is the one the arbiter chooses. -/
theorem nextGrant_held (port : Port) (a : Access) (s : State) (h : portFree port s = true) :
    nextGrant (setPhase port (.waiting a) s.bus) s.part = some (.rotating (requesterOf port)) := by
  simp only [portFree, Bool.and_eq_true, Bool.not_eq_true', Option.isNone_iff_eq_none, othersRequest,
    List.any_cons, List.any_nil, Bool.or_false, Bool.or_eq_false_iff] at h
  obtain ⟨⟨⟨⟨-, hp⟩, hs⟩, hc⟩, h1, h2, h3, h4⟩ := h
  cases port <;> simp [nextGrant, setPhase, hp, hs, hc, requesterOf, requests, isWaiting] at * <;>
    cases s.bus.last <;> simp_all [rotationAfter, List.find?, requests, isWaiting]

theorem portFree_ready {port : Port} {s : State} (h : portFree port s = true) : portReady port s.bus = true := by
  simp only [portFree, Bool.and_eq_true] at h
  exact h.1.1.1.1

theorem portFree_pair {port : Port} {s : State} (h : portFree port s = true) : s.bus.pair = none := by
  simp only [portFree, Bool.and_eq_true, Option.isNone_iff_eq_none] at h
  exact h.1.1.1.2

theorem portFree_sq {port : Port} {s : State} (h : portFree port s = true) : s.part.sq = [] := by
  simp only [portFree, Bool.and_eq_true, List.isEmpty_iff] at h
  exact h.1.1.2

theorem portFree_closed {port : Port} {s : State} (h : portFree port s = true) : cycleOpen s.part = false := by
  simp only [portFree, Bool.and_eq_true, Bool.not_eq_true'] at h
  exact h.1.2

/-! ## The cycle of the latest grant (R6, R13) -/

/-- All that the next access of a port changes is the cycle of the latest grant. -/
theorem nextAccess_eq (port : Port) (b : Bus) : nextAccess port b = { b with cycle := (nextAccess port b).cycle } := by
  unfold nextAccess
  split <;> rfl

/-- All that a free SRAM changes is the cycle of the latest grant. -/
theorem settleCycle_eq (s : State) :
    settleCycle s = { s with bus := { s.bus with cycle := (settleCycle s).bus.cycle } } := by
  unfold settleCycle
  split <;> rfl

theorem portFree_cycle (port : Port) (s : State) (c : Option Cycle) :
    portFree port { s with bus := { s.bus with cycle := c } } = portFree port s := by
  cases port <;> rfl

theorem portFree_nextAccess (p port : Port) (s : State) :
    portFree port { s with bus := nextAccess p s.bus } = portFree port s := by
  rw [nextAccess_eq, portFree_cycle]

theorem busAfterWrite_nextAccess (p port : Port) (a : WordAddr) (strobes : BitVec 4) (data : Word) (b : Bus) :
    busAfterWrite port a strobes data (nextAccess p b) = busAfterWrite port a strobes data b := by
  rw [nextAccess_eq]
  cases port <;> rfl

theorem busAfterRead_nextAccess (p port : Port) (r : Response) (data : Word) (b : Bus) :
    busAfterRead port r data (nextAccess p b) = busAfterRead port r data b := by
  rw [nextAccess_eq]
  cases port <;> rfl

theorem endPairAt_none (port : Port) (a : WordAddr) (b : Bus) (h : b.pair = none) : endPairAt port a b = b := by
  simp [endPairAt, h]

theorem setPhase_pair (port : Port) (ph : PortPhase) (b : Bus) : (setPhase port ph b).pair = b.pair := by
  cases port <;> rfl

theorem serveWrite_eq (port : Port) (a : Access) (s : State) (hp : s.bus.pair = none) :
    serveWrite port a (pointAt (requesterOf port) s)
      = { s with bus := busAfterWrite port a.addr a.strobes a.data s.bus, part := jobEvent a.job a.data s.part } := by
  unfold serveWrite
  rw [endPairAt_none _ _ _ (by simp [setPhase_pair, writeCycle, pointAt, hp])]
  cases port <;> rfl

/-- A write held at a free port is granted and completed at once. -/
theorem holdAccess_write (port : Port) (a : Access) (s : State) (h : portFree port s = true)
    (hj : ∀ paired, a.job ≠ .read paired) :
    holdAccess port a .free s
      = { s with bus := busAfterWrite port a.addr a.strobes a.data s.bus, part := jobEvent a.job a.data s.part } := by
  have hn := nextGrant_held port a s h
  have hp := portFree_pair h
  have hc := portFree_closed h
  have hs : settleCycle { s with bus := setPhase port (.waiting a) s.bus }
      = { s with bus := setPhase port (.waiting a) { s.bus with cycle := none } } := by
    unfold settleCycle
    rw [if_neg (by simp [hc])]
    cases port <;> rfl
  have hn' : nextGrant (setPhase port (.waiting a) { s.bus with cycle := none }) s.part
      = some (.rotating (requesterOf port)) := by
    rw [← hn]
    cases port <;> rfl
  simp only [holdAccess, hs, grantPort, phaseOf_setPhase, hn', if_true, serveAccess]
  have key := serveWrite_eq port a { s with bus := setPhase port (.waiting a) { s.bus with cycle := none } }
    (by simp [setPhase_pair, hp])
  rw [key]
  cases port <;> rfl

/-- An accepted write of a stored word of the window at a free port: stored, completed OK, handed to its owner. -/
theorem windowWrite_granted (port : Port) (off : Nat) (w : WinWord) (strobes : BitVec 4) (data : Word) (s : State)
    (ho : off < 0x10000) (hk : off % 4 = 0) (hw : classify off = w) (hl : ∀ l, w ≠ .live l)
    (hv : writeVerdict port w strobes data s.part = none) (h : portFree port s = true) :
    windowWrite port off strobes data .free s
      = { s with bus := busAfterWrite port (windowAddr s.part.base off) strobes (storedWord w data s.part) s.bus
                 part := jobEvent (jobOf w data s.part) (storedWord w data s.part) s.part } := by
  subst hw
  simp only [windowWrite, masterWrite, portFree_ready h, if_true, arriveWrite, inWindow_windowAddr _ _ ho,
    arriveWindowWrite, windowOffset_windowAddr _ _ ho hk, hv]
  rw [holdAccess_write _ _ _ (by rw [portFree_nextAccess]; exact h), busAfterWrite_nextAccess]
  intro paired
  unfold jobOf
  split <;> simp

/-- A refused write of the window: recorded and reported, completed ERR; the pair of the word ends. -/
theorem windowWrite_refused (port : Port) (off : Nat) (strobes : BitVec 4) (data : Word) (sram : SramAt) (s : State)
    (r : Reason) (ho : off < 0x10000) (hk : off % 4 = 0)
    (hv : writeVerdict port (classify off) strobes data s.part = some r) (h : portReady port s.bus = true) :
    windowWrite port off strobes data sram s
      = refuseWrite port (windowAddr s.part.base off) r { s with bus := nextAccess port s.bus } := by
  simp only [windowWrite, masterWrite, h, if_true, arriveWrite, inWindow_windowAddr _ _ ho,
    arriveWindowWrite, windowOffset_windowAddr _ _ ho hk, hv]

/-- An accepted write of a live word, completed OK at its judgement. -/
theorem windowWrite_live (port : Port) (off : Nat) (l : LiveWord) (strobes : BitVec 4) (data : Word) (sram : SramAt)
    (s : State) (ho : off < 0x10000) (hk : off % 4 = 0) (hw : classify off = .live l)
    (hv : writeVerdict port (.live l) strobes data s.part = none) (h : portReady port s.bus = true) :
    windowWrite port off strobes data sram s
      = { s with bus := busAfterAnswer port .ok none s.bus, part := liveWriteEffect l data s.part } := by
  simp only [windowWrite, masterWrite, h, if_true, arriveWrite, inWindow_windowAddr _ _ ho,
    arriveWindowWrite, windowOffset_windowAddr _ _ ho hk, hw, hv, answerAccess, busAfterAnswer]

/-- A read of a live word by a port it answers, completed OK at its judgement. -/
theorem windowRead_live (port : Port) (off : Nat) (l : LiveWord) (s : State) (ho : off < 0x10000) (hk : off % 4 = 0)
    (hw : classify off = .live l) (ha : answers l port = true) (h : portReady port s.bus = true) :
    windowRead port off s
      = { s with bus := busAfterAnswer port .ok (some (liveData l s.part)) s.bus
                 part := liveReadEffect port l s.part } := by
  simp only [windowRead, masterReadOf, h, if_true, arriveRead, inWindow_windowAddr _ _ ho, arriveWindowRead,
    windowOffset_windowAddr _ _ ho hk, hw, ha, answerAccess, busAfterAnswer]

/-- A port that cannot take an access has none taken. -/
theorem masterWrite_notReady (port : Port) (a : WordAddr) (strobes : BitVec 4) (data : Word) (sram : SramAt) (s : State)
    (h : portReady port s.bus = false) : masterWrite port a strobes data sram s = s := by
  simp [masterWrite, h]

/-- A write held at a port with SRAM busy only waits. -/
theorem holdAccess_busy (port : Port) (a : Access) (s : State) :
    holdAccess port a .busy s = { s with bus := setPhase port (.waiting a) s.bus } := rfl

/-- A read held at a free port with no store-queue entry and good parity, not paired, is served at once. -/
theorem holdAccess_read (port : Port) (addr : WordAddr) (strobes : BitVec 4) (paired : Bool) (s : State)
    (h : portFree port s = true) (hg : s.bus.sram.parityGood addr strobes = true) :
    holdAccess port ⟨addr, strobes, 0#32, .read paired⟩ .free s
      = { s with bus := { busAfterRead port .ok (s.bus.sram.read addr) s.bus with
                          pair := if paired then some ⟨addr, 0⟩ else none } } := by
  have hn := nextGrant_held port ⟨addr, strobes, 0#32, .read paired⟩ s h
  have hp := portFree_pair h
  have hs := portFree_sq h
  have hc := portFree_closed h
  have hn' : nextGrant (setPhase port (.waiting ⟨addr, strobes, 0#32, .read paired⟩) { s.bus with cycle := none }) s.part
      = some (.rotating (requesterOf port)) := by
    rw [← hn]
    cases port <;> rfl
  have hb : settleCycle { s with bus := setPhase port (.waiting ⟨addr, strobes, 0#32, .read paired⟩) s.bus }
      = { s with bus := setPhase port (.waiting ⟨addr, strobes, 0#32, .read paired⟩) { s.bus with cycle := none } } := by
    unfold settleCycle
    rw [if_neg (by simp [hc])]
    cases port <;> rfl
  simp only [holdAccess, hb, grantPort, phaseOf_setPhase, hn', if_true, serveAccess]
  cases port <;> cases paired <;>
    simp [promote, promotedBy, sqEntryAt, serveRead, readCycle, pointAt, setPhase, hg, busAfterRead, hp, hs]

end Sys2Proof.Machine
end

