-- ==== Sys2Proof/Laws/Time.lean ====
section
/-! SUPPORT. The edges of TBCLK that a command passes: a law kept by one edge is kept by all of them, and the edges counted
at once are the edges taken one by one. -/

namespace Sys2Proof.Machine

/-- What one edge keeps, any number of edges keeps. -/
theorem passEdges_keeps (P : State → Prop) (h : ∀ s, P s → P (tbclkEdge s)) (n : Nat) (s : State) (hs : P s) :
    P (passEdges n s) := by
  induction n generalizing s with
  | zero => exact hs
  | succ n ih => exact ih _ (h s hs)

theorem passEdges_add (m n : Nat) (s : State) : passEdges (m + n) s = passEdges n (passEdges m s) := by
  induction m generalizing s with
  | zero => simp [passEdges]
  | succ m ih => rw [Nat.succ_add]; exact ih _

theorem settleCycle_settled (s : State) : settleCycle (settleCycle s) = settleCycle s := by
  by_cases h : cycleOpen s.part = true
  · have hs : settleCycle s = s := if_pos h
    rw [hs, hs]
  · have hs : settleCycle s = { s with bus := { s.bus with cycle := none } } := if_neg h
    rw [hs]
    exact if_neg h

theorem tbclkEdge_settled (s : State) : tbclkEdge (settleCycle s) = tbclkEdge s := by
  simp only [tbclkEdge, settleCycle_settled]

theorem gapTick_zero (p : Part) : gapTick 0 p = p := by
  unfold gapTick
  split
  · next w h => exact congrArg (fun l => { p with plans := { p.plans with loader := l } }) h.symm
  all_goals rfl

theorem gapTick_gapTick (m n : Nat) (p : Part) : gapTick n (gapTick m p) = gapTick (m + n) p := by
  cases h : p.plans.loader <;> simp [gapTick, setLoader, h, Nat.sub_sub]

theorem countEdges_zero (s : State) : countEdges 0 s = settleCycle s := by
  simp only [countEdges, gapTick_zero, Nat.add_zero]
  generalize settleCycle s = s1
  obtain ⟨⟨cp, fp, ctl, pair, last, cycle, sram, sub⟩, part, pending⟩ := s1
  cases pair <;> rfl

theorem settleCycle_part (s : State) : (settleCycle s).part = s.part := by rw [settleCycle_eq]

theorem settleCycle_subMs (s : State) : (settleCycle s).bus.subMs = s.bus.subMs := by rw [settleCycle_eq]

theorem settleCycle_pair (s : State) : (settleCycle s).bus.pair = s.bus.pair := by rw [settleCycle_eq]

/-- An edge at which the millisecond counter does not advance and no pair ends is counted. -/
theorem tbclkEdge_counts (s : State) (h : s.bus.subMs < 999) (hp : ∀ pr, s.bus.pair = some pr → pr.edges < 3) :
    tbclkEdge s = countEdges 1 s := by
  have h1 : ¬999 ≤ (settleCycle s).bus.subMs := by rw [settleCycle_subMs]; omega
  simp only [tbclkEdge, h1, if_false, microsecondEdge, pairEdge, countEdges]
  have h2 := settleCycle_pair s
  cases hpr : s.bus.pair with
  | none =>
    rw [hpr] at h2
    simp [h2]
  | some pr =>
    rw [hpr] at h2
    have h3 : ¬4 ≤ pr.edges + 1 := by have := hp pr hpr; omega
    simp [h2, h3]

theorem countEdges_add (m n : Nat) (s : State) : countEdges n (countEdges m s) = countEdges (m + n) s := by
  by_cases h : cycleOpen s.part = true
  · have hs : settleCycle s = s := if_pos h
    have h1 : cycleOpen (countEdges m s).part = true := by simpa [countEdges, hs, cycleOpen] using h
    have hs1 : settleCycle (countEdges m s) = countEdges m s := if_pos h1
    rw [countEdges, hs1]
    simp [countEdges, hs, gapTick_gapTick, Nat.add_assoc, Function.comp_def]
  · have hs : settleCycle s = { s with bus := { s.bus with cycle := none } } := if_neg h
    have h1 : ¬cycleOpen (countEdges m s).part = true := by simpa [countEdges, hs, cycleOpen] using h
    have hs1 : settleCycle (countEdges m s) = { countEdges m s with bus := { (countEdges m s).bus with cycle := none } } :=
      if_neg h1
    rw [countEdges, hs1]
    simp [countEdges, hs, gapTick_gapTick, Nat.add_assoc, Function.comp_def]

/-- The edges before an event counted at once, and the event's edge, are as many edges taken one by one. -/
theorem tbclkEdge_countEdges (n : Nat) (s : State) (h : n ≤ 999 - s.bus.subMs)
    (hp : ∀ pr, s.bus.pair = some pr → n ≤ 3 - pr.edges) : tbclkEdge (countEdges n s) = passEdges (n + 1) s := by
  induction n generalizing s with
  | zero => simp [countEdges_zero, tbclkEdge_settled, passEdges]
  | succ n ih =>
    have h1 : tbclkEdge s = countEdges 1 s := by
      refine tbclkEdge_counts s (by omega) fun pr hpr => ?_
      have := hp pr hpr
      omega
    have h2 : (countEdges 1 s).bus.subMs = s.bus.subMs + 1 := by simp [countEdges, settleCycle_subMs]
    have h3 : (countEdges 1 s).bus.pair = s.bus.pair.map fun pr => { pr with edges := pr.edges + 1 } := by
      simp [countEdges, settleCycle_pair]
    rw [passEdges, h1, show n + 1 = 1 + n from Nat.add_comm n 1, ← countEdges_add, Nat.add_comm 1 n]
    refine ih _ (by omega) fun pr hpr => ?_
    rw [h3] at hpr
    cases hps : s.bus.pair with
    | none => rw [hps] at hpr; cases hpr
    | some pr0 =>
      rw [hps] at hpr
      obtain rfl : { pr0 with edges := pr0.edges + 1 } = pr := by simpa using hpr
      have := hp pr0 hps
      simp only
      omega

/-- The timeout leaves no pair, and the sub-millisecond count as it stands. -/
theorem endPairTimeout_bus (s : State) :
    (endPairTimeout s).bus.pair = none ∧ (endPairTimeout s).bus.subMs = s.bus.subMs := by
  unfold endPairTimeout
  split
  · next h => exact ⟨h, rfl⟩
  · refine ⟨rfl, ?_⟩
    simp only []
    split
    · split
      · rfl
      · split
        · simp only [serveAccess, serveWrite, endPairAt, pointAt, setPhase, writeCycle]
          split
          · split <;> rfl
          · rfl
        · rfl
    · rfl
    · rfl

/-- The edge of an open pair's timeout, where the millisecond counter does not advance. -/
theorem tbclkEdge_timeout (s : State) (pr : Pair) (h : s.bus.subMs < 999) (hp : s.bus.pair = some pr)
    (he : 3 ≤ pr.edges) : (tbclkEdge s).bus.pair = none ∧ (tbclkEdge s).bus.subMs = s.bus.subMs + 1 := by
  have h1 : ¬999 ≤ (settleCycle s).bus.subMs := by rw [settleCycle_subMs]; omega
  have h2 : (settleCycle s).bus.pair = some pr := by rw [settleCycle_pair, hp]
  have h3 : 4 ≤ pr.edges + 1 := by omega
  simp only [tbclkEdge, h1, if_false, microsecondEdge, pairEdge, h2, h3, if_true]
  refine ⟨(endPairTimeout_bus _).1, (endPairTimeout_bus _).2.trans ?_⟩
  rw [settleCycle_subMs]

/-- MILLISECOND_COUNTER_ADVANCE is the edges of TBCLK up to the one at which the counter advances (R12). -/
theorem passToMillisecond_eq (s : State) : passToMillisecond s = passEdges (999 - s.bus.subMs + 1) s := by
  unfold passToMillisecond passPairWithin
  cases hp : s.bus.pair with
  | none =>
    simp only
    exact tbclkEdge_countEdges _ s le_rfl (by simp [hp])
  | some pr =>
    simp only
    split
    · next hk =>
      have h1 : tbclkEdge (countEdges (3 - pr.edges) s) = passEdges (3 - pr.edges + 1) s :=
        tbclkEdge_countEdges _ s (by omega) fun pr' hpr => by
          rw [hp] at hpr
          obtain rfl := Option.some.inj hpr
          exact le_rfl
      have h2 := tbclkEdge_timeout (countEdges (3 - pr.edges) s) { pr with edges := pr.edges + (3 - pr.edges) }
        (by simp [countEdges, settleCycle_subMs]; omega) (by simp [countEdges, settleCycle_pair, hp])
        (by simp only; omega)
      have h3 : (countEdges (3 - pr.edges) s).bus.subMs = s.bus.subMs + (3 - pr.edges) := by
        simp [countEdges, settleCycle_subMs]
      rw [tbclkEdge_countEdges _ _ le_rfl (by simp [h2.1]), h2.2, h3, h1, ← passEdges_add]
      congr 1
      omega
    · next hk =>
      refine tbclkEdge_countEdges _ s le_rfl fun pr' hpr => ?_
      rw [hp] at hpr
      obtain rfl := Option.some.inj hpr
      omega

end Sys2Proof.Machine
end

