-- ==== Sys2Proof/WellFormed.lean ====
section
/-! DEFINITION. Which commands are the row they are named for: the rows START, STOP, CLEAR and
NO_ACTION are the controller's REQ writes by their ACTION field, and ACK is the CMD write with the ACK
field set (12.2). Every other row's operands are all allowed. The machine acts on the word written,
well-formed or not, as the part does. -/

namespace Sys2Proof

/-- The ACTION field of a generator REQ word, bits 1:0 (12.2). -/
def Instr.actionField (data : Word) : Nat := data.toNat % 4

/-- The ACK field of a consumer CMD word, bit 4 (12.2). -/
def Instr.ackField (data : Word) : Bool := data.toNat.testBit 4

/-- The check: the written word is the row's. -/
def Instr.check : Instr → Bool
  | .start _ _ data _ => Instr.actionField data == 1
  | .stop _ _ data _ => Instr.actionField data == 2
  | .clear _ _ data _ => Instr.actionField data == 3
  | .noAction _ _ data _ => Instr.actionField data == 0
  | .consumerCmdWrite _ _ data _ => !Instr.ackField data
  | .ack _ _ data _ => Instr.ackField data
  | .fullReset _ _ | .controllerReset _ | .generatorMeasWrite _ _ _ _ | .consumerMeasWrite _ _ _ _
  | .driveMeasWrite _ _ _ _ | .tiesWrite _ _ _ | .fixedWrite _ _ _ _ | .driveReqWrite _ _ _ _
  | .planLoad _ _ _ | .key _ _ _ | .activate _ _ _ | .attMask _ _ _ | .attentionRead
  | .attentionWrite _ _ | .give _ _ _ _ | .take _ _ | .refusedDetailRead _
  | .passThroughWrite _ _ _ _ _ | .masterRead _ _ _ _ | .pairedRead _ _ _ | .pairTimeout | .drain
  | .listUnitWrite | .postStart _ | .postEnd _ | .planLoaderRead | .interBurstGap
  | .freshnessTimerExpiry _ | .overloadTimerExpiry _ | .startDelayTimerExpiry _
  | .releaseHoldTimerExpiry _ | .startTimerExpiry _ | .rampStep _ | .openTimerExpiry _
  | .capRaise _ | .verifyDeadline _ | .restoreDeadline _ | .settlingTimeout
  | .millisecondCounterAdvance | .masterAccessGrant _ | .controllerResetRelease
  | .refusedRead _ => true

/-- The command is the row it is named for. -/
abbrev Instr.WellFormed (i : Instr) : Prop := i.check = true

end Sys2Proof
end

