-- ==== Sys2Proof/Tests/Slice0.lean ====
section
/-! SUPPORT. The model's own tests: ill-formed commands refused by the check, small single steps, and for every statement
with hypotheses a state and operands that meet them. -/

namespace Sys2Proof.Tests

open Sys2Proof Sys2Proof.Machine

set_option Elab.async false

/-! ## Well-formedness: an ill-formed command for each check -/

theorem test_illformed_start : (Instr.start 0 15#4 0x102#32 .free).check = false := by decide
theorem test_illformed_stop : (Instr.stop 0 15#4 0x101#32 .free).check = false := by decide
theorem test_illformed_clear : (Instr.clear 0 15#4 0x100#32 .free).check = false := by decide
theorem test_illformed_noAction : (Instr.noAction 0 15#4 0x103#32 .free).check = false := by decide
theorem test_illformed_consumerCmdWrite : (Instr.consumerCmdWrite 0 15#4 0x11#32 .free).check = false := by decide
theorem test_illformed_ack : (Instr.ack 0 15#4 0x01#32 .free).check = false := by decide
theorem test_wellformed_requests :
    (Instr.start 0 15#4 0x101#32 .free).WellFormed ∧ (Instr.stop 0 15#4 0x102#32 .free).WellFormed ∧
      (Instr.clear 0 15#4 0x103#32 .free).WellFormed ∧ (Instr.noAction 0 15#4 0x100#32 .free).WellFormed ∧
      (Instr.consumerCmdWrite 0 15#4 0x01#32 .free).WellFormed ∧ (Instr.ack 0 15#4 0x11#32 .free).WellFormed := by
  decide

/-! ## Small states -/

/-- A plan with two generators, two consumers and a drive on S0, and a third generator on S3. -/
def plan : Plan :=
  { header := some { tag := 7, startMargin := 50, shedMargin := 20, releaseMargin := 10, startDelay := 100,
                     overloadDelay := 200, releaseHold := 5, shareDeadband := 2, staleTime := 100, startTimeout := 30,
                     genOpenTimeout := 10, unloadFloorPct := 10 }
    gens := setAt (setAt (setAt Plan.empty.gens 0 (some ⟨0, 1000, 100, 1, 100⟩)) 1 (some ⟨0, 1000, 100, 2, 100⟩)) 2
      (some ⟨3, 1000, 100, 3, 100⟩)
    cons := setAt (setAt Plan.empty.cons 0 (some ⟨0, 1, 0, 100, true, 0⟩)) 1 (some ⟨0, 2, 0, 50, false, 0⟩)
    drives := setAt Plan.empty.drives 0 (some ⟨0, 3, 0, 100⟩) }

/-- The part with that plan active, in a part state. -/
def planned (st : PartState) : Part :=
  { Part.reset 0#8 0 with plans := { PlanUnit.reset with active := plan, partState := st } }

/-- The part with a generator's entry. -/
def withGen (g : GenId) (e : Gen) (p : Part) : Part := { p with gens := setAt p.gens g e }

/-- The part with a generator's MEAS copy, fresh. -/
def withMeas (g : GenId) (w : Word) (p : Part) : Part :=
  { p with img := { p.img with genMeas := setAt p.img.genMeas g ⟨w, true, some 1000#32⟩ } }

/-- The part with every island's totals and condition as its members give them. -/
def agreed (p : Part) : Part :=
  allSecs.foldl (fun q i => setIsland i { q.islands[i] with
    totals := totalsOf q i, condition := conditionOf q i (totalsOf q i), held := heldOf q i } q) p

/-- The machine with that part behind its ports. -/
def mk (p : Part) : State := { State.reset with part := p }

/-- A generator ONLINE. -/
def online : Gen := { Gen.init with state := .online }

/-- G0 ONLINE with a load, in RUNNING, before the islands are made to agree. -/
def unagreed (kwOut : Nat) : Part :=
  withMeas 0 (0x10000#32 + BitVec.ofNat 32 kwOut) (withGen 0 online (planned .running))

/-- G0 ONLINE with 600 kW of load, in RUNNING. -/
def loaded : Part := agreed (unagreed 600)

/-- The same with C0 on the shed list. -/
def shedC0 (st : EntryState) (cs : ConsState) (p : Part) : Part :=
  agreed { p with shedList := [⟨.cons 0, .overload, 30, 0#32, st⟩], cons := setAt p.cons 0 ⟨cs, none⟩,
                  cmd := setAt p.cmd 0 0x101#32 }

/-- A word of SRAM written with good parity, and the word below it with bad parity in lane 0. -/
def sram : Sram :=
  { data := [(0x9FFC, 0x11#8), (0x9FFD, 0#8), (0x9FFE, 0#8), (0x9FFF, 0#8), (0xA000, 0x44#8), (0xA001, 0x33#8),
      (0xA002, 0x22#8), (0xA003, 0x11#8)],
    parity := [(0x9FFC, 0#8), (0x9FFD, 1#8), (0x9FFE, 1#8), (0x9FFF, 1#8), (0xA000, 1#8), (0xA001, 1#8), (0xA002, 1#8),
      (0xA003, 1#8)] }

/-- The machine with that SRAM. -/
def withSram (s : State) : State := { s with bus := { s.bus with sram := sram } }

/-- The loader LOADING, in a phase, with its request standing. -/
def loading (w : Walk) (p : Part) : Part := { p with plans := { p.plans with loader := .loading w } }

/-- A walk that has read two words of the run of two generator entries at 0A000h. -/
def walk : Walk := ⟨3, 0x8000, 1, [], .descriptor, 0⟩

/-! ## What the statements' hypotheses are met by -/

theorem test_witness_EmptyQueueIsOneEdge :
    (State.reset.pending = [] ∧ State.reset.bus.pair = none ∧ State.reset.bus.subMs < 999) ∧
    (let s : State := { State.reset with bus := { State.reset.bus with subMs := 998, pair := some ⟨5#22, 2⟩ } }
     s.pending = [] ∧ s.bus.subMs < 999 ∧ s.bus.pair = some ⟨5#22, 2⟩ ∧ 2 < 3) ∧
    (let s : State := { State.reset with bus := { State.reset.bus with subMs := 999, pair := some ⟨5#22, 3⟩ } }
     s.pending = [] ∧ 999 ≤ s.bus.subMs ∧ s.bus.pair = some ⟨5#22, 3⟩ ∧ 3 ≤ 3) ∧
    (mk (loading walk (planned .noPlan))).part.plans.loader = .loading walk ∧
    (mk (loading walk (planned .noPlan))).pending = [] := by decide +kernel

theorem test_witness_EmptyQueueIsOneEdge_notLoading : ∀ w, State.reset.part.plans.loader ≠ .loading w := by
  intro w h; cases h

/-- The machine with the cycle of the latest grant in progress. -/
def inCycle (k : CycleKind) : State :=
  { State.reset with bus := { State.reset.bus with cycle := some ⟨.rotating .cp, k⟩ } }

theorem test_witness_FullResetLeaves (w : WordAddr) (strobes : BitVec 4) (n : Nat) :
    (∀ moment ∈ [ResetMoment.between, .inCycle, .inPromotion], ∀ k ∈ [CycleKind.write 5#22 3#4, .promotedRead 4#22],
      (moment = .inCycle ∧ (inCycle k).bus.cycle.map Cycle.kind = some (.write w strobes) ∨
        moment = .inPromotion ∧ (inCycle k).bus.cycle.map Cycle.kind = some (.promotedRead w) ∧ strobes = 15#4) →
      n < 4 → strobes.toNat.testBit n = true → 22 ≠ laneAddr w n) ∧
    (inCycle (.write 5#22 3#4)).bus.cycle.map Cycle.kind = some (.write 5#22 3#4) ∧
    (3#4).toNat.testBit 1 = true ∧ laneAddr 5#22 1 = 21 := by
  refine ⟨fun moment _ k hk h hn hb => ?_, by decide, by decide, by decide⟩
  simp only [List.mem_cons, List.not_mem_nil, or_false] at hk
  rcases hk with rfl | rfl <;> rcases h with ⟨-, h⟩ | ⟨-, h, -⟩ <;> cases h
  · have : n = 0 ∨ n = 1 ∨ n = 2 ∨ n = 3 := by omega
    rcases this with rfl | rfl | rfl | rfl <;> revert hb <;> decide
  · have : n = 0 ∨ n = 1 ∨ n = 2 ∨ n = 3 := by omega
    rcases this with rfl | rfl | rfl | rfl <;> decide

theorem test_witness_ControllerResetLeaves :
    (mk (loading walk (planned .noPlan))).part.plans.loader = .loading walk ∧
    nextGrant State.reset.bus (loading walk (planned .noPlan)) = some (.rotating .pl) ∧
    nextGrant State.reset.bus State.reset.part ≠ some (.rotating .pl) ∧
    (let s : State := { State.reset with bus := { State.reset.bus with fp := .waiting ⟨5#22, 15#4, 0#32, .plain⟩ } }
     isWaiting (phaseOf .fp s.bus) = true) ∧
    (let s : State := { State.reset with bus := { State.reset.bus with ctlHeld := true } }
     (Port.cp = .cp ∧ s.bus.ctlHeld = true)) := by decide +kernel

theorem test_witness_ArbiterOrder :
    (let b : Bus := { State.reset.bus with pair := some ⟨5#22, 0⟩ }
     cycleOpen State.reset.part = false ∧ b.pair ≠ none) ∧
    (let p : Part := { State.reset.part with sq := [⟨.genTarget 0, 0#32⟩] }
     cycleOpen p = false ∧ State.reset.bus.pair = none ∧ p.sq ≠ []) ∧
    (let b : Bus := { State.reset.bus with fp := .waiting ⟨5#22, 15#4, 0#32, .plain⟩ }
     let p := loading walk State.reset.part
     cycleOpen p = false ∧ b.pair = none ∧ p.sq = [] ∧ b.last = .pl ∧ nextGrant b p = some (.rotating .fp)) ∧
    nextGrant State.reset.bus State.reset.part = none := by decide +kernel

theorem test_witness_RefusalsRecorded :
    (0 < 0x10000 ∧ 0 % 4 = 0 ∧ portReady .cp State.reset.bus = true ∧
      writeVerdict .cp (classify 0) 15#4 0#32 State.reset.part = some .class_) ∧
    (0x13FC < 0x10000 ∧ 0x13FC % 4 = 0 ∧ portReady .fp State.reset.bus = true ∧
      writeVerdict .fp (classify 0x13FC) 15#4 0#32 State.reset.part = some .class_) ∧
    (∀ off ∈ [0x28, 0x3C, 0x1D0, 0x1FC],
      off % 4 = 0 ∧ (0x28 ≤ off ∧ off < 0x40 ∨ 0x1D0 ≤ off ∧ off < 0x200) ∧ classify off = .live .hole) := by decide +kernel

theorem test_witness_RefusalsRecorded_reads :
    ∀ r ∈ [WrongPortRead.fpAttention, .fpCause, .fpNoticeTake, .cpCmdTake],
      portReady (wrongPort r) State.reset.bus = true := by decide +kernel

theorem test_witness_PassThroughWriteStores : ∀ port ∈ [Port.cp, .fp], portFree port State.reset = true ∧
    inWindow State.reset.part.base 0x4000#22 = false ∧ inWindow State.reset.part.base 0x3FFF#22 = true ∧
    classify (windowOffset 0x800#22) = .frame ∧ classify (windowOffset 0xBFF#22) = .frame ∧
    classify (windowOffset 0xC00#22) = .free ∧ classify (windowOffset 0x3FFF#22) = .free := by decide +kernel

theorem test_witness_ReadServedFromSram : ∀ port ∈ [Port.cp, .fp],
    portFree port (withSram State.reset) = true ∧
    (withSram State.reset).bus.sram.parityGood 0x2800#22 15#4 = true ∧
    (withSram State.reset).bus.sram.parityGood 0x27FF#22 0#4 = false ∧
    (withSram State.reset).bus.sram.parityGood 0x27FF#22 14#4 = true ∧
    classify (windowOffset 0x2800#22) = .free ∧ classify (windowOffset 0x27FF#22) = .free := by decide +kernel

theorem test_witness_free_is_not_live : ∀ l, classify (windowOffset 0x2800#22) ≠ .live l := by
  intro l h
  have k : classify (windowOffset 0x2800#22) = .free := by decide +kernel
  rw [k] at h
  cases h

theorem test_witness_ReadServedFromSram_retry :
    let s := mk { Part.reset 0#8 0 with sq := [⟨.consCmd 63, 0#32⟩] }
    0xFE4 < 0x10000 ∧ 0xFE4 % 4 = 0 ∧ classify 0xFE4 = .consCmd 63 ∧ portReady .fp s.bus = true ∧
      ∃ e ∈ s.part.sq, sqOffset e.word = 0xFE4 := by decide +kernel

theorem test_witness_LiveWordsAnswer :
    portReady .cp State.reset.bus = true ∧ portReady .fp State.reset.bus = true ∧
    (∀ i : SecId, isIslandId State.reset.part.img.ties i = true) ∧
    (let m : MeasCopy := ⟨7#32, true, none⟩
     isIslandId m 0 = true ∧ isIslandId m 3 = false) ∧
    (let l : List ShedEntry := [⟨.cons 63, .trip, 30, 0#32, .held⟩]
     l[0]? = some ⟨.cons 63, .trip, 30, 0#32, .held⟩ ∧ l.length ≤ 67) := by decide +kernel

theorem test_witness_PairedReadOpensPair :
    portFree .cp (withSram State.reset) = true ∧ inWindow 0#8 0x4000#22 = false ∧
    (withSram State.reset).bus.sram.parityGood 0x2800#22 15#4 = true ∧
    (withSram State.reset).bus.sram.parityGood 0x27FF#22 15#4 = false ∧
    portReady .cp State.reset.bus = true ∧ inWindow State.reset.part.base 0#22 = true ∧
    classify (windowOffset 0#22) = .live .partStatus ∧ answers .partStatus .cp = true := by decide +kernel

/-- CP waiting with an access, and a pair open on word 5. -/
def pairedCp (a : Access) : State :=
  { State.reset with bus := { State.reset.bus with cp := .waiting a, pair := some ⟨5#22, 1⟩ } }

theorem test_witness_PairTimeoutEndsPair :
    State.reset.bus.pair = none ∧
    (∀ edges ∈ [0, 3], ∀ subMs ∈ [0, 999],
      let s : State := { State.reset with bus := { State.reset.bus with pair := some ⟨5#22, edges⟩, subMs := subMs } }
      s.bus.pair = some ⟨5#22, edges⟩ ∧ s.bus.subMs ≤ 999 ∧ isWaiting s.bus.cp = false) ∧
    (pairedCp ⟨6#22, 15#4, 0#32, .plain⟩).bus.pair = some ⟨5#22, 1⟩ ∧ (6#22 : WordAddr) ≠ 5#22 ∧
    (pairedCp ⟨5#22, 15#4, 0#32, .read false⟩).bus.cp = .waiting ⟨5#22, 15#4, 0#32, .read false⟩ ∧
    (pairedCp ⟨5#22, 15#4, 7#32, .plain⟩).bus.cp = .waiting ⟨5#22, 15#4, 7#32, .plain⟩ ∧
    (∀ paired, Job.plain ≠ .read paired) ∧ cycleOpen (pairedCp ⟨5#22, 15#4, 7#32, .plain⟩).part = false := by
  decide +kernel

/-- A port waiting with an access, over the SRAM with one bad byte. -/
def waiting (port : Port) (a : Access) (p : Part) : State :=
  withSram { mk p with bus := setPhase port (.waiting a) State.reset.bus }

theorem test_witness_MasterAccessGrantServes_waits (port : Port) (a : Access) (p : Part) :
    phaseOf port (waiting port a p).bus = .waiting a ∧
      nextGrant (waiting port a State.reset.part).bus State.reset.part = some (.rotating (requesterOf port)) := by
  cases port <;> exact ⟨rfl, rfl⟩

/-- CP waiting under an open pair with a read of C0's CMD word, which has a store-queue entry. -/
def promoting : State :=
  { mk { Part.reset 0#8 0 with sq := [⟨.consCmd 0, 5#32⟩, ⟨.genTarget 0, 6#32⟩] } with
    bus := { State.reset.bus with cp := .waiting ⟨0x201#22, 15#4, 0#32, .read false⟩, pair := some ⟨9#22, 0⟩ } }

theorem test_witness_MasterAccessGrantServes_promotion :
    nextGrant promoting.bus promoting.part = some (.rotating .cp) ∧ (promoting.part.sq.map SqEntry.word).Nodup ∧
    windowAddr promoting.part.base (sqOffset (.consCmd 0)) = 0x201#22 ∧
    windowAddr promoting.part.base (sqOffset (.genTarget 0)) ≠ 0x201#22 := by decide +kernel

theorem test_witness_MasterAccessGrantServes :
    sram.parityGood 0x2800#22 15#4 = true ∧ sram.parityGood 0x27FF#22 15#4 = false ∧
    (∀ port ∈ [Port.cp, .fp], portFree port State.reset = true) ∧
    nextGrant State.reset.bus State.reset.part ≠ some (.rotating .cp) := by decide +kernel

theorem test_witness_MasterAccessGrantServes_idle : ∀ a, phaseOf .cp State.reset.bus ≠ .waiting a := by
  intro a h; cases h

/-- The part in SETTLING with every planned generator FRESH. -/
def freshGens : Part := withMeas 0 0#32 (withMeas 1 0#32 (withMeas 2 0#32 (planned .settling)))

theorem test_witness_MeasureCopyTaken :
    portFree .fp (mk (planned .running)) = true ∧ (mk (planned .running)).part.plans.active.gens[7] = none ∧
    (mk (planned .running)).part.plans.active.cons[63] = none ∧
    (∀ sec, islandId ⟨0#32, true, some 1000#32⟩ sec = islandId (mk (planned .running)).part.img.ties sec) ∧
    (mk (planned .running)).part.plans.partState ≠ .settling ∧
    (portFree .fp (mk freshGens) = true ∧ freshGens.plans.partState = .settling ∧
      (∀ g : GenId, freshGens.plans.active.gens[g] = none ∨ freshness freshGens.img.genMeas[g] = .fresh) ∧
      isIslandId ⟨0#32, true, some 1000#32⟩ 3 = true ∧ freshGens.islands[3].condition = .dead) ∧
    (portFree .fp (mk (planned .settling)) = true ∧ (planned .settling).plans.active.gens[0] ≠ none ∧
      freshness (planned .settling).img.genMeas[0] ≠ .fresh) := by decide +kernel

theorem test_witness_PartitionChangeForms :
    let m : MeasCopy := ⟨1#32, true, some 1000#32⟩
    (∀ st ∈ [PartState.noPlan, .settling], portFree .fp (mk (planned st)) = true ∧
      islandId m 1 ≠ islandId (mk (planned st)).part.img.ties 1) ∧
    settled { (planned .settling) with img := { (planned .settling).img with ties := m } } = false ∧
    (isIslandId m 0 = true ∧ islandKind (planned .settling).img.ties m 0 ≠ .kept) ∧
    (isIslandId m 2 = true ∧ islandKind (planned .settling).img.ties m 2 = .kept) := by decide +kernel

/-- S0 and S1 tied, G0 ONLINE with 600 kW, and the plan's C1 and drive moved to S1: a write that opens the tie splits them. -/
def tied (limit : Nat) : Part :=
  let pl : Plan := { plan with gens := setAt (setAt plan.gens 0 (some ⟨0, limit, 100, 1, 100⟩)) 1 none
                               cons := setAt plan.cons 1 (some ⟨1, 2, 0, 50, false, 0⟩) }
  let p : Part := { loaded with plans := { loaded.plans with active := pl } }
  agreed { p with img := { p.img with ties := ⟨1#32, true, some 1000#32⟩ } }

theorem test_witness_PartitionChangeInRunning :
    (∀ limit ∈ [99, 100], portFree .fp (mk (tied limit)) = true ∧ isRunning (tied limit) = true ∧
      (let m : MeasCopy := ⟨0#32, true, some (after (tied limit).ms (staleTime (tied limit)))⟩
       let q : Part := { tied limit with img := { (tied limit).img with ties := m } }
       islandId m 1 ≠ islandId (tied limit).img.ties 1 ∧
       (isIslandId m 0 = true ∧ islandKind (tied limit).img.ties m 0 = .split ∧ carrying q 0 = [0] ∧
         splitEstimate q 0 = 100 ∧ (totalsOf q 0).limit = limit) ∧
       (isIslandId m 1 = true ∧ islandKind (tied limit).img.ties m 1 = .split ∧ carrying q 1 = [] ∧
         candidatesOf q 1 = [.cons 1]) ∧
       (isIslandId m 3 = true ∧ islandKind (tied limit).img.ties m 3 = .kept))) ∧
    (let m : MeasCopy := ⟨1#32, true, some 1000#32⟩
     let q : Part := { loaded with img := { loaded.img with ties := m } }
     islandId m 1 ≠ islandId loaded.img.ties 1 ∧ islandKind loaded.img.ties m 0 = .merged ∧ carrying q 0 = [0]) := by
  decide +kernel

theorem test_witness_GeneratorBreakerMoves :
    ∀ st ∈ [GenState.idle, .starting, .online, .unloading, .tripped, .failed],
      portFree .fp (mk (withGen 2 { Gen.init with state := st } (planned .running))) = true ∧
      (mk (withGen 2 { Gen.init with state := st } (planned .running))).part.plans.active.gens[2].isSome = true ∧
      bit 0x10000#32 16 = true ∧ bit 0x20000#32 16 = false ∧ bit 0x20000#32 17 = true := by decide +kernel

/-- G1 in a state beside G0, ONLINE with 600 kW of load, its last target within the deadband of any. -/
def joining (st : GenState) (seen : Bool) : Part :=
  agreed (withGen 1 { Gen.init with state := st, readySeen := seen, openIssued := true } (unagreed 600))

theorem test_witness_GeneratorBreakerMoves_joining :
    (∀ st ∈ [GenState.idle, .starting, .tripped, .failed, .unloading], ∀ seen ∈ [true, false],
      let p := joining st seen
      portFree .fp (mk p) = true ∧ genIsland p 1 = some 0 ∧ p.gens[1].state = st ∧ p.gens[1].readySeen = seen ∧
        p.gens[1].openIssued = true ∧ p.plans.partState ≠ .settling ∧
        p.islands[0].totals = totalsOf p 0 ∧ p.islands[0].condition = conditionOf p 0 (totalsOf p 0)) ∧
    (∀ h, genIsland (joining .idle false) h = some 0 → (joining .idle false).gens[h].state ≠ .unloading) ∧
    settled (planned .settling) = false := by decide +kernel

/-- The part after a MEAS write of G1. -/
def afterMeas (x : Word) (p : Part) : Part :=
  match exec (.generatorMeasWrite 1 15#4 x .free) (mk p) with
  | .next t => t.part
  | .fault _ | .refused _ => p

/-- An entry to ONLINE keeps its cap under a greater first share, and loses it at an equal one (R59, R87, R90). -/
theorem test_step_goOnline :
    (afterMeas 0x10256#32 (joining .idle false)).sharing[1] = ⟨598, true, 598, 0#16, 598, some 100#32⟩ ∧
    (afterMeas 0x10258#32 (joining .idle false)).sharing[1] = ⟨600, false, 0, 0#16, 0, none⟩ := by decide +kernel

theorem test_step_goOnline_reports :
    let t := afterMeas 0x10000#32 (joining .idle false)
    t.gens[1].state = .online ∧ ⟨.genTarget 1, 0#32⟩ ∈ t.sq ∧ t.lu.notices = [notice .genState 1 2 0 0 0#32 0#32] ∧
      t.lu.pendingCmds = [] := by decide +kernel

theorem test_step_noteReady :
    (afterMeas 0x20000#32 (joining .starting false)).lu.notices = [notice .genState 1 1 0 9 0#32 0#32] ∧
    (afterMeas 0x20000#32 (joining .starting true)).lu.notices = [] := by decide +kernel

theorem test_step_stopCompleted :
    let t := afterMeas 0#32 (joining .unloading false)
    t.gens[1] = Gen.init ∧ t.sq.head? = some ⟨.genTarget 1, 0#32⟩ ∧ t.lu.notices = [notice .genState 1 0 0 3 0#32 0#32] ∧
      t.lu.pendingCmds = [⟨.gen 1, .stopGen, 2#8, 0, 0#32, 0#32⟩] := by decide +kernel

theorem test_witness_TripOutsideRunning :
    ∀ st ∈ [PartState.noPlan, .settling],
      let s := mk (withGen 0 online (planned st))
      portFree .fp s = true ∧ bit 0#32 16 = false ∧ genIsland s.part 0 = some 0 ∧ s.part.gens[0].state = .online ∧
      settled { s.part with img := { s.part.img with genMeas := setAt s.part.img.genMeas 0 ⟨0#32, true,
        some (after s.part.ms (staleTime s.part))⟩ } } = false ∧
      (∀ h : GenId, s.part.gens[h].state ≠ .unloading) := by decide +kernel

/-- G0 and G1 ONLINE in RUNNING, G1 with 1000 kW of limit and G0 with a load, G2 beside them on S0 in a state. -/
def tripping (kwOut : Nat) (st : GenState) : Part :=
  let pl : Plan := { plan with gens := setAt plan.gens 2 (some ⟨0, 1000, 100, 3, 100⟩) }
  let p : Part := { planned .running with plans := { (planned .running).plans with active := pl } }
  agreed (withMeas 0 (0x10000#32 + BitVec.ofNat 32 kwOut) (withGen 0 online (withGen 1 online
    (withGen 2 { Gen.init with state := st } p))))

theorem test_witness_TripInRunning_candidate :
    ∀ kwOut ∈ [980, 981],
      (∀ k, genIsland (tripping kwOut .idle) k = some 0 → (tripping kwOut .idle).gens[k].state ≠ .starting) ∧
      (∀ k, genIsland (tripping kwOut .idle) k = some 0 → (tripping kwOut .idle).gens[k].state = .idle →
        genRank (tripping kwOut .idle) k ≠ 0 → k ≠ 2 →
          genRank (tripping kwOut .idle) 2 < genRank (tripping kwOut .idle) k) := by decide +kernel

theorem test_witness_TripInRunning :
    ∀ kwOut ∈ [980, 981], ∀ st ∈ [GenState.idle, .starting],
      let p := tripping kwOut st
      portFree .fp (mk p) = true ∧ bit 0x20000#32 16 = false ∧ genIsland p 0 = some 0 ∧ p.gens[0].state = .online ∧
      isRunning p = true ∧ (∀ h : GenId, genIsland p h = some 0 → p.gens[h].state ≠ .unloading) ∧
      (genIsland p 1 = some 0 ∧ p.gens[1].state = .online) ∧ p.islands[0].totals.load = kwOut ∧
      1000 - p.header.shedMargin = 980 ∧ p.islands[0].releaseHold = none ∧
      (∀ c : ConsId, p.cons[c].state = .restoring → hasEntry p (.cons c) = false) ∧ (genIsland p 2 = some 0 ∧ p.gens[2].state = st ∧ genRank p 2 ≠ 0) := by
  decide +kernel

theorem test_witness_TripInRunning_restoring :
    let p : Part := { tripping 981 .idle with cons := setAt (tripping 981 .idle).cons 1 ⟨.restoring, some 9#32⟩ }
    restoringOf p 0 = [.cons 1] ∧ (∀ c : ConsId, p.cons[c].state = .restoring → hasEntry p (.cons c) = false) ∧
      portFree .fp (mk p) = true ∧ p.islands[0].releaseHold = none := by decide +kernel

/-- S0 with G0 and G1 ONLINE, G1's output and freshness given, and with timers of its own: a trip of G0 leaves it as G1's
output says. -/
def timed (kwG1 : Nat) (fresh : Bool) (r : Island) : Part :=
  let p := withMeas 1 (0x10000#32 + BitVec.ofNat 32 kwG1) (tripping 100 .tripped)
  let img := { p.img with genMeas := if fresh then p.img.genMeas else setAt p.img.genMeas 1 { p.img.genMeas[1] with timer := none } }
  let q := agreed { p with img := img }
  setIsland 0 { q.islands[0] with overload := r.overload, startDelay := r.startDelay, releaseHold := r.releaseHold } q

/-- What the trip of G0 leaves of S0. -/
def afterTrip (p : Part) : Option Island :=
  match exec (.generatorMeasWrite 0 15#4 0#32 .free) (mk p) with
  | .next t => some t.part.islands[0]
  | .fault _ | .refused _ => none

theorem test_witness_TripInRunning_startDelay :
    ∀ d ∈ [DelayTimer.stopped, .running 9#32, .suspended 40],
      (afterTrip (timed 970 true { Island.blank with startDelay := d })).map (fun r => (r.condition, r.held, r.startDelay)) =
        some (.short, false, match d with
          | .stopped => .running 100#32
          | .running _ => .running 9#32
          | .suspended _ => .running 40#32) := by
  decide +kernel

theorem test_witness_TripInRunning_startDelay_held :
    ∀ d ∈ [DelayTimer.stopped, .running 9#32, .suspended 40],
      (afterTrip (timed 970 false { Island.blank with startDelay := d })).map (fun r => (r.condition, r.held, r.startDelay)) =
        some (.short, true, match d with
          | .stopped => .suspended 100
          | .running _ => .suspended 9
          | .suspended _ => .suspended 40) := by
  decide +kernel

theorem test_witness_TripInRunning_overload :
    let standing := fun o : Option Word =>
      (afterTrip (timed 1300 true { Island.blank with overload := o })).map fun r => (r.condition, r.overload)
    standing none = some (.overloaded, some 200#32) ∧ standing (some 9#32) = some (.overloaded, some 9#32) := by
  decide +kernel

theorem test_witness_TripInRunning_releaseHold :
    ∀ h ∈ [none, some (Target.cons 0, 9#32)],
      let p : Part := { shedC0 .held .shed (timed 100 true Island.blank) with sq := [] }
      let q := setIsland 0 { p.islands[0] with releaseHold := h } p
      portFree .fp (mk q) = true ∧ q.islands[0].releaseHold = h ∧
      (entriesOf q 0).getLast?.map ShedEntry.target = some (.cons 0) ∧
      (∀ c : ConsId, q.cons[c].state = .restoring → hasEntry q (.cons c) = false) ∧ (afterTrip q).map (fun r => (r.condition, r.held, r.releaseHold)) =
        some (.sound, false, some (.cons 0, if h = some (.cons 0, 9#32) then 9#32 else 5000#32)) := by decide +kernel

theorem test_witness_ConsumerBreakerMoves :
    ∀ st ∈ [ConsState.isOpen, .connected, .shedding, .shed, .stuck, .restoring],
      portFree .fp (mk (shedC0 .held st loaded)) = true ∧
      (mk (shedC0 .held st loaded)).part.plans.active.cons[0].isSome = true ∧
      (mk (shedC0 .held st loaded)).part.cons[0].state = st ∧
      (entryOf (mk (shedC0 .held st loaded)).part (.cons 0)).isSome = true ∧
      hasEntry (mk (shedC0 .held st loaded)).part (.cons 0) = true ∧
      entryOf (mk loaded).part (.cons 0) = none := by decide +kernel

theorem test_witness_ConsumerBreakerMoves_reclose :
    let p := shedC0 .held .shed loaded
    consIsland p 0 = some 0 ∧ p.islands[0].totals = totalsOf p 0 ∧ p.islands[0].condition = conditionOf p 0 (totalsOf p 0) ∧
    entryOf p (.cons 0) = some ⟨.cons 0, .overload, 30, 0#32, .held⟩ ∧
    (match exec (.consumerMeasWrite 0 15#4 0x10000#32 .free) (mk p) with
      | .next t => some (t.part.lu.pendingCmds, t.part.lu.notices, t.part.islands[0].totals.openingCredit)
      | .fault _ | .refused _ => none) =
      some ([⟨.cons 0, .openConsumer, 6#8, 0, 30#32, 100#32⟩], [notice .reclosed 0 1 0 0 30#32 100#32], 30) := by
  decide +kernel

/-! ## Requests -/

theorem test_witness_StartOfIdle :
    portFree .cp (mk loaded) = true ∧ genIsland loaded 1 = some 0 ∧ loaded.gens[1].state = .idle ∧
    bits 0x101#32 0 2 = 1 ∧ bits 0x101#32 8 4 ≠ 0 ∧ bit 0x11#32 4 = true ∧ bits 0x11#32 0 2 = 1 := by decide +kernel

theorem test_witness_StartWithdrawsStop :
    ∀ issued ∈ [true, false],
      let p := agreed (withGen 1 { Gen.init with state := .unloading, ramp := 90, openIssued := issued } loaded)
      portFree .cp (mk p) = true ∧ genIsland p 1 = some 0 ∧ p.gens[1].state = .unloading ∧ bits 0x101#32 0 2 = 1 ∧
      bits 0x101#32 8 4 ≠ 0 ∧ reqFixed p.img.genReq[1] = bit 0x101#32 4 ∧ reqWeight p.img.genReq[1] = bits 0x101#32 8 4 ∧
      p.sharing[1].capOpen = false ∧ (bit 0x11#32 4 = true ∧ bits 0x11#32 0 2 = 1) := by decide +kernel

theorem test_witness_ReturnToIdle :
    (∀ st ∈ [GenState.starting, .tripped, .failed],
      let p := agreed (withGen 1 { Gen.init with state := st } loaded)
      portFree .cp (mk p) = true ∧ genIsland p 1 = some 0 ∧ p.gens[1].state = st ∧ p.islands[0].totals = totalsOf p 0 ∧
        p.islands[0].condition = conditionOf p 0 (totalsOf p 0)) ∧
    bits 0x102#32 8 4 ≠ 0 ∧ bits 0x102#32 0 2 = 2 ∧ bits 0x103#32 0 2 = 3 ∧ bits 0x103#32 8 4 ≠ 0 := by decide +kernel

/-- Two generators ONLINE with 600 kW, the second with a last target. -/
def twoOnline (last : Nat) : Part :=
  let p := agreed (withGen 1 online (withMeas 1 0x10000#32 loaded))
  { p with sharing := setAt p.sharing 1 { Sharing.init with lastWritten := last } }

theorem test_witness_StopUnloads :
    ∀ last ∈ [100, 101],
      let p := twoOnline last
      portFree .cp (mk p) = true ∧ genIsland p 1 = some 0 ∧ p.gens[1].state = .online ∧ isRunning p = true ∧
      p.islands[0].totals = totalsOf p 0 ∧ p.islands[0].condition = conditionOf p 0 (totalsOf p 0) ∧
      p.islands[0].condition = .sound ∧
      (p.header.startMargin : Int) ≤ (p.islands[0].totals.firm : Int) - (genContribution p 1 : Int)
        - (p.islands[0].totals.load : Int) ∧
      p.sharing[1].lastWritten = last ∧ genRating p 1 * p.header.unloadFloorPct / 100 = 100 := by decide +kernel

theorem test_witness_StopRefused :
    (let p := withGen 0 online (planned .settling)
     portFree .cp (mk p) = true ∧ genIsland p 0 = some 0 ∧ p.gens[0].state = .online ∧ isRunning p = false) ∧
    (let p := agreed (withMeas 0 (0x10000#32 + 960#32) loaded)
     portFree .cp (mk p) = true ∧ genIsland p 0 = some 0 ∧ p.gens[0].state = .online ∧ isRunning p = true ∧
       p.islands[0].condition ≠ .sound) ∧
    (portFree .cp (mk loaded) = true ∧ genIsland loaded 0 = some 0 ∧ loaded.gens[0].state = .online ∧
      isRunning loaded = true ∧ loaded.islands[0].condition = .sound ∧
      (loaded.islands[0].totals.firm : Int) - (genContribution loaded 0 : Int) - (loaded.islands[0].totals.load : Int)
        < (loaded.header.startMargin : Int)) := by decide +kernel

theorem test_witness_ModeAndSetpointWrites_ignored :
    ∀ st ∈ [GenState.idle, .starting, .online, .unloading, .tripped, .failed],
      let p := withGen 1 { Gen.init with state := st } loaded
      portFree .cp (mk p) = true ∧ p.plans.active.gens[1].isSome = true ∧ p.gens[1].state = st := by decide +kernel

theorem test_witness_ModeAndSetpointWrites_ignoredWords :
    reqFixed loaded.img.genReq[1] = false ∧ reqWeight loaded.img.genReq[1] = 1 ∧
    (bits 0x101#32 0 2 = 1 ∧ bit 0x101#32 4 = false ∧ bits 0x101#32 8 4 = 1) ∧
    (bits 0x102#32 0 2 = 2 ∧ bit 0x102#32 4 = false ∧ bits 0x102#32 8 4 = 1) ∧
    (bits 0x103#32 0 2 = 3 ∧ bit 0x103#32 4 = false ∧ bits 0x103#32 8 4 = 1) := by decide +kernel

theorem test_witness_ModeAndSetpointWrites :
    portFree .cp (mk loaded) = true ∧ bits 0x100#32 0 2 = 0 ∧ bits 0x100#32 8 4 ≠ 0 ∧
    reqFixed loaded.img.genReq[0] = bit 0x100#32 4 ∧ reqWeight loaded.img.genReq[0] = bits 0x100#32 8 4 ∧
    bits 0x10#32 0 2 = 0 ∧ bit 0x10#32 4 = true ∧ bits loaded.img.genFixed[0] 0 16 = bits 0x50000#32 0 16 := by
  decide +kernel

theorem test_witness_TargetsWritten :
    (∀ last ∈ [597, 598, 602, 603],
      let p : Part := { loaded with sharing := setAt loaded.sharing 0 { Sharing.init with lastWritten := last } }
      portFree .cp (mk p) = true ∧ genIsland p 0 = some 0 ∧ bits p.img.genFixed[0] 0 16 ≠ bits 9#32 0 16 ∧
        carrying p 0 = [0] ∧ targetOf p 0 0 = 600 ∧ p.header.shareDeadband = 2) ∧
    (∀ cap ∈ [599, 600],
      let p : Part := { loaded with sharing := setAt loaded.sharing 0 ⟨0, true, 5, 0#16, cap, some 9#32⟩ }
      p.sharing[0].capOpen = true ∧ 0 ∈ sharers p 0 ∧ firstShare p 0 0 = 600) ∧
    (let p : Part := { loaded with img := { loaded.img with genReq := setAt loaded.img.genReq 0 0x10#32 } }
     (genIsland p 0 = some 0 ∧ p.gens[0].state = .online) ∧ sharers p 0 = [] ∧ p.islands[0].noSharer = false) := by
  decide +kernel

theorem test_witness_DriveLimitWritten :
    portFree .cp (mk loaded) = true ∧ loaded.plans.active.drives[3] = none ∧ driveIsland loaded 0 = some 0 := by
  decide +kernel

/-- C0 STUCK, with its word as the ladder wrote it. -/
def stuckC0 : Part := { loaded with cons := setAt loaded.cons 0 ⟨.stuck, none⟩, cmd := setAt loaded.cmd 0 0x201#32 }

theorem test_witness_CmdWriteMerged :
    (∀ p ∈ [loaded, shedC0 .held .shed loaded], portFree .cp (mk p) = true ∧ cmdAgrees 0 p = true ∧
      p.cons[0].state ≠ .stuck) ∧
    (portFree .cp (mk stuckC0) = true ∧ cmdAgrees 0 stuckC0 = true ∧ bit 2#32 4 = false) ∧
    bits 0#32 0 2 ≠ 3 ∧ bits 1#32 0 2 ≠ 3 ∧ bits 2#32 0 2 = 2 := by decide +kernel

theorem test_witness_AckOfStuck :
    portFree .cp (mk stuckC0) = true ∧ bits 0x10#32 0 2 ≠ 3 ∧ bit 0x10#32 4 = true ∧ stuckC0.cons[0].state = .stuck ∧
    hasEntry stuckC0 (.cons 0) = false := by decide +kernel

theorem test_witness_GrantReconciles :
    ∀ p ∈ [loaded, stuckC0, shedC0 .held .shed loaded], ∀ ack ∈ [true, false], ∀ masked ∈ [true, false],
      let s : State := { mk p with bus := { State.reset.bus with
        cp := .waiting ⟨cmdAddr p 0, 15#4, 2#32, .consCmd 0 ack masked⟩ } }
      s.bus.cp = .waiting ⟨cmdAddr s.part 0, 15#4, 2#32, .consCmd 0 ack masked⟩ ∧
        nextGrant s.bus s.part = some (.rotating .cp) := by decide +kernel

/-! ## Plans and keys -/

/-- A walk in its inter-burst gap: it makes no request. -/
def gapWalk : Walk := { walk with gapLeft := 3 }

theorem test_witness_PlanLoadStarts :
    portFree .cp State.reset = true ∧ portFree .cp (mk (loading gapWalk (planned .noPlan))) = true ∧
    (loading gapWalk (planned .noPlan)).plans.loader = .loading gapWalk ∧
    (0x200 ≤ bits 0x200#32 0 24 ∧ bits 0xFFFC#32 0 24 < 0x10000 ∧ bits 0xFFFC#32 0 24 % 4 = 0) ∧
    (¬ 0x200 ≤ bits 0x1FC#32 0 24 ∧ bits 0x202#32 0 24 % 4 ≠ 0 ∧ ¬ bits 0x10000#32 0 24 < 0x10000) := by decide +kernel

theorem test_witness_ControlWordsMoveKey :
    (∀ k ∈ [KeyState.locked, .half, .unlocked],
      let p : Part := { planned .running with plans := { (planned .running).plans with key := k } }
      portFree .cp (mk p) = true ∧ isLoading p = false ∧ p.plans.key = k) ∧
    (portFree .cp (mk (loading gapWalk (planned .noPlan))) = true ∧
      isLoading (loading gapWalk (planned .noPlan)) = true) := by decide +kernel

/-- A part ready to activate a staging plan. -/
def ready (staging : Plan) (p : Part) : Part :=
  { p with plans := { p.plans with staging := staging, loader := .complete, key := .unlocked } }

theorem test_witness_ActivateJudged :
    (∀ p ∈ [planned .noPlan, { planned .noPlan with plans := { (planned .noPlan).plans with key := .unlocked } },
        ready plan (shedC0 (.opening 9#32) .shedding loaded), ready Plan.empty loaded, ready plan loaded,
        ready plan (planned .noPlan), ready plan (planned .settling)],
      portFree .cp (mk p) = true) ∧
    (planned .noPlan).plans.key ≠ .unlocked ∧ (planned .noPlan).plans.loader ≠ .complete ∧
    ((ready plan (shedC0 (.opening 9#32) .shedding loaded)).shedList.filter isOpening).length ≠ 0 ∧
    (loaded.shedList.filter isOpening).length = 0 ∧
    (loaded.gens[0].state = .online ∧ (ready Plan.empty loaded).plans.staging.gens[0] = none) ∧
    (∀ g : GenId, loaded.gens[g].state = .online → (ready plan loaded).plans.staging.gens[g] = plan.gens[g] ∧
      (ready plan loaded).plans.active.gens[g] = plan.gens[g] ∧ plan.gens[g].isSome = true) ∧
    (∀ g : GenId, (planned .noPlan).gens[g].state = .idle ∧ (planned .settling).gens[g].state = .idle) := by
  decide +kernel

/-- D0 cut to a limit, with its entry, under a plan whose floor is 100 kW; and that plan with another floor, and with D3
present in place of D0. -/
def cutD0 (limit : Nat) (p : Part) : Part :=
  agreed { p with shedList := [⟨.drive 0, .overload, 30, 0#32, .held⟩], drives := setAt p.drives 0 ⟨true, limit⟩ }

def withFloor (floor : Nat) : Plan := { plan with drives := setAt plan.drives 0 (some ⟨0, 3, 0, floor⟩) }

def withD3 : Plan := { plan with drives := setAt Plan.empty.drives 3 (some ⟨0, 3, 0, 100⟩) }

theorem test_balanced_cutD0 : (cutD0 150 loaded).balanced := by
  refine ⟨fun i => releaseTimed_of_none ?_, ?_, ?_⟩
  · revert i; decide +kernel
  · decide +kernel
  · unfold islandStands islandAgrees; decide +kernel

theorem test_witness_ActivateJudged_drives :
    (∀ p ∈ [cutD0 150 loaded, cutD0 150 (planned .settling), cutD0 150 (planned .noPlan)],
      ∀ pl ∈ [withFloor 150, withFloor 151, withD3, Plan.empty],
        portFree .cp (mk (ready pl p)) = true ∧ (ready pl p).plans.key = .unlocked ∧
        ((ready pl p).shedList.filter isOpening).length = 0 ∧ p.drives[0] = ⟨true, 150⟩ ∧ p.drives[3].cut = false) ∧
    isRunning (cutD0 150 loaded) = true ∧
    (∀ g : GenId, (cutD0 150 (planned .settling)).gens[g].state = .idle) ∧
    (∀ st ∈ [PartState.noPlan, .settling], ∀ pl ∈ [withFloor 150, withFloor 151, withD3],
      settled { cutD0 150 (planned st) with plans := { (planned st).plans with active := pl } } = false) := by
  decide +kernel

/-- What the activation leaves of a drive: its entry, its LIMIT words, and its shed-list credit. -/
def afterActivate (d : DriveId) (pl : Plan) (p : Part) : Option (Drive × List SqEntry × Option Nat) :=
  match exec (.activate 15#4 0#32 .free) (mk (ready pl p)) with
  | .next t => some (t.part.drives[d], t.part.sq.filter fun e => e.word == .driveLimit d,
      (entryOf t.part (.drive d)).map ShedEntry.credit)
  | .fault _ | .refused _ => none

theorem test_step_activate_drives :
    ∀ p ∈ [cutD0 150 loaded, cutD0 150 (planned .settling)],
      afterActivate 0 (withFloor 150) p = some (⟨true, 150⟩, [], some 30) ∧
      afterActivate 0 (withFloor 151) p = some (⟨true, 151⟩, [⟨.driveLimit 0, 0x10097#32⟩], some 29) ∧
      afterActivate 3 withD3 p = some (⟨false, 0⟩, [⟨.driveLimit 3, 0xFFFF#32⟩], none) := by decide +kernel

/-- SETTLING with every generator of the plan FRESH, all the sections tied and G0 ONLINE: an activation makes it RUNNING. -/
def oneIsland : Part :=
  cutD0 150 { withGen 0 online freshGens with img := { freshGens.img with ties := ⟨7#32, true, some 1000#32⟩ } }

theorem test_witness_ActivateJudged_running :
    portFree .cp (mk (ready (withFloor 151) oneIsland)) = true ∧ oneIsland.plans.partState = .settling ∧
    (match exec (.activate 15#4 0#32 .free) (mk (ready (withFloor 151) oneIsland)) with
      | .next t => decide (t.part.plans.partState = .running ∧ t.part.drives[0] = ⟨true, 151⟩ ∧
          ∀ i, isIslandId oneIsland.img.ties i = true → t.part.islands[i].condition ≠ .dead)
      | .fault _ | .refused _ => false) = true := by decide +kernel

/-- A walk in the run of two generator entries, the last word of the first in hand. -/
def runWalk : Walk :=
  { walk with phase := .run ⟨.generators, 0, 2, 0x9FF4, 0, true⟩ 3, got := [1#32, 2#32, 3#32] }

theorem test_witness_PlanLoaderReads :
    (let s := withSram (mk (loading { walk with desc := 0xA000 } (planned .noPlan)))
     nextGrant s.bus s.part = some (.rotating .pl) ∧
       s.bus.sram.parityGood (BitVec.ofNat 22 (walkAddr { walk with desc := 0xA000 } / 4)) 15#4 = true ∧
       ({ walk with desc := 0xA000 } : Walk).phase = .descriptor ∧ ({ walk with desc := 0xA000 } : Walk).got.length < 2) ∧
    (let s := withSram (mk (loading { walk with desc := 0x9FFC } (planned .noPlan)))
     nextGrant s.bus s.part = some (.rotating .pl) ∧
       s.bus.sram.parityGood (BitVec.ofNat 22 (walkAddr { walk with desc := 0x9FFC } / 4)) 15#4 = false) ∧
    (let s := withSram (mk (loading runWalk (planned .noPlan)))
     nextGrant s.bus s.part = some (.rotating .pl) ∧
       s.bus.sram.parityGood (BitVec.ofNat 22 (walkAddr runWalk / 4)) 15#4 = true ∧
       runWalk.phase = .run ⟨.generators, 0, 2, 0x9FF4, 0, true⟩ 3 ∧ runWalk.got.length + 1 = entrySize .generators ∧
       3 + 1 ≠ 2 * entrySize .generators) ∧
    (let s := mk (loading gapWalk (planned .noPlan))
     nextGrant s.bus s.part ≠ some (.rotating .pl) ∧ gapWalk.gapLeft ≠ 0 ∧ walk.gapLeft = 0 ∧ s.bus.subMs ≤ 999 ∧
       s.bus.pair = none) ∧
    (∀ edges ∈ [0, 1], (3 - edges + 1 ≤ gapWalk.gapLeft) = (edges = 1) ∧ (edges + gapWalk.gapLeft < 4) = (edges = 0)) ∧
    isWaiting State.reset.bus.cp = false := by decide +kernel

/-- A walk that has read two words of a descriptor at 9FF8h; its third word is that at 0A000h. -/
def thirdWalk (w0 w1 : Word) : Walk := { walk with desc := 0x9FF8, got := [w0, w1] }

theorem test_witness_PlanLoaderReads_third :
    (let s := withSram (mk (loading (thirdWalk 0x20002#32 0xFFE0#32) (planned .noPlan)))
     nextGrant s.bus s.part = some (.rotating .pl) ∧
       s.bus.sram.parityGood (BitVec.ofNat 22 (walkAddr (thirdWalk 0x20002#32 0xFFE0#32) / 4)) 15#4 = true) ∧
    (bits 0x20002#32 0 8 = 2 ∧ bits 0x20002#32 8 8 = 0 ∧ bits 0x20002#32 16 8 = 2) ∧
    (∀ k, k < 8 → 0x200 ≤ (bits 0xFFE0#32 0 24 + 4 * k) % 2 ^ 24 ∧ (bits 0xFFE0#32 0 24 + 4 * k) % 2 ^ 24 < 0x10000) ∧
    ((∀ j, j < 7 → (bits 0xFFE4#32 0 24 + 4 * j) % 2 ^ 24 < 0x10000) ∧
      ¬ (bits 0xFFE4#32 0 24 + 4 * 7) % 2 ^ 24 < 0x10000) ∧
    (bits 0x10701#32 0 8 = 1 ∧ bits 0x10701#32 8 8 = 7) ∧ bits 0x5#32 16 8 = 0 ∧
    (let w : Walk := { runWalk with got := [1#32], phase := .run ⟨.generators, 0, 2, 0x9FFC, 0, true⟩ 1 }
     let s := withSram (mk (loading w (planned .noPlan)))
     nextGrant s.bus s.part = some (.rotating .pl) ∧ w.got.length + 1 < entrySize .generators ∧
       1 + 1 ≠ 2 * entrySize .generators ∧
       s.bus.sram.parityGood (BitVec.ofNat 22 (walkAddr w / 4)) 15#4 = true) := by decide +kernel

/-- A walk at the last word of the run of a descriptor of one drive entry, after a number of descriptors. -/
def lastWalk (walked next : Nat) (isEnd : Bool) : Walk :=
  ⟨3, 0x8000, walked, [0x11#32], .run ⟨.drives, 3, 1, 0x9FFC, next, isEnd⟩ 1, 0⟩

/-- The part LOADING there over a staging plan. -/
def ending (w : Walk) (staging : Plan) : Part :=
  let p := loading w (planned .noPlan)
  { p with plans := { p.plans with staging := staging } }

theorem test_witness_PlanLoadEnds :
    (∀ walked ∈ [63, 64], ∀ next ∈ [0x1FC, 0x200, 0xFFFC, 0x10000], ∀ isEnd ∈ [true, false],
      let w := lastWalk walked next isEnd
      let s := withSram (mk (ending w plan))
      s.part.plans.loader = .loading w ∧ nextGrant s.bus s.part = some (.rotating .pl) ∧
        w.got.length + 1 = entrySize .drives ∧ 1 + 1 = 1 * entrySize .drives ∧
        s.bus.sram.parityGood (BitVec.ofNat 22 (walkAddr w / 4)) 15#4 = true) ∧
    validatePlan (placeEntry .drives 3 [0x11#32, 0x11223344#32] plan) = none ∧
    validatePlan (placeEntry .drives 3 [0x11#32, 0x11223344#32] Plan.empty) = some (0x100, 0) ∧
    validatePlan (placeEntry .drives 3 [0x1#32, 0x11223344#32] plan) = some (0x403, 2) := by decide +kernel

/-- A plan whose header is in range, and whose one drive, D3, has a class. -/
def headed (cls : Nat) : Plan :=
  { Plan.empty with header := plan.header, drives := setAt Plan.empty.drives 3 (some ⟨0, cls, 0, 100⟩) }

theorem test_headed_fails (cls a f : Nat) : planFails (headed cls) a f ↔ cls = 0 ∧ a = 0x403 ∧ f = 2 := by
  have hg : ∀ g : GenId, (headed cls).gens[g] = none := fun g => by simp [headed, Plan.empty]
  have hd : ∀ (d : DriveId) (e : DrivePlan), (headed cls).drives[d] = some e ↔ d = 3 ∧ e = ⟨0, cls, 0, 100⟩ := by
    have k : ∀ d : DriveId, (headed cls).drives[d] = if d = 3 then some ⟨0, cls, 0, 100⟩ else none := by
      intro d
      match d with
      | 0 => rfl
      | 1 => rfl
      | 2 => rfl
      | 3 => rfl
    intro d e
    rw [k d]
    by_cases h : d = 3 <;> simp [h, eq_comm]
  simp only [planFails, hg, hd]
  constructor
  · rintro (⟨h, -⟩ | ⟨h, k, -, l⟩ | ⟨_, _, h, _⟩ | ⟨_, _, ⟨rfl, rfl⟩, h, hf, hc⟩)
    · cases h
    · cases k; simp at l
    · cases h
    · exact ⟨by simpa using hc, h, hf⟩
  · rintro ⟨rfl, rfl, rfl⟩
    exact .inr (.inr (.inr ⟨3, _, ⟨rfl, rfl⟩, rfl, rfl, by decide⟩))

theorem test_witness_PlanLoadEnds_valid : ∀ a f, ¬ planFails (headed 1) a f := by
  simp [test_headed_fails]

theorem test_witness_PlanLoadEnds_first : planFailsFirst (headed 0) 0x403 2 :=
  ⟨(test_headed_fails 0 _ _).2 ⟨rfl, rfl, rfl⟩, fun a f h => by
    obtain ⟨-, rfl, rfl⟩ := (test_headed_fails 0 a f).1 h
    exact .inr ⟨rfl, Nat.le_refl _⟩⟩

/-! ## Attention and lists -/

theorem test_witness_AttentionReadAndClear : portReady .cp State.reset.bus = true ∧ portReady .fp State.reset.bus = true := by
  decide +kernel

/-- URG_N: all islands DEAD at reset; tied into one, inactive with a generator ONLINE and active with EXHAUSTED set (R183). -/
theorem test_lines_urg :
    let one : Part := agreed { loaded with img := { loaded.img with ties := ⟨7#32, true, some 1000#32⟩ } }
    (linesAt false State.reset).urg = true ∧ (linesAt false (mk one)).urg = false ∧
      (linesAt false (mk (setIsland 0 { one.islands[0] with exhausted := true } one))).urg = true := by decide +kernel

theorem test_witness_CauseWord : portReady .cp State.reset.bus = true ∧ portReady .fp State.reset.bus = true ∧
    (∃ t, exec (.controllerReset false) State.reset = .next t) ∧
    ∃ t, exec (.fullReset 0#8 .between) State.reset = .next t :=
  ⟨by decide +kernel, by decide +kernel, ⟨_, rfl⟩, _, rfl⟩

theorem test_witness_AttentionBitsStand :
    (∀ straps moment, Instr.drain ≠ .fullReset straps moment) ∧ (∀ strobes x, Instr.drain ≠ .attentionWrite strobes x) ∧
    (∀ strobes x m, Instr.drain ≠ .passThroughWrite .cp (windowAddr State.reset.part.base 8) strobes x m) :=
  ⟨fun _ _ h => (nomatch h), fun _ _ h => (nomatch h), fun _ _ _ h => (nomatch h)⟩

/-- A channel with one SPARE frame, 63. -/
def spareChan : Channel :=
  { Channel.init with frames := setAt Channel.init.frames 63 .spare, spare := ringAppend Ring.empty 63 }

theorem test_witness_GiveAndTake_give :
    portReady .fp State.reset.bus = true ∧ portReady .cp State.reset.bus = true ∧
    (∀ ch ∈ [Chan.command, .notice], ∀ f ∈ ([0, 63] : List FrameId),
      let v : Word := BitVec.ofNat 32 (frameBase ch + 0x20 * f.val)
      v.toNat = State.reset.part.base.toNat * 0x10000 + frameBase ch + 0x20 * f.val ∧
        (getChan State.reset.part.lu ch).frames[f] = .out) ∧
    spareChan.frames[63] ≠ .out ∧
    (∀ ch ∈ [Chan.command, .notice], ∀ f : FrameId,
      (0x2010#32).toNat ≠ State.reset.part.base.toNat * 0x10000 + frameBase ch + 0x20 * f.val) := by decide +kernel

/-- A channel with one READY frame. -/
def readyChan : Channel :=
  { Channel.init with frames := setAt Channel.init.frames 63 .ready, ready := ringAppend Ring.empty 63 }

theorem test_witness_GiveAndTake_take :
    portReady .fp State.reset.bus = true ∧ portReady .cp State.reset.bus = true ∧
    (∀ ch ∈ [Chan.command, .notice], (getChan State.reset.part.lu ch).ready.count = 0) ∧
    (getChan { ListUnit.reset with command := readyChan, notice := readyChan } .command).ready.count ≠ 0 ∧
    (getChan { ListUnit.reset with command := readyChan, notice := readyChan } .notice).ready.count ≠ 0 := by
  decide +kernel

/-- A post that has made some of its writes. -/
def post (made : Nat) : Post := ⟨63, 1#32, 2#32, 3#32, 4#32, 5#32, made⟩

/-- A pending command and a notice. -/
def someCommand : Command := ⟨.cons 0, .openConsumer, 0#8, 0, 30#32, 100#32⟩
def someNotice : Notice := notice .parity 0 0 0 0 0#32 0#32

/-- A part with these lists. -/
def withLu (lu : ListUnit) : State := mk { Part.reset 0#8 0 with lu := lu }

theorem test_witness_PostsStartAndEnd :
    (let s := withLu { ListUnit.reset with notice := spareChan, notices := [someNotice] }
     s.part.lu.notices = someNotice :: [] ∧ s.part.lu.notice.post = none ∧ 0 < s.part.lu.notice.spare.count) ∧
    (let s := withLu { ListUnit.reset with command := spareChan, pendingCmds := [someCommand] }
     s.part.lu.pendingCmds = someCommand :: [] ∧ s.part.lu.command.post = none ∧ 0 < s.part.lu.command.spare.count) ∧
    (∀ ch ∈ [Chan.command, .notice], (getChan State.reset.part.lu ch).spare.count = 0) ∧
    (∀ ch ∈ [Chan.command, .notice], ∀ made ∈ [0, 8, 9],
      let c : Channel := { Channel.init with frames := setAt Channel.init.frames 63 .filling, post := some (post made) }
      (getChan (withLu { ListUnit.reset with command := c, notice := c }).part.lu ch).post = some (post made)) ∧
    (post 8).made < 9 ∧ 9 ≤ (post 9).made := by decide +kernel

/-- A list unit with all three sources waiting. -/
def busyUnit (last : LuSource) (made : Nat) : ListUnit :=
  let c : Channel := { Channel.init with frames := setAt Channel.init.frames 63 .filling, post := some (post made) }
  { ListUnit.reset with command := c, notice := c, spareMirror := [(.notice, 0)], lastServed := last }

theorem test_witness_OwnWrites_listUnit :
    (∀ last ∈ [LuSource.command, .notice, .spareMirror], ∀ made ∈ [0, 7, 8],
      let s := withLu (busyUnit last made)
      nextGrant s.bus s.part = some (.rotating .lu) ∧ (getChan s.part.lu .command).post = some (post made) ∧
        (getChan s.part.lu .notice).post = some (post made) ∧ (post made).made < 9 ∧
        s.part.lu.spareMirror = (.notice, 0) :: []) ∧
    (∀ src ∈ [LuSource.command, .notice, .spareMirror],
      [LuSource.command, .notice, .spareMirror].idxOf src = 0 → src = .command) ∧
    nextGrant State.reset.bus State.reset.part ≠ some (.rotating .lu) := by decide +kernel

/-- The rotation of R163: with every source waiting, the one after the last served. -/
theorem test_step_listUnitWrite :
    ∀ x ∈ [(LuSource.command, LuSource.notice), (.notice, .spareMirror), (.spareMirror, .command)],
      (match exec .listUnitWrite (withLu (busyUnit x.1 0)) with
        | .next t => decide (t.part.lu.lastServed = x.2 ∧ t.bus.last = .lu)
        | .fault _ | .refused _ => false) = true := by decide +kernel

theorem test_witness_OwnWrites_storeQueue :
    (let s := mk { Part.reset 0#8 0 with sq := [⟨.consCmd 0, 1#32⟩] }
     s.part.sq = ⟨.consCmd 0, 1#32⟩ :: [] ∧ s.bus.pair = none ∧ cycleOpen s.part = false) ∧ State.reset.part.sq = [] := by
  decide +kernel

/-! ## Timers: a time is reached at 0 and not at 1 while the counter is at 0 -/

theorem test_witness_times : due 0#32 0#32 = true ∧ due 1#32 0#32 = false ∧ due 0x80000001#32 0#32 = true ∧
    due 0x80000000#32 0#32 = false ∧ loaded.ms = 0#32 := by decide +kernel

/-- A generator's copy with its freshness timer at a time. -/
def timedMeas (g : GenId) (e : Word) : Part :=
  agreed { loaded with img := { loaded.img with genMeas := setAt loaded.img.genMeas g ⟨0x10258#32, true, some e⟩ } }

theorem test_witness_FreshnessExpires :
    (copyOf State.reset.part .ties).timer = none ∧ (copyOf (timedMeas 0 1#32) (.gen 0)).timer = some 1#32 ∧
    (∀ g ∈ ([0, 7] : List GenId), copyOf (timedMeas g 0#32) (.gen g) = ⟨0x10258#32, true, some 0#32⟩) ∧
    genIsland (timedMeas 7 0#32) 7 = none ∧ genIsland (timedMeas 0 0#32) 0 = some 0 ∧
    (timedMeas 0 0#32).islands[0].totals = totalsOf (timedMeas 0 0#32) 0 ∧
    (timedMeas 0 0#32).islands[0].condition = conditionOf (timedMeas 0 0#32) 0 (totalsOf (timedMeas 0 0#32) 0) := by
  decide +kernel

/-- S0 SHORT under G0, whose data go stale, with its start-delay timer running. -/
def goingStale : Part :=
  let p := unagreed 951
  let q := agreed { p with img := { p.img with genMeas := setAt p.img.genMeas 0 ⟨0x10000#32 + 951#32, true, some 0#32⟩ } }
  setIsland 0 { q.islands[0] with startDelay := .running 9#32 } q

theorem test_witness_FreshnessExpires_held :
    isRunning goingStale = true ∧ genIsland goingStale 0 = some 0 ∧ goingStale.islands[0].held = false ∧
    goingStale.islands[0].totals = totalsOf goingStale 0 ∧
    goingStale.islands[0].condition = conditionOf goingStale 0 (totalsOf goingStale 0) := by decide +kernel

theorem test_step_stale_suspends :
    (match exec (.freshnessTimerExpiry (.gen 0)) (mk goingStale) with
      | .next t => some (t.part.islands[0].held, t.part.islands[0].startDelay)
      | .fault _ | .refused _ => none) = some (true, .suspended 9) := by decide +kernel

/-- S0 OVERLOADED with its overload timer reached, HELD or not. -/
def overloaded (held : Bool) : Part :=
  let p := agreed (withMeas 0 (0x10000#32 + 1200#32) loaded)
  setIsland 0 { p.islands[0] with overload := some 0#32, held := held } p

/-- The same with C1 RESTORING, or with no consumer on the plan and the drive running at a power. -/
def overloadedRestoring : Part :=
  let p := overloaded false
  { p with cons := setAt p.cons 1 ⟨.restoring, some 9#32⟩ }

def overloadedDrive (power : Nat) : Part :=
  let p := overloaded false
  { p with plans := { p.plans with active := { p.plans.active with cons := Plan.empty.cons } }
           img := { p.img with driveMeas := setAt p.img.driveMeas 0 ⟨BitVec.ofNat 32 power, true, some 9#32⟩ } }

/-- The same with the drive at its floor, on class 1, and a consumer of class 2 behind it; or, of class 4, a second drive. -/
def overloadedSkipping (consumer : Bool) : Part :=
  let p := overloadedDrive 100
  let pl : Plan := { p.plans.active with
    cons := if consumer then setAt Plan.empty.cons 0 (some ⟨0, 2, 0, 100, true, 0⟩) else Plan.empty.cons
    drives := setAt (setAt Plan.empty.drives 0 (some ⟨0, 1, 0, 100⟩)) 1 (some ⟨0, 4, 0, 100⟩) }
  { p with plans := { p.plans with active := pl }
           img := { p.img with driveMeas := setAt p.img.driveMeas 1 ⟨101#32, true, some 9#32⟩ } }

/-- S0 OVERLOADED as its members give it, its overload timer reached. -/
def overloadedAgreed : Part :=
  let p := agreed (unagreed 1200)
  setIsland 0 { p.islands[0] with overload := some 0#32 } p

theorem test_witness_OverloadExpires_stands : islandStands overloadedAgreed 0 := by
  unfold islandStands islandAgrees; decide +kernel

/-- The overload timer's record in S0 after its expiry, with C0's credit. -/
def afterOverload (nominal : Nat) : Option (Condition × Option Word) :=
  let p := overloadedAgreed
  let pl := { p.plans.active with cons := setAt p.plans.active.cons 0 (some ⟨0, 1, 0, nominal, true, 0⟩) }
  match exec (.overloadTimerExpiry 0) (mk { p with plans := { p.plans with active := pl } }) with
  | .next t => some (t.part.islands[0].condition, t.part.islands[0].overload)
  | .fault _ | .refused _ => none

theorem test_step_overload_again : afterOverload 199 = some (.overloaded, some 200#32) := by decide +kernel

theorem test_step_overload_stops : afterOverload 200 = some (.short, none) := by decide +kernel

theorem test_witness_OverloadExpires_skipping :
    candidatesOf (overloadedSkipping true) 0 = [.drive 0] ++ .cons 0 :: [.drive 1] ∧
    candidatesOf (overloadedSkipping false) 0 = [.drive 0] ++ .drive 1 :: [] ∧
    (∀ b ∈ [true, false], drivePower (overloadedSkipping b) 0 = 100 ∧ driveFloor (overloadedSkipping b) 0 = 100 ∧
      drivePower (overloadedSkipping b) 1 = 101 ∧ driveFloor (overloadedSkipping b) 1 = 100) := by decide +kernel

theorem test_witness_OverloadExpires :
    loaded.islands[0].overload = none ∧
    (∀ held ∈ [true, false], (overloaded held).islands[0].overload = some 0#32 ∧ isRunning (overloaded held) = true ∧
      (overloaded held).islands[0].condition = .overloaded ∧ (overloaded held).islands[0].held = held) ∧
    ((overloaded false).islands[0].totals = ⟨1000, 1000, 1200, 0⟩) ∧
    restoringOf (overloaded false) 0 = [] ∧ candidatesOf (overloaded false) 0 = .cons 0 :: [.cons 1] ∧
    restoringOf overloadedRestoring 0 = [.cons 1] ∧ candidatesOf overloadedRestoring 0 = .cons 0 :: [] ∧
    (∀ power ∈ [100, 101], restoringOf (overloadedDrive power) 0 = [] ∧
      candidatesOf (overloadedDrive power) 0 = .drive 0 :: [] ∧ drivePower (overloadedDrive power) 0 = power ∧
      driveFloor (overloadedDrive power) 0 = 100) ∧ (overloaded false).islands[0].exhausted = false := by decide +kernel

/-- S0 with its start-delay timer at a time. -/
def delayed (e : Word) (p : Part) : Part := setIsland 0 { p.islands[0] with startDelay := .running e } p

theorem test_witness_StartDelayExpires :
    loaded.islands[0].startDelay = .stopped ∧ (delayed 1#32 loaded).islands[0].startDelay = .running 1#32 ∧
    (delayed 0#32 loaded).islands[0].startDelay = .running 0#32 ∧ isRunning (delayed 0#32 loaded) = true ∧
    (let p := delayed 0#32 (withGen 1 { Gen.init with state := .starting } loaded)
     genIsland p 1 = some 0 ∧ p.gens[1].state = .starting) ∧
    (let p := delayed 0#32 loaded
     (∀ h, genIsland p h = some 0 → p.gens[h].state ≠ .starting) ∧ genIsland p 1 = some 0 ∧ p.gens[1].state = .idle ∧
       genRank p 1 ≠ 0 ∧
       (∀ h, genIsland p h = some 0 → p.gens[h].state = .idle → genRank p h ≠ 0 → h ≠ 1 → genRank p 1 < genRank p h)) := by
  decide +kernel

/-- S0 with its start-delay timer reached and no IDLE generator. -/
def noCandidate (mark : Bool) : Part :=
  let p := delayed 0#32 (withGen 1 { Gen.init with state := .tripped } loaded)
  setIsland 0 { p.islands[0] with standbyExhausted := mark } p

theorem test_witness_StartDelayExpires_noCandidate :
    (∀ mark ∈ [true, false],
      let p := noCandidate mark
      p.islands[0].startDelay = .running 0#32 ∧ p.islands[0].standbyExhausted = mark ∧
      (∀ h, genIsland p h = some 0 → p.gens[h].state ≠ .starting) ∧
      (∀ h, genIsland p h = some 0 → p.gens[h].state = .idle → genRank p h = 0)) := by
  decide +kernel

/-- S0 SHORT, its generators' data fresh or not, with a START_DELAY, its start-delay timer reached. -/
def shortFor (delay : Nat) (fresh : Bool) : Part :=
  let p := withMeas 0 (0x10000#32 + 951#32) (noCandidate true)
  let pl : Plan := { p.plans.active with header := p.plans.active.header.map fun h => { h with startDelay := delay } }
  let img := if fresh then p.img else { p.img with genMeas := setAt p.img.genMeas 0 { p.img.genMeas[0] with timer := none } }
  agreed { p with plans := { p.plans with active := pl }, img := img }

theorem test_witness_StartDelayExpires_again :
    ∀ fresh ∈ [true, false], ∀ delay ∈ [0, 1, 100],
      (shortFor delay fresh).islands[0].startDelay = .running 0#32 ∧ isRunning (shortFor delay fresh) = true ∧
      ((match exec (.startDelayTimerExpiry 0) (mk (shortFor delay fresh)) with
        | .next t => some (t.part.islands[0].condition, t.part.islands[0].startDelay)
        | .fault _ | .refused _ => none) =
        some (.short, if fresh then .running (if delay = 100 then 100#32 else 1#32)
          else .suspended (if delay = 100 then 100 else 1))) := by decide +kernel

/-- S0 with one HELD entry and its release-hold timer at a time. -/
def holding (t : Target) (e : Word) : Part :=
  let p : Part := { loaded with shedList := [⟨t, .overload, 30, 0#32, .held⟩] }
  setIsland 0 { p.islands[0] with releaseHold := some (t, e) } p

theorem test_witness_ReleaseHoldExpires :
    loaded.islands[0].releaseHold = none ∧ (holding (.cons 0) 1#32).islands[0].releaseHold = some (.cons 0, 1#32) ∧
    (∀ t ∈ [Target.cons 0, .cons 1, .drive 0], (holding t 0#32).islands[0].releaseHold = some (t, 0#32) ∧
      (entriesOf (holding t 0#32) 0).getLast? = some ⟨t, .overload, 30, 0#32, .held⟩) ∧
    (holding (.cons 0) 0#32).plans.active.cons[0] = some ⟨0, 1, 0, 100, true, 0⟩ ∧
    (holding (.cons 1) 0#32).plans.active.cons[1] = some ⟨0, 2, 0, 50, false, 0⟩ := by decide +kernel

/-- S0 SOUND with C1's entry, of a credit, below C0's, whose release-hold timer is reached. -/
def holdingTwo (credit : Nat) : Part :=
  let p : Part := { loaded with shedList :=
    [⟨.cons 1, .overload, credit, 0#32, .held⟩, ⟨.cons 0, .overload, 30, 0#32, .held⟩] }
  setIsland 0 { p.islands[0] with releaseHold := some (.cons 0, 0#32) } p

theorem test_witness_ReleaseHoldExpires_next :
    (holdingTwo 390).islands[0].releaseHold = some (.cons 0, 0#32) ∧ isRunning (holdingTwo 390) = true ∧
    (let p := setIsland 0 { loaded.islands[0] with releaseHold := some (.cons 0, 0#32) } loaded
     p.islands[0].releaseHold = some (.cons 0, 0#32) ∧ entriesOf p 0 = []) ∧
    (let p := setIsland 0 { loaded.islands[0] with releaseHold := some (.cons 0, 0#32) } (planned .settling)
     p.islands[0].releaseHold = some (.cons 0, 0#32) ∧ isRunning p = false) := by decide +kernel

/-- The release-hold timer of S0 after its expiry, with C1's credit. -/
def afterRelease (credit : Nat) : Option (Target × Word) :=
  match exec (.releaseHoldTimerExpiry 0) (mk (holdingTwo credit)) with
  | .next t => t.part.islands[0].releaseHold
  | .fault _ | .refused _ => none

theorem test_step_release_next : afterRelease 390 = some (.cons 1, 5000#32) := by decide +kernel

theorem test_step_release_stops : afterRelease 391 = none := by decide +kernel

/-- G1 STARTING or UNLOADING with its timers reached. -/
def timedG1 (st : GenState) (auto : Bool) (p : Part) : Part :=
  agreed (withGen 1 { Gen.init with state := st, automatic := auto, startTimer := some 0#32, openTimer := some 0#32 } p)

theorem test_witness_GeneratorTimersExpire :
    (∀ st ∈ [GenState.starting, .unloading], ∀ auto ∈ [true, false],
      genIsland (timedG1 st auto loaded) 1 = some 0 ∧ (timedG1 st auto loaded).gens[1].state = st ∧
      (timedG1 st auto loaded).gens[1].startTimer = some 0#32 ∧ (timedG1 st auto loaded).gens[1].openTimer = some 0#32 ∧
      (timedG1 st auto loaded).gens[1].automatic = auto) ∧
    (∀ st ∈ [GenState.starting, .unloading],
      (timedG1 st true loaded).islands[0].totals = totalsOf (timedG1 st true loaded) 0 ∧
      (timedG1 st true loaded).islands[0].condition
        = conditionOf (timedG1 st true loaded) 0 (totalsOf (timedG1 st true loaded) 0)) ∧
    (timedG1 .starting true loaded).islands[0].condition = .sound ∧
    isRunning (timedG1 .starting true (planned .settling)) = false := by decide +kernel

/-- S0 SHORT under G0 with G1's automatic start failing, beside a third generator of S0 in a state and the standby mark. -/
def fallingBack (st : GenState) (mark : Bool) : Part :=
  let pl : Plan := { plan with gens := setAt plan.gens 2 (some ⟨0, 1000, 100, 3, 100⟩) }
  let p : Part := { loaded with plans := { loaded.plans with active := pl } }
  let q := timedG1 .starting true (withMeas 0 (0x10000#32 + 951#32) (withGen 2 { Gen.init with state := st } p))
  setIsland 0 { q.islands[0] with standbyExhausted := mark } q

theorem test_witness_GeneratorTimersExpire_fallback :
    (∀ st ∈ [GenState.starting, .idle, .tripped], ∀ mark ∈ [true, false],
      let p := fallingBack st mark
      genIsland p 1 = some 0 ∧ p.gens[1].state = .starting ∧ p.gens[1].startTimer = some 0#32 ∧
        p.gens[1].automatic = true ∧ isRunning p = true ∧ p.islands[0].condition = .short ∧
        p.islands[0].standbyExhausted = mark ∧
        p.islands[0].totals = totalsOf p 0 ∧ p.islands[0].condition = conditionOf p 0 (totalsOf p 0) ∧
        (genIsland p 2 = some 0 ∧ p.gens[2].state = st ∧ genRank p 2 ≠ 0) ∧
        (∀ k : GenId, k ≠ 1 → k ≠ 2 → genIsland p k = some 0 → p.gens[k].state = .online)) := by decide +kernel

/-- G0 UNLOADING at a ramp value, its ramp timer reached. -/
def ramping (ramp : Nat) : Part :=
  withGen 0 { Gen.init with state := .unloading, ramp := ramp, rampTimer := some 0#32 } loaded

/-- G0 in MODE FIXED with its cap open from an output, its raise timer reached; and the same in MODE SHARE. -/
def capped (output : Nat) : Part :=
  { loaded with sharing := setAt loaded.sharing 0 ⟨0, true, output, 0#16, output, some 0#32⟩,
                img := { loaded.img with genReq := setAt loaded.img.genReq 0 0x10#32 } }

def cappedShare (output last : Nat) : Part :=
  { loaded with sharing := setAt loaded.sharing 0 ⟨last, true, output, 0#16, output, some 0#32⟩ }

theorem test_witness_RampAndCapStep :
    (∀ ramp ∈ [110, 111], (ramping ramp).plans.active.gens[0] = some ⟨0, 1000, 100, 1, 100⟩ ∧
      (ramping ramp).gens[0].state = .unloading ∧ (ramping ramp).gens[0].rampTimer = some 0#32) ∧
    110 - max 1 (100 / 10) ≤ 1000 * loaded.header.unloadFloorPct / 100 ∧
    1000 * loaded.header.unloadFloorPct / 100 < 111 - max 1 (100 / 10) ∧
    (∀ output ∈ [989, 990], (capped output).plans.active.gens[0] = some ⟨0, 1000, 100, 1, 100⟩ ∧
      (capped output).sharing[0].capOpen = true ∧ (capped output).sharing[0].raiseTimer = some 0#32 ∧
      (capped output).sharing[0].raises ≠ 0xFFFF#16 ∧ reqFixed (capped output).img.genReq[0] = true) ∧
    989 + 100 * (0 + 1) / 10 < 1000 ∧ 1000 ≤ 990 + 100 * (0 + 1) / 10 ∧
    (∀ output ∈ [589, 590], ∀ last ∈ [596, 597, 601, 602],
      let p := cappedShare output last
      reqFixed p.img.genReq[0] = false ∧ p.gens[0].state = .online ∧ p.sharing[0].lastWritten = last ∧
        firstShare p 0 0 = 600 ∧ p.header.shareDeadband = 2 ∧ islandId p.img.ties 0 = 0) ∧
    589 + 100 * (0 + 1) / 10 = 599 := by decide +kernel

theorem test_witness_DeadlinesReached :
    entryOf (shedC0 (.opening 0#32) .shedding loaded) (.cons 0) = some ⟨.cons 0, .overload, 30, 0#32, .opening 0#32⟩ ∧
    entryOf (shedC0 (.opening 1#32) .shedding loaded) (.cons 0) = some ⟨.cons 0, .overload, 30, 0#32, .opening 1#32⟩ ∧
    entryOf loaded (.cons 0) = none ∧
    isRunning (shedC0 (.opening 0#32) .shedding (planned .settling)) = false ∧
    (isRunning (shedC0 (.opening 0#32) .shedding loaded) = true ∧
      consIsland (shedC0 (.opening 0#32) .shedding loaded) 0 = some 0 ∧
      carrying (shedC0 (.opening 0#32) .shedding loaded) 0 ≠ [] ∧
      carrying (shedC0 (.opening 0#32) .shedding (planned .running)) 0 = []) ∧
    (let p := shedC0 (.opening 0#32) .shedding loaded
     consIsland { p with plans := { p.plans with active := { p.plans.active with cons := Plan.empty.cons } } } 0 = none) ∧
    ({ loaded with cons := setAt loaded.cons 0 ⟨.restoring, some 0#32⟩ } : Part).cons[0] = ⟨.restoring, some 0#32⟩ ∧
    ({ loaded with cons := setAt loaded.cons 0 ⟨.restoring, some 1#32⟩ } : Part).cons[0] = ⟨.restoring, some 1#32⟩ := by
  decide +kernel

/-- SETTLING with its timer at a time. -/
def settling (e : Word) : Part :=
  { planned .settling with plans := { (planned .settling).plans with settlingTimer := some e } }

theorem test_witness_TimeBaseAndSettling :
    (settling 0#32).plans.partState = .settling ∧ (settling 0#32).plans.settlingTimer = some 0#32 ∧
    (settling 1#32).plans.partState = .settling ∧ (settling 1#32).plans.settlingTimer = some 1#32 ∧
    isIslandId (settling 0#32).img.ties 3 = true ∧ (settling 0#32).islands[3].condition = .dead ∧
    State.reset.part.plans.partState ≠ .settling ∧ State.reset.bus.pair = none ∧ State.reset.bus.subMs ≤ 999 ∧
    (∀ c ∈ [(998, 0), (998, 1), (998, 2), (998, 3), (999, 3)],
      let s : State := { State.reset with bus := { State.reset.bus with pair := some ⟨5#22, c.2⟩, subMs := c.1 } }
      s.bus.pair = some ⟨5#22, c.2⟩ ∧ s.bus.subMs ≤ 999) ∧
    (1000 - 998 < 3 - 0 + 1 ∧ 1000 - 998 = 3 - 2 + 1 ∧ 3 - 3 + 1 < 1000 - 998 ∧ 1000 - 999 = 3 - 3 + 1) := by decide +kernel

/-- SETTLING with its timer reached, each island holding what its members give, G0 and G1 in a state: S0 DEAD, or with G0
ONLINE at 960 kW SHORT. -/
def settlingOver (st : GenState) : Part :=
  agreed (withMeas 0 (0x10000#32 + 960#32) (withGen 0 { Gen.init with state := st } (withGen 1 { Gen.init with state := st }
    (cutD0 150 (settling 0#32)))))

theorem test_witness_TimeBaseAndSettling_stands : ∀ st ∈ [GenState.idle, .starting, .tripped, .online],
    ∀ i, isIslandId (settlingOver st).img.ties i = true → islandStands (settlingOver st) i := by
  unfold islandStands islandAgrees; decide +kernel

theorem test_witness_TimeBaseAndSettling_dead :
    (∀ st ∈ [GenState.idle, .starting, .tripped], let p := settlingOver st
      p.plans.partState = .settling ∧ p.plans.settlingTimer = some 0#32 ∧ isIslandId p.img.ties 0 = true ∧
        p.islands[0].condition = .dead ∧ candidatesOf p 0 = [.cons 0, .cons 1] ∧
        (driveIsland p 0 = some 0 ∧ hasEntry p (.drive 0) = true ∧ driveFloor p 0 = 100) ∧
        (genIsland p 0 = some 0 ∧ p.gens[0].state = st ∧ genRank p 0 = 1) ∧ genIsland p 1 = some 0 ∧ genRank p 1 = 2 ∧
        (∀ h, genIsland p h = some 0 → h = 0 ∨ h = 1)) ∧
    (settlingOver .online).islands[0].condition ≠ .dead := by decide +kernel

theorem test_step_settlingTimeout_dead :
    let t := fun st => match exec .settlingTimeout (mk (settlingOver st)) with
      | .next t => some (t.part.gens[0].state, t.part.drives[0].cutLimit, t.part.islands[0].standbyExhausted,
          hasEntry t.part (.cons 0) && hasEntry t.part (.cons 1))
      | .fault _ | .refused _ => none
    t .idle = some (.starting, 100, false, true) ∧ t .starting = some (.starting, 100, false, true) ∧
      t .tripped = some (.tripped, 100, true, true) := by decide +kernel

theorem test_witness_SharesAddUp :
    sharers loaded 0 ≠ [] ∧ isFixed (capped 0) 0 = true ∧
    (let p : Part := { loaded with sharing := setAt loaded.sharing 0 ⟨0, true, 5, 0#16, 5, some 0#32⟩ }
     isSharer p 0 = true ∧ isCapped p 0 0 = true) := by decide +kernel

theorem test_witness_ShedStepCoversNeed :
    (shedStep 0 .trip 1 loaded).shedList = loaded.shedList ++ [⟨.cons 0, .trip, 100, 0#32, .opening 100#32⟩] ∧
    (shedStep 0 .trip 100 loaded).shedList = loaded.shedList ++ [⟨.cons 0, .trip, 100, 0#32, .opening 100#32⟩] ∧
    (shedStep 0 .trip 151 loaded).shedList = loaded.shedList ++
      [⟨.cons 0, .trip, 100, 0#32, .opening 100#32⟩, ⟨.cons 1, .trip, 50, 0#32, .opening 100#32⟩] ∧
    loaded.islands[0].exhausted = false := by decide +kernel

/-! ## Invariants -/

theorem test_witness_FormsKept_sram :
    (withSram State.reset).bus.sram.wf = true ∧ (withSram State.reset).bus.subMs ≤ 999 ∧
      ∃ t, step (withSram State.reset) = .next t :=
  ⟨by decide +kernel, by decide, _, rfl⟩

/-- A machine whose NOTICE channel has one SPARE frame. -/
def oneSpare : State := withLu { ListUnit.reset with notice := { spareChan with seq := 0#16 } }

theorem test_witness_FormsKept :
    oneSpare.part.ringsAgree ∧ oneSpare.part.queuesBounded ∧ ∃ t, step oneSpare = .next t := by
  refine ⟨?_, ?_, _, rfl⟩
  · unfold Part.ringsAgree ringLaw; decide +kernel
  · unfold Part.queuesBounded; decide +kernel

theorem test_framesLaw_init : framesLaw Channel.init := by
  refine ⟨by decide, by decide, fun f => ?_⟩
  simp [ringList, Channel.init, Ring.empty]

theorem test_witness_FramesAgreeKept : oneSpare.part.framesAgree ∧ ∃ t, step oneSpare = .next t :=
  ⟨⟨test_framesLaw_init, framesLaw_give Channel.init 63 (by decide +kernel) test_framesLaw_init⟩, _, rfl⟩

/-- A machine with C0 guarded, its word waiting in the store queue. -/
def guarded : State :=
  mk { shedC0 .held .shed loaded with sq := [⟨.consCmd 0, 0x101#32⟩] }

theorem test_witness_GuardedWordsKept : guarded.guardedWords ∧ ∃ t, step guarded = .next t := by
  refine ⟨⟨?_, by decide +kernel, trivial, trivial, trivial, trivial, ?_⟩, _, rfl⟩
  · unfold Part.guardLaw; decide +kernel
  · have h : ∀ c : ConsId, isGuarded guarded.part c = true → c = 0 := by decide +kernel
    intro c hc
    rw [h c hc]
    decide +kernel

/-- S0 SOUND with C0's entry HELD and the release-hold timer running for it. -/
def holdingC0 : Part :=
  let p := shedC0 .held .shed loaded
  setIsland 0 { p.islands[0] with releaseHold := some (.cons 0, 9#32) } p

theorem test_witness_BalanceKept :
    holdingC0.balanced ∧ holdingC0.islands[0].releaseHold = some (.cons 0, 9#32) ∧ ∃ t, step (mk holdingC0) = .next t := by
  refine ⟨⟨fun i => ?_, by decide +kernel, ?_⟩, by decide +kernel, _, rfl⟩
  · have h : ∀ i : SecId, i ≠ 0 → holdingC0.islands[i].releaseHold = none := by decide +kernel
    by_cases k : i = 0
    · subst k
      exact releaseTimed_of_some (tg := .cons 0) (e := 9#32) (by decide +kernel) (by decide +kernel) (by decide +kernel)
    · exact releaseTimed_of_none (h i k)
  · unfold islandStands islandAgrees; decide +kernel

/-! ## Single steps -/

/-- The state after one command. -/
def run (c : Instr) (s : State) : State :=
  match exec c s with
  | .next t => t
  | .fault _ | .refused _ => s

/-- G0 reported CLOSED at 600 kW comes ONLINE, and its target is written (R58, R59, R86, R91). -/
theorem test_step_generatorMeasWrite :
    let t := run (.generatorMeasWrite 0 15#4 0x10258#32 .free) (mk (planned .running))
    t.part.gens[0].state = .online ∧ t.part.islands[0].totals = ⟨1000, 1000, 600, 0⟩ ∧
      t.part.islands[0].condition = .sound ∧ t.part.sq = [⟨.genTarget 0, 600#32⟩] ∧ t.bus.fp = .done .ok none := by
  decide +kernel

/-- The trip of the only generator: DEAD, the standby start, the dead shed of both consumers, and no command frame (R73, R75,
R111, R159). -/
theorem test_step_trip :
    let t := run (.generatorMeasWrite 0 15#4 0#32 .free) (mk loaded)
    t.part.gens[0].state = .tripped ∧ t.part.gens[1].state = .starting ∧ t.part.gens[1].cause = .dead ∧
      t.part.shedList.map ShedEntry.target = [.cons 0, .cons 1] ∧ t.part.att.word = 0x55#16 := by decide +kernel

/-- A START of G1 (R61). -/
theorem test_step_start :
    let t := run (.start 1 15#4 0x101#32 .free) (mk loaded)
    t.part.gens[1].state = .starting ∧ t.part.gens[1].startTimer = some 30000#32 ∧
      t.bus.sram.read (windowAddr 0#8 0x444) = 0x100#32 := by decide +kernel

/-- A CLOSE written to a guarded consumer is merged to OPEN with the SHED mark, and CLOSE_MASKED set (R140). -/
theorem test_step_consumerCmdWrite :
    let t := run (.consumerCmdWrite 0 15#4 2#32 .free) (mk (shedC0 .held .shed loaded))
    t.bus.sram.read (windowAddr 0#8 0x804) = 0x101#32 ∧ t.part.cmd[0] = 0x101#32 ∧ t.part.att.word = 0x1000#16 := by
  decide +kernel

/-- An acknowledgement of a STUCK consumer (R130). -/
theorem test_step_ack :
    let t := run (.ack 0 15#4 0x10#32 .free) (mk stuckC0)
    t.part.cons[0].state = .isOpen ∧ t.part.sq = [⟨.consCmd 0, 1#32⟩] := by decide +kernel

/-- A partial write of TIES is refused (R18, R21). -/
theorem test_step_tiesWrite_partial :
    let t := run (.tiesWrite 7#4 0#32 .free) State.reset
    t.bus.fp = .done .err none ∧ t.part.img.refused = ⟨0x300#16, .fp, .partial_, false, true⟩ ∧
      t.part.att.word = 0x800#16 := by decide +kernel

/-- The key opened with the staging tag and its complement (R172). -/
theorem test_step_key :
    let p : Part := { planned .noPlan with plans := { (planned .noPlan).plans with staging := plan } }
    let t := run (.key 15#4 7#32 .free) (mk p)
    t.part.plans.key = .half ∧ (run (.key 15#4 0xFFF8#32 .free) t).part.plans.key = .unlocked := by decide +kernel

/-- A GIVE of frame 2 of the NOTICE channel with a notice waiting starts its post at once (R154, R161). -/
theorem test_step_give :
    let t := run (.give .cp .notice 15#4 0x2840#32) (withLu { ListUnit.reset with notices := [someNotice] })
    t.part.lu.notice.frames[2] = .filling ∧ t.part.lu.notice.seq = 1#16 ∧ t.part.lu.notices = [] ∧
      t.part.lu.spareMirror = [(.notice, 0)] := by decide +kernel

/-- A TAKE of frame 63 of the COMMAND channel (R156). -/
theorem test_step_take :
    (run (.take .fp .command) (withLu { ListUnit.reset with command := readyChan })).bus.fp = .done .ok (some 0x27E0#32) ∧
      (run (.take .fp .command) State.reset).bus.fp = .done .ok (some 0xFFFFFFFF#32) := by decide +kernel

/-- A full reset in the promoted write of a CP read cuts that write short, and one in another cycle does not (R8, R13). -/
theorem test_step_fullReset :
    let t := run (.masterAccessGrant .cp) promoting
    t.bus.cycle = some ⟨.rotating .cp, .promotedRead 0x201#22⟩ ∧ t.bus.cp = .done .ok (some 5#32) ∧
      (run (.fullReset 9#8 .inCycle) t).bus.sram = t.bus.sram ∧
      (run (.fullReset 9#8 .between) t).bus.sram = t.bus.sram := by decide +kernel

theorem test_step_fullReset_cut (b : Bus) (n : Nat) :
    sramAtReset .inPromotion { b with cycle := some ⟨.rotating .cp, .promotedRead 0x201#22⟩ } n
      = b.sram.cut 0x201#22 15#4 n := rfl

/-- The advance of the millisecond counter passes 1000 edges, which a gap counts (R6, R12). -/
theorem test_step_millisecondCounterAdvance :
    let t := run .millisecondCounterAdvance (mk (loading gapWalk (planned .noPlan)))
    t.part.ms = 1#32 ∧ t.bus.subMs = 0 ∧ t.part.plans.loader = .loading walk := by decide +kernel

/-- A controller reset in a granted read of the loader discards its word (R177). -/
theorem test_step_controllerReset :
    let t := run (.controllerReset true) (withSram (mk (loading runWalk (planned .noPlan))))
    t.part.plans.staging = Plan.empty ∧ t.part.plans.loader = .failed .interrupted ∧ t.bus.last = .pl ∧
      t.part.lu.notices.map Notice.a = [0xA000#32] := by decide +kernel

/-- A word with bad parity is read with ERR, and reported (R11). -/
theorem test_step_masterRead_parity :
    let t := run (.masterRead .cp 0x27FF#22 15#4 .free) (withSram State.reset)
    t.bus.cp = .done .err (some 0x11#32) ∧ t.part.att.word = 0x400#16 := by decide +kernel

/-- PLAN_LOAD starts the walk, and the descriptor's first word is read (R168, R169). -/
theorem test_step_planLoad :
    let t := run (.planLoad 15#4 0x0300A000#32 .free) (withSram State.reset)
    t.part.plans.loader = .loading ⟨3, 0xA000, 1, [], .descriptor, 0⟩ ∧
      (run .planLoaderRead t).part.plans.loader = .loading ⟨3, 0xA000, 1, [0x11223344#32], .descriptor, 0⟩ := by
  decide +kernel

/-- The CAUSE word names the lowest unmasked bit (R182). -/
theorem test_step_cause :
    let s := mk { Part.reset 0#8 0 with att := ⟨0x8410#16, none, 0x0010#16⟩ }
    (run (.masterRead .cp 3#22 15#4 .free) s).bus.cp = .done .ok (some 11#32) := by decide +kernel

/-- The bits read and written clear; a bit set since the read stands (R179, R180). -/
theorem test_step_attentionWrite :
    let s := mk { Part.reset 0#8 0 with att := ⟨0x0007#16, some 0x0003#16, 0#16⟩ }
    (run (.attentionWrite 15#4 0xFFFF#32) s).part.att = ⟨0x0004#16, none, 0#16⟩ := by decide +kernel

end Sys2Proof.Tests
end

section
/-! PROOFS. The arbiter's choice (R6). -/

namespace Sys2Proof.Machine

/-- Where a search finds an element, every element that stands before it fails the test. -/
theorem find?_some_first {α : Type} [DecidableEq α] {f : α → Bool} {l : List α} {x y : α} (h : l.find? f = some x)
    (hi : l.idxOf y < l.idxOf x) : f y = false := by
  induction l with
  | nil => simp at h
  | cons a l ih =>
    rw [List.find?_cons] at h
    cases ha : f a with
    | true =>
      obtain rfl : a = x := by simpa [ha] using h
      simp at hi
    | false =>
      rw [ha] at h
      by_cases hy : a = y
      · rw [← hy]; exact ha
      · have hx : a ≠ x := fun e => by
          have := List.find?_some h
          rw [← e, ha] at this
          cases this
        rw [List.idxOf_cons_ne _ hy, List.idxOf_cons_ne _ hx] at hi
        exact ih h (Nat.lt_of_succ_lt_succ hi)

/-- Every rotating requester has its turn. -/
theorem mem_rotationAfter (last r : Requester) : r ∈ rotationAfter last := by
  cases last <;> cases r <;> decide

/-- Under an open pair the arbiter grants CP alone. -/
theorem nextGrant_underPair {b : Bus} {p : Part} (hc : cycleOpen p = false) (hp : b.pair ≠ none) :
    nextGrant b p = if isWaiting b.cp then some (.rotating .cp) else none := by
  simp only [nextGrant, hc, Option.isSome_iff_ne_none.mpr hp, if_true, Bool.false_eq_true, if_false]
  rfl

/-- With no pair open the store queue goes before every rotating requester. -/
theorem nextGrant_storeQueue {b : Bus} {p : Part} (hc : cycleOpen p = false) (hp : b.pair = none) (hs : p.sq ≠ []) :
    nextGrant b p = some .storeQueue := by
  simp [nextGrant, hc, hp, hs]

/-- With no pair open and the store queue empty the first requester in rotation is granted. -/
theorem nextGrant_rotation {b : Bus} {p : Part} (hc : cycleOpen p = false) (hp : b.pair = none) (hs : p.sq = []) :
    nextGrant b p = ((rotationAfter b.last).find? (requests b p)).map .rotating := by
  simp [nextGrant, hc, hp, hs]

/-- Settles O7, by the three branches of the arbiter's choice and the order of the rotation's search. -/
theorem arbiterOrder : Obligations.ArbiterOrder := by
  intro b p hc
  refine ⟨nextGrant_underPair hc, nextGrant_storeQueue hc, fun hp hs => ?_, rfl, rfl, rfl, rfl⟩
  rw [nextGrant_rotation hc hp hs]
  refine ⟨fun r hr => ?_, fun hn r => ?_, by simp⟩
  · have hf : (rotationAfter b.last).find? (requests b p) = some r := by simpa using hr
    exact ⟨List.find?_some hf, fun r' hi => find?_some_first hf hi⟩
  · have hall : ∀ x ∈ rotationAfter b.last, ¬requests b p x = true := by simpa using hn
    simpa using hall r (mem_rotationAfter b.last r)

end Sys2Proof.Machine
end

section
/-! PROOFS. What one edge of TBCLK, and a number of them, do (R7, R12). -/

namespace Sys2Proof.Machine

/-- The state after a TBCLK edge, before an open pair counts it. -/
def edgeCounted (s : State) : State :=
  { s with
    bus := { s.bus with subMs := if 999 ≤ s.bus.subMs then 0 else s.bus.subMs + 1
                        cycle := if cycleOpen s.part then s.bus.cycle else none }
    part := { s.part with ms := if 999 ≤ s.bus.subMs then s.part.ms + 1 else s.part.ms
                          plans := { s.part.plans with loader := gapAfter 1 s.part.plans.loader } } }

theorem settleCycle_cycle (s : State) :
    settleCycle s = { s with bus := { s.bus with cycle := if cycleOpen s.part then s.bus.cycle else none } } := by
  unfold settleCycle
  split <;> rfl

theorem gapTick_eq (n : Nat) (p : Part) :
    gapTick n p = { p with plans := { p.plans with loader := gapAfter n p.plans.loader } } := by
  cases h : p.plans.loader with
  | loading w =>
    simp only [gapTick, h, gapAfter]
    rfl
  | idle | complete | activated | failed =>
    simp only [gapTick, h, gapAfter]
    rw [← h]

/-- An edge is counted by every interval, and then by an open pair. -/
theorem tbclkEdge_eq (s : State) : tbclkEdge s = pairEdge (edgeCounted s) := by
  by_cases h : 999 ≤ s.bus.subMs <;>
    simp only [tbclkEdge, settleCycle_cycle, millisecondEdge, microsecondEdge, gapTick_eq, edgeCounted, h, if_true,
      if_false]

/-- From a sub-millisecond count below 1000 an edge is one of the edges that `edgesPassed` counts. -/
theorem edgeCounted_eq {s : State} (h : s.bus.subMs ≤ 999) : edgeCounted s = edgesPassed 1 s := by
  by_cases h9 : 999 ≤ s.bus.subMs
  · have he : s.bus.subMs = 999 := by omega
    simp [edgeCounted, edgesPassed, he]
  · have h1 : (s.bus.subMs + 1) % 1000 = s.bus.subMs + 1 := Nat.mod_eq_of_lt (by omega)
    have h2 : (s.bus.subMs + 1) / 1000 = 0 := Nat.div_eq_of_lt (by omega)
    simp [edgeCounted, edgesPassed, h9, h1, h2]

theorem gapAfter_gapAfter (m n : Nat) (l : LoaderState) : gapAfter n (gapAfter m l) = gapAfter (m + n) l := by
  cases l <;> simp [gapAfter, Nat.sub_sub]

/-- Edges counted after edges counted, from any standing of the pair. -/
theorem edgesPassed_edgesPassed (m n : Nat) (s : State) :
    edgesPassed n (edgesPassed m s) = edgesPassed (m + n) s := by
  have hsub : ((s.bus.subMs + m) % 1000 + n) % 1000 = (s.bus.subMs + (m + n)) % 1000 := by omega
  have hms : (s.bus.subMs + m) / 1000 + ((s.bus.subMs + m) % 1000 + n) / 1000 = (s.bus.subMs + (m + n)) / 1000 := by
    omega
  have hc : cycleOpen (edgesPassed m s).part = cycleOpen s.part := rfl
  rw [edgesPassed, hc]
  simp only [edgesPassed, gapAfter_gapAfter, hsub, BitVec.add_assoc, ← BitVec.ofNat_add, hms]
  cases cycleOpen s.part <;> rfl

theorem pairEdge_none {s : State} (h : s.bus.pair = none) : pairEdge s = s := by simp [pairEdge, h]

theorem pairEdge_counts {s : State} {pr : Pair} (h : s.bus.pair = some pr) (he : pr.edges < 3) :
    pairEdge s = { s with bus := { s.bus with pair := some { pr with edges := pr.edges + 1 } } } := by
  simp [pairEdge, h, show ¬4 ≤ pr.edges + 1 by omega]

theorem pairEdge_ends {s : State} {pr : Pair} (h : s.bus.pair = some pr) (he : 3 ≤ pr.edges) :
    pairEdge s = endPairTimeout s := by
  simp [pairEdge, h, show 4 ≤ pr.edges + 1 by omega]

theorem edgesPassed_subMs (n : Nat) (s : State) : (edgesPassed n s).bus.subMs ≤ 999 :=
  Nat.le_of_lt_succ (Nat.mod_lt _ (by decide))

/-- The state with the open pair as given. -/
def withPair (pair : Option Pair) (s : State) : State := { s with bus := { s.bus with pair := pair } }

theorem edgesPassed_withPair (n : Nat) (pair : Option Pair) (s : State) :
    edgesPassed n (withPair pair s) = withPair pair (edgesPassed n s) := rfl

/-- The edges up to the fourth of an open pair: all are counted, and then the timeout takes effect. -/
theorem passEdges_timeout (n : Nat) (s : State) (pr : Pair) (hs : s.bus.subMs ≤ 999) (hp : s.bus.pair = some pr)
    (hn : n = 3 - pr.edges) :
    passEdges (n + 1) s = endPairTimeout (withPair (some ⟨pr.addr, pr.edges + n⟩) (edgesPassed (n + 1) s)) := by
  induction n generalizing s pr with
  | zero =>
    have hw : edgesPassed 1 s = withPair (some pr) (edgesPassed 1 s) := by rw [← hp]; rfl
    rw [passEdges, passEdges, tbclkEdge_eq, edgeCounted_eq hs, pairEdge_ends (s := edgesPassed 1 s) hp (by omega)]
    exact congrArg endPairTimeout hw
  | succ n ih =>
    have h1 : tbclkEdge s = withPair (some ⟨pr.addr, pr.edges + 1⟩) (edgesPassed 1 s) := by
      rw [tbclkEdge_eq, edgeCounted_eq hs]
      exact pairEdge_counts (s := edgesPassed 1 s) hp (by omega)
    rw [passEdges, h1,
      ih (withPair (some ⟨pr.addr, pr.edges + 1⟩) (edgesPassed 1 s)) ⟨pr.addr, pr.edges + 1⟩ (edgesPassed_subMs 1 s) rfl
        (by simp only; omega),
      edgesPassed_withPair, edgesPassed_edgesPassed, Nat.add_comm 1 (n + 1), Nat.add_assoc pr.edges, Nat.add_comm 1 n]
    rfl

end Sys2Proof.Machine
end

section
/-! PROOFS. What a grant to a master port does (R6, R7, R8, R22), whatever stands open. -/

namespace Sys2Proof.Machine

/-- What the grant of a write leaves behind the ports: the base and the time as they were, the owner's copy taken. -/
theorem jobEvent_frame (j : Job) (w : Word) (p : Part) :
    (jobEvent j w p).base = p.base ∧ (jobEvent j w p).ms = p.ms ∧ (jobEvent j w p).img = imageTaken j w p := by
  cases j with
  | read | plain => simp [jobEvent, imageTaken]
  | genMeas | consMeas | driveMeas | ties => simp [jobEvent, imageTaken, takeCopy, setCopy]
  | genReq | genFixed | consCmd | driveReq => simp [jobEvent, imageTaken]
  | planLoad => simp [jobEvent, imageTaken, planLoadEvent]
  | key => simp [jobEvent, imageTaken, keyEvent]
  | activate => simp [jobEvent, imageTaken, activateEvent]
  | attMask => simp [jobEvent, imageTaken, attMaskEvent]

/-- The ports and the memory path after the grant of a write, which ends the open pair of its word (R7). -/
def busAfterGrantedWrite (port : Port) (a : Access) (b : Bus) : Bus :=
  { busAfterWrite port a.addr a.strobes a.data b with
    pair := if port = .cp ∧ b.pair.map Pair.addr = some a.addr then none else b.pair }

/-- The end of the pair, as the pair it leaves. -/
theorem endPairAt_eq (port : Port) (a : WordAddr) (b : Bus) :
    endPairAt port a b
      = { b with pair := if port = .cp ∧ b.pair.map Pair.addr = some a then none else b.pair } := by
  obtain ⟨cp, fp, ctl, pair, last, cycle, sram, sub⟩ := b
  cases pair with
  | none => simp [endPairAt]
  | some pr => by_cases h : port = .cp ∧ pr.addr = a <;> simp [endPairAt, h]

/-- A granted write is stored and completed, and handed to its owner. -/
theorem serveAccess_write {port : Port} {a : Access} (s : State) (hj : ∀ paired, a.job ≠ .read paired) :
    serveAccess port a s
      = { s with bus := busAfterGrantedWrite port a s.bus, part := jobEvent a.job a.data s.part } := by
  have h : serveAccess port a s = serveWrite port a (pointAt (requesterOf port) s) := by
    unfold serveAccess
    split
    · next paired h => exact absurd h (hj paired)
    · rfl
  rw [h, serveWrite, endPairAt_eq]
  cases port <;> rfl

/-- A read that promotes no store-queue entry is served from SRAM as it stands. -/
theorem serveAccess_read {port : Port} {a : Access} {paired : Bool} (s : State) (hj : a.job = .read paired)
    (hn : promotedBy port a.addr s.part = none) :
    serveAccess port a s =
      if s.bus.sram.parityGood a.addr a.strobes then
        { s with bus := { busAfterRead port .ok (s.bus.sram.read a.addr) s.bus with
                          pair := if paired then some ⟨a.addr, 0⟩ else s.bus.pair } }
      else
        { s with bus := busAfterRead port .err (s.bus.sram.read a.addr) s.bus
                 part := parityFailure port a.addr s.part } := by
  have hp : promote port a.addr (pointAt (requesterOf port) s)
      = { s with bus := readCycle (.rotating (requesterOf port)) (pointAt (requesterOf port) s).bus } := by
    unfold promote
    rw [show promotedBy port a.addr (pointAt (requesterOf port) s).part = none from hn]
    rfl
  simp only [serveAccess, hj, hp]
  unfold serveRead
  split
  · next hg =>
    rw [if_pos (show s.bus.sram.parityGood a.addr a.strobes = true from hg)]
    cases port <;> cases paired <;> rfl
  · next hg =>
    rw [if_neg (show ¬s.bus.sram.parityGood a.addr a.strobes = true from hg)]
    cases port <;> rfl

/-- A CP read that promotes an entry has it written within its grant, and gives its data. -/
theorem serveAccess_promoted {a : Access} {paired : Bool} {e : SqEntry} (s : State) (hj : a.job = .read paired)
    (he : sqEntryAt s.part.base a.addr s.part.sq = some e) :
    serveAccess .cp a s =
      { s with bus := { busAfterRead .cp .ok e.data s.bus with
                        sram := s.bus.sram.write a.addr allStrobes e.data
                        pair := if paired then some ⟨a.addr, 0⟩ else s.bus.pair
                        cycle := some ⟨.rotating .cp, .promotedRead a.addr⟩ }
               part := { s.part with sq := sqRemove e.word s.part.sq } } := by
  have hp : promote .cp a.addr (pointAt .cp s)
      = { s with bus := promotedCycle a.addr e.data (pointAt .cp s).bus
                 part := { s.part with sq := sqRemove e.word s.part.sq } } := by
    unfold promote
    rw [show promotedBy .cp a.addr (pointAt .cp s).part = some e from he]
    rfl
  simp only [serveAccess, hj, requesterOf, hp, serveRead, promotedCycle, Sram.parityGood_write_all, if_true,
    Sram.read_write_all]
  cases paired <;> rfl

/-! ## The entry that a read meets (R8, R26) -/

theorem sqOffset_lt (w : SqWord) : sqOffset w < 0x10000 := by
  cases w <;> simp only [sqOffset, consWordOffset, genWordOffset, driveWordOffset] <;> omega

theorem sqOffset_mod (w : SqWord) : sqOffset w % 4 = 0 := by
  cases w <;> simp only [sqOffset, consWordOffset, genWordOffset, driveWordOffset] <;> omega

/-- The words that the store queue may hold have offsets of their own. -/
theorem sqOffset_inj {v w : SqWord} (h : sqOffset v = sqOffset w) : v = w := by
  cases v <;> cases w <;> simp only [sqOffset, consWordOffset, genWordOffset, driveWordOffset] at h
  case consCmd.consCmd | genTarget.genTarget | driveLimit.driveLimit =>
    congr 1
    ext
    omega
  all_goals omega

theorem sqEntryAt_none {base : BitVec 8} {a : WordAddr} {q : List SqEntry} :
    sqEntryAt base a q = none ↔ ∀ e ∈ q, windowAddr base (sqOffset e.word) ≠ a := by
  simp [sqEntryAt]

/-- With one entry a word, the entry at a word's address is the one that is met there. -/
theorem sqEntryAt_some {base : BitVec 8} {a : WordAddr} {q : List SqEntry} {e : SqEntry}
    (hn : (q.map SqEntry.word).Nodup) (he : e ∈ q) (ha : windowAddr base (sqOffset e.word) = a) :
    sqEntryAt base a q = some e := by
  cases hf : sqEntryAt base a q with
  | none => exact absurd ha (sqEntryAt_none.mp hf e he)
  | some f =>
    have hfa : windowAddr base (sqOffset f.word) = a := by simpa [sqEntryAt] using List.find?_some hf
    have hw : f.word = e.word :=
      sqOffset_inj (windowAddr_inj base (sqOffset_lt _) (sqOffset_lt _) (sqOffset_mod _) (sqOffset_mod _)
        (hfa.trans ha.symm))
    rw [List.inj_on_of_nodup_map hn (List.mem_of_find?_eq_some hf) he hw]

@[simp] theorem phaseOf_endPairAt (port p : Port) (a : WordAddr) (b : Bus) :
    phaseOf port (endPairAt p a b) = phaseOf port b := by
  rw [endPairAt_eq]
  cases port <;> rfl

/-! ## The grant of an access at its arrival, and after it (R6) -/

theorem exec_passThroughWrite (port : Port) (a : WordAddr) (strobes : BitVec 4) (x : Word) (m : SramAt) (s : State) :
    exec (.passThroughWrite port a strobes x m) s = .next (masterWrite port a strobes x m s) := rfl

theorem exec_masterRead (port : Port) (a : WordAddr) (strobes : BitVec 4) (m : SramAt) (s : State) :
    exec (.masterRead port a strobes m) s = .next (masterReadOf port a strobes false m s) := rfl

theorem exec_pairedRead (a : WordAddr) (strobes : BitVec 4) (m : SramAt) (s : State) :
    exec (.pairedRead a strobes m) s = .next (masterReadOf .cp a strobes true m s) := rfl

/-- What a grant serves does not depend on the latest cycle, nor on what the port shows. -/
theorem serveAccess_held (port : Port) (a : Access) (ph : PortPhase) (c : Option Cycle) (s : State) :
    serveAccess port a { s with bus := setPhase port ph { s.bus with cycle := c } } = serveAccess port a s := by
  have hsram : (setPhase port ph { s.bus with cycle := c }).sram = s.bus.sram := by cases port <;> rfl
  by_cases hj : ∀ paired, a.job ≠ .read paired
  · rw [serveAccess_write _ hj, serveAccess_write _ hj]
    cases port <;> rfl
  · push Not at hj
    obtain ⟨paired, hj⟩ := hj
    cases he : promotedBy port a.addr s.part with
    | none =>
      have hheld := serveAccess_read { s with bus := setPhase port ph { s.bus with cycle := c } } hj he
      rw [hheld, serveAccess_read s hj he, hsram]
      cases port <;> rfl
    | some e =>
      cases port with
      | cp =>
        have hheld := serveAccess_promoted { s with bus := setPhase .cp ph { s.bus with cycle := c } } hj he
        rw [hheld, serveAccess_promoted s hj he]
        rfl
      | fp => cases he

/-- An access that waits at an otherwise free port is granted. -/
theorem grantPort_free {port : Port} {s : State} (a : Access) (c : Option Cycle) (h : portFree port s = true) :
    grantPort port { s with bus := setPhase port (.waiting a) { s.bus with cycle := c } } = serveAccess port a s := by
  have hn := nextGrant_held port a { s with bus := { s.bus with cycle := c } } (by rw [portFree_cycle]; exact h)
  simp only [grantPort, phaseOf_setPhase, hn, if_true]
  exact serveAccess_held port a _ c s

/-- An access held at a free port where SRAM is free is granted at once. -/
theorem holdAccess_free {port : Port} {s : State} (a : Access) (h : portFree port s = true) :
    holdAccess port a .free { s with bus := nextAccess port s.bus } = serveAccess port a s := by
  have hs : settleCycle { s with bus := setPhase port (.waiting a) (nextAccess port s.bus) }
      = { s with bus := setPhase port (.waiting a) { s.bus with cycle := none } } := by
    rw [settleCycle_cycle, portFree_closed h, nextAccess_eq]
    cases port <;> rfl
  rw [← grantPort_free a none h, ← hs]
  rfl

/-- An access held at a free port while SRAM is busy is served by its grant. -/
theorem grantPort_holdAccess {port : Port} {s : State} (a : Access) (h : portFree port s = true) :
    grantPort port (holdAccess port a .busy { s with bus := nextAccess port s.bus })
      = holdAccess port a .free { s with bus := nextAccess port s.bus } := by
  rw [holdAccess_free a h, holdAccess_busy, nextAccess_eq]
  exact grantPort_free a _ h

/-- With no access waiting at the port a grant to it does nothing. -/
theorem grantPort_idle {port : Port} {s : State} (h : ∀ a, phaseOf port s.bus ≠ .waiting a) : grantPort port s = s := by
  unfold grantPort
  split
  · next a ha => exact absurd ha (h a)
  · rfl
  · rfl

/-- A grant that the arbiter would not make does nothing. -/
theorem grantPort_notChosen {port : Port} {s : State}
    (h : nextGrant s.bus s.part ≠ some (.rotating (requesterOf port))) : grantPort port s = s := by
  unfold grantPort
  split <;> simp [h]

/-- The grant of the waiting access that the arbiter chooses. -/
theorem grantPort_waiting {port : Port} {s : State} {a : Access} (hw : phaseOf port s.bus = .waiting a)
    (hg : nextGrant s.bus s.part = some (.rotating (requesterOf port))) : grantPort port s = serveAccess port a s := by
  simp [grantPort, hw, hg]

/-! ## Accesses judged at their arrival (R4, R18, R20, R26) -/

/-- Whether a word address is one that the decoder does not answer itself (R4, R27). -/
def notLive (base : BitVec 8) (a : WordAddr) : Prop :=
  inWindow base a = false ∨ ∀ l, classify (windowOffset a) ≠ .live l

/-- Whether a write of a word address is stored without an owner, from either port (R4, R18). -/
def passesThrough (base : BitVec 8) (a : WordAddr) : Prop :=
  inWindow base a = false ∨ classify (windowOffset a) = .frame ∨ classify (windowOffset a) = .free

/-- A read that the decoder does not answer itself waits for its grant, unless FP is to retry. -/
theorem masterReadOf_held {port : Port} {a : WordAddr} {strobes : BitVec 4} {paired : Bool} {sram : SramAt} {s : State}
    (hr : portReady port s.bus = true) (hl : notLive s.part.base a)
    (hq : port = .cp ∨ sqEntryAt s.part.base a s.part.sq = none) :
    masterReadOf port a strobes paired sram s
      = holdAccess port ⟨a, strobes, 0#32, .read paired⟩ sram { s with bus := nextAccess port s.bus } := by
  have hq' : ¬(port = .fp ∧ (sqEntryAt s.part.base a s.part.sq).isSome = true) := by
    rcases hq with rfl | hq
    · simp
    · simp [hq]
  simp only [masterReadOf, hr, if_true, arriveRead]
  split
  · next hw =>
    rcases hl with hl | hl
    · rw [hl] at hw; cases hw
    · unfold arriveWindowRead
      split
      · next l hc => exact absurd hc (hl l)
      · rw [if_neg hq']
  · rfl

/-- A write without an owner waits for its grant. -/
theorem masterWrite_held {port : Port} {a : WordAddr} {strobes : BitVec 4} {x : Word} {sram : SramAt} {s : State}
    (hr : portReady port s.bus = true) (hp : passesThrough s.part.base a) :
    masterWrite port a strobes x sram s
      = holdAccess port ⟨a, strobes, x, .plain⟩ sram { s with bus := nextAccess port s.bus } := by
  simp only [masterWrite, hr, if_true, arriveWrite]
  split
  · next hw =>
    rcases hp with hp | hp | hp
    · rw [hp] at hw; cases hw
    · simp [arriveWindowWrite, hp, writeVerdict, storedWord, jobOf]
    · simp [arriveWindowWrite, hp, writeVerdict, storedWord, jobOf]
  · rfl

/-- The grant serves an access that found SRAM busy as its arrival would have, had SRAM been free; an access that is
answered at its judgement leaves none waiting. -/
theorem grantPort_masterWrite {port : Port} {a : WordAddr} {strobes : BitVec 4} {x : Word} {s : State}
    (h : portFree port s = true) :
    grantPort port (masterWrite port a strobes x .busy s) = masterWrite port a strobes x .free s := by
  simp only [masterWrite, portFree_ready h, if_true, arriveWrite]
  split
  · simp only [arriveWindowWrite]
    split
    · exact grantPort_idle (by simp [refuseWrite, refuseAccess, phaseOf_endPairAt])
    · split
      · exact grantPort_idle (by simp [answerAccess])
      · exact grantPort_holdAccess _ h
  · exact grantPort_holdAccess _ h

theorem grantPort_masterReadOf {port : Port} {a : WordAddr} {strobes : BitVec 4} {paired : Bool} {s : State}
    (h : portFree port s = true) :
    grantPort port (masterReadOf port a strobes paired .busy s) = masterReadOf port a strobes paired .free s := by
  simp only [masterReadOf, portFree_ready h, if_true, arriveRead]
  split
  · unfold arriveWindowRead
    split
    · split
      · exact grantPort_idle (by simp [answerAccess])
      · exact grantPort_idle (by simp [refuseAccess])
    · split
      · exact grantPort_idle (by simp [answerAccess])
      · exact grantPort_holdAccess _ h
  · exact grantPort_holdAccess _ h

end Sys2Proof.Machine
end

section
/-! PROOFS. Edges of TBCLK and the timeout of a pair: O2 and O14 (R7, R12). -/

namespace Sys2Proof.Machine

/-- The timeout ends the pair alone where no write to its word waits in CP. -/
theorem endPairTimeout_quiet {s : State} {pr : Pair} (hp : s.bus.pair = some pr)
    (h : ∀ a, s.bus.cp = .waiting a → a.addr ≠ pr.addr ∨ ∃ paired, a.job = .read paired) :
    endPairTimeout s = withPair none s := by
  unfold endPairTimeout
  rw [hp]
  simp only
  cases hc : s.bus.cp with
  | idle | done => rfl
  | waiting a =>
    rcases h a hc with hne | ⟨paired, hj⟩
    · simp only [hne, if_false]
      split <;> rfl
    · simp only [hj]
      rfl

/-- The timeout grants the write to the paired word that waits in CP. -/
theorem endPairTimeout_write {s : State} {pr : Pair} {a : Access} (hp : s.bus.pair = some pr)
    (hc : s.bus.cp = .waiting a) (ha : a.addr = pr.addr) (hj : ∀ paired, a.job ≠ .read paired) :
    endPairTimeout s = withPair none (serveAccess .cp a s) := by
  unfold endPairTimeout
  rw [hp]
  simp only [hc, ha, if_true]
  rfl

/-- The timeout keeps the time and the queue of commands, and ends the pair. -/
theorem endPairTimeout_frame (s : State) :
    (endPairTimeout s).part.ms = s.part.ms ∧ (endPairTimeout s).pending = s.pending := by
  cases hp : s.bus.pair with
  | none => simp [endPairTimeout, hp]
  | some pr =>
    by_cases h : ∀ a, s.bus.cp = .waiting a → a.addr ≠ pr.addr ∨ ∃ paired, a.job = .read paired
    · rw [endPairTimeout_quiet hp h]
      exact ⟨rfl, rfl⟩
    · push Not at h
      obtain ⟨a, hc, ha, hj⟩ := h
      rw [endPairTimeout_write hp hc ha hj, serveAccess_write s hj]
      exact ⟨(jobEvent_frame ..).2.1, rfl⟩

/-- An edge counted where no pair's timeout takes effect leaves everything behind the ports but the time and the gap. -/
theorem edgeCounted_part (s : State) :
    (edgeCounted s).part = { s.part with
      ms := (edgeCounted s).part.ms
      plans := { s.part.plans with loader := gapAfter 1 s.part.plans.loader } } := rfl

theorem gapAfter_idle {n : Nat} {l : LoaderState} (h : ∀ w, l ≠ .loading w) : gapAfter n l = l := by
  cases l <;> simp_all [gapAfter]

theorem pairEdge_frame (s : State) :
    (pairEdge s).part.ms = s.part.ms ∧ (pairEdge s).bus.subMs = s.bus.subMs ∧ (pairEdge s).pending = s.pending := by
  unfold pairEdge
  split
  · exact ⟨rfl, rfl, rfl⟩
  · split
    · exact ⟨(endPairTimeout_frame s).1, (endPairTimeout_bus s).2, (endPairTimeout_frame s).2⟩
    · exact ⟨rfl, rfl, rfl⟩

/-- Settles O2, by the edge counted by every interval and then by an open pair. -/
theorem emptyQueueIsOneEdge : Obligations.EmptyQueueIsOneEdge := by
  intro s hq
  obtain ⟨hms, hsub, hpend⟩ := pairEdge_frame (edgeCounted s)
  have hstep : step s = .next (pairEdge (edgeCounted s)) := by rw [step, hq, tbclkEdge_eq]
  refine ⟨_, hstep, hpend.trans hq, fun h => ?_, fun h => ?_, fun h => ?_, fun pr h he => ?_, fun pr h he => ?_,
    fun h => ?_⟩
  · rw [hms, hsub]
    simp [edgeCounted, h]
  · rw [hms, hsub]
    simp [edgeCounted, h]
  · rw [pairEdge_none (s := edgeCounted s) h]
    rfl
  · rw [pairEdge_counts (s := edgeCounted s) h he]
    rfl
  · rw [pairEdge_ends (s := edgeCounted s) h he]
    exact (endPairTimeout_bus _).1
  · have hpart : (pairEdge (edgeCounted s)).part = (edgeCounted s).part := by
      rcases h with h | ⟨pr, h, he⟩
      · rw [pairEdge_none (s := edgeCounted s) h]
      · rw [pairEdge_counts (s := edgeCounted s) h he]
    rw [hpart, edgeCounted_part]
    refine ⟨fun w hw => ?_, fun hw => ?_⟩
    · rw [hw]; rfl
    · rw [gapAfter_idle hw]

/-- A write to the word of an open pair that waits in CP is what the arbiter grants. -/
theorem grantPort_paired {s : State} {pr : Pair} {a : Access} (hp : s.bus.pair = some pr) (hc : s.bus.cp = .waiting a)
    (ho : cycleOpen s.part = false) : grantPort .cp s = serveAccess .cp a s := by
  have hg : nextGrant s.bus s.part = some (.rotating .cp) := by
    rw [nextGrant_underPair ho (by simp [hp]), hc]
    rfl
  simp [grantPort, phaseOf, hc, hg, requesterOf]

/-- PAIR_TIMEOUT is the timeout after the edges up to the pair's fourth. -/
theorem passToPairTimeout_eq {s : State} {pr : Pair} (hs : s.bus.subMs ≤ 999) (hp : s.bus.pair = some pr) :
    ∃ last : Pair, last.addr = pr.addr ∧
      passToPairTimeout s = endPairTimeout (withPair (some last) (edgesPassed (3 - pr.edges + 1) s)) := by
  refine ⟨⟨pr.addr, pr.edges + (3 - pr.edges)⟩, rfl, ?_⟩
  rw [passToPairTimeout, hp]
  exact passEdges_timeout _ s pr hs hp rfl

/-- Settles O14, by the edges counted up to the fourth and the timeout that it brings. -/
theorem pairTimeoutEndsPair : Obligations.PairTimeoutEndsPair := by
  refine ⟨fun s h => ?_, fun s pr hp hs => ?_⟩
  · change Host.Outcome.next (passToPairTimeout s) = _
    simp [passToPairTimeout, h]
  · intro u
    obtain ⟨last, hl, hpass⟩ := passToPairTimeout_eq hs hp
    have hrun : exec .pairTimeout s = .next (endPairTimeout (withPair (some last) u)) := congrArg _ hpass
    simp only [← hl]
    refine ⟨fun hq => ?_, fun a hc ha hj => ?_⟩
    · rw [hrun, endPairTimeout_quiet (s := withPair (some last) u) rfl hq]
      rfl
    · have hgrant := serveAccess_write (port := .cp) u hj
      rw [hrun, endPairTimeout_write (s := withPair (some last) u) rfl hc ha hj, serveAccess_write _ hj]
      refine ⟨_, rfl, rfl, rfl, (jobEvent_frame ..).2.1, fun hj => ?_, fun ho => ?_⟩
      · change jobEvent a.job a.data _ = _
        rw [hj]
        rfl
      · change Host.Outcome.next (grantPort .cp u) = _
        rw [grantPort_paired (s := u) (pr := pr) hp hc ho, hgrant]
        have hpair : u.bus.pair.map Pair.addr = some a.addr := by rw [ha, hl, ← Option.map_some, ← hp]; rfl
        simp only [busAfterGrantedWrite, hpair, and_self, if_true]
        rfl

end Sys2Proof.Machine
end

section
/-! PROOFS. Writes and reads served from SRAM: O10, O11, O13 and O15 (R3, R7, R10, R11, R26). -/

namespace Sys2Proof.Machine

theorem sqEntryAt_of_portFree {port : Port} {s : State} (h : portFree port s = true) (a : WordAddr) :
    sqEntryAt s.part.base a s.part.sq = none := by
  rw [portFree_sq h]
  rfl

theorem promotedBy_none {port : Port} {a : WordAddr} {p : Part} (h : port = .fp ∨ sqEntryAt p.base a p.sq = none) :
    promotedBy port a p = none := by
  cases port with
  | cp => exact h.resolve_left (by simp)
  | fp => rfl

/-- A write at a free port that no owner takes is stored, and nothing behind the ports changes. -/
theorem masterWrite_stored {port : Port} {a : WordAddr} {strobes : BitVec 4} {x : Word} {s : State}
    (h : portFree port s = true) (hp : passesThrough s.part.base a) :
    masterWrite port a strobes x .free s = { s with bus := busAfterWrite port a strobes x s.bus } := by
  rw [masterWrite_held (portFree_ready h) hp, holdAccess_write _ _ _ (by rw [portFree_nextAccess]; exact h) (by simp),
    busAfterWrite_nextAccess]
  rfl

/-- A read at a free port that the decoder does not answer itself is served from SRAM. -/
theorem masterReadOf_served {port : Port} {a : WordAddr} {strobes : BitVec 4} {paired : Bool} {s : State}
    (h : portFree port s = true) (hl : notLive s.part.base a) :
    masterReadOf port a strobes paired .free s =
      if s.bus.sram.parityGood a strobes then
        { s with bus := { busAfterRead port .ok (s.bus.sram.read a) s.bus with
                          pair := if paired then some ⟨a, 0⟩ else s.bus.pair } }
      else
        { s with bus := busAfterRead port .err (s.bus.sram.read a) s.bus, part := parityFailure port a s.part } := by
  have hq := sqEntryAt_of_portFree h a
  rw [masterReadOf_held (portFree_ready h) hl (.inr hq), holdAccess_free _ h]
  exact serveAccess_read s rfl (promotedBy_none (.inr hq))

/-- A port is as free after a write granted to it as before. -/
theorem portFree_busAfterWrite (port : Port) (a : WordAddr) (strobes : BitVec 4) (x : Word) (s : State)
    (h : portFree port s = true) :
    portFree port { s with bus := busAfterWrite port a strobes x s.bus } = true := by
  have hr := portFree_ready h
  simp only [portFree, Bool.and_eq_true] at h ⊢
  obtain ⟨⟨⟨⟨-, hpair⟩, hsq⟩, hcycle⟩, hothers⟩ := h
  refine ⟨⟨⟨⟨?_, ?_⟩, hsq⟩, hcycle⟩, ?_⟩
  · simp only [portReady, Bool.and_eq_true] at hr ⊢
    cases port <;> exact ⟨rfl, hr.2⟩
  · cases port <;> exact hpair
  · cases port <;> exact hothers

theorem busAfterWrite_sram (port : Port) (a : WordAddr) (strobes : BitVec 4) (x : Word) (b : Bus) :
    (busAfterWrite port a strobes x b).sram = b.sram.write a strobes x := by
  cases port <;> rfl

/-- What a write leaves in a strobed lane of its word. -/
theorem Sram.write_strobed (m : Sram) (a : WordAddr) (strobes : BitVec 4) (x : Word) {n : Nat} (hn : n < 4)
    (hs : strobes.toNat.testBit n = true) :
    (m.write a strobes x).readByte (laneAddr a n) = laneByte x n ∧
      (m.write a strobes x).readParity (laneAddr a n) = oddParity (laneByte x n) := by
  rw [Sram.readByte_write, Sram.readParity_write, laneAddr_div a hn, laneAddr_mod a hn]
  simp [hs]

/-- What a write leaves at every other byte address. -/
theorem Sram.write_unstrobed (m : Sram) (a : WordAddr) (strobes : BitVec 4) (x : Word) {b : Nat}
    (hb : ∀ n, n < 4 → strobes.toNat.testBit n = true → b ≠ laneAddr a n) :
    (m.write a strobes x).readByte b = m.readByte b ∧ (m.write a strobes x).readParity b = m.readParity b := by
  have hno : ¬(b / 4 = a.toNat ∧ strobes.toNat.testBit (b % 4) = true) := fun ⟨hw, hs⟩ =>
    hb (b % 4) (Nat.mod_lt _ (by decide)) hs (by unfold laneAddr; omega)
  rw [Sram.readByte_write, Sram.readParity_write, if_neg hno, if_neg hno]
  exact ⟨rfl, rfl⟩

/-- Settles O10, by the grant of a write without an owner and the bytes of one SRAM write. -/
theorem passThroughWriteStores : Obligations.PassThroughWriteStores := by
  intro s port a strobes x h hp
  rw [exec_passThroughWrite, masterWrite_stored h hp]
  refine ⟨_, rfl, rfl, rfl, rfl, fun n hn hs => ?_, fun b hb => ?_⟩
  · rw [busAfterWrite_sram]
    exact Sram.write_strobed _ a strobes x hn hs
  · rw [busAfterWrite_sram]
    exact Sram.write_unstrobed _ a strobes x hb

/-- FP is to retry a read of a word with a store-queue entry. -/
theorem masterReadOf_retry {off : Nat} {strobes : BitVec 4} {sram : SramAt} {s : State} (ho : off < 0x10000)
    (hk : off % 4 = 0) (hl : ∀ l, classify off ≠ .live l) (hr : portReady .fp s.bus = true)
    (he : ∃ e ∈ s.part.sq, sqOffset e.word = off) :
    masterReadOf .fp (windowAddr s.part.base off) strobes false sram s
      = { s with bus := busAfterAnswer .fp .retry none s.bus } := by
  obtain ⟨e, hm, rfl⟩ := he
  have hentry : (sqEntryAt s.part.base (windowAddr s.part.base (sqOffset e.word)) s.part.sq).isSome = true := by
    rw [Option.isSome_iff_ne_none]
    exact fun hn => sqEntryAt_none.mp hn e hm rfl
  simp only [masterReadOf, hr, if_true, arriveRead, inWindow_windowAddr _ _ ho, arriveWindowRead,
    windowOffset_windowAddr _ _ ho hk, hentry, and_self]
  rfl

/-- Settles O11, by the read of a grant, the SRAM's laws of a whole word written, and FP's retry. -/
theorem readServedFromSram : Obligations.ReadServedFromSram := by
  refine ⟨fun s port a h hl => ⟨fun strobes hg => ?_, fun strobes hg => ?_, fun hp x => ?_⟩,
    fun s off strobes m ho hk hl hr he => congrArg _ (masterReadOf_retry ho hk hl hr he)⟩
  · have hread := masterReadOf_served (strobes := strobes) (paired := false) h hl
    rw [if_pos hg] at hread
    refine (congrArg Host.Outcome.next hread).trans ?_
    cases port <;> rfl
  · have hread := masterReadOf_served (strobes := strobes) (paired := false) h hl
    rw [if_neg (by simp [hg])] at hread
    exact congrArg Host.Outcome.next hread
  · have hgood : (busAfterWrite port a 15#4 x s.bus).sram.parityGood a 15#4 = true := by
      rw [busAfterWrite_sram]
      exact Sram.parityGood_write_all ..
    have hread := masterReadOf_served (strobes := 15#4) (paired := false) (portFree_busAfterWrite port a 15#4 x s h) hl
    rw [if_pos hgood] at hread
    rw [exec_passThroughWrite, masterWrite_stored h hp]
    refine ⟨_, _, rfl, congrArg Host.Outcome.next hread, ?_⟩
    have hword : (busAfterWrite port a 15#4 x s.bus).sram.read a = x := by
      rw [busAfterWrite_sram]
      exact Sram.read_write_all ..
    cases port <;> simp only [hword] <;> rfl

/-- A read of a live word that the port may read is answered with the word, whether it is marked as paired or not. -/
theorem masterReadOf_live {port : Port} {a : WordAddr} {l : LiveWord} {strobes : BitVec 4} {paired : Bool}
    {sram : SramAt} {s : State} (hr : portReady port s.bus = true) (hw : inWindow s.part.base a = true)
    (hl : classify (windowOffset a) = .live l) (ha : answers l port = true) :
    masterReadOf port a strobes paired sram s
      = { s with bus := busAfterAnswer port .ok (some (liveData l s.part)) s.bus
                 part := liveReadEffect port l s.part } := by
  simp only [masterReadOf, hr, if_true, arriveRead, hw, arriveWindowRead, hl, ha, answerAccess, busAfterAnswer]

/-- Settles O13, by the read of a grant and the answer of a live word. -/
theorem pairedReadOpensPair : Obligations.PairedReadOpensPair := by
  refine fun s a strobes => ⟨fun h hl => ⟨fun hg => ?_, fun hg => ?_⟩, fun hr hw l hl ha => ?_⟩
  · have hread := masterReadOf_served (strobes := strobes) (paired := true) h hl
    rw [if_pos hg] at hread
    exact congrArg Host.Outcome.next hread
  · have hread := masterReadOf_served (strobes := strobes) (paired := true) h hl
    rw [if_neg (by simp [hg])] at hread
    exact ⟨_, congrArg Host.Outcome.next hread, rfl⟩
  · refine ⟨congrArg Host.Outcome.next ?_, _, congrArg Host.Outcome.next (masterReadOf_live hr hw hl ha), rfl⟩
    rw [masterReadOf_live hr hw hl ha, masterReadOf_live hr hw hl ha]

/-- Settles O15, by what a grant serves, with the arbiter's choice and without it. -/
theorem masterAccessGrantServes : Obligations.MasterAccessGrantServes := by
  refine fun s port => ⟨fun a hw hg => ?_, fun h => congrArg _ (grantPort_idle h),
    fun h => congrArg _ (grantPort_notChosen h), fun h a strobes x => ?_⟩
  · have hserve : exec (.masterAccessGrant port) s = .next (serveAccess port a s) :=
      congrArg Host.Outcome.next (grantPort_waiting hw hg)
    refine ⟨fun hj => ?_, fun hj => ?_, fun paired hj hq => ⟨fun hgood => ?_, fun hbad => ?_⟩,
      fun paired hj hcp hn e he ha => ?_⟩
    · rw [hserve, serveAccess_write s (by simp [hj]), hj]
      rfl
    · rw [hserve, serveAccess_write s hj]
      exact ⟨_, rfl, rfl, rfl, (jobEvent_frame ..).2.2⟩
    · rw [hserve, serveAccess_read s hj (promotedBy_none (hq.imp_right sqEntryAt_none.mpr)), if_pos hgood]
    · rw [hserve, serveAccess_read s hj (promotedBy_none (hq.imp_right sqEntryAt_none.mpr)), if_neg (by simp [hbad])]
      rfl
    · subst hcp
      rw [hserve, serveAccess_promoted s hj (sqEntryAt_some hn he ha)]
      rfl
  · refine ⟨⟨_, rfl, congrArg Host.Outcome.next (grantPort_masterWrite h)⟩,
      ⟨_, rfl, congrArg Host.Outcome.next (grantPort_masterReadOf h)⟩, fun hcp => ?_⟩
    subst hcp
    exact ⟨_, rfl, congrArg Host.Outcome.next (grantPort_masterReadOf h)⟩

end Sys2Proof.Machine
end

section
/-! PROOFS. Refusals and what REFUSED_DETAIL reads as: O9 (R7, R17, R20, R21, R184). -/

namespace Sys2Proof.Machine

/-- The refused write of a window offset, with the record, the reports and the end of the word's pair. -/
theorem refuseWrite_eq (port : Port) (off : Nat) (r : Reason) (s : State) (ho : off < 0x10000) (hk : off % 4 = 0) :
    refuseWrite port (windowAddr s.part.base off) r { s with bus := nextAccess port s.bus } = { s with
      bus := { busAfterAnswer port .err none s.bus with
        pair := if port = .cp ∧ s.bus.pair.map Pair.addr = some (windowAddr s.part.base off) then none
                else s.bus.pair }
      part := refuse port off r s.part } := by
  simp only [refuseWrite, refuseAccess, endPairAt_eq, windowOffset_windowAddr _ _ ho hk, busAfterAnswer,
    setPhase_pair]
  rw [nextAccess_eq]

/-- The live offsets that carry no word (R17). -/
theorem classify_hole {off : Nat} (h : 0x28 ≤ off ∧ off < 0x40 ∨ 0x1D0 ≤ off ∧ off < 0x200) :
    classify off = .live .hole := by
  have h200 : off < 0x200 := by omega
  have hnamed : ∀ n ∈ [0x00, 0x04, 0x08, 0x0C, 0x10, 0x14, 0x18, 0x1C, 0x20, 0x24], off ≠ n := by
    simp only [List.mem_cons, List.not_mem_nil, or_false]
    omega
  simp only [List.forall_mem_cons, List.not_mem_nil, IsEmpty.forall_iff, implies_true, and_true] at hnamed
  simp only [classify, h200, if_true, liveAt, hnamed, if_false]
  rcases h with h | h
  · simp [h.2]
  · simp [show ¬off < 0x40 by omega, show ¬off < 0xC0 by omega, show ¬off < 0x1D0 by omega]

/-- A read of a live word from a port that it does not answer is refused, with all ones. -/
theorem windowRead_wrongPort {port : Port} {off : Nat} {l : LiveWord} {s : State} (ho : off < 0x10000)
    (hk : off % 4 = 0) (hc : classify off = .live l) (ha : answers l port = false)
    (hr : portReady port s.bus = true) :
    windowRead port off s = { s with bus := busAfterAnswer port .err (some allOnes) s.bus
                                     part := refuse port off .wrongPort s.part } := by
  simp only [windowRead, masterReadOf, hr, if_true, arriveRead, inWindow_windowAddr _ _ ho, arriveWindowRead,
    windowOffset_windowAddr _ _ ho hk, hc, ha, Bool.false_eq_true, if_false, refuseAccess, busAfterAnswer]

/-- The four reads of R20 are of live words that their ports are not answered. -/
theorem wrongPort_live (r : WrongPortRead) :
    wrongOffset r < 0x10000 ∧ wrongOffset r % 4 = 0 ∧
      ∃ l, classify (wrongOffset r) = .live l ∧ answers l (wrongPort r) = false := by
  cases r
  · exact ⟨by decide, by decide, .attention, by decide, by decide⟩
  · exact ⟨by decide, by decide, .cause, by decide, by decide⟩
  · exact ⟨by decide, by decide, .take .notice, by decide, by decide⟩
  · exact ⟨by decide, by decide, .take .command, by decide, by decide⟩

/-- REFUSED_DETAIL field by field. -/
theorem refusedWord_fields (d : RefusedDetail) :
    bits (refusedWord d) 0 16 = d.offset.toNat ∧ bit (refusedWord d) 16 = (portCode d.port == 1) ∧
      bits (refusedWord d) 17 4 = reasonCode d.reason ∧ bit (refusedWord d) 21 = d.overwritten ∧
      bits (refusedWord d) 22 10 = 0 := by
  refine ⟨?_, ?_, ?_, ?_, ?_⟩
  · rw [refusedWord, bits_pack _ _ _ _ (by decide) (by simp)]
    exact Nat.mod_eq_of_lt d.offset.isLt
  · refine bit_of_bits _ _ _ ?_
    rw [refusedWord, bits_pack_skip _ _ _ _ _ _ (by decide), bits_pack _ _ _ _ (by decide) (by simp)]
    cases d.port <;> rfl
  · rw [refusedWord, bits_pack_skip _ _ _ _ _ _ (by decide), bits_pack_skip _ _ _ _ _ _ (by decide),
      bits_pack _ _ _ _ (by decide) (by simp)]
    cases d.reason <;> rfl
  · refine bit_of_bits _ _ _ ?_
    rw [refusedWord, bits_pack_skip _ _ _ _ _ _ (by decide), bits_pack_skip _ _ _ _ _ _ (by decide),
      bits_pack_skip _ _ _ _ _ _ (by decide), bits_pack _ _ _ _ (by decide) (by simp)]
    exact flag_mod _
  · rw [refusedWord, bits_pack_skip _ _ _ _ _ _ (by decide), bits_pack_skip _ _ _ _ _ _ (by decide),
      bits_pack_skip _ _ _ _ _ _ (by decide), bits_pack_skip _ _ _ _ _ _ (by decide)]
    rfl

/-- A read of REFUSED_DETAIL by either port. -/
theorem windowRead_refusedDetail {port : Port} {s : State} (hr : portReady port s.bus = true) :
    windowRead port refusedDetailOffset s
      = { s with bus := busAfterAnswer port .ok (some (refusedWord s.part.img.refused)) s.bus
                 part := if port = .cp then readRefused s.part else s.part } :=
  windowRead_live port _ .refusedDetail s (by decide) (by decide) (by decide) rfl hr

/-- Settles O9, by the refusal of an access and the fields of REFUSED_DETAIL. -/
theorem refusalsRecorded : Obligations.RefusalsRecorded := by
  unfold Obligations.RefusalsRecorded
  intro recorded shows
  have hshows : ∀ d, shows d (refusedWord d) := fun d => by
    obtain ⟨hoff, hport, hreason, hover, hrest⟩ := refusedWord_fields d
    refine ⟨hoff, hport.trans ?_, hreason.trans ?_, hover, hrest⟩
    · cases d.port <;> rfl
    · cases d.reason <;> rfl
  refine ⟨fun s port off strobes x m r ho hk hr hv => ?_, fun port off strobes x p _ h => ?_, fun s r hr => ?_,
    fun s hr => ⟨_, hshows s.part.img.refused, congrArg Host.Outcome.next (windowRead_refusedDetail hr)⟩,
    fun s hr => ⟨_, hshows s.part.img.refused, congrArg Host.Outcome.next (windowRead_refusedDetail hr)⟩⟩
  · have hw := windowWrite_refused port off strobes x m s r ho hk hv hr
    rw [refuseWrite_eq port off r s ho hk] at hw
    exact congrArg Host.Outcome.next hw
  · rw [classify_hole h]
    rfl
  · obtain ⟨ho, hk, l, hc, ha⟩ := wrongPort_live r
    exact congrArg Host.Outcome.next (windowRead_wrongPort ho hk hc ha hr)

end Sys2Proof.Machine
end

section
/-! PROOFS. The resets and the invariants at reset: O4, O5 and O60 (R13, R14, R177). -/

namespace Sys2Proof.Machine

/-! ## Full reset -/

/-- Where a lane of a write cut short is not a byte, the byte and its parity bit stand. -/
theorem Sram.cutLane_stands (w : WordAddr) (strobes : BitVec 4) (draw n : Nat) (m : Sram) {a : Nat}
    (h : strobes.toNat.testBit n = true → a ≠ laneAddr w n) :
    (m.cutLane w strobes draw n).readByte a = m.readByte a ∧
      (m.cutLane w strobes draw n).readParity a = m.readParity a := by
  unfold Sram.cutLane
  split
  · next hs =>
    rw [Sram.readByte_writeByte, Sram.readParity_writeByte, if_neg (h hs).symm, if_neg (h hs).symm]
    exact ⟨rfl, rfl⟩
  · exact ⟨rfl, rfl⟩

/-- A write cut short leaves every byte that is none of its strobed bytes. -/
theorem Sram.cut_stands (m : Sram) (w : WordAddr) (strobes : BitVec 4) (draw : Nat) {a : Nat}
    (h : ∀ n, n < 4 → strobes.toNat.testBit n = true → a ≠ laneAddr w n) :
    (m.cut w strobes draw).readByte a = m.readByte a ∧ (m.cut w strobes draw).readParity a = m.readParity a := by
  have hlane := fun n hn m => Sram.cutLane_stands w strobes draw n m (h n hn)
  unfold Sram.cut
  refine ⟨?_, ?_⟩
  · rw [(hlane 3 (by decide) _).1, (hlane 2 (by decide) _).1, (hlane 1 (by decide) _).1, (hlane 0 (by decide) _).1]
  · rw [(hlane 3 (by decide) _).2, (hlane 2 (by decide) _).2, (hlane 1 (by decide) _).2, (hlane 0 (by decide) _).2]

/-- SRAM at a full reset stands, but for the strobed bytes of the write that the reset cuts short. -/
theorem sramAtReset_stands (moment : ResetMoment) (b : Bus) (draw : Nat) {a : Nat}
    (h : ∀ (w : WordAddr) (strobes : BitVec 4) (n : Nat),
      (moment = .inCycle ∧ b.cycle.map Cycle.kind = some (.write w strobes) ∨
        moment = .inPromotion ∧ b.cycle.map Cycle.kind = some (.promotedRead w) ∧ strobes = 15#4) →
      n < 4 → strobes.toNat.testBit n = true → a ≠ laneAddr w n) :
    (sramAtReset moment b draw).readByte a = b.sram.readByte a ∧
      (sramAtReset moment b draw).readParity a = b.sram.readParity a := by
  unfold sramAtReset
  split
  · next w strobes hk => exact Sram.cut_stands _ _ _ _ fun n => h w strobes n (.inl ⟨rfl, hk⟩)
  · next w hk => exact Sram.cut_stands _ _ _ _ fun n => h w 15#4 n (.inr ⟨rfl, hk, rfl⟩)
  · exact ⟨rfl, rfl⟩

/-- A slot of a vector that holds one value. -/
theorem slot_replicate {α : Type} {n : Nat} (x : α) (i : Fin n) : (Vector.replicate n x)[i] = x := by simp

/-- The part after a full reset, block by block, has every slot at its reset value. -/
theorem partReset_slots (base : BitVec 8) (free : Nat) :
    (∀ i : SecId, (Part.reset base free).islands[i] = Island.blank) ∧
    (∀ g : GenId, (Part.reset base free).gens[g] = Gen.init ∧ (Part.reset base free).sharing[g] = Sharing.init ∧
      (Part.reset base free).img.genReq[g] = 0x100#32 ∧ (Part.reset base free).img.genFixed[g] = 0#32) ∧
    (∀ c : ConsId, (Part.reset base free).cons[c] = ⟨.isOpen, none⟩ ∧ (Part.reset base free).cmd[c] = 0#32) ∧
    (∀ d : DriveId, (Part.reset base free).drives[d] = ⟨false, 0⟩ ∧
      (Part.reset base free).img.driveReq[d] = 0xFFFF#32) ∧
    (∀ r : RecordId, copyOf (Part.reset base free) r = MeasCopy.never) := by
  refine ⟨slot_replicate _, fun g => ⟨slot_replicate _ g, slot_replicate _ g, slot_replicate _ g,
    slot_replicate _ g⟩, fun c => ⟨slot_replicate _ c, slot_replicate _ c⟩,
    fun d => ⟨slot_replicate _ d, slot_replicate _ d⟩, fun r => ?_⟩
  cases r with
  | gen g => exact slot_replicate _ g
  | cons c => exact slot_replicate _ c
  | drive d => exact slot_replicate _ d
  | ties => rfl

/-- Both channels after a full reset (R165). -/
theorem partReset_chan (base : BitVec 8) (free : Nat) (ch : Chan) :
    getChan (Part.reset base free).lu ch = Channel.init := by
  cases ch <;> rfl

theorem partReset_effectiveLimit (base : BitVec 8) (free : Nat) (d : DriveId) :
    effectiveLimit (Part.reset base free) d = 65535 := by
  obtain ⟨-, -, -, hd, -⟩ := partReset_slots base free
  simp only [effectiveLimit, controllerLimit, (hd d).1, (hd d).2]
  rfl

/-- URG_N is active after a full reset: every island is DEAD (R56, R183). -/
theorem partReset_urgActive (base : BitVec 8) (free : Nat) : urgActive (Part.reset base free) = true := rfl

/-- After a full reset INT_N is inactive and CAUSE shows no bit (R178, R181, R182). -/
theorem partReset_attention (base : BitVec 8) (free : Nat) :
    intActive (Part.reset base free).att = false ∧ causeValue (Part.reset base free).att = 0 := by
  change intActive ⟨0#16, none, 0xFFFF#16⟩ = false ∧ causeValue ⟨0#16, none, 0xFFFF#16⟩ = 0
  decide

/-- After a full reset URG_N alone is active (R56, R181, R183). -/
theorem linesAt_reset (m : Sram) (base : BitVec 8) (free : Nat) (q : List Instr) :
    linesAt false ⟨Bus.reset m, Part.reset base free, q⟩ = ⟨false, false, false, true⟩ := by
  rw [linesAt, partReset_urgActive, (partReset_attention base free).1]
  rfl

/-- The state after a full reset. -/
theorem exec_fullReset (straps : BitVec 8) (moment : ResetMoment) (s : State) :
    exec (.fullReset straps moment) s = .next { s with
      bus := Bus.reset (sramAtReset moment s.bus s.part.free)
      part := Part.reset straps (if moment = .between then s.part.free else s.part.free + 1) } := rfl

/-- Settles O4, block by block, from the part's and the ports' values at reset and the bytes of a write cut short. -/
theorem fullResetLeaves : Obligations.FullResetLeaves := by
  intro straps moment s
  obtain ⟨hislands, hgens, hcons, hdrives, hcopies⟩ :=
    partReset_slots straps (if moment = .between then s.part.free else s.part.free + 1)
  refine ⟨rfl, _, exec_fullReset straps moment s, rfl, linesAt_reset _ _ _ _,
    fun a h => sramAtReset_stands moment s.bus _ h, ?_⟩
  refine ⟨rfl, rfl, rfl, rfl, rfl, rfl, rfl, rfl, rfl, rfl, rfl, rfl, fun ch f => ?_, fun ch => ?_, rfl, rfl, rfl, rfl,
    rfl, rfl, rfl, rfl, rfl, rfl, hislands, fun g => (hgens g).1, fun g => (hgens g).2.1, hcons,
    fun d => ⟨(hdrives d).1, partReset_effectiveLimit _ _ d⟩, hcopies, fun g => ?_, rfl, rfl, rfl, rfl, rfl, rfl, rfl,
    rfl, (partReset_attention _ _).1, (partReset_attention _ _).2, partReset_urgActive _ _⟩
  · simp only [partReset_chan]
    exact slot_replicate _ f
  · simp only [partReset_chan]
    exact ⟨rfl, rfl, rfl, rfl, rfl, rfl⟩
  · obtain ⟨-, -, hreq, hfixed⟩ := hgens g
    refine ⟨?_, ?_, hfixed⟩ <;> simp only [hreq] <;> rfl

/-! ## Controller reset -/

/-- The state after a controller reset that falls in no read of the loader. -/
theorem discardedRead_none {midRead : Bool} {s : State}
    (h : midRead = false ∨ nextGrant s.bus s.part ≠ some (.rotating .pl)) : discardedRead midRead s = s := by
  unfold discardedRead
  rw [if_neg]
  rintro ⟨hm, hg⟩
  exact h.elim (fun hf => by rw [hf] at hm; cases hm) fun hn => hn hg

theorem discardedRead_part (midRead : Bool) (s : State) :
    (discardedRead midRead s).part = s.part ∧ (discardedRead midRead s).pending = s.pending := by
  unfold discardedRead
  split <;> exact ⟨rfl, rfl⟩

/-- A port that cannot take an access has no read taken. -/
theorem masterReadOf_notReady {port : Port} {a : WordAddr} {strobes : BitVec 4} {paired : Bool} {sram : SramAt}
    {s : State} (h : portReady port s.bus = false) : masterReadOf port a strobes paired sram s = s := by
  simp [masterReadOf, h]

theorem portReady_false {port : Port} {b : Bus}
    (h : isWaiting (phaseOf port b) = true ∨ (port = .cp ∧ b.ctlHeld = true)) : portReady port b = false := by
  rcases h with h | ⟨rfl, h⟩ <;> simp [portReady, h]

/-- Settles O5, by what the reset does at the ports and behind them, and by the ports that are not ready. -/
theorem controllerResetLeaves : Obligations.ControllerResetLeaves := by
  refine ⟨fun s midRead => ?_, fun s => rfl, fun s port a strobes x m h => ?_⟩
  · obtain ⟨hpart, hpend⟩ := discardedRead_part midRead s
    refine ⟨resetController midRead s, rfl, hpend, fun h => ?_, fun hm hg => ?_, fun h => ?_, fun w hw => ?_⟩
    · simp only [resetController, discardedRead_none h]
    · simp only [resetController, discardedRead, hm, hg, and_self, if_true]
      rfl
    · simp only [resetController, hpart, controllerResetPart]
      split
      · next w hw => exact absurd hw (h w)
      all_goals rfl
    · simp only [resetController, hpart, controllerResetPart, setKey, hw]
      rfl
  · have hr := portReady_false h
    refine ⟨?_, ?_, fun hcp => ?_⟩
    · rw [exec_passThroughWrite, masterWrite_notReady _ _ _ _ _ _ hr]
    · rw [exec_masterRead, masterReadOf_notReady hr]
    · rw [exec_pairedRead, masterReadOf_notReady (hcp ▸ hr)]

end Sys2Proof.Machine
end
section
/-! PROOFS. The invariants at reset: O60 (R13, R165). -/

namespace Sys2Proof.Machine

/-- After a full reset no generator lies in an island: no plan is active (R41, R167). -/
theorem partReset_genIn (base : BitVec 8) (free : Nat) (i : SecId) (g : GenId) :
    genIn (Part.reset base free) i g = false := by
  have habsent : Plan.empty.gens[g] = none := slot_replicate none g
  simp only [genIn, genIsland]
  rw [show (Part.reset base free).plans.active.gens[g] = none from habsent]
  rfl

theorem partReset_carrying (base : BitVec 8) (free : Nat) (i : SecId) : carrying (Part.reset base free) i = [] := by
  simp [carrying, partReset_genIn]

theorem partReset_totals (base : BitVec 8) (free : Nat) (i : SecId) :
    totalsOf (Part.reset base free) i = ⟨0, 0, 0, 0⟩ := by
  have hentries : entriesOf (Part.reset base free) i = [] := rfl
  simp [totalsOf, sumGens, partReset_genIn, hentries]

/-- After a full reset every island holds what its members give: nothing, and DEAD (R46, R56). -/
theorem partReset_islandStands (base : BitVec 8) (free : Nat) (i : SecId) :
    islandStands (Part.reset base free) i := by
  obtain ⟨hislands, -⟩ := partReset_slots base free
  simp [islandStands, islandAgrees, hislands, Island.blank, partReset_totals, conditionOf, heldOf, partReset_carrying]

theorem partReset_balanced (base : BitVec 8) (free : Nat) : (Part.reset base free).balanced := by
  obtain ⟨hislands, -⟩ := partReset_slots base free
  refine ⟨fun i => releaseTimed_of_none ?_, fun e he => ?_, fun i _ => partReset_islandStands base free i⟩
  · rw [hislands]
    rfl
  · cases he

/-- After a full reset every copy of a CMD word agrees with a consumer that is OPEN and has no entry (R33, R96). -/
theorem partReset_guardLaw (base : BitVec 8) (free : Nat) : (Part.reset base free).guardLaw := by
  intro c
  obtain ⟨-, -, hcons, -⟩ := partReset_slots base free
  obtain ⟨hstate, hcmd⟩ := hcons c
  have hentry : hasEntry (Part.reset base free) (.cons c) = false := rfl
  refine ⟨?_, fun _ => hentry⟩
  simp only [cmdAgrees, isGuarded, hstate, hcmd, hentry]
  rfl

theorem partReset_notGuarded (base : BitVec 8) (free : Nat) (c : ConsId) :
    isGuarded (Part.reset base free) c = false := by
  obtain ⟨-, -, hcons, -⟩ := partReset_slots base free
  have hentry : hasEntry (Part.reset base free) (.cons c) = false := rfl
  simp only [isGuarded, (hcons c).1, hentry]
  rfl

theorem ringLaw_init : ringLaw Channel.init := ⟨rfl, rfl⟩

theorem framesLaw_init : framesLaw Channel.init := by
  have hspare : ringList Channel.init.spare = [] := rfl
  have hready : ringList Channel.init.ready = [] := rfl
  refine ⟨List.nodup_nil, List.nodup_nil, fun f => ?_⟩
  have hout : Channel.init.frames[f] = .out := slot_replicate _ f
  rw [hout, hspare, hready]
  simp [Channel.init]

theorem partReset_queuesBounded (base : BitVec 8) (free : Nat) : (Part.reset base free).queuesBounded :=
  ⟨List.nodup_nil, List.nodup_nil, List.nodup_nil, Nat.zero_le _⟩

/-- Settles O60, law by law, from the part's values at reset. -/
theorem invariantsAtReset : Obligations.InvariantsAtReset := by
  refine ⟨rfl, ⟨ringLaw_init, ringLaw_init⟩, partReset_queuesBounded _ _, ⟨framesLaw_init, framesLaw_init⟩,
    ⟨partReset_guardLaw _ _, List.nodup_nil, trivial, trivial, trivial, trivial, fun c hc => ?_⟩, by decide,
    partReset_balanced _ _⟩
  rw [show State.reset.part = Part.reset 0#8 0 from rfl, partReset_notGuarded] at hc
  cases hc

end Sys2Proof.Machine
end
section
/-! PROOFS. What one step can do, said once: every command is an access, a grant, a number of TBCLK edges, a write of
the part's own, a reset, or an event of the plant. -/

namespace Sys2Proof.Machine

/-- The ways in which a command changes the state. -/
inductive Moves (s : State) : State → Prop where
  | write (port : Port) (a : WordAddr) (strobes : BitVec 4) (x : Word) (m : SramAt) :
      Moves s (masterWrite port a strobes x m s)
  | read (port : Port) (a : WordAddr) (strobes : BitVec 4) (paired : Bool) (m : SramAt) :
      Moves s (masterReadOf port a strobes paired m s)
  | grant (port : Port) : Moves s (grantPort port s)
  | edges (n : Nat) : Moves s (passEdges n s)
  | drain : Moves s (drainHead s)
  | listUnit : Moves s (listUnitGrant s)
  | loader : Moves s (loaderGrant s)
  | postStart (ch : Chan) : Moves s { s with part := tryPost ch s.part }
  | postEnd (ch : Chan) : Moves s (completePost ch s)
  | powerReset (straps : BitVec 8) (moment : ResetMoment) : Moves s (powerReset straps moment s)
  | controllerReset (midRead : Bool) : Moves s (resetController midRead s)
  | controllerRelease : Moves s (releaseController s)
  | plant {q : Part} (h : Effects s.part q) : Moves s { s with part := q }

theorem passToPairTimeout_moves (s : State) : Moves s (passToPairTimeout s) := by
  unfold passToPairTimeout
  split
  · exact .edges 0
  · exact .edges _

theorem passToGapEnd_moves (s : State) : Moves s (passToGapEnd s) := by
  unfold passToGapEnd
  split
  · exact .edges _
  all_goals exact .edges 0

/-- Every command answers a next state, and changes the state in one of these ways. -/
theorem exec_moves (c : Instr) (s : State) : ∃ t, exec c s = .next t ∧ Moves s t := by
  cases c with
  | fullReset straps moment => exact ⟨_, rfl, .powerReset straps moment⟩
  | controllerReset midRead => exact ⟨_, rfl, .controllerReset midRead⟩
  | controllerResetRelease => exact ⟨_, rfl, .controllerRelease⟩
  | generatorMeasWrite | consumerMeasWrite | driveMeasWrite | tiesWrite | start | stop | clear | noAction | fixedWrite
  | driveReqWrite | consumerCmdWrite | ack | planLoad | key | activate | attMask | attentionWrite | give
  | passThroughWrite => exact ⟨_, rfl, .write ..⟩
  | attentionRead | take | refusedDetailRead | masterRead | pairedRead | refusedRead => exact ⟨_, rfl, .read ..⟩
  | masterAccessGrant port => exact ⟨_, rfl, .grant port⟩
  | pairTimeout => exact ⟨_, rfl, passToPairTimeout_moves s⟩
  | interBurstGap => exact ⟨_, rfl, passToGapEnd_moves s⟩
  | millisecondCounterAdvance => exact ⟨_, congrArg Host.Outcome.next (passToMillisecond_eq s), .edges _⟩
  | drain => exact ⟨_, rfl, .drain⟩
  | listUnitWrite => exact ⟨_, rfl, .listUnit⟩
  | planLoaderRead => exact ⟨_, rfl, .loader⟩
  | postStart ch => exact ⟨_, rfl, .postStart ch⟩
  | postEnd ch => exact ⟨_, rfl, .postEnd ch⟩
  | freshnessTimerExpiry r => exact ⟨_, rfl, .plant (effects_freshnessExpiry r _)⟩
  | overloadTimerExpiry i => exact ⟨_, rfl, .plant (effects_overloadExpiry i _)⟩
  | startDelayTimerExpiry i => exact ⟨_, rfl, .plant (effects_startDelayExpiry i _)⟩
  | releaseHoldTimerExpiry i => exact ⟨_, rfl, .plant (effects_releaseHoldExpiry i _)⟩
  | startTimerExpiry g => exact ⟨_, rfl, .plant (effects_startTimeout g _)⟩
  | rampStep g => exact ⟨_, rfl, .plant (effects_rampDown g _)⟩
  | openTimerExpiry g => exact ⟨_, rfl, .plant (effects_openTimeout g _)⟩
  | capRaise g => exact ⟨_, rfl, .plant (effects_raiseCap g _)⟩
  | verifyDeadline c => exact ⟨_, rfl, .plant (effects_verifyReached c _)⟩
  | restoreDeadline c => exact ⟨_, rfl, .plant (effects_restoreReached c _)⟩
  | settlingTimeout => exact ⟨_, rfl, .plant (effects_settlingExpiry _)⟩

/-- A step changes the state, but for the queue of commands, in one of these ways. -/
theorem step_moves {s t : State} (h : step s = .next t) : ∃ q, Moves { s with pending := q } t := by
  unfold step at h
  split at h
  · cases h
    exact ⟨s.pending, .edges 1⟩
  · next c rest _ =>
    obtain ⟨u, hu, hm⟩ := exec_moves c { s with pending := rest }
    rw [hu] at h
    cases h
    exact ⟨rest, hm⟩

end Sys2Proof.Machine
end

section
/-! PROOFS. The forms that every step keeps: O56 (R8, R10, R12, R153, R157, R160, R186). -/

namespace Sys2Proof.Machine

/-! ## The list unit and the store queue -/

/-- What an event keeps of the ring law and the queues' bounds (R8, R153, R157, R160, R186). -/
structure KeepsQueues (p q : Part) : Prop where
  rings : p.ringsAgree → q.ringsAgree
  queues : p.queuesBounded → q.queuesBounded

theorem KeepsQueues.trans {p q r : Part} (h : KeepsQueues p q) (k : KeepsQueues q r) : KeepsQueues p r :=
  ⟨fun x => k.rings (h.rings x), fun x => k.queues (h.queues x)⟩

/-- An event that touches neither the list unit nor the store queue. -/
theorem KeepsQueues.of_eq {p q : Part} (hlu : q.lu = p.lu) (hsq : q.sq = p.sq) : KeepsQueues p q := by
  refine ⟨?_, ?_⟩
  · unfold Part.ringsAgree
    rw [hlu]
    exact id
  · unfold Part.queuesBounded
    rw [hlu, hsq]
    exact id

theorem KeepsQueues.refl (p : Part) : KeepsQueues p p := .of_eq rfl rfl

/-- A store queue that loses entries, with the list unit as it was. -/
theorem KeepsQueues.of_sublist {p : Part} {q : List SqEntry} (h : q.Sublist p.sq) : KeepsQueues p { p with sq := q } :=
  ⟨id, fun ⟨hsq, hrest⟩ => ⟨hsq.sublist (h.map _), hrest⟩⟩

theorem ringsAgree_iff (p : Part) : p.ringsAgree ↔ ∀ ch, ringLaw (getChan p.lu ch) :=
  ⟨fun ⟨hc, hn⟩ ch => by cases ch; exacts [hc, hn], fun h => ⟨h .command, h .notice⟩⟩

theorem getChan_setChan (lu : ListUnit) (ch x : Chan) (c : Channel) :
    getChan (setChan lu ch c) x = if x = ch then c else getChan lu x := by
  cases ch <;> cases x <;> rfl

theorem setChan_queues (lu : ListUnit) (ch : Chan) (c : Channel) :
    (setChan lu ch c).pendingCmds = lu.pendingCmds ∧ (setChan lu ch c).notices = lu.notices ∧
      (setChan lu ch c).spareMirror = lu.spareMirror := by
  cases ch <;> exact ⟨rfl, rfl, rfl⟩

/-- A channel replaced by one that keeps the ring law. -/
theorem KeepsQueues.of_setChan {p : Part} {ch : Chan} {c : Channel} (h : ringLaw (getChan p.lu ch) → ringLaw c) :
    KeepsQueues p { p with lu := setChan p.lu ch c } := by
  refine ⟨fun hr => (ringsAgree_iff _).mpr fun x => ?_, fun hq => ?_⟩
  · rw [ringsAgree_iff] at hr
    rw [getChan_setChan]
    split
    · exact h (hr ch)
    · exact hr x
  · unfold Part.queuesBounded
    obtain ⟨hcmds, hnotices, hmirror⟩ := setChan_queues p.lu ch c
    rw [hcmds, hnotices, hmirror]
    exact hq

/-- The start of a post keeps the ring law and the bounds. -/
theorem keepsQueues_tryPost (ch : Chan) (p : Part) : KeepsQueues p (tryPost ch p) := by
  refine ⟨fun h => ?_, tryPost_queues ch p⟩
  rw [ringsAgree_iff] at *
  exact tryPost_keeps ringLaw (fun c po hc _ => ringLaw_beginPost c po hc) ch p h

/-- Every event of the plant keeps the ring law and the bounds, by what it reports. -/
theorem Reports.keepsQueues {p q : Part} (h : Reports p q) : KeepsQueues p q := by
  refine ⟨fun hr => ?_, h.queues⟩
  rw [ringsAgree_iff] at *
  exact h.channels ringLaw (fun c po hc _ => ringLaw_beginPost c po hc) hr

theorem Effects.keepsQueues {p q : Part} (h : Effects p q) : KeepsQueues p q := h.reports.keepsQueues

/-! ## Events of the ports -/

theorem reports_acknowledge (c : ConsId) (p : Part) : Reports p (acknowledge c p) := by
  unfold acknowledge
  split
  · exact (reports_setConsState ..).trans (reports_setCmd ..)
  · exact .refl p

theorem reports_reconcile (c : ConsId) (p : Part) : Reports p (reconcile c p) := by
  unfold reconcile
  split
  · exact .refl p
  · exact reports_setCmd ..

/-- The grant of a CMD write removes the word's entry, and then reports. -/
theorem keepsQueues_cmdEvent (c : ConsId) (w : Word) (ack masked : Bool) (p : Part) :
    KeepsQueues p (cmdEvent c w ack masked p) := by
  unfold cmdEvent
  extract_lets p1 p2 p3
  have hremove : KeepsQueues p p1 :=
    (KeepsQueues.of_sublist (q := sqRemove (.consCmd c) p.sq) List.filter_sublist).trans (.of_eq rfl rfl)
  have hack : KeepsQueues p1 p2 := by
    unfold p2
    split
    · exact (reports_acknowledge c p1).keepsQueues
    · exact .refl p1
  have hmask : KeepsQueues p2 p3 := by
    unfold p3
    split
    · exact (Reports.attention ..).keepsQueues
    · exact .refl p2
  exact hremove.trans (hack.trans (hmask.trans (reports_reconcile c p3).keepsQueues))

/-- The event of a write's owner keeps the ring law and the bounds. -/
theorem keepsQueues_jobEvent (j : Job) (w : Word) (p : Part) : KeepsQueues p (jobEvent j w p) := by
  have hcopy : ∀ img, KeepsQueues p { p with img := img } := fun _ => .of_eq rfl rfl
  cases j with
  | read | plain => exact .refl p
  | genMeas g => exact ((effects_takeCopy ..).trans (effects_genMeasEvent ..)).keepsQueues
  | consMeas c => exact ((effects_takeCopy ..).trans (effects_consMeasEvent ..)).keepsQueues
  | driveMeas d => exact (effects_takeCopy ..).keepsQueues
  | ties => exact ((effects_takeCopy ..).trans (effects_tiesEvent ..)).keepsQueues
  | genReq g a => exact (hcopy _).trans (effects_genReqEvent ..).keepsQueues
  | genFixed g => exact (hcopy _).trans (effects_genFixedEvent ..).keepsQueues
  | consCmd c ack masked => exact keepsQueues_cmdEvent ..
  | driveReq d => exact (hcopy _).trans (effects_driveReqEvent ..).keepsQueues
  | planLoad => exact (effects_planLoadEvent ..).keepsQueues
  | key => exact (effects_keyEvent ..).keepsQueues
  | activate => exact (effects_activateEvent ..).keepsQueues
  | attMask => exact .of_eq rfl rfl

theorem mirrorPut_nodup {q : List (Chan × FrameId)} (item : Chan × FrameId) (h : q.Nodup) :
    (mirrorPut q item).Nodup := by
  unfold mirrorPut
  split
  · exact h
  · next hn =>
    rw [List.nodup_append_comm]
    exact List.nodup_cons.mpr ⟨hn, h⟩

/-- A GIVE keeps the ring law and the bounds. -/
theorem keepsQueues_giveFrame (ch : Chan) (f : FrameId) (p : Part) : KeepsQueues p (giveFrame ch f p) := by
  refine KeepsQueues.trans ?_ (keepsQueues_tryPost ch _)
  have hchan : KeepsQueues p { p with lu := setChan p.lu ch { getChan p.lu ch with
      frames := setAt (getChan p.lu ch).frames f .spare, spare := ringAppend (getChan p.lu ch).spare f } } :=
    .of_setChan (ringLaw_give _ f)
  exact hchan.trans ⟨id, fun ⟨hsq, hcmds, hmirror, hnotices⟩ => ⟨hsq, hcmds, mirrorPut_nodup _ hmirror, hnotices⟩⟩

/-- A TAKE keeps the ring law and the bounds. -/
theorem keepsQueues_takeFrame (ch : Chan) (p : Part) : KeepsQueues p (takeFrame ch p) := by
  simp only [takeFrame]
  split
  · exact .refl p
  · next hc => exact .of_setChan (ringLaw_take _ hc)

theorem keepsQueues_liveWriteEffect (l : LiveWord) (x : Word) (p : Part) : KeepsQueues p (liveWriteEffect l x p) := by
  unfold liveWriteEffect
  split
  · exact .of_eq rfl rfl
  · split
    · exact keepsQueues_giveFrame ..
    · exact .refl p
  · exact .refl p

theorem keepsQueues_liveReadEffect (port : Port) (l : LiveWord) (p : Part) :
    KeepsQueues p (liveReadEffect port l p) := by
  cases l with
  | attention => exact .of_eq rfl rfl
  | take ch => exact keepsQueues_takeFrame ch p
  | refusedDetail => cases port <;> exact .of_eq rfl rfl
  | partStatus | time | cause | counts | give | island | shedView | genStatus | consStatus | driveStatus | hole =>
    exact .refl p

/-- The end of a post keeps the ring law and the bounds. -/
theorem keepsQueues_endPost (ch : Chan) (p : Part) : KeepsQueues p (endPost ch p) := by
  simp only [endPost]
  split
  · exact .refl p
  · next po hpo =>
    split
    · exact (KeepsQueues.of_setChan (ringLaw_end _ po hpo)).trans (keepsQueues_tryPost ch _)
    · exact .refl p

theorem keepsQueues_controllerResetPart (p : Part) : KeepsQueues p (controllerResetPart p) := by
  simp only [controllerResetPart]
  have hreset : KeepsQueues p { setKey .locked p with att := { p.att with snapshot := none, mask := 0xFFFF#16 } } :=
    .of_eq rfl rfl
  split
  · exact hreset.trans (effects_failLoad ..).keepsQueues
  all_goals exact hreset

/-! ## The whole state -/

/-- What a change of the state keeps of the forms of O56. -/
structure KeepsForms (s t : State) : Prop where
  sram : s.bus.sram.wf = true → t.bus.sram.wf = true
  part : KeepsQueues s.part t.part
  subMs : s.bus.subMs ≤ 999 → t.bus.subMs ≤ 999

theorem KeepsForms.trans {s t u : State} (h : KeepsForms s t) (k : KeepsForms t u) : KeepsForms s u :=
  ⟨fun x => k.sram (h.sram x), h.part.trans k.part, fun x => k.subMs (h.subMs x)⟩

/-- A change that writes no SRAM and leaves the sub-millisecond count. -/
theorem KeepsForms.of_quiet {s t : State} (hm : t.bus.sram = s.bus.sram) (hc : t.bus.subMs = s.bus.subMs)
    (hp : KeepsQueues s.part t.part) : KeepsForms s t :=
  ⟨fun h => hm ▸ h, hp, fun h => hc ▸ h⟩

theorem KeepsForms.refl (s : State) : KeepsForms s s := .of_quiet rfl rfl (.refl _)

/-- A change that writes one word of SRAM and leaves the sub-millisecond count. -/
theorem KeepsForms.of_write {s t : State} (a : WordAddr) (strobes : BitVec 4) (x : Word)
    (hm : t.bus.sram = s.bus.sram.write a strobes x) (hc : t.bus.subMs = s.bus.subMs)
    (hp : KeepsQueues s.part t.part) : KeepsForms s t :=
  ⟨fun h => hm ▸ Sram.wf_write _ _ _ _ h, hp, fun h => hc ▸ h⟩

theorem setPhase_frame (port : Port) (ph : PortPhase) (b : Bus) :
    (setPhase port ph b).sram = b.sram ∧ (setPhase port ph b).subMs = b.subMs := by
  cases port <;> exact ⟨rfl, rfl⟩

/-- The grant of an access keeps the forms: a write stores one word, a read stores none or the entry it promotes. -/
theorem keepsForms_serveAccess (port : Port) (a : Access) (s : State) : KeepsForms s (serveAccess port a s) := by
  by_cases hj : ∀ paired, a.job ≠ .read paired
  · rw [serveAccess_write s hj]
    refine .of_write a.addr a.strobes a.data ?_ ?_ (keepsQueues_jobEvent ..) <;>
      cases port <;> rfl
  · push Not at hj
    obtain ⟨paired, hj⟩ := hj
    cases he : promotedBy port a.addr s.part with
    | none =>
      rw [serveAccess_read s hj he]
      split
      · refine .of_quiet ?_ ?_ (.refl _) <;> cases port <;> rfl
      · refine .of_quiet ?_ ?_ (effects_parityFailure ..).keepsQueues <;> cases port <;> rfl
    | some e =>
      cases port with
      | cp =>
        rw [serveAccess_promoted s hj he]
        exact .of_write a.addr allStrobes e.data rfl rfl (.of_sublist List.filter_sublist)
      | fp => cases he

theorem keepsForms_grantPort (port : Port) (s : State) : KeepsForms s (grantPort port s) := by
  unfold grantPort
  split
  · split
    · exact keepsForms_serveAccess ..
    · exact .refl s
  all_goals exact .refl s

theorem keepsForms_settleCycle (s : State) : KeepsForms s (settleCycle s) := by
  rw [settleCycle_eq]
  exact .of_quiet rfl rfl (.refl _)

theorem keepsForms_holdAccess (port : Port) (a : Access) (m : SramAt) (s : State) :
    KeepsForms s (holdAccess port a m s) := by
  obtain ⟨hm, hc⟩ := setPhase_frame port (.waiting a) s.bus
  have hwait : KeepsForms s { s with bus := setPhase port (.waiting a) s.bus } := .of_quiet hm hc (.refl _)
  cases m with
  | free => exact hwait.trans ((keepsForms_settleCycle _).trans (keepsForms_grantPort ..))
  | busy => exact hwait

theorem keepsForms_nextAccess (port : Port) (s : State) : KeepsForms s { s with bus := nextAccess port s.bus } := by
  rw [nextAccess_eq]
  exact .of_quiet rfl rfl (.refl _)

theorem keepsForms_answerAccess (port : Port) (r : Response) (data : Option Word) (s : State) {p : Part}
    (h : KeepsQueues s.part p) : KeepsForms s (answerAccess port r data { s with part := p }) := by
  obtain ⟨hm, hc⟩ := setPhase_frame port (.done r data) s.bus
  exact .of_quiet hm hc h

theorem keepsForms_refuseAccess (port : Port) (a : WordAddr) (r : Reason) (data : Option Word) (s : State) :
    KeepsForms s (refuseAccess port a r data s) := by
  obtain ⟨hm, hc⟩ := setPhase_frame port (.done .err data) s.bus
  exact .of_quiet hm hc (effects_refuse ..).keepsQueues

theorem keepsForms_refuseWrite (port : Port) (a : WordAddr) (r : Reason) (s : State) :
    KeepsForms s (refuseWrite port a r s) := by
  refine (keepsForms_refuseAccess port a r none s).trans ?_
  simp only [refuseWrite, endPairAt_eq]
  exact .of_quiet rfl rfl (.refl _)

theorem keepsForms_masterWrite (port : Port) (a : WordAddr) (strobes : BitVec 4) (x : Word) (m : SramAt) (s : State) :
    KeepsForms s (masterWrite port a strobes x m s) := by
  unfold masterWrite
  split
  · refine (keepsForms_nextAccess port s).trans ?_
    unfold arriveWrite
    split
    · simp only [arriveWindowWrite]
      split
      · exact keepsForms_refuseWrite ..
      · split
        · exact keepsForms_answerAccess _ _ _ _ (keepsQueues_liveWriteEffect ..)
        · exact keepsForms_holdAccess ..
    · exact keepsForms_holdAccess ..
  · exact .refl s

theorem keepsForms_masterReadOf (port : Port) (a : WordAddr) (strobes : BitVec 4) (paired : Bool) (m : SramAt)
    (s : State) : KeepsForms s (masterReadOf port a strobes paired m s) := by
  unfold masterReadOf
  split
  · refine (keepsForms_nextAccess port s).trans ?_
    unfold arriveRead
    split
    · unfold arriveWindowRead
      split
      · split
        · exact keepsForms_answerAccess _ _ _ _ (keepsQueues_liveReadEffect ..)
        · exact keepsForms_refuseAccess ..
      · split
        · exact keepsForms_answerAccess _ _ _ _ (.refl _)
        · exact keepsForms_holdAccess ..
    · exact keepsForms_holdAccess ..
  · exact .refl s

/-- A list-unit write stores one word; the post stands, or the item leaves its queue. -/
theorem keepsForms_writeSource (src : LuSource) (s : State) : KeepsForms s (writeSource src s) := by
  have hpost : ∀ ch, KeepsForms s (writePost ch s) := fun ch => by
    simp only [writePost]
    split
    · exact .refl s
    · next po hpo =>
      exact .of_write _ allStrobes (postWord po po.made) rfl rfl (.of_setChan fun h => by simpa [ringLaw, hpo] using h)
  cases src with
  | command => exact hpost .command
  | notice => exact hpost .notice
  | spareMirror =>
    simp only [writeSource, writeSpareMirror]
    split
    · exact .refl s
    · next ch slot q hq =>
      refine .of_write (windowAddr s.part.base (spareMirrorOffset ch slot)) allStrobes _ rfl rfl
        ⟨id, fun ⟨hsq, hcmds, hmirror, hnotices⟩ => ⟨hsq, hcmds, ?_, hnotices⟩⟩
      rw [hq] at hmirror
      exact hmirror.of_cons

theorem keepsForms_listUnitGrant (s : State) : KeepsForms s (listUnitGrant s) := by
  unfold listUnitGrant
  split
  · split
    · exact (keepsForms_writeSource _ s).trans (.of_quiet rfl rfl ⟨id, id⟩)
    · exact .refl s
  · exact .refl s

theorem keepsForms_drainHead (s : State) : KeepsForms s (drainHead s) := by
  unfold drainHead
  split
  · exact .refl s
  · next e q hq =>
    split
    · exact .of_write _ allStrobes e.data rfl rfl (.of_sublist (by rw [hq]; exact List.sublist_cons_self e q))
    · exact .refl s

theorem keepsForms_loaderGrant (s : State) : KeepsForms s (loaderGrant s) := by
  unfold loaderGrant
  split
  · split
    · exact .of_quiet rfl rfl (effects_loaderWord ..).keepsQueues
    · exact .refl s
  all_goals exact .refl s

theorem keepsForms_completePost (ch : Chan) (s : State) : KeepsForms s (completePost ch s) := by
  unfold completePost
  split
  · exact .of_quiet rfl rfl (keepsQueues_endPost ch s.part)
  · exact .refl s

/-! ## The time base and the resets -/

theorem keepsForms_edgeCounted (s : State) : KeepsForms s (edgeCounted s) := by
  refine ⟨id, .of_eq rfl rfl, fun h => ?_⟩
  simp only [edgeCounted]
  split <;> omega

theorem keepsForms_endPairTimeout (s : State) : KeepsForms s (endPairTimeout s) := by
  cases hp : s.bus.pair with
  | none =>
    rw [endPairTimeout, hp]
    exact .refl s
  | some pr =>
    by_cases h : ∀ a, s.bus.cp = .waiting a → a.addr ≠ pr.addr ∨ ∃ paired, a.job = .read paired
    · rw [endPairTimeout_quiet hp h]
      exact .of_quiet rfl rfl (.refl _)
    · push Not at h
      obtain ⟨a, hc, ha, hj⟩ := h
      rw [endPairTimeout_write hp hc ha hj]
      exact (keepsForms_serveAccess .cp a s).trans (.of_quiet rfl rfl (.refl _))

theorem keepsForms_tbclkEdge (s : State) : KeepsForms s (tbclkEdge s) := by
  rw [tbclkEdge_eq]
  refine (keepsForms_edgeCounted s).trans ?_
  unfold pairEdge
  split
  · exact .refl _
  · split
    · exact keepsForms_endPairTimeout _
    · exact .of_quiet rfl rfl (.refl _)

theorem keepsForms_passEdges (n : Nat) (s : State) : KeepsForms s (passEdges n s) :=
  passEdges_keeps (KeepsForms s) (fun t h => h.trans (keepsForms_tbclkEdge t)) n s (.refl s)

/-- SRAM keeps its form at a full reset, in whose moment a write may be cut short. -/
theorem sramAtReset_wf (moment : ResetMoment) (b : Bus) (draw : Nat) (h : b.sram.wf = true) :
    (sramAtReset moment b draw).wf = true := by
  unfold sramAtReset
  split
  · exact Sram.wf_cut _ _ _ _ h
  · exact Sram.wf_cut _ _ _ _ h
  · exact h

theorem keepsForms_powerReset (straps : BitVec 8) (moment : ResetMoment) (s : State) :
    KeepsForms s (powerReset straps moment s) :=
  ⟨sramAtReset_wf moment s.bus _, ⟨fun _ => ⟨ringLaw_init, ringLaw_init⟩, fun _ => partReset_queuesBounded _ _⟩,
    fun _ => Nat.zero_le _⟩

theorem keepsForms_resetController (midRead : Bool) (s : State) : KeepsForms s (resetController midRead s) := by
  have hdiscard : KeepsForms s (discardedRead midRead s) := by
    unfold discardedRead
    split
    · exact .of_quiet rfl rfl (.refl _)
    · exact .refl s
  exact hdiscard.trans (.of_quiet rfl rfl (keepsQueues_controllerResetPart _))

/-- Every way in which a command changes the state keeps the forms. -/
theorem Moves.keepsForms {s t : State} (h : Moves s t) : KeepsForms s t := by
  cases h with
  | write => exact keepsForms_masterWrite ..
  | read => exact keepsForms_masterReadOf ..
  | grant => exact keepsForms_grantPort ..
  | edges => exact keepsForms_passEdges ..
  | drain => exact keepsForms_drainHead s
  | listUnit => exact keepsForms_listUnitGrant s
  | loader => exact keepsForms_loaderGrant s
  | postStart ch => exact .of_quiet rfl rfl (keepsQueues_tryPost ch s.part)
  | postEnd ch => exact keepsForms_completePost ch s
  | powerReset => exact keepsForms_powerReset ..
  | controllerReset => exact keepsForms_resetController ..
  | controllerRelease => exact .of_quiet rfl rfl (.refl _)
  | plant h => exact .of_quiet rfl rfl h.keepsQueues

/-- Settles O56, by the ways in which a step changes the state, each of which keeps the forms. -/
theorem formsKept : Obligations.FormsKept := by
  intro s t h
  obtain ⟨q, hm⟩ := step_moves h
  obtain ⟨hsram, hpart, hsub⟩ := hm.keepsForms
  exact ⟨hsram, hpart.rings, hpart.queues, hsub⟩

end Sys2Proof.Machine
end

section
/-! PROOFS. The step, and that every command leaves the queue: O1 and O3 (R20, R22). -/

namespace Sys2Proof.Machine

/-- Settles O1, by the step's own case of a queue that is not empty. -/
theorem stepRunsFrontCommand : Obligations.StepRunsFrontCommand := fun _ _ => rfl

theorem serveAccess_pending (port : Port) (a : Access) (s : State) : (serveAccess port a s).pending = s.pending := by
  by_cases hj : ∀ paired, a.job ≠ .read paired
  · rw [serveAccess_write s hj]
  · push Not at hj
    obtain ⟨paired, hj⟩ := hj
    cases he : promotedBy port a.addr s.part with
    | none =>
      rw [serveAccess_read s hj he]
      split <;> rfl
    | some e =>
      cases port with
      | cp => rw [serveAccess_promoted s hj he]
      | fp => cases he

theorem grantPort_pending (port : Port) (s : State) : (grantPort port s).pending = s.pending := by
  unfold grantPort
  split
  · split
    · exact serveAccess_pending ..
    · rfl
  all_goals rfl

theorem settleCycle_pending (s : State) : (settleCycle s).pending = s.pending := by rw [settleCycle_eq]

theorem holdAccess_pending (port : Port) (a : Access) (m : SramAt) (s : State) :
    (holdAccess port a m s).pending = s.pending := by
  cases m with
  | free => exact (grantPort_pending ..).trans (settleCycle_pending _)
  | busy => rfl

theorem masterWrite_pending (port : Port) (a : WordAddr) (strobes : BitVec 4) (x : Word) (m : SramAt) (s : State) :
    (masterWrite port a strobes x m s).pending = s.pending := by
  simp only [masterWrite, arriveWrite, arriveWindowWrite]
  split
  · split
    · split
      · rfl
      · split
        · rfl
        · exact holdAccess_pending ..
    · exact holdAccess_pending ..
  · rfl

theorem masterReadOf_pending (port : Port) (a : WordAddr) (strobes : BitVec 4) (paired : Bool) (m : SramAt)
    (s : State) : (masterReadOf port a strobes paired m s).pending = s.pending := by
  unfold masterReadOf arriveRead arriveWindowRead
  split
  · split
    · split
      · split <;> rfl
      · split
        · rfl
        · exact holdAccess_pending ..
    · exact holdAccess_pending ..
  · rfl

theorem endPairTimeout_pending (s : State) : (endPairTimeout s).pending = s.pending := by
  unfold endPairTimeout
  split
  · rfl
  · split
    · split
      · rfl
      · split
        · exact serveAccess_pending ..
        · rfl
    all_goals rfl

theorem tbclkEdge_pending (s : State) : (tbclkEdge s).pending = s.pending := by
  rw [tbclkEdge_eq, ← show (edgeCounted s).pending = s.pending from rfl]
  unfold pairEdge
  split
  · rfl
  · split
    · exact endPairTimeout_pending _
    · rfl

theorem listUnitGrant_pending (s : State) : (listUnitGrant s).pending = s.pending := by
  have hsource : ∀ src, (writeSource src s).pending = s.pending := fun src => by
    cases src <;> simp only [writeSource, writePost, writeSpareMirror] <;> split <;> rfl
  unfold listUnitGrant
  split
  · split
    · exact hsource _
    · rfl
  · rfl

theorem drainHead_pending (s : State) : (drainHead s).pending = s.pending := by
  unfold drainHead
  split
  · rfl
  · split <;> rfl

theorem loaderGrant_pending (s : State) : (loaderGrant s).pending = s.pending := by
  unfold loaderGrant
  split
  · split <;> rfl
  all_goals rfl

theorem resetController_pending (midRead : Bool) (s : State) : (resetController midRead s).pending = s.pending := by
  unfold resetController discardedRead
  split <;> rfl

/-- No way of changing the state touches the queue of commands. -/
theorem Moves.pending {s t : State} (h : Moves s t) : t.pending = s.pending := by
  cases h with
  | write => exact masterWrite_pending ..
  | read => exact masterReadOf_pending ..
  | grant => exact grantPort_pending ..
  | edges n => exact passEdges_keeps (·.pending = s.pending) (fun u hu => (tbclkEdge_pending u).trans hu) n s rfl
  | drain => exact drainHead_pending s
  | listUnit => exact listUnitGrant_pending s
  | loader => exact loaderGrant_pending s
  | postEnd ch => unfold completePost; split <;> rfl
  | controllerReset midRead => exact resetController_pending midRead s
  | postStart | powerReset | controllerRelease | plant => rfl

/-- Settles O3, by the ways in which a command changes the state, none of which touches the queue. -/
theorem everyCommandAnswersNext : Obligations.EveryCommandAnswersNext := fun c s => by
  obtain ⟨t, ht, hm⟩ := exec_moves c s
  exact ⟨t, ht, hm.pending⟩

end Sys2Proof.Machine
end

section
/-! PROOFS. The rows named for one word, and who may write which word: O6 and O8 (R15 to R19). -/

namespace Sys2Proof.Machine

/-- A write at a window offset is the pass-through write of the offset's address (R4, R15). -/
theorem exec_windowWrite (port : Port) (off : Nat) (strobes : BitVec 4) (x : Word) (m : SramAt) (s : State) :
    exec (.passThroughWrite port (windowAddr s.part.base off) strobes x m) s
      = .next (windowWrite port off strobes x m s) := rfl

/-- A read at a window offset is the master read of the offset's address, with all strobes (R4, R15). -/
theorem exec_windowRead (port : Port) (off : Nat) (s : State) :
    exec (.masterRead port (windowAddr s.part.base off) 15#4 .free) s = .next (windowRead port off s) := rfl

/-- Settles O6, row by row: each is the access of its word's offset. -/
theorem namedRowsAreWindowAccesses : Obligations.NamedRowsAreWindowAccesses := by
  intro s k x m
  simp only [exec_windowWrite, exec_windowRead, List.forall_mem_cons, List.not_mem_nil, IsEmpty.forall_iff,
    implies_true, and_true]
  refine ⟨fun _ => rfl, fun _ => rfl, fun _ => rfl, rfl, fun _ => ⟨rfl, rfl, rfl, rfl⟩, fun _ => rfl, fun _ => rfl,
    fun _ => ⟨rfl, rfl⟩, rfl, rfl, rfl, rfl, rfl, rfl, fun _ => ⟨rfl, rfl, rfl, rfl, rfl⟩⟩

/-- The check of a class: its port, then the full word, then the word's own check (R18, R19). -/
theorem classVerdict_fp (port : Port) (strobes : BitVec 4) (own : Option Reason) :
    classVerdict .fp port strobes own
      = if port = .cp then some .class_ else if strobes ≠ 15#4 then some .partial_ else own := by
  cases port <;> rfl

theorem classVerdict_cp (port : Port) (strobes : BitVec 4) (own : Option Reason) :
    classVerdict .cp port strobes own
      = if port = .fp then some .class_ else if strobes ≠ 15#4 then some .partial_ else own := by
  cases port <;> rfl

/-- The ACTION field is NONE where its bits are 0. -/
theorem reqAction_eq_none (x : Word) : reqAction x = .none ↔ bits x 0 2 = 0 := by
  have hlt : bits x 0 2 < 4 := bits_lt x 0 2
  unfold reqAction
  generalize bits x 0 2 = n at hlt
  interval_cases n <;> simp

/-- The own checks of a REQ write, by the fields of the word (R144). -/
theorem reqCheck_eq (g : GenId) (x : Word) (p : Part) :
    reqCheck g x p = if bit x 4 = false ∧ bits x 8 4 = 0 then some .invalidValue
      else if bits x 0 2 ≠ 0 ∧ p.plans.active.gens[g] = none then some .absent else none := by
  simp [reqCheck, reqFixed, reqWeight, reqAction_eq_none]

/-- A live word that takes no write is refused CLASS, whoever writes it (R17). -/
theorem liveVerdict_class {l : LiveWord} (h : liveWriter l = none) (port : Port) (strobes : BitVec 4) (x : Word)
    (p : Part) : writeVerdict port (.live l) strobes x p = some .class_ := by
  simp only [writeVerdict, liveVerdict, h]

/-- ATTENTION takes CP's writes alone, of the full word, and has no check of its own (R17, R19). -/
theorem liveVerdict_attention (port : Port) (strobes : BitVec 4) (x : Word) (p : Part) :
    writeVerdict port (.live .attention) strobes x p
      = if port = .fp then some .wrongPort else if strobes ≠ 15#4 then some .partial_ else none := by
  cases port <;> rfl

/-- Settles O8, word by word, from the check of a class and the check of a live word. -/
theorem writeOwnership : Obligations.WriteOwnership := by
  intro port strobes x p
  simp only [List.forall_mem_append, List.forall_mem_map, List.forall_mem_cons, List.not_mem_nil, IsEmpty.forall_iff,
    implies_true, and_true]
  refine ⟨⟨⟨⟨?_, fun _ _ => ?_⟩, fun _ _ => ?_⟩, fun _ _ => ?_⟩,
    ⟨⟨⟨?_, ?_, ?_⟩, fun _ _ => ?_⟩, fun _ _ => ?_⟩, fun g => ?_, fun c => ?_, ?_, fun _ => rfl, fun _ => rfl, rfl,
    rfl, rfl, liveVerdict_attention port strobes x p, fun ch => by cases ch <;> rfl,
    ⟨⟨⟨⟨?_, ?_, ?_, ?_, ?_, ?_, ?_, ?_⟩, fun _ _ => ?_⟩, fun _ _ => ?_⟩, fun _ _ => ?_⟩, fun _ _ => ?_, fun _ => ?_⟩
  iterate 4 exact classVerdict_fp port strobes none
  iterate 5 exact classVerdict_cp port strobes none
  · rw [← reqCheck_eq]; exact classVerdict_cp port strobes _
  · exact classVerdict_cp port strobes (cmdCheck x)
  · exact classVerdict_cp port strobes (loadCheck p)
  all_goals exact liveVerdict_class rfl port strobes x p

end Sys2Proof.Machine
end

section
/-! PROOFS. What the update of an island rests on, and the expiry of a freshness timer: O46 (R31, R45, R49, R51, R123). -/

namespace Sys2Proof.Machine

/-! ## What an island's members give rests on (R41 to R46) -/

/-- Whether two parts give every island the same members, with the same states, outputs and entries. -/
structure SameMembers (p q : Part) : Prop where
  ties : q.img.ties = p.img.ties
  plans : q.plans = p.plans
  gens : q.gens = p.gens
  shedList : q.shedList = p.shedList
  output : ∀ g : GenId, measKw q.img.genMeas[g] = measKw p.img.genMeas[g]

theorem SameMembers.genIn {p q : Part} (h : SameMembers p q) (i : SecId) : genIn q i = genIn p i := by
  funext g
  simp only [Machine.genIn, genIsland, h.plans, h.ties]

theorem SameMembers.genState {p q : Part} (h : SameMembers p q) : genState q = genState p := by
  funext g
  simp only [Machine.genState, h.gens]

theorem SameMembers.genContribution {p q : Part} (h : SameMembers p q) : genContribution q = genContribution p := by
  funext g
  simp only [Machine.genContribution, h.plans]

theorem SameMembers.entriesOf {p q : Part} (h : SameMembers p q) (i : SecId) : entriesOf q i = entriesOf p i := by
  have htarget : targetIsland q = targetIsland p := by
    funext t
    cases t <;> simp only [targetIsland, consIsland, driveIsland, h.plans, h.ties]
  simp only [Machine.entriesOf, h.shedList, htarget]

theorem SameMembers.totalsOf {p q : Part} (h : SameMembers p q) (i : SecId) : totalsOf q i = totalsOf p i := by
  simp only [Machine.totalsOf, h.genIn, h.genState, h.genContribution, h.entriesOf, h.output]

theorem SameMembers.conditionOf {p q : Part} (h : SameMembers p q) (i : SecId) (t : Totals) :
    conditionOf q i t = conditionOf p i t := by
  have hcarry : carrying q i = carrying p i := by simp only [carrying, h.genIn, h.genState]
  have hheader : q.header = p.header := by simp only [Part.header, h.plans]
  simp only [Machine.conditionOf, hcarry, hheader]

/-- An island that agrees with its members agrees with them wherever they are the same. -/
theorem SameMembers.islandAgrees {p q : Part} (h : SameMembers p q) {i : SecId} (hr : q.islands[i] = p.islands[i])
    (ha : islandAgrees p i) : islandAgrees q i := by
  unfold Machine.islandAgrees at *
  rwa [hr, h.totalsOf, h.conditionOf]

/-! ## The update of an island that agrees with its members -/

/-- An update of an island that agrees with its members changes neither its totals nor its condition. -/
theorem retotal_agreed {i : SecId} {p : Part} (h : islandAgrees p i) :
    (retotal i p).islands[i].totals = p.islands[i].totals ∧
      (retotal i p).islands[i].condition = p.islands[i].condition := by
  obtain ⟨o, d, k, e, -⟩ := syncTimers_eq i (setIsland i { p.islands[i] with
    totals := totalsOf p i, condition := conditionOf p i (totalsOf p i), held := heldOf p i } p)
  simp only [retotal, e, setIsland_islands, setAt_same]
  exact ⟨h.1.symm, h.2.symm⟩

/-- So it enters no condition, and the timers are all that follows. -/
theorem update_agreed {i : SecId} {p : Part} (h : islandAgrees p i) : update i p = retotal i p := by
  have hsame : entered i p (retotal i p) = false := by
    rw [entered, (retotal_agreed h).2, bne_self_eq_false]
  simp only [update, hsame, Bool.false_eq_true, if_false]

/-- What timers follow from is the timers alone. -/
theorem timersFollow_of_timers {old r : Island} {p : Part} {i : SecId} (ho : r.overload = old.overload)
    (hd : r.startDelay = old.startDelay) (hk : r.releaseHold = old.releaseHold) (h : timersFollow r p i) :
    timersFollow old p i := by
  unfold timersFollow at *
  rwa [ho, hd, hk] at h

/-- In RUNNING an island's timers after an update follow from those it had. -/
theorem timersFollow_retotal {i : SecId} {p : Part} (hr : isRunning p = true) :
    timersFollow p.islands[i] (retotal i p) i := by
  refine timersFollow_of_timers ?_ ?_ ?_ (timersFollow_syncTimers i (setIsland i { p.islands[i] with
    totals := totalsOf p i, condition := conditionOf p i (totalsOf p i), held := heldOf p i } p) hr)
  all_goals rw [setIsland_islands, setAt_same]

/-! ## The expiry of a record's freshness timer (R31) -/

@[simp] theorem copyOf_setCopy (r : RecordId) (m : MeasCopy) (p : Part) : copyOf (setCopy r m p) r = m := by
  cases r <;> simp [copyOf, setCopy]

/-- The copy of a record, by the copies alone. -/
theorem copyOf_congr {p q : Part} (h : q.img = p.img) (r : RecordId) : copyOf q r = copyOf p r := by
  cases r <;> simp only [copyOf, h]

/-- A timer that does not run, or is not reached, does not act. -/
theorem freshnessExpiry_idle {r : RecordId} {p : Part}
    (h : (copyOf p r).timer = none ∨ ∃ e, (copyOf p r).timer = some e ∧ due e p.ms = false) :
    freshnessExpiry r p = p := by
  have hidle : timerDue (copyOf p r).timer p.ms = false := by
    rcases h with h | ⟨e, h, he⟩
    · rw [h]; rfl
    · rw [h]; exact he
  simp only [freshnessExpiry, hidle, Bool.false_eq_true, if_false]

/-- The part after a freshness timer's expiry, before a generator's island is judged: the timer stopped, attention STALE
and the notice. -/
def markedStale (r : RecordId) (p : Part) : Part :=
  reported [.attention .stale,
    .notice (notice .stale (staleSubject r).1 (staleSubject r).2 (islandField (recordIsland p r)) 0 0#32 0#32)]
    (setCopy r ⟨(copyOf p r).word, (copyOf p r).written, none⟩ p)

/-- The island that is judged for HELD where a record goes stale: a generator's (R49). -/
def islandJudged (p : Part) : RecordId → Option SecId
  | .gen g => genIsland p g
  | .cons _ | .drive _ | .ties => none

/-- A timer that is reached marks its record stale, and a generator's island is judged again. -/
theorem freshnessExpiry_due {r : RecordId} {p : Part} {e : Word} (ht : (copyOf p r).timer = some e)
    (he : due e p.ms = true) : freshnessExpiry r p = updateOf (islandJudged p r) (markedStale r p) := by
  have hdue : timerDue (copyOf p r).timer p.ms = true := by rw [ht]; exact he
  simp only [freshnessExpiry, hdue, if_true]
  cases r <;> rfl

/-- What marking a record stale leaves of the part. -/
theorem markedStale_frame (r : RecordId) (p : Part) :
    (markedStale r p).img = (setCopy r ⟨(copyOf p r).word, (copyOf p r).written, none⟩ p).img ∧
      (markedStale r p).islands = p.islands ∧ (markedStale r p).gens = p.gens ∧ (markedStale r p).cons = p.cons ∧
      (markedStale r p).shedList = p.shedList ∧ (markedStale r p).sq = p.sq ∧ (markedStale r p).plans = p.plans := by
  simp [markedStale, reported, Report.make]

/-- A record marked stale moves no member of an island: a generator's copy keeps its word. -/
theorem sameMembers_markedStale (g : GenId) (p : Part) : SameMembers p (markedStale (.gen g) p) := by
  obtain ⟨himg, -, hgens, -, hshed, -, hplans⟩ := markedStale_frame (.gen g) p
  refine ⟨?_, hplans, hgens, hshed, fun x => ?_⟩
  · rw [himg]; rfl
  · rw [himg]
    show measKw (setAt p.img.genMeas g _)[x] = _
    rw [setAt_get]
    split
    · next h => rw [h]; rfl
    · rfl

theorem exec_freshnessTimerExpiry (r : RecordId) (s : State) :
    exec (.freshnessTimerExpiry r) s = .next { s with part := freshnessExpiry r s.part } := rfl

/-- Settles O46, by the marking of the record and the update of a generator's island, which agrees with its members. -/
theorem freshnessExpires : Obligations.FreshnessExpires := by
  intro s r m report marked
  refine ⟨fun h => by rw [exec_freshnessTimerExpiry, freshnessExpiry_idle h], fun e ht he =>
    ⟨{ s with part := updateOf (islandJudged s.part r) (markedStale r s.part) },
      by rw [exec_freshnessTimerExpiry, freshnessExpiry_due ht he], rfl, rfl, ?_⟩⟩
  obtain ⟨himg, hislands, hgens, hcons, hshed, hsq, hplans⟩ := markedStale_frame r s.part
  have hafter : (updateOf (islandJudged s.part r) (markedStale r s.part)).img = marked.img :=
    (by simp : _ = (markedStale r s.part).img).trans himg
  have hcopy : copyOf (updateOf (islandJudged s.part r) (markedStale r s.part)) r = ⟨m.word, m.written, none⟩ :=
    (copyOf_congr hafter r).trans (copyOf_setCopy r _ s.part)
  refine ⟨hafter, hcopy, fun hw => ?_, fun h => ?_, fun g hr hi => ?_, fun g i hr hi ha => ?_⟩
  · rw [hcopy]
    simp [freshness, hw]
  · cases r with
    | gen g => exact absurd rfl (h g)
    | cons | drive | ties => rfl
  · subst hr
    simp only [islandJudged, hi]
    rfl
  · subst hr
    have hagree := (sameMembers_markedStale g s.part).islandAgrees (i := i) (by rw [hislands]) ha
    have hupdate : updateOf (islandJudged s.part (.gen g)) (markedStale (.gen g) s.part)
        = retotal i (markedStale (.gen g) s.part) := by
      rw [islandJudged, hi]
      exact update_agreed hagree
    simp only [hupdate]
    have hheld := (islandStands_retotal i (markedStale (.gen g) s.part)).2
    obtain ⟨htotals, hcondition⟩ := retotal_agreed hagree
    rw [hislands] at htotals hcondition
    refine ⟨by simp; rfl, by simp; rfl, htotals, hcondition, hheld, fun hr => ?_, fun j hj => ?_, by simp [hgens],
      by simp [hcons], by simp [hshed], by simp [hsq], by simp [hplans]⟩
    · rw [← hislands]
      exact timersFollow_retotal (by rw [isRunning, hplans]; exact hr)
    · rw [retotal_other _ hj.symm, hislands]

end Sys2Proof.Machine
end

section
/-! PROOFS. What an entry to a condition leaves of the other islands: the work it hands on stays within its own island
(R47, R71, R75, R76, R100, R111). -/

namespace Sys2Proof.Machine

/-- Whether a change lies within an island: no other island's record changes, and which island holds a slot stands. -/
structure Within (i : SecId) (p q : Part) : Prop where
  img : q.img = p.img
  plans : q.plans = p.plans
  others : ∀ j : SecId, j ≠ i → q.islands[j] = p.islands[j]

theorem Within.refl (i : SecId) (p : Part) : Within i p p := ⟨rfl, rfl, fun _ _ => rfl⟩

theorem Within.trans {i : SecId} {p q r : Part} (h : Within i p q) (k : Within i q r) : Within i p r :=
  ⟨k.img.trans h.img, k.plans.trans h.plans, fun j hj => (k.others j hj).trans (h.others j hj)⟩

/-- A change of no island's record lies within every island. -/
theorem Within.of_islands {i : SecId} {p q : Part} (h : q.img = p.img ∧ q.plans = p.plans ∧ q.islands = p.islands) :
    Within i p q := by
  obtain ⟨himg, hplans, hislands⟩ := h
  exact ⟨himg, hplans, fun j _ => by rw [hislands]⟩

/-- Steps that each lie within an island, as long as the slots stand where they stood. -/
theorem Within.fold {α : Type} {i : SecId} (f : Part → α → Part) (l : List α) (p : Part)
    (h : ∀ q, Within i p q → ∀ a ∈ l, Within i q (f q a)) : Within i p (l.foldl f p) :=
  foldl_keeps (Within i p) f l p (.refl i p) fun q a ha hq => hq.trans (h q hq a ha)

theorem Within.genIsland {i : SecId} {p q : Part} (h : Within i p q) (g : GenId) : genIsland q g = genIsland p g := by
  simp only [Machine.genIsland, h.img, h.plans]

theorem Within.targetIsland {i : SecId} {p q : Part} (h : Within i p q) (t : Target) :
    targetIsland q t = targetIsland p t := by
  cases t <;> simp only [Machine.targetIsland, consIsland, driveIsland, h.img, h.plans]

/-! ## The balance unit and the share unit -/

theorem within_setIsland (i : SecId) (r : Island) (p : Part) : Within i p (setIsland i r p) :=
  ⟨rfl, rfl, fun _ hj => setAt_other _ _ hj.symm⟩

theorem within_syncTimers (i : SecId) (p : Part) : Within i p (syncTimers i p) :=
  ⟨by simp, by simp, fun _ hj => syncTimers_other p hj.symm⟩

theorem within_retotal (i : SecId) (p : Part) : Within i p (retotal i p) :=
  ⟨by simp, by simp, fun _ hj => retotal_other p hj.symm⟩

theorem within_enterMarks (i : SecId) (p : Part) : Within i p (enterMarks i p) := by
  unfold enterMarks
  simp only []
  split
  · exact within_setIsland i _ p
  · exact within_setIsland i _ p
  · exact within_setIsland i _ p
  · exact (within_setIsland i { p.islands[i] with standbyExhausted := false } p).trans (.of_islands (by simp))

theorem within_updateInner (i : SecId) (p : Part) : Within i p (updateInner i p) := by
  unfold updateInner
  simp only []
  split
  · exact (within_retotal i p).trans (within_enterMarks i _)
  · exact within_retotal i p

theorem within_judgeNoSharer (i : SecId) (p : Part) : Within i p (judgeNoSharer i p) := by
  have hmark := within_setIsland i { p.islands[i] with noSharer := lacksSharer p i } p
  unfold judgeNoSharer
  simp only []
  split
  · exact hmark.trans (.of_islands (by simp))
  · exact hmark

theorem within_computeTargets (i : SecId) (forced : Option GenId) (p : Part) : Within i p (computeTargets i forced p) := by
  have hmark : Within i p (judgeNoSharer i (dropReachedCaps i p)) :=
    .trans (.of_islands (by simp)) (within_judgeNoSharer i _)
  exact hmark.trans (.fold _ _ _ fun q _ a _ => .of_islands (by simp))

/-! ## The sequencer -/

theorem within_afterGenInner {i : SecId} {g : GenId} (forced : Option GenId) {p : Part} (h : genIsland p g = some i) :
    Within i p (afterGenInner g forced p) := by
  have htargets := (within_retotal i p).trans (within_computeTargets i forced (retotal i p))
  simp only [afterGenInner, h]
  split
  · exact htargets.trans (within_enterMarks i _)
  · exact htargets

theorem within_startGenerator {i : SecId} {g : GenId} (auto : Bool) (cause : StartCause) {p : Part}
    (h : genIsland p g = some i) : Within i p (startGenerator g auto cause p) := by
  unfold startGenerator
  refine .trans (.of_islands (by simp)) (within_afterGenInner none ?_)
  rw [← h]
  simp [genIsland]

theorem within_abortUnloading {i : SecId} {g : GenId} (cause : AbortCause) {p : Part} (h : genIsland p g = some i) :
    Within i p (abortUnloading g cause p) := by
  unfold abortUnloading
  simp only []
  refine .trans (.of_islands ?_) (within_afterGenInner (some g) ?_)
  · split <;> simp
  · rw [← h]
    split <;> simp [genIsland]

theorem within_abortAll (i : SecId) (cause : AbortCause) (p : Part) : Within i p (abortAll i cause p) := by
  refine .fold _ _ _ fun q _ g _ => ?_
  split
  · next h =>
    have hin : genIn q i g = true := (Bool.and_eq_true _ _ ▸ h).1
    exact within_abortUnloading cause (by simpa [genIn] using hin)
  · exact .refl i q

/-- The candidate of a standby start lies in the island. -/
theorem genIsland_standbyCandidate {p : Part} {i : SecId} {g : GenId} (h : standbyCandidate p i = some g) :
    genIsland p g = some i := by
  refine foldl_keeps (fun best => ∀ b, best = some b → genIsland p b = some i) _ (gensOf p i) none (by simp)
    (fun best b hb hbest => ?_) g h
  have hin : genIsland p b = some i := by simpa [gensOf, genIn, allGens] using hb
  split
  · split
    · simpa using hin
    · split <;> simp_all
  · exact hbest

theorem within_requestStandby (i : SecId) (cause : StartCause) (p : Part) : Within i p (requestStandby i cause p) := by
  unfold requestStandby
  split
  · split
    · next g hg =>
      exact (within_setIsland i _ p).trans (within_startGenerator true cause (genIsland_standbyCandidate hg))
    · unfold noStandby
      split
      · exact .refl i p
      · exact .trans (.of_islands (by simp)) (within_setIsland i _ _)
  · exact .refl i p

/-! ## The ladder -/

theorem mem_insertByKey {key : Target → Nat} {t u : Target} {l : List Target} :
    u ∈ insertByKey key t l ↔ u = t ∨ u ∈ l := by
  induction l with
  | nil => simp [insertByKey]
  | cons v r ih =>
    unfold insertByKey
    split
    · simp
    · simp only [List.mem_cons, ih]; tauto

/-- A sorted list holds the targets it was given. -/
theorem mem_of_mem_sortByKey {key : Target → Nat} {u : Target} {l : List Target} (h : u ∈ sortByKey key l) : u ∈ l := by
  refine foldl_keeps (fun acc => ∀ u ∈ acc, u ∈ l) _ l [] (by simp) (fun acc t ht hacc v hv => ?_) u h
  rcases mem_insertByKey.mp hv with rfl | hv
  · exact ht
  · exact hacc v hv

theorem targetIsland_of_mem_restoringOf {p : Part} {i : SecId} {t : Target} (h : t ∈ restoringOf p i) :
    targetIsland p t = some i := by
  have hm := mem_of_mem_sortByKey h
  simp only [List.mem_map, List.mem_filter, Bool.and_eq_true, beq_iff_eq] at hm
  obtain ⟨c, ⟨-, hc, -⟩, rfl⟩ := hm
  exact hc

theorem targetIsland_of_mem_candidatesOf {p : Part} {i : SecId} {t : Target} (h : t ∈ candidatesOf p i) :
    targetIsland p t = some i := by
  have hm := mem_of_mem_sortByKey h
  simp only [List.mem_append, List.mem_map, List.mem_filter, consCandidate, driveCandidate, Bool.and_eq_true,
    beq_iff_eq] at hm
  rcases hm with ⟨c, ⟨-, ⟨⟨⟨⟨hc, -⟩, -⟩, -⟩, -⟩, -⟩, rfl⟩ | ⟨d, ⟨-, ⟨⟨⟨hd, -⟩, -⟩, -⟩, -⟩, rfl⟩
  · exact hc
  · exact hd

/-- An entry appended, and then what stays within an island. -/
theorem within_appendEntry {i : SecId} {f : Part → Part} (hf : ∀ p, Within i p (f p)) (e : ShedEntry) (p : Part) :
    Within i p (f (appendEntry e p)) :=
  .trans (.of_islands (by simp)) (hf _)

theorem within_shedConsumer {i : SecId} {c : ConsId} (cause : ShedCause) (credit : Nat) {p : Part}
    (h : consIsland p c = some i) : Within i p (shedConsumer c cause credit p) := by
  unfold shedConsumer
  simp only [h, updateInnerOf]
  have hentry := within_appendEntry (within_updateInner i)
    ⟨.cons c, cause, credit, p.ms, .opening (after p.ms (consTimeout p c))⟩ p
  exact hentry.trans (.of_islands (by simp))

theorem within_shedDrive {i : SecId} {d : DriveId} (cause : ShedCause) (credit cut : Nat) {p : Part}
    (h : driveIsland p d = some i) : Within i p (shedDrive d cause credit cut p) := by
  unfold shedDrive
  simp only [h, judgeReleaseOf]
  have hentry := within_appendEntry (within_syncTimers i) ⟨.drive d, cause, credit, p.ms, .held⟩ p
  exact hentry.trans (.of_islands (by simp))

theorem within_reshed {i : SecId} {c : ConsId} {p : Part} (h : consIsland p c = some i) : Within i p (reshed c p) := by
  unfold reshed
  simp only [h, judgeReleaseOf]
  have hentry := within_appendEntry (within_syncTimers i) ⟨.cons c, .restoreCancel, 0, p.ms, .held⟩ p
  exact hentry.trans (.of_islands (by simp))

theorem within_reshedAll {i : SecId} {ts : List Target} {p : Part} (h : ∀ t ∈ ts, targetIsland p t = some i) :
    Within i p (reshedAll ts p) := by
  refine .fold _ _ _ fun q hq t ht => ?_
  have hin : targetIsland q t = some i := (hq.targetIsland t).trans (h t ht)
  cases t with
  | cons c => exact within_reshed hin
  | drive d => exact .refl i q

theorem within_deadTake {i : SecId} {t : Target} {p : Part} (h : targetIsland p t = some i) :
    Within i p (deadTake p t) := by
  cases t with
  | cons c => exact within_shedConsumer .dead _ h
  | drive d => exact within_shedDrive .dead _ _ h

theorem within_deadLower (i : SecId) (p : Part) (d : DriveId) : Within i p (deadLower i p d) := by
  unfold deadLower
  simp only [judgeReleaseOf]
  split
  · have hlower : Within i p (syncTimers i (setDrive d { p.drives[d] with cutLimit := driveFloor p d }
        (changeEntry (.drive d) (fun e => { e with credit := e.credit + (p.drives[d].cutLimit - driveFloor p d) }) p))) :=
      .trans (.of_islands (by simp)) (within_syncTimers i _)
    exact hlower.trans (.of_islands (by simp))
  · exact .refl i p

theorem within_deadShed (i : SecId) (p : Part) : Within i p (deadShed i p) := by
  have hfirst : Within i p (reshedAll (restoringOf p i) p) :=
    within_reshedAll fun t ht => targetIsland_of_mem_restoringOf ht
  refine (hfirst.trans (.fold _ _ _ fun q hq t ht => within_deadTake ?_)).trans
    (.fold _ _ _ fun q _ d _ => within_deadLower i q d)
  exact ((hfirst.trans hq).targetIsland t).trans (targetIsland_of_mem_candidatesOf ht)

/-! ## An entry handed on (R47) -/

theorem within_enterSequencer (i : SecId) (c : Condition) (p : Part) : Within i p (enterSequencer i c p) := by
  unfold enterSequencer
  split
  · split
    · exact within_abortAll i .overload p
    · exact within_requestStandby i .dead p
    all_goals exact .refl i p
  · exact .refl i p

theorem within_enterLadder (i : SecId) (c : Condition) (p : Part) : Within i p (enterLadder i c p) := by
  unfold enterLadder
  split
  · exact within_deadShed i p
  · exact .refl i p

/-- What an entry to a condition gives stays within the island that entered it. -/
theorem within_enterCondition (i : SecId) (p : Part) : Within i p (enterCondition i p) :=
  (within_enterMarks i p).trans ((within_enterSequencer i _ _).trans (within_enterLadder i _ _))

end Sys2Proof.Machine
end

section
/-! PROOFS. The copy that a MEASURE write takes, and the change to RUNNING that it may bring: O16 (R22, R31, R36, R48,
R175, R176). -/

namespace Sys2Proof.Machine

/-! ## The change to RUNNING (R48, R176) -/

theorem toRunning_plans (p : Part) :
    (toRunning p).plans = { p.plans with partState := .running, settlingTimer := none } := by
  unfold toRunning
  exact (foldl_keep Part.plans _ _ _ (by simp)).trans (foldl_keep Part.plans _ _ _ (by simp))

/-- An island handed as having entered DEAD sets attention DEAD (R47). -/
theorem enterCondition_dead {i : SecId} {p : Part} (h : p.islands[i].condition = .dead) :
    (enterCondition i p).att.word.getLsbD 0 = true := by
  have hmark : (enterMarks i p).att.word.getLsbD 0 = true := by
    have hbit : ∀ w : BitVec 16, (attWord w .dead).getLsbD 0 = true := fun w => by simp [attWord, attNumber]
    simp only [enterMarks, h]
    exact hbit _
  exact ((effects_enterSequencer i _ _).trans (effects_enterLadder i _ _)).attention_rises.1 0 hmark

/-- Each island that is DEAD when it is handed on in its turn sets attention DEAD: the turns before its own leave it. -/
theorem foldl_enterCondition_dead {i : SecId} {l : List SecId} (hi : i ∈ l) {p : Part}
    (h : p.islands[i].condition = .dead) :
    (l.foldl (fun q j => enterCondition j q) p).att.word.getLsbD 0 = true := by
  induction l generalizing p with
  | nil => cases hi
  | cons j l ih =>
    rw [List.foldl_cons]
    by_cases hj : i = j
    · subst hj
      exact (Effects.fold _ (fun q k => effects_enterCondition k q) l _).attention_rises.1 0 (enterCondition_dead h)
    · refine ih (List.mem_of_ne_of_mem hj hi) ?_
      rw [(within_enterCondition j p).others i hj, h]

theorem syncTimers_condition (i j : SecId) (p : Part) :
    (syncTimers j p).islands[i].condition = p.islands[i].condition := by
  obtain ⟨o, d, k, e, -⟩ := syncTimers_eq j p
  rw [e, setIsland_islands, setAt_get]
  split
  · next h => rw [h]
  · rfl

/-- An island that is DEAD when the part turns RUNNING sets attention DEAD (R176). -/
theorem toRunning_dead {i : SecId} {p : Part} (hi : isIslandId p.img.ties i = true)
    (h : p.islands[i].condition = .dead) : (toRunning p).att.word.getLsbD 0 = true := by
  have hmem : i ∈ islandIds p := by simp [islandIds, allSecs, hi]
  refine foldl_enterCondition_dead hmem ?_
  exact (foldl_keep (fun q : Part => q.islands[i].condition) _ _ _ fun q j => syncTimers_condition i j q).trans h

/-! ## The settling condition (R175) -/

theorem isFresh_iff (c : MeasCopy) : isFresh c = true ↔ freshness c = .fresh := by simp [isFresh]

theorem settled_iff (p : Part) :
    settled p = true ↔
      (∀ g : GenId, p.plans.active.gens[g] = none ∨ freshness p.img.genMeas[g] = .fresh) ∧
        freshness p.img.ties = .fresh := by
  simp only [settled, Bool.and_eq_true, List.all_eq_true, Bool.or_eq_true, Option.isNone_iff_eq_none, isFresh_iff,
    allGens, List.mem_finRange, forall_const]

theorem judgeSettled_settles {p : Part} (hp : p.plans.partState = .settling) (hs : settled p = true) :
    judgeSettled p = toRunning p := if_pos ⟨hp, hs⟩

theorem judgeSettled_stands {p : Part} (h : p.plans.partState = .settling → ¬settled p = true) : judgeSettled p = p :=
  if_neg fun ⟨hp, hs⟩ => h hp hs

/-! ## The copy taken (R22, R31) -/

/-- The copy that a MEASURE write takes: the word, written, and its freshness timer started. -/
def copyTaken (x : Word) (p : Part) : MeasCopy :=
  ⟨x, true, some (after p.ms (if p.plans.partState = .noPlan then 2550 else 10 * p.header.staleTime))⟩

theorem takeCopy_eq (r : RecordId) (x : Word) (p : Part) : takeCopy r x p = setCopy r (copyTaken x p) p := by
  have htime : staleTime p = if p.plans.partState = .noPlan then 2550 else 10 * p.header.staleTime := by
    unfold staleTime
    split
    · next h => rw [if_pos h]
    · next h => rw [if_neg h]
  rw [takeCopy, htime]
  rfl

theorem freshness_copyTaken (x : Word) (p : Part) : freshness (copyTaken x p) = .fresh := rfl

/-- A MEASURE write of an absent generator's slot moves nothing (R23, R58). -/
theorem genMeasEvent_absent {g : GenId} {old : MeasCopy} {p : Part} (h : p.plans.active.gens[g] = none) :
    genMeasEvent g old p = p := by
  rw [genMeasEvent, h]
  rfl

theorem consMeasEvent_absent {c : ConsId} {p : Part} (h : p.plans.active.cons[c] = none) : consMeasEvent c p = p := by
  rw [consMeasEvent, h]
  rfl

/-- A TIES write that repeats the partition only has the settling condition judged (R36, R175). -/
theorem tiesEvent_repeats {old : MeasCopy} {p : Part} (h : ∀ sec, islandId p.img.ties sec = islandId old sec) :
    tiesEvent old p = judgeSettled p := by
  have hsame : samePartition old p.img.ties = true := by simp [samePartition, h]
  simp only [tiesEvent, hsame, if_true]

/-! ## The writes -/

/-- The offsets of the record words lie in the window, at words. -/
theorem genWordOffset_aligned (g : GenId) {w : Nat} (hw : w < 8) :
    genWordOffset g w < 0x10000 ∧ genWordOffset g w % 4 = 0 := by
  unfold genWordOffset
  omega

theorem consWordOffset_aligned (c : ConsId) {w : Nat} (hw : w < 8) :
    consWordOffset c w < 0x10000 ∧ consWordOffset c w % 4 = 0 := by
  unfold consWordOffset
  omega

theorem driveWordOffset_aligned (d : DriveId) {w : Nat} (hw : w < 8) :
    driveWordOffset d w < 0x10000 ∧ driveWordOffset d w % 4 = 0 := by
  unfold driveWordOffset
  omega

/-- FP's write of a MEASURE word at a free port: stored, and handed to the word's owner. -/
theorem windowWrite_measure {off : Nat} {w : WinWord} {x : Word} {s : State} (h : portFree .fp s = true)
    (ho : off < 0x10000 ∧ off % 4 = 0) (hc : classify off = w)
    (hw : w = .ties ∨ (∃ g, w = .genMeas g) ∨ (∃ c, w = .consMeas c) ∨ ∃ d, w = .driveMeas d) :
    windowWrite .fp off 15#4 x .free s
      = { s with bus := busAfterWrite .fp (windowAddr s.part.base off) 15#4 x s.bus
                 part := jobEvent (jobOf w x s.part) x s.part } := by
  have hgranted := windowWrite_granted .fp off w 15#4 x s ho.1 ho.2 hc
  rcases hw with rfl | ⟨g, rfl⟩ | ⟨c, rfl⟩ | ⟨d, rfl⟩
  all_goals exact hgranted nofun rfl h

/-- A TIES write that repeats the partition takes its copy, and the settling condition is judged. -/
theorem exec_tiesWrite_repeats {x : Word} {s : State} (h : portFree .fp s = true)
    (hsame : ∀ sec, islandId (copyTaken x s.part) sec = islandId s.part.img.ties sec) :
    exec (.tiesWrite 15#4 x .free) s = .next { s with
      bus := busAfterWrite .fp (windowAddr s.part.base tiesOffset) 15#4 x s.bus
      part := judgeSettled (setCopy .ties (copyTaken x s.part) s.part) } := by
  refine congrArg Host.Outcome.next ((windowWrite_measure h (by decide) (by decide) (.inl rfl)).trans ?_)
  rw [jobOf, jobEvent, takeCopy_eq, tiesEvent_repeats hsame]

/-- With its copy of TIES just taken, the part settles where every present generator is FRESH. -/
theorem settled_tiesTaken (x : Word) (p : Part) :
    settled (setCopy .ties (copyTaken x p) p) = true ↔
      ∀ g : GenId, p.plans.active.gens[g] = none ∨ freshness p.img.genMeas[g] = .fresh := by
  rw [settled_iff]
  exact and_iff_left (freshness_copyTaken x p)

/-- Settles O16, by the write's grant, the copy taken, and the settling condition that a TIES write has judged. -/
theorem measureCopyTaken : Obligations.MeasureCopyTaken := by
  intro s x h m
  refine ⟨fun d => ?_, fun g hg => ?_, fun c hc => ?_, fun hsame => ⟨fun hstay => ?_, fun hsettling hfresh => ?_⟩⟩
  · refine congrArg Host.Outcome.next ((windowWrite_measure h (driveWordOffset_aligned d (by decide))
      (classify_driveMeas d) (.inr (.inr (.inr ⟨d, rfl⟩)))).trans ?_)
    rw [jobOf, jobEvent, takeCopy_eq]
    rfl
  · refine congrArg Host.Outcome.next ((windowWrite_measure h (genWordOffset_aligned g (by decide))
      (classify_genMeas g) (.inr (.inl ⟨g, rfl⟩))).trans ?_)
    rw [jobOf, jobEvent, genMeasEvent_absent (by simpa using hg), takeCopy_eq]
    rfl
  · refine congrArg Host.Outcome.next ((windowWrite_measure h (consWordOffset_aligned c (by decide))
      (classify_consMeas c) (.inr (.inr (.inl ⟨c, rfl⟩)))).trans ?_)
    rw [jobOf, jobEvent, consMeasEvent_absent (by simpa using hc), takeCopy_eq]
    rfl
  · rw [exec_tiesWrite_repeats h hsame, judgeSettled_stands fun hp => (settled_tiesTaken x s.part).not.mpr (hstay hp)]
    rfl
  · rw [exec_tiesWrite_repeats h hsame, judgeSettled_settles (p := setCopy .ties (copyTaken x s.part) s.part) hsettling
      ((settled_tiesTaken x s.part).mpr hfresh)]
    have hrises : attRises s.part (toRunning (setCopy .ties (copyTaken x s.part) s.part)) :=
      ((effects_setCopy ..).trans (effects_toRunning _)).attention_rises.1
    have himg : (toRunning (setCopy .ties (copyTaken x s.part) s.part)).img
        = { s.part.img with ties := copyTaken x s.part } := by simp [setCopy]
    refine ⟨_, rfl, rfl, rfl, ?_⟩
    dsimp only
    exact ⟨himg, toRunning_plans _, fun i => toRunning_dead (p := setCopy .ties (copyTaken x s.part) s.part), hrises⟩

end Sys2Proof.Machine
end

section
/-! PROOFS. What the live words answer, field by field: O12 (R17, R27 to R30, R54, R55, R155, R184, R185). -/

namespace Sys2Proof.Machine

/-! ## A word laid out in fields (chapter 12, R184) -/

/-- Two fields, as lowest bit and length, that share no bit. -/
abbrev Apart (a b : Nat × Nat) : Prop := a.1 + a.2 ≤ b.1 ∨ b.1 + b.2 ≤ a.1

/-- A layout of fields: each within the word, no two of them sharing a bit. -/
structure Layout (layout : List (Nat × Nat)) : Prop where
  apart : layout.Pairwise Apart
  fits : ∀ f ∈ layout, f.1 + f.2 ≤ 32

/-- The field at a place of the layout holds the low bits of its value. -/
theorem Layout.bits {layout : List (Nat × Nat)} (h : Layout layout) {fs : List (Nat × Nat × Nat)} (k : Nat)
    {v lo len : Nat} (hf : fs.map Prod.snd = layout) (hk : fs[k]? = some (v, lo, len)) :
    bits (pack fs) lo len = v % 2 ^ len := by
  induction fs generalizing layout k with
  | nil => simp at hk
  | cons f fs ih =>
    obtain ⟨v', lo', len'⟩ := f
    subst hf
    obtain ⟨hhead, htail⟩ := List.pairwise_cons.mp h.apart
    cases k with
    | zero =>
      obtain ⟨rfl, rfl, rfl⟩ : v' = v ∧ lo' = lo ∧ len' = len := by simpa using hk
      exact bits_pack _ _ _ fs (h.fits (lo', len') (by simp)) fun g hg => (hhead _ (List.mem_map_of_mem hg)).symm
    | succ k =>
      have hk' : fs[k]? = some (v, lo, len) := by simpa using hk
      have hskip : Apart (lo', len') (lo, len) := hhead _ (List.mem_map_of_mem (List.mem_of_getElem? hk'))
      rw [bits_pack_skip _ _ _ _ _ _ hskip]
      exact ih ⟨htail, fun g hg => h.fits g (List.mem_cons_of_mem _ hg)⟩ k rfl hk'

/-- A field that its value fits holds the value. -/
theorem Layout.value {layout : List (Nat × Nat)} (h : Layout layout) {fs : List (Nat × Nat × Nat)} (k : Nat)
    {v lo len : Nat} (hf : fs.map Prod.snd = layout) (hk : fs[k]? = some (v, lo, len)) (hv : v < 2 ^ len) :
    Machine.bits (pack fs) lo len = v :=
  (h.bits k hf hk).trans (Nat.mod_eq_of_lt hv)

/-- A mark. -/
theorem Layout.mark {layout : List (Nat × Nat)} (h : Layout layout) {fs : List (Nat × Nat × Nat)} (k : Nat) {b : Bool}
    {lo : Nat} (hf : fs.map Prod.snd = layout) (hk : fs[k]? = some (flag b, lo, 1)) : bit (pack fs) lo = b :=
  bit_of_bits _ _ _ ((h.bits k hf hk).trans (flag_mod b))

/-- The bits that no field meets are 0. -/
theorem bits_pack_gap {fs : List (Nat × Nat × Nat)} {lo len : Nat} (h : ∀ f ∈ fs.map Prod.snd, Apart f (lo, len)) :
    bits (pack fs) lo len = 0 := by
  induction fs with
  | nil => simp [pack, bits]
  | cons f fs ih =>
    have hskip : Apart f.2 (lo, len) := h _ (by simp)
    exact (bits_pack_skip _ _ _ _ _ _ hskip).trans (ih fun g hg => h g (List.mem_cons_of_mem _ hg))

/-- The bits outside a layout are 0 (R184). -/
theorem Layout.gap {layout : List (Nat × Nat)} (_ : Layout layout) {fs : List (Nat × Nat × Nat)} {lo len : Nat}
    (hf : fs.map Prod.snd = layout) (h : ∀ f ∈ layout, Apart f (lo, len)) : Machine.bits (pack fs) lo len = 0 :=
  bits_pack_gap (hf ▸ h)

/-! ## The codes fit their fields (12.1) -/

theorem flag_lt (b : Bool) : flag b < 2 := by cases b <;> decide
theorem partStateCode_lt (x : PartState) : partStateCode x < 4 := by cases x <;> decide
theorem loaderCode_lt (x : LoaderState) : loaderCode x < 8 := by cases x <;> simp [loaderCode]
theorem failureField_lt (x : LoaderState) : failureField x < 8 := by
  cases x with
  | failed r => cases r <;> decide
  | idle | loading | complete | activated => simp [failureField]
theorem keyCode_lt (x : KeyState) : keyCode x < 4 := by cases x <;> decide
theorem freshnessCode_lt (x : Freshness) : freshnessCode x < 4 := by cases x <;> decide
theorem breakerCode_lt (x : Breaker) : breakerCode x < 4 := by cases x <;> decide
theorem genStateCode_lt (x : GenState) : genStateCode x < 8 := by cases x <;> decide
theorem consStateCode_lt (x : ConsState) : consStateCode x < 8 := by cases x <;> decide
theorem conditionCode_lt (x : Condition) : conditionCode x < 4 := by cases x <;> decide
theorem shedCauseCode_lt (x : ShedCause) : shedCauseCode x < 8 := by cases x <;> decide
theorem delayStanding_lt (x : DelayTimer) : delayStanding x < 4 := by cases x <;> simp [delayStanding]
theorem targetIndex_lt (t : Target) : targetIndex t < 128 := by
  cases t <;> simp only [targetIndex] <;> omega

theorem effectiveLimit_lt (p : Part) (d : DriveId) : effectiveLimit p d < 2 ^ 16 := by
  have hcontroller : controllerLimit p d < 2 ^ 16 := bits_lt _ 0 16
  unfold effectiveLimit
  split
  · exact (min_le_left _ _).trans_lt hcontroller
  · exact hcontroller

/-! ## PART_STATUS, COUNTS and the GIVE words (R29, R30, R155, R185) -/

theorem partStatusWord_fields (p : Part) :
    bits (partStatusWord p) 0 2 = partStateCode p.plans.partState ∧
      bits (partStatusWord p) 2 3 = loaderCode p.plans.loader ∧
      bits (partStatusWord p) 5 3 = failureField p.plans.loader ∧ bits (partStatusWord p) 8 2 = keyCode p.plans.key ∧
      bits (partStatusWord p) 10 2 = freshnessCode (freshness p.img.ties) ∧ bits (partStatusWord p) 12 2 = 0 ∧
      bits (partStatusWord p) 14 2 = viewInForce p ∧ bits (partStatusWord p) 16 16 = viewValue p % 65536 := by
  have h : Layout [(0, 2), (2, 3), (5, 3), (8, 2), (10, 2), (14, 2), (16, 16)] := ⟨by decide, by decide⟩
  exact ⟨h.value 0 rfl rfl (partStateCode_lt _), h.value 1 rfl rfl (loaderCode_lt _),
    h.value 2 rfl rfl (failureField_lt _), h.value 3 rfl rfl (keyCode_lt _), h.value 4 rfl rfl (freshnessCode_lt _),
    h.gap rfl (by decide), h.value 5 rfl rfl (bits_lt _ 16 2), h.bits 6 rfl rfl⟩

theorem countsWord_fields (p : Part) :
    bits (countsWord p) 0 7 = p.sq.length % 128 ∧ bits (countsWord p) 7 7 = p.shedList.length % 128 ∧
      bits (countsWord p) 14 7 = p.lu.pendingCmds.length % 128 ∧ bits (countsWord p) 21 6 = p.lu.notices.length % 64 ∧
      bits (countsWord p) 27 5 = 0 := by
  have h : Layout [(0, 7), (7, 7), (14, 7), (21, 6)] := ⟨by decide, by decide⟩
  exact ⟨h.bits 0 rfl rfl, h.bits 1 rfl rfl, h.bits 2 rfl rfl, h.bits 3 rfl rfl, h.gap rfl (by decide)⟩

theorem giveWord_fields (p : Part) (ch : Chan) :
    bits (giveWord p ch) 0 7 = (getChan p.lu ch).spare.count % 128 ∧
      bits (giveWord p ch) 7 7 = (getChan p.lu ch).ready.count % 128 ∧
      bit (giveWord p ch) 14 = (getChan p.lu ch).post.isSome ∧ bit (giveWord p ch) 15 = false ∧
      bits (giveWord p ch) 16 16 = (getChan p.lu ch).seq.toNat := by
  have h : Layout [(0, 7), (7, 7), (14, 1), (16, 16)] := ⟨by decide, by decide⟩
  exact ⟨h.bits 0 rfl rfl, h.bits 1 rfl rfl, h.mark 2 rfl rfl, bit_of_bits _ _ _ (h.gap rfl (by decide)),
    h.value 3 rfl rfl (getChan p.lu ch).seq.isLt⟩

/-! ## The STATUS words (R28, 12.2) -/

theorem genStatusWord_fields (p : Part) (g : GenId) :
    bit (genStatusWord p g) 0 = p.plans.active.gens[g].isSome ∧
      bits (genStatusWord p g) 1 3 = genStateCode p.gens[g].state ∧
      bits (genStatusWord p g) 4 2 = freshnessCode (freshness p.img.genMeas[g]) ∧
      bits (genStatusWord p g) 6 2 = breakerCode (measBreaker p.img.genMeas[g]) ∧
      bits (genStatusWord p g) 8 2 = (islandField (genIsland p g)).val ∧
      bit (genStatusWord p g) 10 = (p.gens[g].state == .starting && p.gens[g].automatic) ∧
      bits (genStatusWord p g) 11 21 = 0 := by
  have h : Layout [(0, 1), (1, 3), (4, 2), (6, 2), (8, 2), (10, 1)] := ⟨by decide, by decide⟩
  exact ⟨h.mark 0 rfl rfl, h.value 1 rfl rfl (genStateCode_lt _), h.value 2 rfl rfl (freshnessCode_lt _),
    h.value 3 rfl rfl (breakerCode_lt _), h.value 4 rfl rfl (Fin.isLt _), h.mark 5 rfl rfl, h.gap rfl (by decide)⟩

theorem consStatusWord_fields (p : Part) (c : ConsId) :
    bit (consStatusWord p c) 0 = p.plans.active.cons[c].isSome ∧
      bits (consStatusWord p c) 1 3 = consStateCode p.cons[c].state ∧ bit (consStatusWord p c) 4 = isGuarded p c ∧
      bits (consStatusWord p c) 5 2 = freshnessCode (freshness p.img.consMeas[c]) ∧
      bits (consStatusWord p c) 7 2 = breakerCode (measBreaker p.img.consMeas[c]) ∧
      bits (consStatusWord p c) 9 2 = (islandField (consIsland p c)).val ∧ bits (consStatusWord p c) 11 21 = 0 := by
  have h : Layout [(0, 1), (1, 3), (4, 1), (5, 2), (7, 2), (9, 2)] := ⟨by decide, by decide⟩
  exact ⟨h.mark 0 rfl rfl, h.value 1 rfl rfl (consStateCode_lt _), h.mark 2 rfl rfl,
    h.value 3 rfl rfl (freshnessCode_lt _), h.value 4 rfl rfl (breakerCode_lt _), h.value 5 rfl rfl (Fin.isLt _),
    h.gap rfl (by decide)⟩

theorem driveStatusWord_fields (p : Part) (d : DriveId) :
    bit (driveStatusWord p d) 0 = p.plans.active.drives[d].isSome ∧ bit (driveStatusWord p d) 1 = p.drives[d].cut ∧
      bit (driveStatusWord p d) 2 = driveRunning p.img.driveMeas[d] ∧
      bits (driveStatusWord p d) 3 2 = freshnessCode (freshness p.img.driveMeas[d]) ∧
      bits (driveStatusWord p d) 5 2 = (islandField (driveIsland p d)).val ∧ bits (driveStatusWord p d) 7 9 = 0 ∧
      bits (driveStatusWord p d) 16 16 = effectiveLimit p d := by
  have h : Layout [(0, 1), (1, 1), (2, 1), (3, 2), (5, 2), (16, 16)] := ⟨by decide, by decide⟩
  exact ⟨h.mark 0 rfl rfl, h.mark 1 rfl rfl, h.mark 2 rfl rfl, h.value 3 rfl rfl (freshnessCode_lt _),
    h.value 4 rfl rfl (Fin.isLt _), h.gap rfl (by decide), h.value 5 rfl rfl (effectiveLimit_lt p d)⟩

/-! ## ISLAND (R54, R55) -/

/-- How many generators of an island are in a state, counted over the slots. -/
theorem countState_eq (p : Part) (i : SecId) (st : GenState) :
    countState p i st
      = ((List.finRange 8).filter fun g : GenId => genIsland p g = some i ∧ p.gens[g].state = st).length := by
  unfold countState gensOf allGens
  rw [List.filter_filter]
  refine congrArg List.length (List.filter_congr fun g _ => ?_)
  rw [Bool.decide_and, Bool.and_comm]
  simp [genIn, genState, Bool.beq_eq_decide_eq]

theorem countState_lt (p : Part) (i : SecId) (st : GenState) : countState p i st < 16 := by
  have hlen : countState p i st ≤ allGens.length := (List.length_filter_le _ _).trans (List.length_filter_le _ _)
  exact hlen.trans_lt (by decide)

/-- The sections of a set as bits: bit n is Sn's. -/
theorem testBit_sectionBits : ∀ (member : SecId → Bool) (sec : SecId),
    ((allSecs.filter member).map fun s : SecId => 2 ^ s.val).sum.testBit sec.val = member sec := by decide +kernel

theorem testBit_memberBits (p : Part) (i sec : SecId) :
    (memberBits p i).testBit sec.val = decide (islandId p.img.ties sec = i) :=
  testBit_sectionBits (fun s => islandId p.img.ties s == i) sec

/-- The first word of an island's entry. -/
theorem islandWord_zero_fields (p : Part) (i : SecId) :
    bit (islandWord p i 0) 0 = true ∧ bits (islandWord p i 0) 1 2 = i.val ∧
      (∀ sec : SecId, bit (islandWord p i 0) (3 + sec.val) = decide (islandId p.img.ties sec = i)) ∧
      bits (islandWord p i 0) 7 2 = conditionCode p.islands[i].condition ∧
      bit (islandWord p i 0) 9 = p.islands[i].held ∧ bit (islandWord p i 0) 10 = p.islands[i].exhausted ∧
      bits (islandWord p i 0) 11 4 = countState p i .starting ∧ bits (islandWord p i 0) 15 4 = countState p i .online ∧
      bits (islandWord p i 0) 19 4 = countState p i .unloading ∧
      bits (islandWord p i 0) 23 2 = flag p.islands[i].overload.isSome ∧
      bits (islandWord p i 0) 25 2 = delayStanding p.islands[i].startDelay ∧
      bits (islandWord p i 0) 27 2 = flag p.islands[i].releaseHold.isSome ∧ bits (islandWord p i 0) 29 3 = 0 := by
  have h : Layout [(0, 1), (1, 2), (3, 4), (7, 2), (9, 1), (10, 1), (11, 4), (15, 4), (19, 4), (23, 2), (25, 2), (27, 2)] :=
    ⟨by decide, by decide⟩
  have hflag : ∀ b, flag b < 2 ^ 2 := fun b => (flag_lt b).trans (by decide)
  refine ⟨h.mark (b := true) 0 rfl rfl, h.value 1 rfl rfl i.isLt, fun sec => ?_, h.value 3 rfl rfl (conditionCode_lt _),
    h.mark 4 rfl rfl, h.mark 5 rfl rfl, h.value 6 rfl rfl (countState_lt p i _), h.value 7 rfl rfl (countState_lt p i _),
    h.value 8 rfl rfl (countState_lt p i _), h.value 9 rfl rfl (hflag _), h.value 10 rfl rfl (delayStanding_lt _),
    h.value 11 rfl rfl (hflag _), h.gap rfl (by decide)⟩
  have hmembers : bits (islandWord p i 0) 3 4 = memberBits p i % 2 ^ 4 := h.bits 2 rfl rfl
  have hbit := congrArg (Nat.testBit · sec.val) hmembers
  simpa only [testBit_bits, Nat.testBit_mod_two_pow, testBit_memberBits, sec.isLt, decide_true, Bool.true_and, bit_eq_testBit]
    using hbit

/-- The totals of an island's entry. -/
theorem islandWord_total (v : Nat) :
    bits (pack [(v, 0, 20)]) 0 20 = v % 1048576 ∧ bits (pack [(v, 0, 20)]) 20 12 = 0 := by
  have h : Layout [(0, 20)] := ⟨by decide, by decide⟩
  exact ⟨h.bits 0 rfl rfl, h.gap rfl (by decide)⟩

/-- The times of an island's timers. -/
theorem islandWord_times (p : Part) (i : SecId) :
    bits (islandWord p i 6) 0 16 = timerMs p.islands[i].overload p.ms % 65536 ∧
      bits (islandWord p i 6) 16 16 = delayMs p.islands[i].startDelay p.ms % 65536 ∧
      bits (islandWord p i 7) 20 12 = holdUnits p.islands[i] p.ms % 4096 := by
  have h6 : Layout [(0, 16), (16, 16)] := ⟨by decide, by decide⟩
  have h7 : Layout [(0, 20), (20, 12)] := ⟨by decide, by decide⟩
  exact ⟨h6.bits 0 rfl rfl, h6.bits 1 rfl rfl, h7.bits 1 rfl rfl⟩

/-- The remaining need, shown while EXHAUSTED is set (R54). -/
theorem islandWord_need (p : Part) (i : SecId) :
    bits (islandWord p i 7) 0 20 = if p.islands[i].exhausted then p.islands[i].need.toNat else 0 := by
  have h : Layout [(0, 20), (20, 12)] := ⟨by decide, by decide⟩
  refine h.value 0 rfl rfl ?_
  split
  · exact p.islands[i].need.isLt
  · decide

/-- The ms that a timer has left, a stopped one 0. -/
theorem timerMs_eq (t : Option Word) (now : Word) : timerMs t now = (t.map fun e => msLeft e now).getD 0 := by
  cases t <;> rfl

/-- The word of a section that is no island's id shows the id of its island alone (R55). -/
theorem heldSectionWord_fields (p : Part) (i : SecId) :
    bit (heldSectionWord p i 0) 0 = false ∧ bits (heldSectionWord p i 0) 1 2 = (islandId p.img.ties i).val ∧
      bits (heldSectionWord p i 0) 3 29 = 0 := by
  have h : Layout [(1, 2)] := ⟨by decide, by decide⟩
  exact ⟨bit_of_bits _ _ _ (h.gap rfl (by decide)), h.value 0 rfl rfl (Fin.isLt _), h.gap rfl (by decide)⟩

/-! ## SHED_VIEW (R27) -/

theorem shedViewWord_past {p : Part} {k : Nat} (h : p.shedList.length ≤ k) : shedViewWord p k = 0xFFFFFFFF#32 := by
  rw [shedViewWord, List.getElem?_eq_none h]
  rfl

theorem shedViewWord_fields {p : Part} {k : Nat} {e : ShedEntry} (he : p.shedList[k]? = some e) :
    bits (shedViewWord p k) 0 7 = targetIndex e.target ∧ bits (shedViewWord p k) 7 3 = shedCauseCode e.cause ∧
      bit (shedViewWord p k) 10 = isOpening e ∧ bits (shedViewWord p k) 11 16 = e.credit % 65536 ∧
      bits (shedViewWord p k) 27 5 = 0 := by
  have h : Layout [(0, 7), (7, 3), (10, 1), (11, 16)] := ⟨by decide, by decide⟩
  rw [shedViewWord, he]
  exact ⟨h.value 0 rfl rfl (targetIndex_lt _), h.value 1 rfl rfl (shedCauseCode_lt _), h.mark 2 rfl rfl,
    h.bits 3 rfl rfl, h.gap rfl (by decide)⟩

/-! ## The offsets of the live words (R15, R17) -/

theorem classify_island : ∀ (i : SecId) (n : Fin 8),
    classify (0x40 + 0x20 * i.val + 4 * n.val) = .live (.island i n) := by decide
theorem classify_shedView : ∀ k : Fin 68, classify (0xC0 + 4 * k.val) = .live (.shedView k.val) := by decide +kernel
theorem classify_give : ∀ ch : Chan, classify (giveOffset ch) = .live (.give ch)
  | .command | .notice => by decide
theorem classify_consStatus : ∀ c : ConsId, classify (consWordOffset c 2) = .live (.consStatus c) := by decide +kernel
theorem classify_driveStatus : ∀ d : DriveId, classify (driveWordOffset d 3) = .live (.driveStatus d) := by decide

/-! ## The reads (R27) -/

/-- The live words that both ports may read without an effect. -/
def showsState (l : LiveWord) : Bool :=
  match l with
  | .attention | .cause | .take _ | .refusedDetail => false
  | .partStatus | .time | .counts | .give _ | .island _ _ | .shedView _ | .genStatus _ | .consStatus _
  | .driveStatus _ | .hole => true

theorem answers_of_showsState {l : LiveWord} (h : showsState l = true) (port : Port) : answers l port = true := by
  cases l
  case attention | cause | take | refusedDetail => cases h
  all_goals rfl

theorem liveReadEffect_of_showsState {l : LiveWord} (h : showsState l = true) (port : Port) (p : Part) :
    liveReadEffect port l p = p := by
  cases l
  case attention | cause | take | refusedDetail => cases h
  all_goals rfl

/-- A read of such a word is answered at once, and changes nothing behind the ports. -/
theorem exec_masterRead_shows {port : Port} {off : Nat} {l : LiveWord} {strobes : BitVec 4} {m : SramAt} {s : State}
    (hr : portReady port s.bus = true) (ho : off < 0x10000 ∧ off % 4 = 0) (hc : classify off = .live l)
    (hl : showsState l = true) :
    exec (.masterRead port (windowAddr s.part.base off) strobes m) s
      = .next { s with bus := busAfterAnswer port .ok (some (liveData l s.part)) s.bus } := by
  have hw : classify (windowOffset (windowAddr s.part.base off)) = .live l := by
    rw [windowOffset_windowAddr _ _ ho.1 ho.2, hc]
  rw [exec_masterRead, masterReadOf_live hr (inWindow_windowAddr _ _ ho.1) hw (answers_of_showsState hl port),
    liveReadEffect_of_showsState hl]

/-- The view's value, by the view in force (R185). -/
theorem viewValue_eq (p : Part) :
    viewValue p = if bits p.img.attMask 16 2 = 0 then activeTag p.plans
      else if bits p.img.attMask 16 2 = 1 then stagingTag p.plans else p.base.toNat := by
  unfold viewValue viewInForce
  split
  · next h => rw [if_pos h]
  · next h => rw [if_neg (by omega), if_pos h]
  · next h0 h1 => rw [if_neg h0, if_neg h1]

/-- The words of an entry whose section is no island's id, but for the first, are 0 (R55). -/
theorem heldSectionWord_rest (p : Part) (i : SecId) {n : Nat} (h1 : 1 ≤ n) (h8 : n < 8) :
    heldSectionWord p i (Fin.ofNat 8 n) = 0#32 := by
  refine if_neg fun h => ?_
  have hval := congrArg Fin.val h
  rw [Fin.val_ofNat, Nat.mod_eq_of_lt h8] at hval
  exact absurd hval (by omega)

/-- Settles O12, by the read of a live word at its offset and the fields of each word. -/
theorem liveWordsAnswer : Obligations.LiveWordsAnswer := by
  intro s port strobes m hr p answer left
  have hanswer : ∀ {off l}, off < 0x10000 ∧ off % 4 = 0 → classify off = .live l → showsState l = true →
      answer off (liveData l p) := fun ho hc hl => exec_masterRead_shows hr ho hc hl
  have hisland : ∀ (i : SecId) (n : Nat), n < 8 →
      answer (0x40 + 0x20 * i.val + 4 * n) (liveData (.island i (Fin.ofNat 8 n)) p) := fun i n hn => by
    have hc := classify_island i (Fin.ofNat 8 n)
    rw [Fin.val_ofNat, Nat.mod_eq_of_lt hn] at hc
    exact hanswer (by omega) hc rfl
  have hshed : ∀ k, k < 68 → answer (0xC0 + 4 * k) (shedViewWord p k) := fun k hk =>
    hanswer (l := .shedView k) (by omega) (classify_shedView ⟨k, hk⟩) rfl
  refine ⟨⟨partStatusWord p, hanswer (l := .partStatus) (by decide) (by decide) rfl, ?_⟩,
    hanswer (l := .time) (by decide) (by decide) rfl,
    fun off hk h => hanswer (l := .hole) (by omega) (classify_hole h) rfl,
    ⟨countsWord p, hanswer (l := .counts) (by decide) (by decide) rfl, countsWord_fields p⟩,
    fun ch => ⟨giveWord p ch, hanswer (by cases ch <;> decide) (classify_give ch) rfl, giveWord_fields p ch⟩,
    fun i hi => ⟨fun n => islandWord p i (Fin.ofNat 8 n), fun n hn => ?_, ?_⟩,
    fun i hi => ⟨⟨heldSectionWord p i 0, ?_, heldSectionWord_fields p i⟩, fun n h1 h8 => ?_⟩,
    fun k hk => ⟨fun hpast => shedViewWord_past hpast ▸ hshed k hk,
      fun e he => ⟨shedViewWord p k, hshed k hk, shedViewWord_fields he⟩⟩,
    fun g => ⟨genStatusWord p g, hanswer (genWordOffset_aligned g (by decide)) (classify_genStatus g) rfl,
      genStatusWord_fields p g⟩,
    fun c => ⟨consStatusWord p c, hanswer (consWordOffset_aligned c (by decide)) (classify_consStatus c) rfl,
      consStatusWord_fields p c⟩,
    fun d => ⟨driveStatusWord p d, hanswer (driveWordOffset_aligned d (by decide)) (classify_driveStatus d) rfl,
      driveStatusWord_fields p d⟩⟩
  · obtain ⟨hstate, hloader, hfailure, hkey, hties, hgap, hview, hvalue⟩ := partStatusWord_fields p
    refine ⟨hstate, hloader, hfailure.trans ?_, hkey, hties, hgap, hview, by rw [hvalue, viewValue_eq]⟩
    cases p.plans.loader <;> rfl
  · have hword := hisland i n hn
    rwa [liveData, if_pos hi] at hword
  · obtain ⟨hmark, hid, hmembers, hcondition, hheld, hexhausted, hstarting, honline, hunloading, hoverload, hdelay,
      hhold, hgap⟩ := islandWord_zero_fields p i
    obtain ⟨hms, hdelayMs, hunits⟩ := islandWord_times p i
    refine ⟨hmark, hid, hmembers, hcondition, hheld, hexhausted, hstarting.trans (countState_eq p i _),
      honline.trans (countState_eq p i _), hunloading.trans (countState_eq p i _), hoverload, hdelay, hhold, hgap,
      fun n k h => ?_, rfl, hms.trans ?_, hdelayMs, islandWord_need p i, hunits.trans ?_⟩
    · simp only [List.mem_cons, Prod.mk.injEq, List.not_mem_nil, or_false] at h
      rcases h with ⟨rfl, rfl⟩ | ⟨rfl, rfl⟩ | ⟨rfl, rfl⟩ | ⟨rfl, rfl⟩
      all_goals exact islandWord_total _
    · rw [timerMs_eq]
    · rw [holdUnits, timerMs_eq]
  · have hword := hisland i 0 (by decide)
    rwa [liveData, if_neg (by simp [hi])] at hword
  · have hword := hisland i n h8
    rwa [liveData, if_neg (by simp [hi]), heldSectionWord_rest p i h1 h8] at hword

end Sys2Proof.Machine
end

section
/-! PROOFS. The partition as a function of the ties: O17 (R35). -/

namespace Sys2Proof.Machine

/-- The id of the island of a section, from which of the three ties count as closed. -/
def idOfTies (t01 t12 t23 : Bool) (sec : SecId) : SecId :=
  let id1 : SecId := if t01 then 0 else 1
  let id2 : SecId := if t12 then id1 else 2
  match sec with
  | 0 => 0
  | 1 => id1
  | 2 => id2
  | 3 => if t23 then id2 else 3

theorem islandId_eq (m : MeasCopy) (a : SecId) :
    islandId m a = idOfTies (tieClosed m 0) (tieClosed m 1) (tieClosed m 2) a := rfl

/-- Two sections share an island where every tie between them is closed. -/
theorem idOfTies_eq_iff : ∀ (t01 t12 t23 : Bool) (a b : SecId),
    idOfTies t01 t12 t23 a = idOfTies t01 t12 t23 b ↔
      ∀ k : Fin 3, min a.val b.val ≤ k.val → k.val < max a.val b.val → ![t01, t12, t23] k = true := by decide

/-- An id is a section of its own island, and none of them lies below it. -/
theorem idOfTies_lowest : ∀ (t01 t12 t23 : Bool) (a : SecId),
    idOfTies t01 t12 t23 a ≤ a ∧
      idOfTies t01 t12 t23 (idOfTies t01 t12 t23 a) = idOfTies t01 t12 t23 a := by decide

theorem islandId_eq_iff (m : MeasCopy) (a b : SecId) :
    islandId m a = islandId m b ↔ ∀ k, min a.val b.val ≤ k → k < max a.val b.val → tieClosed m k = true := by
  have hties : ∀ k : Fin 3, ![tieClosed m 0, tieClosed m 1, tieClosed m 2] k = tieClosed m k.val := by
    intro k
    fin_cases k <;> rfl
  simp only [islandId_eq, idOfTies_eq_iff, hties]
  exact ⟨fun h k hlo hhi => h ⟨k, by omega⟩ hlo hhi, fun h k => h k.val⟩

theorem islandId_le (m : MeasCopy) (a : SecId) : islandId m a ≤ a := (idOfTies_lowest ..).1

theorem islandId_islandId (m : MeasCopy) (a : SecId) : islandId m (islandId m a) = islandId m a := (idOfTies_lowest ..).2

/-- A section is its island's id where no section of the island lies below it. -/
theorem isIslandId_iff_lowest (m : MeasCopy) (i : SecId) :
    isIslandId m i = true ↔ ∀ a, islandId m a = islandId m i → i ≤ a := by
  rw [isIslandId, beq_iff_eq]
  constructor
  · intro hid a ha
    rw [← hid, ← ha]
    exact islandId_le m a
  · intro hlow
    exact le_antisymm (islandId_le m i) (hlow _ (islandId_islandId m i))

/-- The partition is a function of the tie states alone. -/
theorem islandId_congr {m m' : MeasCopy} (h : ∀ k, k < 3 → tieClosed m k = tieClosed m' k) (a : SecId) :
    islandId m a = islandId m' a := by
  simp only [islandId_eq, h 0 (by decide), h 1 (by decide), h 2 (by decide)]

end Sys2Proof.Machine

namespace Sys2Proof

/-- Settles O17, by the eight combinations of tie states for the sharing of an island, and from it the lowest section. -/
theorem islandIds : Obligations.IslandIds := fun m =>
  ⟨Machine.islandId_eq_iff m, fun a => ⟨Machine.islandId_le m a, Machine.islandId_islandId m a⟩, rfl,
    Machine.isIslandId_iff_lowest m, fun _ => Machine.islandId_congr⟩

end Sys2Proof
end

section
/-! PROOFS. The advance of the millisecond counter, for O53: the edges up to it, with an open pair and without (R7, R12). -/

namespace Sys2Proof.Machine

/-- The open pair after a number of edges that it counts. -/
def pairAfter (n : Nat) (pair : Option Pair) : Option Pair := pair.map fun pr => ⟨pr.addr, pr.edges + n⟩

/-- An edge at which no pair's timeout takes effect: every interval and an open pair count it. -/
theorem tbclkEdge_counted {s : State} (hs : s.bus.subMs ≤ 999) (hp : ∀ pr, s.bus.pair = some pr → pr.edges < 3) :
    tbclkEdge s = withPair (pairAfter 1 s.bus.pair) (edgesPassed 1 s) := by
  rw [tbclkEdge_eq, edgeCounted_eq hs]
  cases h : s.bus.pair with
  | none =>
    rw [pairEdge_none (s := edgesPassed 1 s) h, pairAfter, Option.map_none, ← h]
    rfl
  | some pr =>
    rw [pairEdge_counts (s := edgesPassed 1 s) h (hp pr h)]
    rfl

/-- Edges at which no pair's timeout takes effect. -/
theorem passEdges_counted (n : Nat) {s : State} (hs : s.bus.subMs ≤ 999)
    (hp : ∀ pr, s.bus.pair = some pr → pr.edges + n < 3) :
    passEdges (n + 1) s = withPair (pairAfter (n + 1) s.bus.pair) (edgesPassed (n + 1) s) := by
  induction n generalizing s with
  | zero => exact tbclkEdge_counted hs hp
  | succ n ih =>
    have hone := tbclkEdge_counted hs fun pr h => by have := hp pr h; omega
    have hlater : ∀ pr, pairAfter 1 s.bus.pair = some pr → pr.edges + n < 3 := by
      intro pr h
      obtain ⟨pr0, h0, rfl⟩ := Option.map_eq_some_iff.mp h
      have := hp pr0 h0
      dsimp only
      omega
    have hpair : pairAfter (n + 1) (pairAfter 1 s.bus.pair) = pairAfter (n + 1 + 1) s.bus.pair := by
      simp only [pairAfter, Option.map_map, Function.comp_def, Nat.add_assoc, Nat.add_comm 1]
    calc passEdges (n + 1 + 1) s
        = passEdges (n + 1) (withPair (pairAfter 1 s.bus.pair) (edgesPassed 1 s)) := by rw [passEdges, hone]
      _ = withPair (pairAfter (n + 1) (pairAfter 1 s.bus.pair)) (edgesPassed (n + 1) (edgesPassed 1 s)) :=
          ih (edgesPassed_subMs 1 s) hlater
      _ = withPair (pairAfter (n + 1 + 1) s.bus.pair) (edgesPassed (n + 1 + 1) s) := by
          rw [hpair, edgesPassed_edgesPassed, Nat.add_comm 1]

/-- The advance of the millisecond counter, by the edges left of the millisecond. -/
theorem exec_millisecondCounterAdvance (s : State) :
    exec .millisecondCounterAdvance s = .next (passEdges (999 - s.bus.subMs + 1) s) :=
  congrArg Host.Outcome.next (passToMillisecond_eq s)

/-- The edges of a whole millisecond bring the sub-millisecond count to 0 and advance the millisecond counter. -/
theorem edgesPassed_millisecond {s : State} (hs : s.bus.subMs ≤ 999) :
    (edgesPassed (1000 - s.bus.subMs) s).bus.subMs = 0 ∧
      (edgesPassed (1000 - s.bus.subMs) s).part.ms = s.part.ms + 1 := by
  have hsum : s.bus.subMs + (1000 - s.bus.subMs) = 1000 := by omega
  exact ⟨by simp [edgesPassed, hsum], by simp [edgesPassed, hsum]⟩

/-- The advance where no pair's timeout takes effect before it. -/
theorem exec_millisecondCounterAdvance_counted {s : State} (hs : s.bus.subMs ≤ 999)
    (hp : ∀ pr, s.bus.pair = some pr → pr.edges + (1000 - s.bus.subMs) ≤ 3) :
    exec .millisecondCounterAdvance s
      = .next (withPair (pairAfter (1000 - s.bus.subMs) s.bus.pair) (edgesPassed (1000 - s.bus.subMs) s)) := by
  have hk : 1000 - s.bus.subMs = 999 - s.bus.subMs + 1 := by omega
  rw [exec_millisecondCounterAdvance, hk, passEdges_counted _ hs fun pr h => by have := hp pr h; omega]

theorem exec_pairTimeout {s : State} {pr : Pair} (hp : s.bus.pair = some pr) :
    exec .pairTimeout s = .next (passEdges (3 - pr.edges + 1) s) := by
  change Host.Outcome.next (passToPairTimeout s) = _
  rw [passToPairTimeout, hp]

/-- The advance where the timeout of the open pair takes effect before it: the rest of the edges follow the timeout's. -/
theorem exec_millisecondCounterAdvance_afterTimeout {s : State} {pr : Pair} (hs : s.bus.subMs ≤ 999)
    (hp : s.bus.pair = some pr) (hk : 3 - pr.edges + 1 < 1000 - s.bus.subMs) :
    exec .millisecondCounterAdvance s = exec .millisecondCounterAdvance (passEdges (3 - pr.edges + 1) s) := by
  have hsub : (passEdges (3 - pr.edges + 1) s).bus.subMs = s.bus.subMs + (3 - pr.edges + 1) := by
    rw [passEdges_timeout _ s pr hs hp rfl, (endPairTimeout_bus _).2]
    exact Nat.mod_eq_of_lt (by omega)
  rw [exec_millisecondCounterAdvance, exec_millisecondCounterAdvance, hsub, ← passEdges_add]
  congr 2
  omega

/-- The third part of O53: the advance of the millisecond counter, where its edges meet an open pair's timeout and where
they do not. -/
theorem millisecondCounterAdvance_advances (s : State) (hs : s.bus.subMs ≤ 999) :
    let k := 1000 - s.bus.subMs
    let u := edgesPassed k s
    (s.bus.pair = none → exec .millisecondCounterAdvance s = .next u ∧ u.bus.subMs = 0 ∧ u.part.ms = s.part.ms + 1) ∧
    (∀ pr, s.bus.pair = some pr →
      (k < 3 - pr.edges + 1 → exec .millisecondCounterAdvance s = .next { u with
        bus := { u.bus with pair := some { pr with edges := pr.edges + k } } }) ∧
      (k = 3 - pr.edges + 1 → exec .millisecondCounterAdvance s = exec .pairTimeout s) ∧
      (3 - pr.edges + 1 < k → ∃ v, exec .pairTimeout s = .next v ∧
        exec .millisecondCounterAdvance s = exec .millisecondCounterAdvance v)) := by
  intro k u
  refine ⟨fun hn => ⟨?_, edgesPassed_millisecond hs⟩, fun pr hp => ⟨fun hk => ?_, fun hk => ?_, fun hk => ?_⟩⟩
  · rw [exec_millisecondCounterAdvance_counted hs (by simp [hn]), hn]
    change Host.Outcome.next (withPair none u) = _
    rw [← hn]
    rfl
  · rw [exec_millisecondCounterAdvance_counted hs fun pr' h => by
      obtain rfl := Option.some.inj (hp.symm.trans h)
      omega, hp]
    rfl
  · rw [exec_pairTimeout hp, ← hk, exec_millisecondCounterAdvance]
    congr 2
    omega
  · exact ⟨_, exec_pairTimeout hp, exec_millisecondCounterAdvance_afterTimeout hs hp hk⟩

end Sys2Proof.Machine
end

section
/-! PROOFS. What an island's members, its ladder and its timers rest on, and that an event of another island spares all of
it (R38, R41 to R46, R100). -/

namespace Sys2Proof.Machine

/-! ## What two parts share for an island -/

/-- Whether two records hold the same totals, condition, HELD mark and timers. -/
structure SameStanding (r t : Island) : Prop where
  totals : t.totals = r.totals
  condition : t.condition = r.condition
  held : t.held = r.held
  overload : t.overload = r.overload
  startDelay : t.startDelay = r.startDelay
  releaseHold : t.releaseHold = r.releaseHold

theorem SameStanding.refl (r : Island) : SameStanding r r := ⟨rfl, rfl, rfl, rfl, rfl, rfl⟩

theorem SameStanding.trans {r t u : Island} (h : SameStanding r t) (k : SameStanding t u) : SameStanding r u :=
  ⟨k.totals.trans h.totals, k.condition.trans h.condition, k.held.trans h.held, k.overload.trans h.overload,
    k.startDelay.trans h.startDelay, k.releaseHold.trans h.releaseHold⟩

/-- What the ladder reads of an island stands: its consumers, its drives and its entries, the copies, the plan and the
time. -/
structure LadderView (i : SecId) (p q : Part) : Prop where
  img : q.img = p.img
  plans : q.plans = p.plans
  ms : q.ms = p.ms
  cons : ∀ c : ConsId, consIsland p c = some i → q.cons[c] = p.cons[c]
  drives : ∀ d : DriveId, driveIsland p d = some i → q.drives[d] = p.drives[d]
  entries : entriesOf q i = entriesOf p i

/-- What the ladder reads of an island stands, and so do its generators. -/
structure IslandView (i : SecId) (p q : Part) : Prop extends LadderView i p q where
  gens : ∀ g : GenId, genIsland p g = some i → q.gens[g] = p.gens[g]

/-- What the ladder reads of an island stands, and the generators that carry its load are the same. -/
structure SameCarriers (i : SecId) (p q : Part) : Prop extends LadderView i p q where
  carry : ∀ g : GenId, genIsland p g = some i → carries (genState q g) = carries (genState p g)

/-- A change spares an island: its record, its members and its entries stand, and attention bits only rise. -/
structure Spares (i : SecId) (p q : Part) : Prop extends IslandView i p q where
  record : q.islands[i] = p.islands[i]
  rises : attRises p q

theorem islandsOf_congr {p q : Part} (himg : q.img = p.img) (hplans : q.plans = p.plans) :
    genIsland q = genIsland p ∧ consIsland q = consIsland p ∧ driveIsland q = driveIsland p ∧
      targetIsland q = targetIsland p := by
  have hcons : consIsland q = consIsland p := by
    funext c
    simp only [consIsland, himg, hplans]
  have hdrive : driveIsland q = driveIsland p := by
    funext d
    simp only [driveIsland, himg, hplans]
  refine ⟨?_, hcons, hdrive, ?_⟩
  · funext g
    simp only [genIsland, himg, hplans]
  · funext t
    cases t <;> simp only [targetIsland, hcons, hdrive]

/-- The entries of an island, by the shed list and by where the targets lie. -/
theorem entriesOf_congr {p q : Part} (himg : q.img = p.img) (hplans : q.plans = p.plans)
    (hlist : q.shedList = p.shedList) (i : SecId) : entriesOf q i = entriesOf p i := by
  simp only [entriesOf, hlist, (islandsOf_congr himg hplans).2.2.2]

namespace LadderView

theorem refl (i : SecId) (p : Part) : LadderView i p p := ⟨rfl, rfl, rfl, fun _ _ => rfl, fun _ _ => rfl, rfl⟩

section
variable {i : SecId} {p q r : Part} (h : LadderView i p q)
include h

theorem genIsland : genIsland q = genIsland p := (islandsOf_congr h.img h.plans).1
theorem consIsland : consIsland q = consIsland p := (islandsOf_congr h.img h.plans).2.1
theorem driveIsland : driveIsland q = driveIsland p := (islandsOf_congr h.img h.plans).2.2.1
theorem targetIsland : targetIsland q = targetIsland p := (islandsOf_congr h.img h.plans).2.2.2

theorem trans (k : LadderView i q r) : LadderView i p r where
  img := k.img.trans h.img
  plans := k.plans.trans h.plans
  ms := k.ms.trans h.ms
  cons c hc := (k.cons c (by rw [h.consIsland, hc])).trans (h.cons c hc)
  drives d hd := (k.drives d (by rw [h.driveIsland, hd])).trans (h.drives d hd)
  entries := k.entries.trans h.entries

theorem running : isRunning q = isRunning p := by rw [isRunning, isRunning, h.plans]

theorem header : q.header = p.header := by rw [Part.header, Part.header, h.plans]

theorem genIn : genIn q i = genIn p i := by
  funext g
  rw [Machine.genIn, Machine.genIn, h.genIsland]

theorem genContribution : genContribution q = genContribution p := by
  funext g
  simp only [Machine.genContribution, h.plans]

/-- Whether a target of the island has an entry. -/
theorem hasEntry {t : Target} (ht : Machine.targetIsland p t = some i) : hasEntry q t = hasEntry p t := by
  have hmem : ∀ x : Part, Machine.targetIsland x t = some i →
      (Machine.hasEntry x t = true ↔ ∃ e ∈ entriesOf x i, e.target = t) := by
    intro x hx
    simp only [Machine.hasEntry, List.any_eq_true, beq_iff_eq, entriesOf, List.mem_filter]
    constructor
    · rintro ⟨e, he, rfl⟩
      exact ⟨e, ⟨he, hx⟩, rfl⟩
    · rintro ⟨e, ⟨he, -⟩, ht⟩
      exact ⟨e, he, ht⟩
  rw [Bool.eq_iff_iff, hmem q (by rw [h.targetIsland, ht]), hmem p ht, h.entries]

theorem candidateKey : candidateKey q = candidateKey p := by
  funext t
  cases t <;> simp only [Machine.candidateKey, h.plans]

theorem restoringOf : restoringOf q i = restoringOf p i := by
  have htest : ∀ c, (Machine.consIsland q c == some i && q.cons[c].state == .restoring)
      = (Machine.consIsland p c == some i && p.cons[c].state == .restoring) := by
    intro c
    rw [h.consIsland]
    by_cases hc : Machine.consIsland p c = some i
    · rw [h.cons c hc]
    · rw [beq_false_of_ne hc, Bool.false_and, Bool.false_and]
  simp only [Machine.restoringOf, h.candidateKey, htest]

theorem consCandidate (c : ConsId) : consCandidate q i c = consCandidate p i c := by
  rw [Machine.consCandidate, Machine.consCandidate, h.consIsland]
  by_cases hc : Machine.consIsland p c = some i
  · have hclass : consClass q c = consClass p c := by simp only [consClass, h.plans]
    rw [h.hasEntry (t := .cons c) hc, h.cons c hc, hclass, h.img]
  · simp only [beq_false_of_ne hc, Bool.false_and]

theorem driveFloor : driveFloor q = driveFloor p := by
  funext d
  simp only [Machine.driveFloor, h.plans]

theorem driveCandidate (d : DriveId) : driveCandidate q i d = driveCandidate p i d := by
  rw [Machine.driveCandidate, Machine.driveCandidate, h.driveIsland]
  by_cases hd : Machine.driveIsland p d = some i
  · have hclass : driveClass q d = driveClass p d := by simp only [driveClass, h.plans]
    have hlimit : effectiveLimit q d = effectiveLimit p d := by
      simp only [effectiveLimit, controllerLimit, h.drives d hd, h.img]
    rw [h.hasEntry (t := .drive d) hd, hclass, hlimit, h.driveFloor, h.img]
  · simp only [beq_false_of_ne hd, Bool.false_and]

theorem candidatesOf : candidatesOf q i = candidatesOf p i := by
  simp only [Machine.candidatesOf, h.candidateKey, funext h.consCandidate, funext h.driveCandidate]

theorem splitEstimate : splitEstimate q i = splitEstimate p i := by
  have hbasis : creditBasis q = creditBasis p := by
    funext c
    simp only [creditBasis, h.plans, h.img]
  have hpower : drivePower q = drivePower p := by
    funext d
    simp only [drivePower, h.img]
  simp only [Machine.splitEstimate, h.consIsland, h.driveIsland, h.img, hbasis, hpower]

end

/-- A change that leaves the ladder's tables, the copies, the plan and the time. -/
theorem of_eq {p q : Part} (i : SecId) (h : q.img = p.img ∧ q.plans = p.plans ∧ q.ms = p.ms ∧ q.cons = p.cons ∧
    q.drives = p.drives ∧ q.shedList = p.shedList) : LadderView i p q := by
  obtain ⟨himg, hplans, hms, hcons, hdrives, hlist⟩ := h
  exact ⟨himg, hplans, hms, fun c _ => by rw [hcons], fun d _ => by rw [hdrives], entriesOf_congr himg hplans hlist i⟩

end LadderView

/-! ## The carriers of an island -/

namespace SameCarriers

section
variable {i : SecId} {p q r : Part} (h : SameCarriers i p q)
include h

theorem trans (k : SameCarriers i q r) : SameCarriers i p r where
  toLadderView := h.toLadderView.trans k.toLadderView
  carry g hg := (k.carry g (by rw [h.genIsland, hg])).trans (h.carry g hg)

/-- The test that picks the carriers of the island. -/
theorem carrier (g : GenId) : (Machine.genIn q i g && carries (genState q g)) = (Machine.genIn p i g && carries (genState p g)) := by
  rw [h.genIn, Machine.genIn]
  by_cases hg : Machine.genIsland p g = some i
  · rw [h.carry g hg]
  · rw [beq_false_of_ne hg, Bool.false_and, Bool.false_and]

theorem carrying : carrying q i = carrying p i := by
  simp only [Machine.carrying, h.carrier]

theorem heldOf : heldOf q i = heldOf p i := by
  simp only [Machine.heldOf, h.carrying, h.img]

theorem limit : (totalsOf q i).limit = (totalsOf p i).limit := by
  simp only [totalsOf, sumGens, h.carrier, h.genContribution]

theorem load : (totalsOf q i).load = (totalsOf p i).load := by
  simp only [totalsOf, sumGens, h.carrier, h.img]

theorem openingCredit : (totalsOf q i).openingCredit = (totalsOf p i).openingCredit := by
  simp only [totalsOf, h.entries]

end

theorem refl (i : SecId) (p : Part) : SameCarriers i p p := ⟨.refl i p, fun _ _ => rfl⟩

end SameCarriers

/-! ## The members of an island -/

namespace IslandView

theorem refl (i : SecId) (p : Part) : IslandView i p p := ⟨.refl i p, fun _ _ => rfl⟩

section
variable {i : SecId} {p q r : Part} (h : IslandView i p q)
include h

theorem trans (k : IslandView i q r) : IslandView i p r where
  toLadderView := h.toLadderView.trans k.toLadderView
  gens g hg := (k.gens g (by rw [h.genIsland, hg])).trans (h.gens g hg)

theorem sameCarriers : SameCarriers i p q := ⟨h.toLadderView, fun g hg => by rw [genState, genState, h.gens g hg]⟩

/-- A test of a generator's state within the island. -/
theorem genTest (f : GenState → Bool) (g : GenId) :
    (Machine.genIn q i g && f (genState q g)) = (Machine.genIn p i g && f (genState p g)) := by
  rw [h.genIn, Machine.genIn]
  by_cases hg : Machine.genIsland p g = some i
  · rw [genState, genState, h.gens g hg]
  · rw [beq_false_of_ne hg, Bool.false_and, Bool.false_and]

theorem totalsOf : totalsOf q i = totalsOf p i := by
  simp only [Machine.totalsOf, sumGens, h.genTest carries, h.genTest (· == .online), h.genContribution, h.img, h.entries]

theorem conditionOf (t : Totals) : conditionOf q i t = conditionOf p i t := by
  simp only [Machine.conditionOf, h.sameCarriers.carrying, h.header]

/-- An island whose record holds the same totals, condition and HELD mark stands by its members alike. -/
theorem islandStands (hs : islandStands p i) (hr : SameStanding p.islands[i] q.islands[i]) : islandStands q i := by
  simpa only [Machine.islandStands, islandAgrees, hr.totals, hr.condition, hr.held, h.totalsOf, h.conditionOf,
    h.sameCarriers.heldOf] using hs

end

end IslandView

/-! ## A change that spares an island -/

namespace Spares

theorem refl (i : SecId) (p : Part) : Spares i p p := ⟨.refl i p, rfl, attRises_refl p⟩

section
variable {i : SecId} {p q r : Part} (h : Spares i p q)
include h

theorem trans (k : Spares i q r) : Spares i p r where
  toIslandView := h.toIslandView.trans k.toIslandView
  record := k.record.trans h.record
  rises := attRises_trans h.rises k.rises

theorem standing : SameStanding p.islands[i] q.islands[i] := by
  rw [h.record]
  exact .refl _

end

end Spares

/-! ## Changes within another island -/

/-- A change within another island, of members of that island alone. -/
theorem Spares.of_within {i j : SecId} {p q : Part} (hij : i ≠ j) (h : Within j p q) (he : Effects p q)
    (hgens : ∀ g : GenId, genIsland p g = some i → q.gens[g] = p.gens[g])
    (hcons : ∀ c : ConsId, consIsland p c = some i → q.cons[c] = p.cons[c])
    (hdrives : ∀ d : DriveId, driveIsland p d = some i → q.drives[d] = p.drives[d])
    (hentries : entriesOf q i = entriesOf p i) : Spares i p q :=
  ⟨⟨⟨h.img, h.plans, he.base.2, hcons, hdrives, hentries⟩, hgens⟩, h.others i hij, he.attention_rises.1⟩

/-- A change within another island that leaves the generators and the ladder's tables. -/
theorem Spares.of_frame {i j : SecId} {p q : Part} (hij : i ≠ j) (h : Within j p q) (he : Effects p q)
    (hf : q.gens = p.gens ∧ q.cons = p.cons ∧ q.drives = p.drives ∧ q.shedList = p.shedList) : Spares i p q := by
  obtain ⟨hgens, hcons, hdrives, hlist⟩ := hf
  exact .of_within hij h he (fun g _ => by rw [hgens]) (fun c _ => by rw [hcons]) (fun d _ => by rw [hdrives])
    (entriesOf_congr h.img h.plans hlist i)

/-- Steps that each spare an island. -/
theorem Spares.fold {α : Type} {i : SecId} {f : Part → α → Part} (l : List α) (p : Part)
    (h : ∀ q, Spares i p q → ∀ a ∈ l, Spares i q (f q a)) : Spares i p (l.foldl f p) :=
  foldl_keeps (Spares i p) f l p (.refl i p) fun q a ha hq => hq.trans (h q hq a ha)

/-- The islands taken in turn, each step sparing the others: an island's own step acts on what stood before, and what it
leaves stands after. -/
theorem Spares.turn {i : SecId} {f : Part → SecId → Part} (h : ∀ q j, i ≠ j → Spares i q (f q j)) {l : List SecId}
    (hl : l.Nodup) (hi : i ∈ l) (p : Part) : ∃ a, Spares i p a ∧ Spares i (f a i) (l.foldl f p) := by
  induction l generalizing p with
  | nil => cases hi
  | cons j l ih =>
    obtain ⟨hj, hl⟩ := List.nodup_cons.mp hl
    rw [List.foldl_cons]
    by_cases hij : i = j
    · subst hij
      exact ⟨p, .refl i p, .fold l _ fun q _ k hk => h q k fun e => hj (e ▸ hk)⟩
    · obtain ⟨a, ha, hend⟩ := ih hl (List.mem_of_ne_of_mem hij hi) (f p j)
      exact ⟨a, (h p j hij).trans ha, hend⟩

/-- The islands taken in turn, an island not among them. -/
theorem Spares.others {i : SecId} {f : Part → SecId → Part} (h : ∀ q j, i ≠ j → Spares i q (f q j)) {l : List SecId}
    (hi : i ∉ l) (p : Part) : Spares i p (l.foldl f p) :=
  .fold l p fun q _ j hj => h q j fun e => hi (e ▸ hj)

section
variable {i j : SecId} (hij : i ≠ j) (p : Part)
include hij

theorem spares_syncTimers : Spares i p (syncTimers j p) :=
  .of_frame hij (within_syncTimers j p) (effects_syncTimers j p) (by simp)

theorem spares_retotal : Spares i p (retotal j p) :=
  .of_frame hij (within_retotal j p) (effects_retotal j p) (by simp)

theorem spares_setIsland (r : Island) : Spares i p (setIsland j r p) :=
  .of_frame hij (within_setIsland j r p) (effects_setIsland j r p) (by simp)

theorem spares_enterMarks : Spares i p (enterMarks j p) :=
  .of_frame hij (within_enterMarks j p) (effects_enterMarks j p) (by simp)

theorem spares_computeTargets (forced : Option GenId) : Spares i p (computeTargets j forced p) :=
  .of_frame hij (within_computeTargets j forced p) (effects_computeTargets j forced p) (by simp)

end

/-! ## The sequencer -/

theorem changeState_gens (g : GenId) (e : Gen) (p : Part) : (changeState g e p).gens = setAt p.gens g e := by
  unfold changeState
  simp only []
  split <;> split <;> simp

theorem abortUnloading_gens (g : GenId) (cause : AbortCause) (p : Part) :
    (abortUnloading g cause p).gens = setAt p.gens g { Gen.init with state := .online } := by
  unfold abortUnloading
  simp only []
  split <;> simp [changeState_gens]

/-- A generator entry as a start leaves it (R62, R76). -/
def startingGen (auto : Bool) (cause : StartCause) (p : Part) : Gen :=
  { Gen.init with state := .starting, automatic := auto, cause := cause
                  startTimer := some (after p.ms (1000 * p.header.startTimeout)) }

theorem startGenerator_gens (g : GenId) (auto : Bool) (cause : StartCause) (p : Part) :
    (startGenerator g auto cause p).gens = setAt p.gens g (startingGen auto cause p) := by
  simp [startGenerator, startingGen, changeState_gens]

section
variable {i j : SecId} (hij : i ≠ j) (p : Part)
include hij

/-- A generator of another island replaced leaves this island's. -/
theorem setAt_gens_other {g h : GenId} {e : Gen} (hg : genIsland p g = some j) (hh : genIsland p h = some i) :
    (setAt p.gens g e)[h] = p.gens[h] := by
  refine setAt_other _ _ fun e => hij ?_
  rw [e, hh] at hg
  exact Option.some.inj hg

theorem spares_abortUnloading {g : GenId} (cause : AbortCause) (hg : genIsland p g = some j) :
    Spares i p (abortUnloading g cause p) :=
  .of_within hij (within_abortUnloading cause hg) (effects_abortUnloading g cause p)
    (fun h hh => by rw [abortUnloading_gens]; exact setAt_gens_other hij p hg hh) (by simp) (by simp)
    (entriesOf_congr (by simp) (by simp) (by simp) i)

theorem spares_startGenerator {g : GenId} (auto : Bool) (cause : StartCause) (hg : genIsland p g = some j) :
    Spares i p (startGenerator g auto cause p) :=
  .of_within hij (within_startGenerator auto cause hg) (effects_startGenerator g auto cause p)
    (fun h hh => by rw [startGenerator_gens]; exact setAt_gens_other hij p hg hh) (by simp) (by simp)
    (entriesOf_congr (by simp) (by simp) (by simp) i)

/-- The UNLOADING generators of another island that meet a test, aborted in turn. -/
theorem spares_aborts (cause : AbortCause) (test : Part → Bool) :
    Spares i p (allGens.foldl (fun q g =>
      if genIn q j g && genState q g == .unloading && test q then abortUnloading g cause q else q) p) := by
  refine .fold _ p fun q _ g _ => ?_
  split
  · next h =>
    simp only [Bool.and_eq_true] at h
    obtain ⟨⟨hin, -⟩, -⟩ := h
    exact spares_abortUnloading hij q cause (by simpa [genIn] using hin)
  · exact .refl i q

theorem spares_abortAll (cause : AbortCause) : Spares i p (abortAll j cause p) := by
  simpa only [Bool.and_true, abortAll] using spares_aborts hij p cause fun _ => true

theorem spares_recheckStops : Spares i p (recheckStops j p) := by
  unfold recheckStops
  split
  · exact spares_aborts hij p .partition fun q => q.islands[j].condition != .sound
  · exact .refl i p

theorem spares_requestStandby (cause : StartCause) : Spares i p (requestStandby j cause p) := by
  unfold requestStandby
  split
  · split
    · next g hg =>
      exact (spares_setIsland hij p _).trans (spares_startGenerator hij _ true cause (genIsland_standbyCandidate hg))
    · next hg =>
      refine .of_frame hij ?_ (effects_noStandby j cause p) (by simp)
      unfold noStandby
      split
      · exact .refl j p
      · exact .trans (.of_islands (by simp)) (within_setIsland j _ _)
  · exact .refl i p

theorem spares_enterSequencer (c : Condition) : Spares i p (enterSequencer j c p) := by
  unfold enterSequencer
  split
  · cases c with
    | overloaded => exact spares_abortAll hij p .overload
    | dead => exact spares_requestStandby hij p .dead
    | sound | short => exact .refl i p
  · exact .refl i p

end

end Sys2Proof.Machine
end

section
/-! PROOFS. What the ladder's work in one island leaves of the others (R100 to R111, R119). -/

namespace Sys2Proof.Machine

/-! ## The tables after a shed transaction (R102 to R104) -/

theorem shedConsumer_tables (c : ConsId) (cause : ShedCause) (credit : Nat) (p : Part) :
    (shedConsumer c cause credit p).shedList
        = p.shedList ++ [⟨.cons c, cause, credit, p.ms, .opening (after p.ms (consTimeout p c))⟩] ∧
      (shedConsumer c cause credit p).cons = setAt p.cons c ⟨.shedding, none⟩ := by
  simp [shedConsumer]

theorem shedDrive_tables (d : DriveId) (cause : ShedCause) (credit cut : Nat) (p : Part) :
    (shedDrive d cause credit cut p).shedList = p.shedList ++ [⟨.drive d, cause, credit, p.ms, .held⟩] ∧
      (shedDrive d cause credit cut p).drives = setAt p.drives d ⟨true, cut⟩ := by
  simp [shedDrive]

theorem reshed_tables (c : ConsId) (p : Part) :
    (reshed c p).shedList = p.shedList ++ [⟨.cons c, .restoreCancel, 0, p.ms, .held⟩] ∧
      (reshed c p).cons = setAt p.cons c ⟨.shed, none⟩ := by
  simp [reshed]

/-- The entries of an island after an entry is appended: one more where the target lies in it. -/
theorem entriesOf_append {p q : Part} {e : ShedEntry} (himg : q.img = p.img) (hplans : q.plans = p.plans)
    (hlist : q.shedList = p.shedList ++ [e]) (i : SecId) :
    entriesOf q i = entriesOf p i ++ if targetIsland p e.target = some i then [e] else [] := by
  rw [entriesOf, (islandsOf_congr himg hplans).2.2.2, hlist, List.filter_append, List.filter_singleton]
  cases h : targetIsland p e.target == some i
  · rw [if_neg (by simpa using h)]
    rfl
  · rw [if_pos (by simpa using h)]
    rfl

/-- An entry appended for a target of another island. -/
theorem entriesOf_append_other {i j : SecId} (hij : i ≠ j) {p q : Part} {e : ShedEntry} (himg : q.img = p.img)
    (hplans : q.plans = p.plans) (hlist : q.shedList = p.shedList ++ [e]) (ht : targetIsland p e.target = some j) :
    entriesOf q i = entriesOf p i := by
  rw [entriesOf_append himg hplans hlist, ht, if_neg fun e => hij (Option.some.inj e).symm, List.append_nil]

/-- Whether a dead shed lowers a drive: a cut drive of the island above its floor (R111). -/
def lowersDrive (i : SecId) (p : Part) (d : DriveId) : Bool :=
  driveIsland p d == some i && hasEntry p (.drive d) && decide (driveFloor p d < p.drives[d].cutLimit)

theorem deadLower_stands {i : SecId} {p : Part} {d : DriveId} (h : lowersDrive i p d = false) : deadLower i p d = p :=
  if_neg (ne_true_of_eq_false h)

/-- A drive lowered to its floor: its entry's credit rises in place, and the island's timers follow. -/
theorem deadLower_lowers {i : SecId} {p : Part} {d : DriveId} (h : lowersDrive i p d = true) :
    ∃ k, (deadLower i p d).shedList
          = (changeEntry (.drive d) (fun e => { e with credit := e.credit + k }) p).shedList ∧
      (deadLower i p d).drives = setAt p.drives d { p.drives[d] with cutLimit := driveFloor p d } ∧
      (deadLower i p d).islands = (syncTimers i (setDrive d { p.drives[d] with cutLimit := driveFloor p d }
        (changeEntry (.drive d) (fun e => { e with credit := e.credit + k }) p))).islands := by
  refine ⟨p.drives[d].cutLimit - driveFloor p d, ?_⟩
  rw [lowersDrive] at h
  simp only [deadLower, h, if_true]
  simp [judgeReleaseOf]

/-- The entries of an island after a credit is changed in another. -/
theorem entriesOf_changeEntry_other {i j : SecId} (hij : i ≠ j) (p : Part) {d : DriveId} (k : Nat)
    (hd : driveIsland p d = some j) :
    entriesOf (changeEntry (.drive d) (fun e => { e with credit := e.credit + k }) p) i = entriesOf p i := by
  have htarget : ∀ e : ShedEntry,
      (if e.target = .drive d then { e with credit := e.credit + k } else e).target = e.target := by
    intro e
    split <;> rfl
  rw [entriesOf, changeEntry_shedList, List.filter_map, entriesOf,
    (islandsOf_congr (p := p) (q := changeEntry (.drive d) (fun e => { e with credit := e.credit + k }) p)
      (by simp) (by simp)).2.2.2]
  simp only [Function.comp_def, htarget]
  refine (List.map_congr_left fun e he => ?_).trans (List.map_id _)
  have he : targetIsland p e.target = some i := by simpa using (List.mem_filter.mp he).2
  refine if_neg fun ht => hij ?_
  rw [ht] at he
  exact Option.some.inj (he.symm.trans hd)

/-! ## The shed transactions -/

section
variable {i j : SecId} (hij : i ≠ j) (p : Part)
include hij

/-- A consumer of another island replaced leaves this island's. -/
theorem setAt_cons_other {c x : ConsId} {e : Consumer} (hc : consIsland p c = some j) (hx : consIsland p x = some i) :
    (setAt p.cons c e)[x] = p.cons[x] := by
  refine setAt_other _ _ fun e => hij ?_
  rw [e, hx] at hc
  exact Option.some.inj hc

/-- A drive of another island replaced leaves this island's. -/
theorem setAt_drives_other {d x : DriveId} {e : Drive} (hd : driveIsland p d = some j) (hx : driveIsland p x = some i) :
    (setAt p.drives d e)[x] = p.drives[x] := by
  refine setAt_other _ _ fun e => hij ?_
  rw [e, hx] at hd
  exact Option.some.inj hd

theorem spares_shedConsumer {c : ConsId} (cause : ShedCause) (credit : Nat) (hc : consIsland p c = some j) :
    Spares i p (shedConsumer c cause credit p) := by
  obtain ⟨hlist, hcons⟩ := shedConsumer_tables c cause credit p
  exact .of_within hij (within_shedConsumer cause credit hc) (effects_shedConsumer c cause credit p) (by simp)
    (fun x hx => by rw [hcons]; exact setAt_cons_other hij p hc hx) (by simp)
    (entriesOf_append_other hij (by simp) (by simp) hlist hc)

theorem spares_shedDrive {d : DriveId} (cause : ShedCause) (credit cut : Nat) (hd : driveIsland p d = some j) :
    Spares i p (shedDrive d cause credit cut p) := by
  obtain ⟨hlist, hdrives⟩ := shedDrive_tables d cause credit cut p
  exact .of_within hij (within_shedDrive cause credit cut hd) (effects_shedDrive d cause credit cut p) (by simp) (by simp)
    (fun x hx => by rw [hdrives]; exact setAt_drives_other hij p hd hx)
    (entriesOf_append_other hij (by simp) (by simp) hlist hd)

theorem spares_reshed {c : ConsId} (hc : consIsland p c = some j) : Spares i p (reshed c p) := by
  obtain ⟨hlist, hcons⟩ := reshed_tables c p
  exact .of_within hij (within_reshed hc) (effects_reshed c p) (by simp)
    (fun x hx => by rw [hcons]; exact setAt_cons_other hij p hc hx) (by simp)
    (entriesOf_append_other hij (by simp) (by simp) hlist hc)

theorem spares_reshedAll {ts : List Target} (h : ∀ t ∈ ts, targetIsland p t = some j) : Spares i p (reshedAll ts p) := by
  refine .fold _ p fun q hq t ht => ?_
  have hin : targetIsland q t = some j := by rw [hq.targetIsland, h t ht]
  cases t with
  | cons c => exact spares_reshed hij q hin
  | drive d => exact .refl i q

theorem spares_deadTake {t : Target} (ht : targetIsland p t = some j) : Spares i p (deadTake p t) := by
  cases t with
  | cons c => exact spares_shedConsumer hij p .dead _ ht
  | drive d => exact spares_shedDrive hij p .dead _ _ ht

theorem spares_takeCandidate (cause : ShedCause) {t : Target} (need : Int) (ht : targetIsland p t = some j) :
    Spares i p (takeCandidate cause t need p).2 := by
  cases t with
  | cons c => exact spares_shedConsumer hij p cause _ ht
  | drive d =>
    simp only [takeCandidate]
    split
    · exact .refl i p
    · exact spares_shedDrive hij p cause _ _ ht

theorem spares_walkCandidates (cause : ShedCause) (ts : List Target) (need : Int)
    (h : ∀ t ∈ ts, targetIsland p t = some j) : Spares i p (walkCandidates cause ts need p).2 := by
  induction ts generalizing need p with
  | nil => exact .refl i p
  | cons t ts ih =>
    rw [walkCandidates]
    split
    · exact .refl i p
    · have hfirst := spares_takeCandidate hij p cause need (h t List.mem_cons_self)
      refine hfirst.trans (ih _ _ fun u hu => ?_)
      rw [hfirst.targetIsland, h u (List.mem_cons_of_mem t hu)]

/-! ## The steps -/

theorem spares_stepMet : Spares i p (stepMet j p) := spares_setIsland hij p _

theorem spares_stepUnmet (cause : ShedCause) (need : Nat) : Spares i p (stepUnmet j cause need p) := by
  refine .of_frame hij ?_ (effects_stepUnmet j cause need p) (by simp)
  have hheld := within_setIsland j { p.islands[j] with exhausted := true, need := heldNeed p need }
    { p with free := if need ≤ totalCap then p.free else p.free + 1 }
  have hfree : Within j p { p with free := if need ≤ totalCap then p.free else p.free + 1 } :=
    .of_islands ⟨rfl, rfl, rfl⟩
  unfold stepUnmet
  simp only []
  split
  · exact hfree.trans hheld
  · exact (hfree.trans hheld).trans (.of_islands (by simp))

theorem spares_shedStep (cause : ShedCause) (need : Int) : Spares i p (shedStep j cause need p) := by
  unfold shedStep
  split
  · exact spares_stepMet hij p
  · have hfirst := spares_reshedAll hij p fun t ht => targetIsland_of_mem_restoringOf (i := j) ht
    have hwalk := hfirst.trans (spares_walkCandidates hij _ cause (candidatesOf p j) need fun t ht => by
      rw [hfirst.targetIsland]; exact targetIsland_of_mem_candidatesOf ht)
    simp only []
    split
    · exact hwalk.trans (spares_stepMet hij _)
    · exact hwalk.trans (spares_stepUnmet hij _ cause _)

theorem spares_splitStep : Spares i p (splitStep j p) := by
  unfold splitStep
  simp only []
  split
  · exact spares_stepMet hij p
  · exact spares_shedStep hij p .tieOpen _

/-! ## The dead shed (R111) -/

theorem spares_deadLower (d : DriveId) : Spares i p (deadLower j p d) := by
  cases hl : lowersDrive j p d
  · rw [deadLower_stands hl]
    exact .refl i p
  · obtain ⟨k, hlist, hdrives, -⟩ := deadLower_lowers hl
    have hd : driveIsland p d = some j := by
      simp only [lowersDrive, Bool.and_eq_true, beq_iff_eq] at hl
      exact hl.1.1
    refine .of_within hij (within_deadLower j p d) (effects_deadLower j p d) (by simp) (by simp)
      (fun x hx => by rw [hdrives]; exact setAt_drives_other hij p hd hx) ?_
    exact (entriesOf_congr (by simp) (by simp) hlist i).trans (entriesOf_changeEntry_other hij p _ hd)

theorem spares_deadShed : Spares i p (deadShed j p) := by
  have hfirst := spares_reshedAll hij p fun t ht => targetIsland_of_mem_restoringOf (i := j) ht
  refine (hfirst.trans (.fold _ _ fun q hq t ht => spares_deadTake hij q ?_)).trans
    (.fold _ _ fun q _ d _ => spares_deadLower hij q d)
  rw [(hfirst.trans hq).targetIsland]
  exact targetIsland_of_mem_candidatesOf ht

theorem spares_enterLadder (c : Condition) : Spares i p (enterLadder j c p) := by
  unfold enterLadder
  split
  · exact spares_deadShed hij p
  · exact .refl i p

theorem spares_enterCondition : Spares i p (enterCondition j p) :=
  (spares_enterMarks hij p).trans ((spares_enterSequencer hij _ _).trans (spares_enterLadder hij _ _))

end

end Sys2Proof.Machine
end

section
/-! PROOFS. An island's standing through the work of one event: its timers follow from those it had before the event, however
often its totals are formed again (R45, R46, R50 to R52, R123). -/

namespace Sys2Proof.Machine

/-! ## Timers that follow from the timers of a record -/

/-- A record with every timer stopped. -/
def Stopped (old : Island) : Prop := old.overload = none ∧ old.startDelay = .stopped ∧ old.releaseHold = none

/-- A record with the timers of another. -/
def withTimers (old r : Island) : Island :=
  { r with overload := old.overload, startDelay := old.startDelay, releaseHold := old.releaseHold }

/-- Whether an island's timers are those that the timers of `old` become by the run conditions as they stand. -/
structure Timed (old : Island) (p : Part) (i : SecId) : Prop where
  overload : p.islands[i].overload = nextOverload p (withTimers old p.islands[i])
  startDelay : p.islands[i].startDelay = nextStartDelay p (withTimers old p.islands[i])
  releaseHold : p.islands[i].releaseHold = nextReleaseHold p (withTimers old p.islands[i]) (releaseFor p i)

/-- The release condition rests on the totals, the condition, the HELD mark, the entries, the plan and the part state. -/
theorem releaseFor_congr {p q : Part} {i : SecId} (ht : q.islands[i].totals = p.islands[i].totals)
    (hc : q.islands[i].condition = p.islands[i].condition) (hh : q.islands[i].held = p.islands[i].held)
    (hp : q.plans = p.plans) (he : entriesOf q i = entriesOf p i) : releaseFor q i = releaseFor p i := by
  unfold releaseFor isRunning Part.header
  simp only []
  rw [he, hp, hh, hc, ht]

/-- What each timer becomes rests on the run conditions, the timer itself, the plan and the time. -/
theorem nextTimers_congr {p q : Part} {r t : Island} (hc : t.condition = r.condition) (hh : t.held = r.held)
    (ho : t.overload = r.overload) (hd : t.startDelay = r.startDelay) (hk : t.releaseHold = r.releaseHold)
    (hp : q.plans = p.plans) (hms : q.ms = p.ms) (j : Option Target) :
    nextOverload q t = nextOverload p r ∧ nextStartDelay q t = nextStartDelay p r ∧
      nextReleaseHold q t j = nextReleaseHold p r j := by
  unfold nextOverload nextStartDelay nextReleaseHold Part.header
  rw [hc, hh, ho, hd, hk, hp, hms]
  exact ⟨rfl, rfl, rfl⟩

theorem Timed.congr {old : Island} {p q : Part} {i : SecId} (h : Timed old p i)
    (hr : SameStanding p.islands[i] q.islands[i]) (hp : q.plans = p.plans) (hms : q.ms = p.ms)
    (he : entriesOf q i = entriesOf p i) : Timed old q i := by
  obtain ⟨ho, hd, hk⟩ := nextTimers_congr (p := p) (q := q) (r := withTimers old p.islands[i])
    (t := withTimers old q.islands[i]) hr.condition hr.held rfl rfl rfl hp hms (releaseFor p i)
  exact ⟨by rw [ho, hr.overload, h.overload], by rw [hd, hr.startDelay, h.startDelay],
    by rw [releaseFor_congr hr.totals hr.condition hr.held hp he, hk, hr.releaseHold, h.releaseHold]⟩

/-! ## The timers formed again -/

theorem nextOverload_again {p q : Part} {r t : Island} {o : Option Word}
    (ht : t.overload = nextOverload p { r with overload := o }) (h : o = none ∨ t.condition = r.condition)
    (hms : q.ms = p.ms) (hp : q.plans = p.plans) : nextOverload q t = nextOverload q { t with overload := o } := by
  simp only [nextOverload, ht, hms, Part.header, hp]
  by_cases hc : t.condition = .overloaded
  · cases o with
    | none =>
      by_cases hr : r.condition = .overloaded <;> simp [hc, hr]
    | some e =>
      have hr : r.condition = .overloaded := by rw [← h.resolve_left (by simp), hc]
      simp [hc, hr]
  · simp [hc]

theorem nextStartDelay_again {p q : Part} {r t : Island} {d : DelayTimer}
    (ht : t.startDelay = nextStartDelay p { r with startDelay := d }) (hh : t.held = r.held)
    (h : d = .stopped ∨ t.condition = r.condition) (hms : q.ms = p.ms) (hp : q.plans = p.plans) :
    nextStartDelay q t = nextStartDelay q { t with startDelay := d } := by
  simp only [nextStartDelay, ht, hh, hms, Part.header, hp]
  by_cases hc : t.condition = .short ∨ t.condition = .overloaded
  · rw [if_pos hc, if_pos hc]
    rcases h with rfl | h
    · by_cases hr : r.condition = .short ∨ r.condition = .overloaded
      · cases r.held <;> simp [hr]
      · simp [hr]
    · rw [← h, if_pos hc]
      cases d <;> cases r.held <;> rfl
  · rw [if_neg hc, if_neg hc]

theorem nextReleaseHold_again {p q : Part} {r t : Island} {k : Option (Target × Word)} {j j' : Option Target}
    (ht : t.releaseHold = nextReleaseHold p { r with releaseHold := k } j) (h : k = none ∨ j' = none)
    (hms : q.ms = p.ms) (hp : q.plans = p.plans) :
    nextReleaseHold q t j' = nextReleaseHold q { t with releaseHold := k } j' := by
  simp only [nextReleaseHold, ht, hms, Part.header, hp]
  rcases h with rfl | rfl
  · cases j' with
    | none => rfl
    | some tg =>
      cases j with
      | none => rfl
      | some tg0 =>
        simp only []
        split
        · next e => rw [e]
        · rfl
  · rfl

/-! ## The record of an island after its update -/

/-- In RUNNING an island's timers follow its run conditions. -/
theorem syncTimers_record {p : Part} (i : SecId) (hr : isRunning p = true) :
    (syncTimers i p).islands[i] = { p.islands[i] with
      overload := nextOverload p p.islands[i], startDelay := nextStartDelay p p.islands[i]
      releaseHold := nextReleaseHold p p.islands[i] (releaseFor p i) } := by
  obtain ⟨o, d, k, e, run, -⟩ := syncTimers_eq i p
  obtain ⟨rfl, rfl, rfl⟩ := run hr
  rw [e, setIsland_islands, setAt_same]

/-- Outside RUNNING an island's timers stop. -/
theorem syncTimers_record_idle {p : Part} (i : SecId) (hr : isRunning p = false) :
    (syncTimers i p).islands[i]
      = { p.islands[i] with overload := none, startDelay := .stopped, releaseHold := none } := by
  obtain ⟨o, d, k, e, -, idle⟩ := syncTimers_eq i p
  obtain ⟨rfl, rfl, rfl⟩ := idle hr
  rw [e, setIsland_islands, setAt_same]

/-- The timers leave the totals, the condition and the marks. -/
theorem syncTimers_marks (i : SecId) (p : Part) :
    let r := (syncTimers i p).islands[i]
    r.totals = p.islands[i].totals ∧ r.condition = p.islands[i].condition ∧ r.held = p.islands[i].held ∧
      r.exhausted = p.islands[i].exhausted ∧ r.need = p.islands[i].need ∧
      r.standbyExhausted = p.islands[i].standbyExhausted := by
  obtain ⟨o, d, k, e, -⟩ := syncTimers_eq i p
  rw [e, setIsland_islands, setAt_same]
  exact ⟨rfl, rfl, rfl, rfl, rfl, rfl⟩

/-- An update forms the totals, the condition and the HELD mark from the members (R45, R46, R49). -/
theorem retotal_record (i : SecId) (p : Part) :
    let r := (retotal i p).islands[i]
    r.totals = totalsOf p i ∧ r.condition = conditionOf p i (totalsOf p i) ∧ r.held = heldOf p i := by
  obtain ⟨ht, hc, hh, -⟩ := syncTimers_marks i (setIsland i { p.islands[i] with
    totals := totalsOf p i, condition := conditionOf p i (totalsOf p i), held := heldOf p i } p)
  rw [setIsland_islands, setAt_same] at ht hc hh
  exact ⟨ht, hc, hh⟩

/-- An update leaves EXHAUSTED, the remaining need and the standby-exhausted mark. -/
theorem retotal_marks (i : SecId) (p : Part) :
    let r := (retotal i p).islands[i]
    r.exhausted = p.islands[i].exhausted ∧ r.need = p.islands[i].need ∧
      r.standbyExhausted = p.islands[i].standbyExhausted := by
  obtain ⟨-, -, -, hexhausted, hneed, hstandby⟩ := syncTimers_marks i (setIsland i { p.islands[i] with
    totals := totalsOf p i, condition := conditionOf p i (totalsOf p i), held := heldOf p i } p)
  rw [setIsland_islands, setAt_same] at hexhausted hneed hstandby
  exact ⟨hexhausted, hneed, hstandby⟩

/-- A release condition holds in SOUND alone (R122). -/
theorem releaseFor_eq_none {p : Part} {i : SecId} (h : p.islands[i].condition ≠ .sound) : releaseFor p i = none := by
  refine Option.eq_none_iff_forall_ne_some.mpr fun tg htg => ?_
  obtain ⟨-, -, hsound, -⟩ := (releaseFor_eq_some_iff p i tg).mp htg
  exact h hsound

/-- The release condition does not rest on the timers. -/
theorem releaseFor_syncTimers (i : SecId) (p : Part) : releaseFor (syncTimers i p) i = releaseFor p i := by
  obtain ⟨ht, hc, hh, -⟩ := syncTimers_marks i p
  exact releaseFor_congr ht hc hh (by simp) (entriesOf_congr (by simp) (by simp) (by simp) i)

/-- The timers follow again, from the timers they had: HELD stands, and where `old`'s timers ran the condition stands too,
one in which nothing is released. -/
theorem Timed.syncTimers {old : Island} {p q : Part} {i : SecId} (h : Timed old p i) (hr : isRunning q = true)
    (hp : q.plans = p.plans) (hms : q.ms = p.ms)
    (ho : q.islands[i].overload = p.islands[i].overload) (hd : q.islands[i].startDelay = p.islands[i].startDelay)
    (hk : q.islands[i].releaseHold = p.islands[i].releaseHold) (hheld : q.islands[i].held = p.islands[i].held)
    (hc : Stopped old ∨ q.islands[i].condition = p.islands[i].condition ∧ p.islands[i].condition ≠ .sound) :
    Timed old (syncTimers i q) i := by
  obtain ⟨hno, hnd, hnk⟩ := nextTimers_congr (p := q) (q := Machine.syncTimers i q) (r := withTimers old q.islands[i])
    (t := withTimers old (Machine.syncTimers i q).islands[i]) (by rw [syncTimers_record i hr]; rfl)
    (by rw [syncTimers_record i hr]; rfl) rfl rfl rfl (by simp) (by simp) (releaseFor q i)
  refine ⟨?_, ?_, ?_⟩
  · rw [hno, syncTimers_record i hr]
    exact nextOverload_again (ho.trans h.overload) (hc.imp (·.1) (·.1)) hms hp
  · rw [hnd, syncTimers_record i hr]
    exact nextStartDelay_again (hd.trans h.startDelay) hheld (hc.imp (·.2.1) (·.1)) hms hp
  · rw [releaseFor_syncTimers, hnk, syncTimers_record i hr]
    refine nextReleaseHold_again (r := withTimers old p.islands[i]) (hk.trans h.releaseHold) (hc.imp (·.2.2) fun ⟨hsame, hns⟩ => ?_) hms hp
    exact releaseFor_eq_none (by rw [hsame]; exact hns)

/-- An island's timers, just started or let run on from those it has. -/
theorem timed_syncTimers {p : Part} (i : SecId) (hr : isRunning p = true) : Timed p.islands[i] (syncTimers i p) i := by
  obtain ⟨hno, hnd, hnk⟩ := nextTimers_congr (p := p) (q := Machine.syncTimers i p) (r := p.islands[i])
    (t := withTimers p.islands[i] (Machine.syncTimers i p).islands[i]) (by rw [syncTimers_record i hr]; rfl)
    (by rw [syncTimers_record i hr]; rfl) rfl rfl rfl (by simp) (by simp) (releaseFor p i)
  exact ⟨by rw [hno, syncTimers_record i hr], by rw [hnd, syncTimers_record i hr],
    by rw [releaseFor_syncTimers, hnk, syncTimers_record i hr]⟩

/-- A record given its own timers back. -/
theorem withTimers_restored (old : Island) {r : Island} {o : Option Word} {d : DelayTimer} {k : Option (Target × Word)}
    (ho : r.overload = o) (hd : r.startDelay = d) (hk : r.releaseHold = k) :
    { withTimers old r with overload := o, startDelay := d, releaseHold := k } = r := by
  subst ho hd hk
  rfl

theorem setIsland_setIsland (i : SecId) (r t : Island) (p : Part) : setIsland i r (setIsland i t p) = setIsland i r p := by
  simp [setIsland, setAt]

theorem setIsland_self (i : SecId) (p : Part) : setIsland i p.islands[i] p = p := by
  simp [setIsland, setAt]

/-- In RUNNING the timers that follow from those of `old` are those of O19 and O53. -/
theorem Timed.timersFollow {old : Island} {p : Part} {i : SecId} (h : Timed old p i) (hr : isRunning p = true) :
    timersFollow old p i := by
  have hself : Machine.syncTimers i (setIsland i (withTimers old p.islands[i]) p) = p := by
    obtain ⟨o, d, k, e, run, -⟩ := syncTimers_eq i (setIsland i (withTimers old p.islands[i]) p)
    obtain ⟨rfl, rfl, rfl⟩ := run hr
    have hrelease : releaseFor (setIsland i (withTimers old p.islands[i]) p) i = releaseFor p i :=
      releaseFor_congr (by rw [setIsland_islands, setAt_same]; rfl) (by rw [setIsland_islands, setAt_same]; rfl)
        (by rw [setIsland_islands, setAt_same]; rfl) rfl rfl
    rw [e, setIsland_setIsland, setIsland_islands, setAt_same, hrelease]
    refine Eq.trans (congrArg (setIsland i · p) ?_) (setIsland_self i p)
    exact withTimers_restored old h.overload h.startDelay h.releaseHold
  have hf := timersFollow_syncTimers i (setIsland i (withTimers old p.islands[i]) p) hr
  rw [hself, setIsland_islands, setAt_same] at hf
  exact timersFollow_of_timers rfl rfl rfl hf

/-! ## An update of an island (R45) -/

/-- An update of an island whose HELD mark its carriers still give. -/
theorem Timed.retotal {old : Island} {p q : Part} {i : SecId} (h : Timed old p i) (hr : isRunning q = true)
    (hp : q.plans = p.plans) (hms : q.ms = p.ms) (ht : SameStanding p.islands[i] q.islands[i])
    (hheld : p.islands[i].held = heldOf q i)
    (hc : Stopped old ∨ conditionOf q i (totalsOf q i) = p.islands[i].condition ∧ p.islands[i].condition ≠ .sound) :
    Timed old (retotal i q) i := by
  refine Timed.syncTimers (p := p) h hr hp hms ?_ ?_ ?_ ?_ ?_ <;> rw [setIsland_islands, setAt_same]
  · exact ht.overload
  · exact ht.startDelay
  · exact ht.releaseHold
  · exact hheld.symm
  · exact hc

/-! ## A DEAD island (R46) -/

/-- A DEAD island, every timer of it stopped. -/
structure DeadStopped (r : Island) : Prop where
  condition : r.condition = .dead
  stopped : Stopped r

/-- In DEAD no run condition holds. -/
theorem next_of_dead {old : Island} {p : Part} {i : SecId} (h : p.islands[i].condition = .dead) :
    nextOverload p (withTimers old p.islands[i]) = none ∧
      nextStartDelay p (withTimers old p.islands[i]) = .stopped ∧
      nextReleaseHold p (withTimers old p.islands[i]) (releaseFor p i) = none := by
  have hd : (withTimers old p.islands[i]).condition = .dead := h
  refine ⟨?_, ?_, ?_⟩
  · rw [nextOverload, hd]
    rfl
  · rw [nextStartDelay, hd]
    rfl
  · rw [releaseFor_eq_none (by rw [h]; decide)]
    rfl

/-- In a DEAD island no timer runs. -/
theorem Timed.deadStopped {old : Island} {p : Part} {i : SecId} (h : Timed old p i) (hd : p.islands[i].condition = .dead) :
    DeadStopped p.islands[i] := by
  obtain ⟨ho, hs, hk⟩ := next_of_dead (old := old) hd
  exact ⟨hd, h.overload.trans ho, h.startDelay.trans hs, h.releaseHold.trans hk⟩

theorem DeadStopped.timed {p : Part} {i : SecId} (h : DeadStopped p.islands[i]) (old : Island) : Timed old p i := by
  obtain ⟨hd, ho, hs, hk⟩ := h
  obtain ⟨hno, hns, hnk⟩ := next_of_dead (old := old) hd
  exact ⟨ho.trans hno.symm, hs.trans hns.symm, hk.trans hnk.symm⟩

theorem DeadStopped.congr {r t : Island} (h : DeadStopped r) (k : SameStanding r t) : DeadStopped t := by
  obtain ⟨hd, ho, hs, hk⟩ := h
  exact ⟨k.condition.trans hd, k.overload.trans ho, k.startDelay.trans hs, k.releaseHold.trans hk⟩

/-- The timers of a DEAD island stay stopped. -/
theorem DeadStopped.syncTimers {p : Part} {i : SecId} (h : DeadStopped p.islands[i]) :
    DeadStopped (syncTimers i p).islands[i] := by
  obtain ⟨-, hc, -⟩ := syncTimers_marks i p
  cases hr : isRunning p
  · rw [syncTimers_record_idle i hr]
    exact ⟨h.condition, rfl, rfl, rfl⟩
  · exact (timed_syncTimers i hr).deadStopped (hc.trans h.condition)

/-- An update of a DEAD island that no generator carries leaves it DEAD. -/
theorem DeadStopped.retotal {p : Part} {i : SecId} (h : DeadStopped p.islands[i]) (hc : carrying p i = []) :
    DeadStopped (retotal i p).islands[i] := by
  refine DeadStopped.syncTimers (p := setIsland i _ p) ?_
  rw [setIsland_islands, setAt_same]
  exact ⟨if_pos hc, h.stopped⟩

end Sys2Proof.Machine
end

section
/-! PROOFS. The sequencer's work in an island leaves it standing by its members, with the same carriers and its timers
following from those it had (R45, R71, R75, R76). -/

namespace Sys2Proof.Machine

/-! ## The marks of an entry and the share unit -/

/-- The marks of an entry clear the standby-exhausted mark, and set no EXHAUSTED (R47, R79, R119). -/
theorem enterMarks_record (i : SecId) (p : Part) : ∃ x n,
    (enterMarks i p).islands[i] = { p.islands[i] with standbyExhausted := false, exhausted := x, need := n } ∧
      (p.islands[i].exhausted = false → p.islands[i].need = 0#20 → x = false ∧ n = 0#20) := by
  unfold enterMarks
  simp only []
  split
  · exact ⟨false, 0#20, by rw [setIsland_islands, setAt_same], fun _ _ => ⟨rfl, rfl⟩⟩
  · exact ⟨false, 0#20, by rw [setIsland_islands, setAt_same], fun _ _ => ⟨rfl, rfl⟩⟩
  · exact ⟨_, _, by rw [setIsland_islands, setAt_same], fun he hn => ⟨he, hn⟩⟩
  · exact ⟨_, _, by simp only [setAtt_frame, setIsland_islands, setAt_same], fun he hn => ⟨he, hn⟩⟩

theorem enterMarks_standing (i : SecId) (p : Part) : SameStanding p.islands[i] (enterMarks i p).islands[i] := by
  obtain ⟨x, n, e, -⟩ := enterMarks_record i p
  rw [e]
  exact ⟨rfl, rfl, rfl, rfl, rfl, rfl⟩

/-- The computation of the targets writes the no-sharer mark of the record alone (R89). -/
theorem computeTargets_record (i : SecId) (forced : Option GenId) (p : Part) :
    ∃ b, (computeTargets i forced p).islands[i] = { p.islands[i] with noSharer := b } := by
  have hmark : (judgeNoSharer i (dropReachedCaps i p)).islands[i]
      = { p.islands[i] with noSharer := lacksSharer (dropReachedCaps i p) i } := by
    unfold judgeNoSharer
    simp only []
    split <;> simp only [setAtt_frame, setIsland_islands, setAt_same, dropReachedCaps_frame]
  exact ⟨_, (foldl_keep (fun q : Part => q.islands[i]) _ _ _ fun q a => by simp only [offerTarget_frame]).trans hmark⟩

theorem computeTargets_standing (i : SecId) (forced : Option GenId) (p : Part) :
    SameStanding p.islands[i] (computeTargets i forced p).islands[i] := by
  obtain ⟨b, hb⟩ := computeTargets_record i forced p
  rw [hb]
  exact ⟨rfl, rfl, rfl, rfl, rfl, rfl⟩

/-- After a change of a generator its island stands as its update leaves it. -/
theorem afterGenInner_standing {i : SecId} {g : GenId} (forced : Option GenId) {p : Part} (hg : genIsland p g = some i) :
    SameStanding (retotal i p).islands[i] (afterGenInner g forced p).islands[i] := by
  have htargets := computeTargets_standing i forced (retotal i p)
  simp only [afterGenInner, hg]
  split
  · exact htargets.trans (enterMarks_standing i _)
  · exact htargets

/-! ## The conditions that the carriers decide (R46) -/

theorem conditionOf_dead_iff (p : Part) (i : SecId) (t : Totals) : conditionOf p i t = .dead ↔ carrying p i = [] := by
  unfold conditionOf
  split
  · simp_all
  · split
    · simp_all
    · split <;> simp_all

theorem conditionOf_overloaded_iff (p : Part) (i : SecId) (t : Totals) :
    conditionOf p i t = .overloaded ↔ carrying p i ≠ [] ∧ t.limit < expectedLoad t := by
  unfold conditionOf
  split
  · simp_all
  · split
    · simp_all
    · split <;> simp_all

/-- The same carriers give DEAD, and OVERLOADED, alike. -/
theorem SameCarriers.condition_iff {i : SecId} {p q : Part} (h : SameCarriers i p q) :
    (conditionOf q i (totalsOf q i) = .dead ↔ conditionOf p i (totalsOf p i) = .dead) ∧
      (conditionOf q i (totalsOf q i) = .overloaded ↔ conditionOf p i (totalsOf p i) = .overloaded) := by
  simp only [conditionOf_dead_iff, conditionOf_overloaded_iff, expectedLoad, h.carrying, h.limit, h.load, h.openingCredit,
    and_self]

/-! ## An island poised for its entry -/

/-- An island that stands by its members, its timers following from those of `old`; where those ran, it is DEAD or
OVERLOADED. -/
structure Poised (old : Island) (i : SecId) (p : Part) : Prop where
  running : isRunning p = true
  stands : islandStands p i
  timed : Timed old p i
  lasting : Stopped old ∨ p.islands[i].condition = .dead ∨ p.islands[i].condition = .overloaded

/-- A change in which an island's carriers stand, and a poised island stays poised. -/
structure Sequenced (i : SecId) (p q : Part) : Prop extends SameCarriers i p q where
  poised : ∀ old, Poised old i p → Poised old i q

theorem Sequenced.refl (i : SecId) (p : Part) : Sequenced i p p := ⟨.refl i p, fun _ h => h⟩

theorem Sequenced.trans {i : SecId} {p q r : Part} (h : Sequenced i p q) (k : Sequenced i q r) : Sequenced i p r :=
  ⟨h.toSameCarriers.trans k.toSameCarriers, fun old ho => k.poised old (h.poised old ho)⟩

/-- A change that leaves the island's members and the standing that its record holds. -/
theorem Sequenced.of_standing {i : SecId} {p q : Part} (hv : IslandView i p q)
    (hr : SameStanding p.islands[i] q.islands[i]) : Sequenced i p q where
  toSameCarriers := hv.sameCarriers
  poised old ho := ⟨by rw [hv.running]; exact ho.running, hv.islandStands ho.stands hr,
    ho.timed.congr hr hv.plans hv.ms hv.entries, by rw [hr.condition]; exact ho.lasting⟩

theorem Spares.sequenced {i : SecId} {p q : Part} (h : Spares i p q) : Sequenced i p q :=
  .of_standing h.toIslandView h.standing

theorem Sequenced.fold {α : Type} {i : SecId} {f : Part → α → Part} (l : List α) (p : Part)
    (h : ∀ q, Sequenced i p q → ∀ a ∈ l, Sequenced i q (f q a)) : Sequenced i p (l.foldl f p) :=
  foldl_keeps (Sequenced i p) f l p (.refl i p) fun q a ha hq => hq.trans (h q hq a ha)

/-- An update of an island after a change in which its carriers stand. -/
theorem Sequenced.of_retotal {i : SecId} {p q r : Part} (h : SameCarriers i p q)
    (hq : SameStanding p.islands[i] q.islands[i]) (hr : SameStanding (retotal i q).islands[i] r.islands[i])
    (hv : IslandView i (retotal i q) r) : Sequenced i p r where
  toSameCarriers := (h.trans (IslandView.sameCarriers ⟨.of_eq i (by simp), by simp⟩)).trans hv.sameCarriers
  poised old ho := by
    obtain ⟨⟨-, hcondition⟩, hheld⟩ := ho.stands
    obtain ⟨-, hnow, -⟩ := retotal_record i q
    obtain ⟨hdead, hover⟩ := h.condition_iff
    rw [← hcondition] at hdead hover
    have hlasting : Stopped old ∨
        conditionOf q i (totalsOf q i) = p.islands[i].condition ∧ p.islands[i].condition ≠ .sound := by
      refine ho.lasting.imp_right fun hc => hc.elim (fun hc => ?_) fun hc => ?_
      · rw [hdead.mpr hc, hc]
        decide
      · rw [hover.mpr hc, hc]
        decide
    have htimed : Timed old (retotal i q) i :=
      ho.timed.retotal (by rw [h.running]; exact ho.running) h.plans h.ms hq (by rw [hheld, h.heldOf]) hlasting
    refine ⟨?_, hv.islandStands (islandStands_retotal i q) hr, htimed.congr hr hv.plans hv.ms hv.entries, ?_⟩
    · rw [hv.running, ← ho.running, ← h.running]
      simp [isRunning]
    · rw [hr.condition, hnow]
      exact ho.lasting.imp_right (Or.imp hdead.mpr hover.mpr)

/-! ## The sequencer's operations -/

/-- A generator replaced by one that carries load as it did. -/
theorem sameCarriers_setGen {i : SecId} {g : GenId} {e : Gen} {p q : Part} (hv : LadderView i p q)
    (hg : q.gens = setAt p.gens g e) (he : carries e.state = carries (genState p g)) : SameCarriers i p q where
  toLadderView := hv
  carry h _ := by
    rw [genState, genState, hg, setAt_get]
    split
    · next e => rw [← e]; exact he
    · rfl

theorem sequenced_afterGenInner {i : SecId} {g : GenId} (forced : Option GenId) {p q : Part} (h : SameCarriers i p q)
    (hr : SameStanding p.islands[i] q.islands[i]) (hg : genIsland q g = some i) :
    Sequenced i p (afterGenInner g forced q) :=
  .of_retotal h hr (afterGenInner_standing forced hg) ⟨.of_eq i (by simp), by simp⟩

/-- The abort of an UNLOADING generator, which carried load and carries on (R71). -/
theorem sequenced_abortUnloading {i : SecId} {g : GenId} (cause : AbortCause) {p : Part} (hg : genIsland p g = some i)
    (hs : genState p g = .unloading) : Sequenced i p (abortUnloading g cause p) := by
  unfold abortUnloading
  simp only []
  refine sequenced_afterGenInner (some g) (sameCarriers_setGen (g := g) (e := { Gen.init with state := .online })
    (.of_eq i ?_) ?_ (by rw [hs]; rfl)) ?_ ?_
  · split <;> simp
  · split <;> simp [changeState_gens]
  · split <;> simp only [setAtt_frame, noticeGen_frame, giveGen_frame, changeState_frame] <;> exact .refl _
  · rw [← hg]
    split <;> simp [genIsland]

/-- The start of an IDLE generator, which carries no load yet (R76). -/
theorem sequenced_startGenerator {i : SecId} {g : GenId} (auto : Bool) (cause : StartCause) {p : Part}
    (hg : genIsland p g = some i) (hs : genState p g = .idle) : Sequenced i p (startGenerator g auto cause p) := by
  unfold startGenerator
  refine sequenced_afterGenInner none (sameCarriers_setGen (g := g) (e := startingGen auto cause p)
    (.of_eq i (by simp)) (by simp [changeState_gens, startingGen]) (by rw [hs]; rfl)) ?_ ?_
  · simp only [noticeGenState_frame, giveGen_frame, changeState_frame]
    exact .refl _
  · rw [← hg]
    simp [genIsland]

theorem sequenced_enterMarks (i : SecId) (p : Part) : Sequenced i p (enterMarks i p) :=
  .of_standing ⟨.of_eq i (by simp), by simp⟩ (enterMarks_standing i p)

/-- The UNLOADING generators of the island that meet a test, aborted in turn. -/
theorem sequenced_aborts (i : SecId) (p : Part) (cause : AbortCause) (test : Part → Bool) :
    Sequenced i p (allGens.foldl (fun q g =>
      if genIn q i g && genState q g == .unloading && test q then abortUnloading g cause q else q) p) := by
  refine .fold _ p fun q _ g _ => ?_
  split
  · next h =>
    simp only [Bool.and_eq_true, beq_iff_eq] at h
    obtain ⟨⟨hin, hs⟩, -⟩ := h
    exact sequenced_abortUnloading cause (by simpa [genIn] using hin) hs
  · exact .refl i q

theorem sequenced_abortAll (i : SecId) (cause : AbortCause) (p : Part) : Sequenced i p (abortAll i cause p) := by
  simpa only [Bool.and_true, abortAll] using sequenced_aborts i p cause fun _ => true

theorem sequenced_recheckStops (i : SecId) (p : Part) : Sequenced i p (recheckStops i p) := by
  unfold recheckStops
  split
  · exact sequenced_aborts i p .partition fun q => q.islands[i].condition != .sound
  · exact .refl i p

/-! ## The standby start (R76, R78) -/

/-- Whether a generator may be started on standby: an IDLE one of the island with a rank (R76). -/
def isStandby (p : Part) (i : SecId) (h : GenId) : Prop :=
  genIsland p h = some i ∧ p.gens[h].state = .idle ∧ genRank p h ≠ 0

/-- Of a list of the island's generators, the first of the lowest rank that may be started, if there is one. -/
def IsCandidate (p : Part) (i : SecId) (l : List GenId) (best : Option GenId) : Prop :=
  (best = none → ∀ k ∈ l, ¬isStandby p i k) ∧
    ∀ g, best = some g → isStandby p i g ∧ ∀ k ∈ l, isStandby p i k → genRank p g ≤ genRank p k

/-- One more generator that may not be started. -/
theorem IsCandidate.skip {p : Part} {i : SecId} {l : List GenId} {best : Option GenId} {g : GenId}
    (h : IsCandidate p i l best) (hg : ¬isStandby p i g) : IsCandidate p i (l ++ [g]) best := by
  obtain ⟨hnone, hsome⟩ := h
  refine ⟨fun hb => List.forall_mem_append.mpr ⟨hnone hb, by simpa using hg⟩, fun b hb => ⟨(hsome b hb).1, ?_⟩⟩
  exact List.forall_mem_append.mpr ⟨(hsome b hb).2, by simpa using fun hs => absurd hs hg⟩

/-- One more generator that may be started, of a rank below those that stood before it. -/
theorem IsCandidate.lower {p : Part} {i : SecId} {l : List GenId} {g : GenId} (hg : isStandby p i g)
    (h : ∀ k ∈ l, isStandby p i k → genRank p g ≤ genRank p k) : IsCandidate p i (l ++ [g]) (some g) := by
  refine ⟨nofun, fun b hb => ?_⟩
  obtain rfl := Option.some.inj hb
  exact ⟨hg, List.forall_mem_append.mpr ⟨h, by simp⟩⟩

/-- One more generator, of a rank no lower than the one found before it. -/
theorem IsCandidate.keep {p : Part} {i : SecId} {l : List GenId} {b g : GenId} (h : IsCandidate p i l (some b))
    (hr : genRank p b ≤ genRank p g) : IsCandidate p i (l ++ [g]) (some b) := by
  obtain ⟨hb, hlow⟩ := h.2 b rfl
  refine ⟨nofun, fun c hc => ?_⟩
  obtain rfl := Option.some.inj hc
  exact ⟨hb, List.forall_mem_append.mpr ⟨hlow, by simpa using fun _ => hr⟩⟩

theorem standbyCandidate_isCandidate (p : Part) (i : SecId) : IsCandidate p i (gensOf p i) (standbyCandidate p i) := by
  have hin : ∀ g ∈ gensOf p i, genIsland p g = some i := fun g hg => by
    simpa [gensOf, genIn, allGens] using hg
  unfold standbyCandidate
  generalize gensOf p i = l at hin ⊢
  induction l using List.reverseRecOn with
  | nil => exact ⟨fun _ k hk => absurd hk List.not_mem_nil, nofun⟩
  | append_singleton l g ih =>
    have hbest := ih fun k hk => hin k (List.mem_append_left _ hk)
    have hg : isStandby p i g ↔ genState p g = .idle ∧ genRank p g ≠ 0 :=
      and_iff_right (hin g (List.mem_append_right _ List.mem_cons_self))
    rw [List.foldl_append, List.foldl_cons, List.foldl_nil]
    generalize List.foldl _ none l = best at hbest ⊢
    by_cases hstandby : isStandby p i g
    · rw [if_pos (hg.mp hstandby)]
      cases best with
      | none => exact .lower hstandby fun k hk hs => absurd hs (hbest.1 rfl k hk)
      | some b =>
        simp only []
        split
        · next hlt => exact .lower hstandby fun k hk hs => hlt.le.trans ((hbest.2 b rfl).2 k hk hs)
        · next hge => exact hbest.keep (Nat.le_of_not_lt hge)
    · rw [if_neg (hg.not.mp hstandby)]
      exact hbest.skip hstandby

/-- Whether a generator of the island is STARTING. -/
def startingIn (p : Part) (i : SecId) : Prop := ∃ h, genIsland p h = some i ∧ p.gens[h].state = .starting

theorem anyStarting_iff (p : Part) (i : SecId) : anyStarting p i = true ↔ startingIn p i := by
  simp [startingIn, anyStarting, gensOf, genIn, genState, allGens]

theorem mem_gensOf {p : Part} {i : SecId} {g : GenId} : g ∈ gensOf p i ↔ genIsland p g = some i := by
  simp [gensOf, genIn, allGens]

/-- The generator of the lowest rank among those that may be started is the candidate. -/
theorem standbyCandidate_eq_some {p : Part} {i : SecId} {h : GenId} (hs : isStandby p i h)
    (hlow : ∀ k, isStandby p i k → k ≠ h → genRank p h < genRank p k) : standbyCandidate p i = some h := by
  obtain ⟨hnone, hsome⟩ := standbyCandidate_isCandidate p i
  have hmem := mem_gensOf.mpr hs.1
  cases hc : standbyCandidate p i with
  | none => exact absurd hs (hnone hc h hmem)
  | some g =>
    obtain ⟨hg, hmin⟩ := hsome g hc
    by_contra hne
    have hlt := hlow g hg fun e => hne (congrArg some e)
    exact absurd (hmin h hmem hs) (Nat.not_le.mpr hlt)

/-- Without a generator that may be started there is no candidate. -/
theorem standbyCandidate_eq_none {p : Part} {i : SecId} (h : ∀ k, ¬isStandby p i k) : standbyCandidate p i = none := by
  cases hc : standbyCandidate p i with
  | none => rfl
  | some g => exact absurd ((standbyCandidate_isCandidate p i).2 g hc).1 (h g)

theorem sequenced_requestStandby (i : SecId) (cause : StartCause) (p : Part) :
    Sequenced i p (requestStandby i cause p) := by
  unfold requestStandby
  split
  · split
    · next g hg =>
      obtain ⟨hin, hidle, -⟩ := ((standbyCandidate_isCandidate p i).2 g hg).1
      have hcleared : Sequenced i p (setIsland i { p.islands[i] with standbyExhausted := false } p) := by
        refine .of_standing ⟨.of_eq i (by simp), by simp⟩ ?_
        rw [setIsland_islands, setAt_same]
        exact ⟨rfl, rfl, rfl, rfl, rfl, rfl⟩
      refine hcleared.trans (sequenced_startGenerator true cause ?_ hidle)
      rw [hcleared.genIsland, hin]
    · unfold noStandby
      split
      · exact .refl i p
      · refine .of_standing ⟨.of_eq i (by simp), by simp⟩ ?_
        rw [setIsland_islands, setAt_same]
        exact ⟨rfl, rfl, rfl, rfl, rfl, rfl⟩
  · exact .refl i p

theorem sequenced_enterSequencer (i : SecId) (c : Condition) (p : Part) : Sequenced i p (enterSequencer i c p) := by
  unfold enterSequencer
  split
  · cases c with
    | overloaded => exact sequenced_abortAll i .overload p
    | dead => exact sequenced_requestStandby i .dead p
    | sound | short => exact .refl i p
  · exact .refl i p

end Sys2Proof.Machine
end

section
/-! PROOFS. The ladder's work in an island: the entries it appends, and what it leaves of the island's standing (R100 to
R105, R110, R111, R119). -/

namespace Sys2Proof.Machine

/-! ## An island whose shed list grows -/

/-- The carriers of an island rest on the generators, the copies and the plan. -/
theorem carriers_congr {p q : Part} (himg : q.img = p.img) (hplans : q.plans = p.plans) (hgens : q.gens = p.gens)
    (i : SecId) : carrying q i = carrying p i ∧ heldOf q i = heldOf p i := by
  have hc : carrying q i = carrying p i := by
    simp only [carrying, genIn, (islandsOf_congr himg hplans).1, genState, hgens]
  exact ⟨hc, by simp only [heldOf, hc, himg]⟩

/-- A change that appends entries to an island and moves no generator: timers that followed follow on, and a DEAD island
stays DEAD. -/
structure Sheds (i : SecId) (new : List ShedEntry) (p q : Part) : Prop where
  img : q.img = p.img
  plans : q.plans = p.plans
  ms : q.ms = p.ms
  gens : q.gens = p.gens
  entries : entriesOf q i = entriesOf p i ++ new
  timed : isRunning p = true → p.islands[i].held = heldOf p i → ∀ old, Stopped old → Timed old p i →
    q.islands[i].held = heldOf q i ∧ Timed old q i
  dead : carrying p i = [] → DeadStopped p.islands[i] →
    DeadStopped q.islands[i] ∧ q.islands[i].standbyExhausted = p.islands[i].standbyExhausted

theorem Sheds.refl (i : SecId) (p : Part) : Sheds i [] p p :=
  ⟨rfl, rfl, rfl, rfl, (List.append_nil _).symm, fun _ hh _ _ ht => ⟨hh, ht⟩, fun _ hd => ⟨hd, rfl⟩⟩

theorem Sheds.trans {i : SecId} {new more : List ShedEntry} {p q r : Part} (h : Sheds i new p q) (k : Sheds i more q r) :
    Sheds i (new ++ more) p r where
  img := k.img.trans h.img
  plans := k.plans.trans h.plans
  ms := k.ms.trans h.ms
  gens := k.gens.trans h.gens
  entries := by rw [k.entries, h.entries, List.append_assoc]
  timed hr hh old ho ht := by
    obtain ⟨hh', ht'⟩ := h.timed hr hh old ho ht
    exact k.timed (by rw [isRunning, h.plans]; exact hr) hh' old ho ht'
  dead hc hd := by
    obtain ⟨hd', hs⟩ := h.dead hc hd
    obtain ⟨hd'', hs'⟩ := k.dead (by rw [(carriers_congr h.img h.plans h.gens i).1, hc]) hd'
    exact ⟨hd'', hs'.trans hs⟩

/-- An entry appended for a target of the island, the release condition judged again (R103, R104, R123). -/
theorem Sheds.of_sync {i : SecId} {e : ShedEntry} {p q : Part} (himg : q.img = p.img) (hplans : q.plans = p.plans)
    (hms : q.ms = p.ms) (hgens : q.gens = p.gens) (hlist : q.shedList = p.shedList ++ [e])
    (ht : targetIsland p e.target = some i)
    (hr : q.islands[i] = (syncTimers i (appendEntry e p)).islands[i]) : Sheds i [e] p q where
  img := himg
  plans := hplans
  ms := hms
  gens := hgens
  entries := by rw [entriesOf_append himg hplans hlist, if_pos ht]
  timed hrun hheld old ho htimed := by
    obtain ⟨-, -, hh, -⟩ := syncTimers_marks i (appendEntry e p)
    have hnow : Timed old (syncTimers i (appendEntry e p)) i :=
      htimed.syncTimers (q := appendEntry e p) hrun rfl rfl rfl rfl rfl rfl (.inl ho)
    refine ⟨?_, hnow.congr (by rw [hr]; exact .refl _) (by rw [hplans]; simp) (by rw [hms]; simp) ?_⟩
    · rw [hr, hh, (carriers_congr himg hplans hgens i).2]
      exact hheld
    · exact entriesOf_congr (by rw [himg]; simp) (by rw [hplans]; simp) (by rw [hlist]; simp) i
  dead _ hd := by
    obtain ⟨-, -, -, -, -, hs⟩ := syncTimers_marks i (appendEntry e p)
    rw [hr, hs]
    exact ⟨DeadStopped.syncTimers (p := appendEntry e p) hd, rfl⟩

/-- An update leaves a record that stands as the totals formed afresh give it. -/
theorem updateInner_standing (i : SecId) (p : Part) :
    SameStanding (retotal i p).islands[i] (updateInner i p).islands[i] := by
  unfold updateInner
  simp only []
  split
  · exact enterMarks_standing i _
  · exact .refl _

/-- In a DEAD island that no generator carries an update enters nothing. -/
theorem updateInner_dead {i : SecId} {p : Part} (hd : DeadStopped p.islands[i]) (hc : carrying p i = []) :
    updateInner i p = retotal i p := by
  have hsame : entered i p (retotal i p) = false := by
    rw [entered, hd.condition, (hd.retotal hc).condition]
    rfl
  simp only [updateInner, hsame, Bool.false_eq_true, if_false]

/-- An entry appended for a target of the island, and the island's update (R102). -/
theorem Sheds.of_update {i : SecId} {e : ShedEntry} {p q : Part} (himg : q.img = p.img) (hplans : q.plans = p.plans)
    (hms : q.ms = p.ms) (hgens : q.gens = p.gens) (hlist : q.shedList = p.shedList ++ [e])
    (ht : targetIsland p e.target = some i)
    (hr : q.islands[i] = (updateInner i (appendEntry e p)).islands[i]) : Sheds i [e] p q where
  img := himg
  plans := hplans
  ms := hms
  gens := hgens
  entries := by rw [entriesOf_append himg hplans hlist, if_pos ht]
  timed hrun hheld old ho htimed := by
    have hheldOf := (carriers_congr (p := p) (q := appendEntry e p) rfl rfl rfl i).2
    have hstanding := updateInner_standing i (appendEntry e p)
    have hnow : Timed old (retotal i (appendEntry e p)) i :=
      htimed.retotal (q := appendEntry e p) hrun rfl rfl (.refl _) (by rw [hheldOf, hheld]) (.inl ho)
    refine ⟨?_, hnow.congr (by rw [hr]; exact hstanding) (by rw [hplans]; simp) (by rw [hms]; simp) ?_⟩
    · rw [hr, hstanding.held, (retotal_record i _).2.2, hheldOf, (carriers_congr himg hplans hgens i).2]
    · exact entriesOf_congr (by rw [himg]; simp) (by rw [hplans]; simp) (by rw [hlist]; simp) i
  dead hc hd := by
    have hc' : carrying (appendEntry e p) i = [] := hc
    have hd' : DeadStopped (appendEntry e p).islands[i] := hd
    rw [hr, updateInner_dead hd' hc', (retotal_marks i _).2.2]
    exact ⟨hd'.retotal hc', rfl⟩

/-! ## The shed transactions (R102 to R104) -/

theorem sheds_shedConsumer {i : SecId} {c : ConsId} (cause : ShedCause) (credit : Nat) {p : Part}
    (hc : consIsland p c = some i) :
    Sheds i [⟨.cons c, cause, credit, p.ms, .opening (after p.ms (consTimeout p c))⟩] p
      (shedConsumer c cause credit p) := by
  refine .of_update (by simp) (by simp) (by simp) (by simp) (shedConsumer_tables ..).1 hc ?_
  have hislands : (shedConsumer c cause credit p).islands = (updateInner i
      (appendEntry ⟨.cons c, cause, credit, p.ms, .opening (after p.ms (consTimeout p c))⟩ p)).islands := by
    simp [shedConsumer, hc, updateInnerOf]
  rw [hislands]

theorem sheds_shedDrive {i : SecId} {d : DriveId} (cause : ShedCause) (credit cut : Nat) {p : Part}
    (hd : driveIsland p d = some i) :
    Sheds i [⟨.drive d, cause, credit, p.ms, .held⟩] p (shedDrive d cause credit cut p) := by
  refine .of_sync (by simp) (by simp) (by simp) (by simp) (shedDrive_tables ..).1 hd ?_
  have hislands : (shedDrive d cause credit cut p).islands
      = (syncTimers i (appendEntry ⟨.drive d, cause, credit, p.ms, .held⟩ p)).islands := by
    simp [shedDrive, hd, judgeReleaseOf]
  rw [hislands]

theorem sheds_reshed {i : SecId} {c : ConsId} {p : Part} (hc : consIsland p c = some i) :
    Sheds i [⟨.cons c, .restoreCancel, 0, p.ms, .held⟩] p (reshed c p) := by
  refine .of_sync (by simp) (by simp) (by simp) (by simp) (reshed_tables ..).1 hc ?_
  have hislands : (reshed c p).islands
      = (syncTimers i (appendEntry ⟨.cons c, .restoreCancel, 0, p.ms, .held⟩ p)).islands := by
    simp [reshed, hc, judgeReleaseOf]
  rw [hislands]

/-- Where a target lies, after entries are appended. -/
theorem Sheds.targetIsland {i : SecId} {new : List ShedEntry} {p q : Part} (h : Sheds i new p q) (t : Target) :
    targetIsland q t = targetIsland p t := by
  rw [(islandsOf_congr h.img h.plans).2.2.2]

/-- The first group re-shed: an entry without credit for each consumer (R105). -/
theorem sheds_reshedAll {i : SecId} (ts : List Target) {p : Part} (h : ∀ t ∈ ts, ∃ c, t = .cons c ∧ consIsland p c = some i) :
    ∃ new, Sheds i new p (reshedAll ts p) ∧ (new.map ShedEntry.credit).sum = 0 ∧ new.map ShedEntry.target = ts := by
  induction ts generalizing p with
  | nil => exact ⟨[], .refl i p, rfl, rfl⟩
  | cons t ts ih =>
    obtain ⟨c, rfl, hc⟩ := h t List.mem_cons_self
    have hfirst := sheds_reshed hc
    obtain ⟨new, hnew, hcredit, htargets⟩ := ih (p := reshed c p) fun u hu => by
      obtain ⟨x, rfl, hx⟩ := h u (List.mem_cons_of_mem _ hu)
      exact ⟨x, rfl, (hfirst.targetIsland (.cons x)).trans hx⟩
    exact ⟨_, hfirst.trans hnew, by simp [hcredit], by simp [htargets]⟩

/-- The first group are consumers of the island. -/
theorem cons_of_mem_restoringOf {p : Part} {i : SecId} {t : Target} (h : t ∈ restoringOf p i) :
    ∃ c, t = .cons c ∧ consIsland p c = some i := by
  obtain ⟨c, -, rfl⟩ := List.mem_map.mp (mem_of_mem_sortByKey h)
  exact ⟨c, rfl, targetIsland_of_mem_restoringOf h⟩

/-! ## The walk of a step (R105, R119) -/

/-- A candidate taken gives the entry that covers what the need falls by, or none and the need stands (R101). -/
theorem sheds_takeCandidate {i : SecId} (cause : ShedCause) {t : Target} (need : Int) {p : Part}
    (ht : targetIsland p t = some i) :
    ∃ new, Sheds i new p (takeCandidate cause t need p).2 ∧
      (takeCandidate cause t need p).1 = need - ((new.map ShedEntry.credit).sum : Nat) := by
  cases t with
  | cons c => exact ⟨_, sheds_shedConsumer cause _ ht, by simp [takeCandidate]⟩
  | drive d =>
    simp only [takeCandidate]
    split
    · exact ⟨[], .refl i p, by simp⟩
    · exact ⟨_, sheds_shedDrive cause _ _ ht, by simp⟩

theorem sheds_walkCandidates {i : SecId} (cause : ShedCause) (ts : List Target) (need : Int) {p : Part}
    (h : ∀ t ∈ ts, targetIsland p t = some i) :
    ∃ new, Sheds i new p (walkCandidates cause ts need p).2 ∧
      (walkCandidates cause ts need p).1 = need - ((new.map ShedEntry.credit).sum : Nat) := by
  induction ts generalizing need p with
  | nil => exact ⟨[], .refl i p, by simp [walkCandidates]⟩
  | cons t ts ih =>
    rw [walkCandidates]
    split
    · exact ⟨[], .refl i p, by simp⟩
    · obtain ⟨first, hfirst, hneed⟩ := sheds_takeCandidate cause need (h t List.mem_cons_self)
      obtain ⟨rest, hrest, hleft⟩ := ih (takeCandidate cause t need p).1 fun u hu =>
        (hfirst.targetIsland u).trans (h u (List.mem_cons_of_mem t hu))
      refine ⟨_, hfirst.trans hrest, ?_⟩
      rw [hleft, hneed, List.map_append, List.sum_append]
      omega

/-- A met step clears EXHAUSTED and the remaining need. -/
theorem stepMet_record (i : SecId) (p : Part) :
    (stepMet i p).islands[i] = { p.islands[i] with exhausted := false, need := 0#20 } := by
  rw [stepMet, setIsland_islands, setAt_same]

/-- An unmet step sets EXHAUSTED and holds the remaining need. -/
theorem stepUnmet_record (i : SecId) (cause : ShedCause) (need : Nat) (p : Part) :
    (stepUnmet i cause need p).islands[i] = { p.islands[i] with exhausted := true, need := heldNeed p need } := by
  have hislands : (stepUnmet i cause need p).islands
      = setAt p.islands i { p.islands[i] with exhausted := true, need := heldNeed p need } := by
    unfold stepUnmet
    simp only []
    split
    · rfl
    · simp only [setAtt_frame, queueNotice_frame, setIsland_islands]
  rw [hislands, setAt_same]

theorem stepMet_outcome {i : SecId} {need : Int} {new : List ShedEntry} (p : Part)
    (hmet : need ≤ ((new.map ShedEntry.credit).sum : Nat)) (hnone : need ≤ 0 → new = []) :
    stepOutcome (stepMet i p) i need new := by
  unfold stepOutcome
  rw [stepMet_record]
  exact ⟨hnone, fun _ => ⟨rfl, rfl⟩, fun hshort => absurd hmet (Int.not_le.mpr hshort)⟩

theorem stepUnmet_outcome {i : SecId} {need : Int} {new : List ShedEntry} (cause : ShedCause) (p : Part)
    (hshort : ((new.map ShedEntry.credit).sum : Nat) < need) :
    stepOutcome (stepUnmet i cause (need - ((new.map ShedEntry.credit).sum : Nat)).toNat p) i need new := by
  unfold stepOutcome
  rw [stepUnmet_record]
  refine ⟨fun hle => by omega, fun hmet => absurd hmet (Int.not_le.mpr hshort), fun _ => ⟨rfl, fun hcap => ?_⟩⟩
  exact if_pos (by unfold totalCap; omega)

/-- The end of a step leaves the standing and the entries. -/
theorem Timed.stepEnd {old : Island} {i : SecId} {p : Part} (h : Timed old p i) (cause : ShedCause) (need : Nat) :
    Timed old (stepMet i p) i ∧ Timed old (stepUnmet i cause need p) i := by
  refine ⟨h.congr ?_ (by simp) (by simp) (entriesOf_congr (by simp) (by simp) (by simp) i),
    h.congr ?_ (by simp) (by simp) (entriesOf_congr (by simp) (by simp) (by simp) i)⟩
  · rw [stepMet_record]
    exact ⟨rfl, rfl, rfl, rfl, rfl, rfl⟩
  · rw [stepUnmet_record]
    exact ⟨rfl, rfl, rfl, rfl, rfl, rfl⟩

/-- A shed step of an island whose timers follow from stopped ones: it appends entries, its outcome is the need's beside
their credits, and the timers follow on. -/
theorem shedStep_outcome {old : Island} {i : SecId} (cause : ShedCause) (need : Int) {p : Part} (hr : isRunning p = true)
    (hheld : p.islands[i].held = heldOf p i) (ho : Stopped old) (ht : Timed old p i) :
    ∃ new, entriesOf (shedStep i cause need p) i = entriesOf p i ++ new ∧
      stepOutcome (shedStep i cause need p) i need new ∧ Timed old (shedStep i cause need p) i := by
  unfold shedStep
  by_cases hneed : need ≤ 0
  · rw [if_pos hneed]
    exact ⟨[], (List.append_nil _).symm, stepMet_outcome p hneed fun _ => rfl, (ht.stepEnd cause 0).1⟩
  · rw [if_neg hneed]
    obtain ⟨first, hfirst, hcredit, -⟩ := sheds_reshedAll (restoringOf p i) fun t => cons_of_mem_restoringOf
    obtain ⟨second, hsecond, hleft⟩ := sheds_walkCandidates cause (candidatesOf p i) need fun t h =>
      (hfirst.targetIsland t).trans (targetIsland_of_mem_candidatesOf h)
    have hwalk := hfirst.trans hsecond
    have hsum : ((first ++ second).map ShedEntry.credit).sum = (second.map ShedEntry.credit).sum := by
      rw [List.map_append, List.sum_append, hcredit, Nat.zero_add]
    rw [← hsum] at hleft
    obtain ⟨-, htimed⟩ := hwalk.timed hr hheld old ho ht
    simp only []
    split
    · next hmet =>
      exact ⟨_, hwalk.entries, stepMet_outcome _ (by omega) fun hle => absurd hle hneed, (htimed.stepEnd cause 0).1⟩
    · next hunmet =>
      refine ⟨first ++ second, (entriesOf_congr (by simp) (by simp) (by simp) i).trans hwalk.entries, ?_,
        (htimed.stepEnd cause _).2⟩
      rw [hleft]
      exact stepUnmet_outcome cause _ (by omega)

/-- The split step of a split island that is not DEAD (R110). -/
theorem splitStep_outcome {old : Island} {i : SecId} {p : Part} (hr : isRunning p = true)
    (hheld : p.islands[i].held = heldOf p i) (ho : Stopped old) (ht : Timed old p i) :
    let estimate := splitEstimate p i
    let now := p.islands[i].totals
    Timed old (splitStep i p) i ∧
    (estimate ≤ now.limit → entriesOf (splitStep i p) i = entriesOf p i ∧
      (splitStep i p).islands[i].exhausted = false ∧ (splitStep i p).islands[i].need = 0#20) ∧
    (now.limit < estimate → ∃ new, entriesOf (splitStep i p) i = entriesOf p i ++ new ∧
      stepOutcome (splitStep i p) i ((estimate : Int) - (now.limit : Int) + (p.header.shedMargin : Int)
        - (now.openingCredit : Int)) new) := by
  intro estimate now
  unfold splitStep
  simp only []
  by_cases hmet : estimate ≤ now.limit
  · rw [if_pos hmet, stepMet_record]
    exact ⟨(ht.stepEnd .tieOpen 0).1, fun _ => ⟨rfl, rfl, rfl⟩, fun hlt => absurd hmet (Nat.not_le.mpr hlt)⟩
  · rw [if_neg hmet]
    obtain ⟨new, hentries, houtcome, htimed⟩ := shedStep_outcome .tieOpen
      ((estimate : Int) - (now.limit : Int) + (p.header.shedMargin : Int) - (now.openingCredit : Int)) hr hheld ho ht
    exact ⟨htimed, fun hle => absurd hle hmet, fun _ => ⟨new, hentries, houtcome⟩⟩

end Sys2Proof.Machine
end

section
/-! PROOFS. The dead shed of an island that no generator carries, and its standby start (R75, R76, R78, R111). -/

namespace Sys2Proof.Machine

/-! ## Every candidate taken (R111, steps 1 and 2) -/

/-- A target of the island has an entry where one of the island's entries is the target's. -/
theorem hasEntry_iff {p : Part} {i : SecId} {t : Target} (ht : targetIsland p t = some i) :
    hasEntry p t = true ↔ t ∈ (entriesOf p i).map ShedEntry.target := by
  simp only [hasEntry, List.any_eq_true, beq_iff_eq, entriesOf, List.mem_map, List.mem_filter]
  constructor
  · rintro ⟨e, he, rfl⟩
    exact ⟨e, ⟨he, ht⟩, rfl⟩
  · rintro ⟨e, ⟨he, -⟩, rfl⟩
    exact ⟨e, he, rfl⟩

/-- A target of the island has an entry after entries are appended where it had one, or where one of them is its. -/
theorem Sheds.hasEntry_iff {i : SecId} {new : List ShedEntry} {p q : Part} (h : Sheds i new p q) {t : Target}
    (ht : Machine.targetIsland p t = some i) :
    hasEntry q t = true ↔ hasEntry p t = true ∨ t ∈ new.map ShedEntry.target := by
  rw [Machine.hasEntry_iff ((h.targetIsland t).trans ht), Machine.hasEntry_iff ht, h.entries, List.map_append,
    List.mem_append]

/-- The second group taken whole, a consumer with its credit basis and a drive cut to its floor. -/
theorem sheds_deadTakes {i : SecId} (ts : List Target) {p : Part} (h : ∀ t ∈ ts, targetIsland p t = some i) :
    ∃ new, Sheds i new p (ts.foldl deadTake p) ∧ new.map ShedEntry.target = ts := by
  induction ts generalizing p with
  | nil => exact ⟨[], .refl i p, rfl⟩
  | cons t ts ih =>
    have hfirst : ∃ e, Sheds i [e] p (deadTake p t) ∧ e.target = t := by
      cases t with
      | cons c => exact ⟨_, sheds_shedConsumer .dead _ (h _ List.mem_cons_self), rfl⟩
      | drive d => exact ⟨_, sheds_shedDrive .dead _ _ (h _ List.mem_cons_self), rfl⟩
    obtain ⟨e, he, rfl⟩ := hfirst
    obtain ⟨new, hnew, htargets⟩ := ih (p := deadTake p e.target) fun u hu =>
      (he.targetIsland u).trans (h u (List.mem_cons_of_mem _ hu))
    exact ⟨_, he.trans hnew, by simp [htargets]⟩

/-! ## The drives lowered to their floors (R111, step 3) -/

/-- Lowering a drive leaves which targets have entries, raises no cut limit, and leaves a DEAD island DEAD. -/
theorem deadLower_keeps (i : SecId) (p : Part) (d : DriveId) :
    (∀ t, hasEntry (deadLower i p d) t = hasEntry p t) ∧
      (∀ x : DriveId, (deadLower i p d).drives[x].cutLimit ≤ p.drives[x].cutLimit) ∧
      (DeadStopped p.islands[i] → DeadStopped (deadLower i p d).islands[i]) ∧
      (deadLower i p d).islands[i].standbyExhausted = p.islands[i].standbyExhausted := by
  cases hl : lowersDrive i p d
  · rw [deadLower_stands hl]
    exact ⟨fun _ => rfl, fun _ => le_rfl, id, rfl⟩
  · obtain ⟨k, hlist, hdrives, hislands⟩ := deadLower_lowers hl
    have hfloor : driveFloor p d < p.drives[d].cutLimit := by
      simp only [lowersDrive, Bool.and_eq_true, decide_eq_true_eq] at hl
      exact hl.2
    refine ⟨fun t => ?_, fun x => ?_, fun hd => ?_, ?_⟩
    · rw [← hasEntry_change (.drive d) t (fun e => { e with credit := e.credit + k }) (fun _ => rfl) p, hasEntry, hlist]
      rfl
    · rw [hdrives, setAt_get]
      split
      · next e => subst e; exact hfloor.le
      · exact le_rfl
    · rw [hislands]
      exact DeadStopped.syncTimers (p := setDrive d _ (changeEntry (.drive d) _ p)) hd
    · obtain ⟨-, -, -, -, -, hs⟩ := syncTimers_marks i (setDrive d { p.drives[d] with cutLimit := driveFloor p d }
        (changeEntry (.drive d) (fun e => { e with credit := e.credit + k }) p))
      rw [hislands, hs]
      rfl

/-- A drive of the island with an entry stands at its floor or below once it has been lowered. -/
theorem deadLower_floor {i : SecId} {p : Part} {d : DriveId} (hin : driveIsland p d = some i)
    (he : hasEntry p (.drive d) = true) : (deadLower i p d).drives[d].cutLimit ≤ driveFloor p d := by
  cases hl : lowersDrive i p d
  · rw [deadLower_stands hl]
    rw [lowersDrive, hin, he, beq_self_eq_true, Bool.true_and, Bool.true_and, decide_eq_false_iff_not] at hl
    exact Nat.le_of_not_lt hl
  · obtain ⟨k, -, hdrives, -⟩ := deadLower_lowers hl
    rw [hdrives, setAt_same]

/-- The drives lowered in turn: which targets have entries stands, and a DEAD island stays DEAD. -/
theorem deadLowers_keep (i : SecId) (l : List DriveId) (p : Part) :
    (∀ t, hasEntry (l.foldl (deadLower i) p) t = hasEntry p t) ∧
      (∀ x : DriveId, (l.foldl (deadLower i) p).drives[x].cutLimit ≤ p.drives[x].cutLimit) ∧
      (DeadStopped p.islands[i] → DeadStopped (l.foldl (deadLower i) p).islands[i]) ∧
      (l.foldl (deadLower i) p).islands[i].standbyExhausted = p.islands[i].standbyExhausted := by
  refine foldl_keeps (fun q : Part => (∀ t, hasEntry q t = hasEntry p t) ∧
    (∀ x : DriveId, q.drives[x].cutLimit ≤ p.drives[x].cutLimit) ∧
    (DeadStopped p.islands[i] → DeadStopped q.islands[i]) ∧
    q.islands[i].standbyExhausted = p.islands[i].standbyExhausted) _ l p
    ⟨fun _ => rfl, fun _ => le_rfl, id, rfl⟩ fun q d _ ⟨he, hx, hd, hs⟩ => ?_
  obtain ⟨he', hx', hd', hs'⟩ := deadLower_keeps i q d
  exact ⟨fun t => (he' t).trans (he t), fun x => (hx' x).trans (hx x), fun h => hd' (hd h), hs'.trans hs⟩

theorem deadLowers_floor {i : SecId} {d : DriveId} {l : List DriveId} (hd : d ∈ l) {p : Part}
    (hin : driveIsland p d = some i) (he : hasEntry p (.drive d) = true) :
    (l.foldl (deadLower i) p).drives[d].cutLimit ≤ driveFloor p d := by
  induction l generalizing p with
  | nil => cases hd
  | cons x l ih =>
    rw [List.foldl_cons]
    by_cases hx : d = x
    · subst hx
      exact ((deadLowers_keep i l _).2.1 d).trans (deadLower_floor hin he)
    · have hplans : (deadLower i p x).plans = p.plans := by simp
      have hisland := (islandsOf_congr (p := p) (q := deadLower i p x) (by simp) hplans).2.2.1
      have hfloor : driveFloor (deadLower i p x) d = driveFloor p d := by simp only [driveFloor, hplans]
      rw [← hfloor]
      exact ih (List.mem_of_ne_of_mem hx hd) (by rw [hisland, hin]) (((deadLower_keeps i p x).1 _).trans he)

/-! ## The dead shed -/

/-- What the dead shed of an island that no generator carries gives: every candidate and every RESTORING consumer has an
entry, and every drive that had one stands at its floor or below. -/
theorem deadShed_sheds {i : SecId} {p : Part} (hc : carrying p i = []) (hd : DeadStopped p.islands[i]) :
    (∀ t ∈ restoringOf p i ++ candidatesOf p i, hasEntry (deadShed i p) t = true) ∧
      (∀ d, driveIsland p d = some i → hasEntry p (.drive d) = true →
        (deadShed i p).drives[d].cutLimit ≤ driveFloor p d) ∧
      DeadStopped (deadShed i p).islands[i] ∧
      (deadShed i p).islands[i].standbyExhausted = p.islands[i].standbyExhausted := by
  obtain ⟨first, hfirst, -, hrestoring⟩ := sheds_reshedAll (restoringOf p i) fun t => cons_of_mem_restoringOf
  obtain ⟨second, hsecond, hcandidates⟩ := sheds_deadTakes (candidatesOf p i) fun t h =>
    (hfirst.targetIsland t).trans (targetIsland_of_mem_candidatesOf h)
  have htaken := hfirst.trans hsecond
  obtain ⟨hdead, hstandby⟩ := htaken.dead hc hd
  obtain ⟨hentry, -, hdead', hstandby'⟩ := deadLowers_keep i allDrives
    ((candidatesOf p i).foldl deadTake (reshedAll (restoringOf p i) p))
  refine ⟨fun t ht => ?_, fun d hin he => ?_, hdead' hdead, hstandby'.trans hstandby⟩
  · have hin : targetIsland p t = some i := (List.mem_append.mp ht).elim targetIsland_of_mem_restoringOf
      targetIsland_of_mem_candidatesOf
    refine (hentry t).trans ((htaken.hasEntry_iff hin).mpr (.inr ?_))
    rwa [List.map_append, hrestoring, hcandidates]
  · have hfloor : driveFloor p d
        = driveFloor ((candidatesOf p i).foldl deadTake (reshedAll (restoringOf p i) p)) d := by
      simp only [driveFloor, htaken.plans]
    rw [hfloor]
    refine deadLowers_floor (by simp [allDrives]) ?_ ((htaken.hasEntry_iff (t := .drive d) hin).mpr (.inl he))
    exact (htaken.targetIsland (.drive d)).trans hin

/-! ## The standby start of a DEAD island -/

/-- What a standby request gives in RUNNING, generator by generator of the island: nothing where one is STARTING, else the
start of the candidate, or, where there is none, the standby-exhausted mark with attention START_FAIL. -/
theorem requestStandby_starting {p : Part} {i : SecId} {cause : StartCause}
    (hs : startingIn p i) : requestStandby i cause p = p := by
  simp [requestStandby, (anyStarting_iff p i).mpr hs]

theorem requestStandby_starts {p : Part} {i : SecId} {cause : StartCause} {h : GenId} (hr : isRunning p = true)
    (hs : ¬startingIn p i) (hh : isStandby p i h)
    (hlow : ∀ k, isStandby p i k → k ≠ h → genRank p h < genRank p k) :
    (requestStandby i cause p).gens = setAt p.gens h (startingGen true cause p) := by
  have hany : anyStarting p i = false := by rwa [← Bool.not_eq_true, anyStarting_iff]
  simp only [requestStandby, hr, hany, standbyCandidate_eq_some hh hlow, Bool.not_false, Bool.and_self, if_true,
    startGenerator_gens]
  rfl

theorem requestStandby_exhausts {p : Part} {i : SecId} {cause : StartCause} (hr : isRunning p = true)
    (hs : ¬startingIn p i) (hh : ∀ h, ¬isStandby p i h)
    (he : p.islands[i].standbyExhausted = false) :
    (requestStandby i cause p).gens = p.gens ∧ (requestStandby i cause p).islands[i].standbyExhausted = true ∧
      (requestStandby i cause p).att.word.getLsbD 5 = true := by
  have hany : anyStarting p i = false := by rwa [← Bool.not_eq_true, anyStarting_iff]
  have hrequest : requestStandby i cause p = noStandby i cause p := by
    simp only [requestStandby, hr, hany, standbyCandidate_eq_none hh, Bool.not_false, Bool.and_self, if_true]
  have hnone : noStandby i cause p = setIsland i { p.islands[i] with standbyExhausted := true }
      (setAtt .startFail (queueNotice (notice .noStandby i.val (startCauseCode cause) i 0 0#32 0#32) p)) :=
    if_neg (by rw [he]; decide)
  have hbit : ∀ w : BitVec 16, (attWord w .startFail).getLsbD 5 = true := fun w => by simp [attWord, attNumber]
  rw [hrequest, hnone]
  refine ⟨by simp, ?_, hbit _⟩
  simp only [setIsland_islands, setAt_same]

end Sys2Proof.Machine
end

section
/-! PROOFS. The settling timer's expiry and the change to RUNNING: O53 (R48, R50, R75 to R79, R111, R123, R175, R176). -/

namespace Sys2Proof.Machine

/-! ## What a DEAD island's entry gives the sequencer -/

/-- What a DEAD island's standby request has given: the start of the generator of the lowest rank, or, where none may be
started, the standby-exhausted mark with attention START_FAIL; and nothing where one is STARTING already (R75, R76, R78). -/
structure StandbyGiven (i : SecId) (p q : Part) : Prop where
  waits : startingIn p i ∨ (∀ h, ¬isStandby p i h) →
    ∀ h, genIsland p h = some i → q.gens[h] = p.gens[h]
  starts : ∀ h, ¬startingIn p i → isStandby p i h →
    (∀ k, isStandby p i k → k ≠ h → genRank p h < genRank p k) →
      ∀ k, genIsland p k = some i → q.gens[k] = if k = h then startingGen true .dead p else p.gens[k]
  exhausts : ¬startingIn p i → (∀ h, ¬isStandby p i h) →
    q.islands[i].standbyExhausted = true ∧ q.att.word.getLsbD 5 = true

theorem standbyGiven_requestStandby {i : SecId} {p : Part} (hr : isRunning p = true)
    (he : p.islands[i].standbyExhausted = false) : StandbyGiven i p (requestStandby i .dead p) where
  waits hw h _ := by
    by_cases hs : startingIn p i
    · rw [requestStandby_starting hs]
    · simp only [(requestStandby_exhausts (cause := .dead) hr hs (hw.resolve_left hs) he).1]
  starts h hs hh hlow k _ := by
    simp only [requestStandby_starts (cause := .dead) hr hs hh hlow]
    rw [setAt_get]
    simp only [eq_comm]
  exhausts hs hh := (requestStandby_exhausts hr hs hh he).2

/-- Later work that leaves the island's generators and marks. -/
theorem StandbyGiven.later {i : SecId} {p q r : Part} (h : StandbyGiven i p q)
    (hgens : ∀ g, genIsland p g = some i → r.gens[g] = q.gens[g])
    (hmark : r.islands[i].standbyExhausted = q.islands[i].standbyExhausted) (hr : attRises q r) :
    StandbyGiven i p r where
  waits hw g hg := (hgens g hg).trans (h.waits hw g hg)
  starts k hs hk hlow g hg := (hgens g hg).trans (h.starts k hs hk hlow g hg)
  exhausts hs hh := by
    obtain ⟨hx, hb⟩ := h.exhausts hs hh
    exact ⟨hmark.trans hx, hr 5 hb⟩

theorem IslandView.isStandby_iff {i : SecId} {p q : Part} (h : IslandView i p q) (g : GenId) :
    isStandby q i g ↔ isStandby p i g := by
  have hrank : genRank q g = genRank p g := by simp only [genRank, h.plans]
  unfold isStandby
  rw [h.genIsland, hrank]
  refine and_congr_right fun hg => ?_
  rw [h.gens g hg]

theorem IslandView.startingIn_iff {i : SecId} {p q : Part} (h : IslandView i p q) : startingIn q i ↔ startingIn p i := by
  unfold startingIn
  refine exists_congr fun g => ?_
  rw [h.genIsland]
  refine and_congr_right fun hg => ?_
  rw [h.gens g hg]

/-- Earlier work that leaves the island's members. -/
theorem StandbyGiven.earlier {i : SecId} {p q r : Part} (hv : IslandView i p q) (h : StandbyGiven i q r) :
    StandbyGiven i p r := by
  have hrank : genRank q = genRank p := by
    funext g
    simp only [genRank, hv.plans]
  have hstart : startingGen true .dead q = startingGen true .dead p := by rw [startingGen, hv.ms, hv.header]; rfl
  obtain ⟨hwaits, hstarts, hexhausts⟩ := h
  simp only [hv.isStandby_iff, hv.startingIn_iff, hv.genIsland, hrank, hstart] at hwaits hstarts hexhausts
  refine ⟨fun hw g hg => (hwaits hw g hg).trans (hv.gens g hg), fun k hs hk hlow g hg => ?_, hexhausts⟩
  rw [hstarts k hs hk hlow g hg, hv.gens g hg]

/-! ## An island handed on with the condition it holds (R47, R176) -/

/-- What an island leaves that is handed on DEAD: its standby request, and its dead shed. -/
structure DeadHanded (i : SecId) (p q : Part) : Prop where
  entries : ∀ tg ∈ restoringOf p i ++ candidatesOf p i, hasEntry q tg = true
  floors : ∀ d, driveIsland p d = some i → hasEntry p (.drive d) = true → q.drives[d].cutLimit ≤ driveFloor p d
  standby : StandbyGiven i p q

theorem enterCondition_eq {i : SecId} {c : Condition} {p : Part} (h : p.islands[i].condition = c) :
    enterCondition i p = enterLadder i c (enterSequencer i c (enterMarks i p)) := by
  subst h
  rfl

/-- Outside DEAD an entry hands the ladder nothing. -/
theorem enterLadder_alive (i : SecId) {c : Condition} (p : Part) (h : c ≠ .dead) : enterLadder i c p = p := by
  simp [enterLadder, h]

/-- An island handed on outside DEAD and OVERLOADED is given its marks alone. -/
theorem enterCondition_quiet {i : SecId} {p : Part} (hd : p.islands[i].condition ≠ .dead)
    (ho : p.islands[i].condition ≠ .overloaded) : enterCondition i p = enterMarks i p := by
  rw [enterCondition_eq rfl, enterLadder_alive i _ hd]
  unfold enterSequencer
  split
  · cases hc : p.islands[i].condition with
    | overloaded => exact absurd hc ho
    | dead => exact absurd hc hd
    | sound | short => rfl
  · rfl

/-- An island handed on DEAD or OVERLOADED, up to the ladder's work. -/
theorem sequenced_enterCondition (i : SecId) (c : Condition) (p : Part) :
    Sequenced i p (enterSequencer i c (enterMarks i p)) :=
  (sequenced_enterMarks i p).trans (sequenced_enterSequencer i c _)

/-- A DEAD island handed on: the marks, the standby request and the dead shed. -/
theorem enterCondition_dead_eq {i : SecId} {p : Part} (hr : isRunning p = true) (hd : p.islands[i].condition = .dead) :
    enterCondition i p = deadShed i (enterSequencer i .dead (enterMarks i p)) := by
  have hr' : isRunning (enterSequencer i .dead (enterMarks i p)) = true := by
    rw [← hr]
    simp [isRunning]
  rw [enterCondition_eq hd, enterLadder, hr']
  rfl

/-- A DEAD island poised for the ladder is carried by no generator, and its timers are stopped. -/
theorem Poised.dead {old : Island} {i : SecId} {p : Part} (h : Poised old i p) (hd : p.islands[i].condition = .dead) :
    carrying p i = [] ∧ DeadStopped p.islands[i] := by
  obtain ⟨⟨-, hc⟩, -⟩ := h.stands
  exact ⟨(conditionOf_dead_iff p i _).mp (hc.symm.trans hd), h.timed.deadStopped hd⟩

/-- The condition of a poised island stays DEAD where its carriers stand. -/
theorem Sequenced.dead {old : Island} {i : SecId} {p q : Part} (h : Sequenced i p q) (ho : Poised old i p)
    (hd : p.islands[i].condition = .dead) : q.islands[i].condition = .dead := by
  obtain ⟨⟨-, hp⟩, -⟩ := ho.stands
  obtain ⟨⟨-, hq⟩, -⟩ := (h.poised old ho).stands
  rw [hq, h.condition_iff.1, ← hp, hd]

/-- An island that stands by its members, with its timers following from those of `old`, handed on: they follow on. -/
theorem enterCondition_timed {old : Island} {i : SecId} {p : Part} (hr : isRunning p = true) (hs : islandStands p i)
    (ht : Timed old p i) : Timed old (enterCondition i p) i := by
  by_cases hd : p.islands[i].condition = .dead
  · have hpoised : Poised old i p := ⟨hr, hs, ht, .inr (.inl hd)⟩
    have hseq := sequenced_enterCondition i .dead p
    obtain ⟨hcarry, hstopped⟩ := (hseq.poised old hpoised).dead (hseq.dead hpoised hd)
    rw [enterCondition_dead_eq hr hd]
    exact (deadShed_sheds hcarry hstopped).2.2.1.timed old
  by_cases ho : p.islands[i].condition = .overloaded
  · rw [enterCondition_eq ho, enterLadder_alive i _ (by decide)]
    exact ((sequenced_enterCondition i .overloaded p).poised old ⟨hr, hs, ht, .inr (.inr ho)⟩).timed
  · rw [enterCondition_quiet hd ho]
    exact ht.congr (enterMarks_standing i p) (by simp) (by simp) (entriesOf_congr (by simp) (by simp) (by simp) i)

theorem enterCondition_deadHanded {old : Island} {i : SecId} {p : Part} (hr : isRunning p = true) (hs : islandStands p i)
    (ht : Timed old p i) (hd : p.islands[i].condition = .dead) : DeadHanded i p (enterCondition i p) := by
  have hpoised : Poised old i p := ⟨hr, hs, ht, .inr (.inl hd)⟩
  have hseq := sequenced_enterCondition i .dead p
  obtain ⟨hcarry, hstopped⟩ := (hseq.poised old hpoised).dead (hseq.dead hpoised hd)
  obtain ⟨hentries, hfloors, -, hmark⟩ := deadShed_sheds hcarry hstopped
  rw [enterCondition_dead_eq hr hd]
  rw [hseq.restoringOf, hseq.candidatesOf] at hentries
  refine ⟨hentries, fun d hin he => ?_, ?_⟩
  · rw [← hseq.driveFloor]
    exact hfloors d (by rw [hseq.driveIsland, hin]) (by rw [hseq.hasEntry (t := .drive d) hin, he])
  · have hmarks : IslandView i p (enterMarks i p) := ⟨.of_eq i (by simp), by simp⟩
    have hr' : isRunning (enterMarks i p) = true := by rw [hmarks.running, hr]
    have hcleared : (enterMarks i p).islands[i].standbyExhausted = false := by
      obtain ⟨x, n, e, -⟩ := enterMarks_record i p
      rw [e]
    have hgiven := (standbyGiven_requestStandby hr' hcleared).earlier hmarks
    have hrequest : enterSequencer i .dead (enterMarks i p) = requestStandby i .dead (enterMarks i p) := if_pos hr'
    rw [hrequest] at hmark ⊢
    exact hgiven.later (fun g _ => by simp) hmark (effects_deadShed i _).attention_rises.1

/-- Work in other islands leaves what a DEAD island was given. -/
theorem DeadHanded.later {i : SecId} {p q r : Part} (himg : q.img = p.img) (hplans : q.plans = p.plans)
    (h : DeadHanded i p q) (k : Spares i q r) : DeadHanded i p r := by
  obtain ⟨hgen, -, hdrive, htarget⟩ := islandsOf_congr himg hplans
  obtain ⟨hentries, hfloors, hstandby⟩ := h
  refine ⟨fun tg htg => ?_, fun d hin he => ?_, hstandby.later (fun g hg => k.gens g (by rw [hgen, hg]))
    (by rw [k.record]) k.rises⟩
  · have hin : targetIsland q tg = some i := by
      rw [htarget]
      exact (List.mem_append.mp htg).elim targetIsland_of_mem_restoringOf targetIsland_of_mem_candidatesOf
    rw [k.hasEntry hin, hentries tg htg]
  · rw [k.drives d (by rw [hdrive, hin])]
    exact hfloors d hin he

/-- Earlier work in other islands leaves what a DEAD island is to be given. -/
theorem DeadHanded.earlier {i : SecId} {p q r : Part} (hv : IslandView i p q) (h : DeadHanded i q r) :
    DeadHanded i p r := by
  obtain ⟨hentries, hfloors, hstandby⟩ := h
  rw [hv.restoringOf, hv.candidatesOf] at hentries
  refine ⟨hentries, fun d hin he => ?_, hstandby.earlier hv⟩
  rw [← hv.driveFloor]
  exact hfloors d (by rw [hv.driveIsland, hin]) (by rw [hv.hasEntry (t := .drive d) hin, he])

/-! ## The change to RUNNING -/

/-- The part made RUNNING, before its islands are handed on. -/
def madeRunning (p : Part) : Part := { p with plans := { p.plans with partState := .running, settlingTimer := none } }

/-- The change to RUNNING, island by island: the timers follow from those before, and a DEAD island is given its standby
request and its dead shed. -/
theorem toRunning_island {i : SecId} {p : Part} (hi : isIslandId p.img.ties i = true) (hs : islandStands p i) :
    timersFollow p.islands[i] (toRunning p) i ∧
      (p.islands[i].condition = .dead → DeadHanded i (madeRunning p) (toRunning p)) := by
  have hmem : i ∈ islandIds (madeRunning p) := by
    rw [islandIds, List.mem_filter]
    exact ⟨List.mem_finRange i, hi⟩
  have hnodup : (islandIds (madeRunning p)).Nodup := (List.nodup_finRange 4).filter _
  obtain ⟨a, hbefore, hsynced⟩ := Spares.turn (f := fun q j => syncTimers j q)
    (fun q j hij => spares_syncTimers hij q) hnodup hmem (madeRunning p)
  obtain ⟨b, hturn, hend⟩ := Spares.turn (f := fun q j => enterCondition j q)
    (fun q j hij => spares_enterCondition hij q) hnodup hmem
    ((islandIds (madeRunning p)).foldl (fun q j => syncTimers j q) (madeRunning p))
  have hgiven := hsynced.trans hturn
  have hsync : IslandView i a (syncTimers i a) := ⟨.of_eq i (by simp), by simp⟩
  have hview : IslandView i (madeRunning p) b :=
    (hbefore.toIslandView.trans hsync).trans hgiven.toIslandView
  have hrunning : isRunning a = true := hbefore.running
  have hrecord : a.islands[i] = p.islands[i] := hbefore.record
  have hstands : islandStands a i := hbefore.islandStands (p := madeRunning p) hs hbefore.standing
  have htimed : Timed p.islands[i] b i := by
    rw [← hrecord]
    exact (timed_syncTimers i hrunning).congr hgiven.standing hgiven.plans hgiven.ms hgiven.entries
  have hstandsB : islandStands b i :=
    hgiven.islandStands ((islandStands_syncTimers i i a).mpr hstands) hgiven.standing
  have hrunningB : isRunning b = true := hview.running
  refine ⟨?_, fun hd => ?_⟩
  · have hafter := (enterCondition_timed hrunningB hstandsB htimed).congr hend.standing hend.plans hend.ms hend.entries
    exact hafter.timersFollow (show (toRunning p).plans.partState == .running by rw [toRunning_plans]; rfl)
  · have hdB : b.islands[i].condition = .dead := by
      rw [hgiven.standing.condition, (syncTimers_marks i a).2.1, hrecord, hd]
    exact ((enterCondition_deadHanded hrunningB hstandsB htimed hdB).later (by simp) (by simp) hend).earlier hview

/-- Settles O53, by the change to RUNNING island by island, and by the edges up to the counter's advance. -/
theorem timeBaseAndSettling : Obligations.TimeBaseAndSettling := by
  refine ⟨fun s d hp ht => ⟨fun hdue => ?_, fun hdue => ?_⟩, fun s hp => ?_, millisecondCounterAdvance_advances⟩
  · have hexpires : settlingExpiry s.part = toRunning s.part := if_pos ⟨hp, by rw [ht]; exact hdue⟩
    refine ⟨_, rfl, rfl, rfl, ?_⟩
    dsimp only
    rw [hexpires]
    refine ⟨toRunning_plans _, by simp, fun i => toRunning_dead, (effects_toRunning _).attention_rises.1,
      fun hstands i hi => ?_⟩
    obtain ⟨htimers, hdead⟩ := toRunning_island hi (hstands i hi)
    refine ⟨htimers, fun hc => ?_⟩
    obtain ⟨hentries, hfloors, hwaits, hstarts, hexhausts⟩ := hdead hc
    exact ⟨hentries, hfloors, hwaits, hstarts, hexhausts⟩
  · have hidle : settlingExpiry s.part = s.part := if_neg fun h => by
      rw [ht] at h
      exact absurd h.2 (by simp [timerDue, hdue])
    exact congrArg (fun p => Host.Outcome.next { s with part := p }) hidle
  · have hidle : settlingExpiry s.part = s.part := if_neg fun h => hp h.1
    exact congrArg (fun p => Host.Outcome.next { s with part := p }) hidle

end Sys2Proof.Machine
end

section
/-! PROOFS. The islands that a partition change forms, up to their targets, and what their records hold (R36, R37, R41 to
R46, R49, R52). -/

namespace Sys2Proof.Machine

/-! ## The totals, the condition and the HELD mark, spelled out (R41 to R46, R49) -/

/-- The generators of an island in one of these states. -/
def gensIn (p : Part) (i : SecId) (states : List GenState) : List GenId := (List.finRange 8).filter fun g : GenId =>
  decide ((p.plans.active.gens[g].map GenPlan.sec).map (islandId p.img.ties) = some i ∧ p.gens[g].state ∈ states)

/-- The section of a shed target that the plan holds. -/
def targetSec (pl : Plan) : Target → Option SecId
  | .cons c => pl.cons[c].map ConsPlan.sec
  | .drive d => pl.drives[d].map DrivePlan.sec

theorem genContribution_eq (p : Part) (g : GenId) :
    genContribution p g = (p.plans.active.gens[g].map fun e => e.rating * e.limitPct / 100).getD 0 := by
  unfold genContribution
  split <;> simp_all [contribution]

/-- The generators of an island that meet a test of their state, by the states that meet it. -/
theorem filter_genIn (p : Part) (i : SecId) (f : GenState → Bool) (states : List GenState)
    (h : ∀ st, f st = true ↔ st ∈ states) :
    (allGens.filter fun g => genIn p i g && f (genState p g)) = gensIn p i states := by
  refine List.filter_congr fun g _ => ?_
  rw [Bool.eq_iff_iff, Bool.and_eq_true, decide_eq_true_eq, h]
  simp only [genIn, beq_iff_eq, genIsland, genState, Option.map_map]
  rfl

theorem carrying_eq (p : Part) (i : SecId) : carrying p i = gensIn p i [.online, .unloading] :=
  filter_genIn p i carries _ fun st => by cases st <;> decide

theorem totalsOf_generators (p : Part) (i : SecId) :
    let contribution := fun g : GenId => (p.plans.active.gens[g].map fun e => e.rating * e.limitPct / 100).getD 0
    (totalsOf p i).firm = ((gensIn p i [.online]).map contribution).sum ∧
      (totalsOf p i).limit = ((gensIn p i [.online, .unloading]).map contribution).sum ∧
      (totalsOf p i).load = ((gensIn p i [.online, .unloading]).map fun g => bits p.img.genMeas[g].word 0 16).sum := by
  intro contribution
  have hcontribution : genContribution p = contribution := funext (genContribution_eq p)
  have honline := filter_genIn p i (· == .online) [.online] fun st => by simp
  have hcarriers := filter_genIn p i carries [.online, .unloading] fun st => by cases st <;> decide
  simp only [totalsOf, sumGens, honline, hcarriers, hcontribution]
  exact ⟨trivial, trivial, rfl⟩

theorem totalsOf_openingCredit (p : Part) (i : SecId) :
    (totalsOf p i).openingCredit = min 1048575 ((p.shedList.filter fun e =>
      decide (e.state ≠ .held ∧ (targetSec p.plans.active e.target).map (islandId p.img.ties) = some i)).map
        ShedEntry.credit).sum := by
  have hfilter : (entriesOf p i).filter isOpening = p.shedList.filter fun e =>
      decide (e.state ≠ .held ∧ (targetSec p.plans.active e.target).map (islandId p.img.ties) = some i) := by
    rw [entriesOf, List.filter_filter]
    refine List.filter_congr fun e _ => ?_
    have hopening : isOpening e = true ↔ e.state ≠ .held := by
      cases h : e.state <;> simp [isOpening, h]
    have hisland : targetIsland p e.target = (targetSec p.plans.active e.target).map (islandId p.img.ties) := by
      cases e.target <;> simp only [targetIsland, consIsland, driveIsland, targetSec, Option.map_map] <;> rfl
    rw [Bool.eq_iff_iff, Bool.and_eq_true, decide_eq_true_eq, hopening, hisland, beq_iff_eq]
  rw [totalsOf, hfilter]
  rfl

theorem heldOf_iff (p : Part) (i : SecId) :
    heldOf p i = true ↔ gensIn p i [.online, .unloading] ≠ [] ∧
      ∀ g ∈ gensIn p i [.online, .unloading], freshness p.img.genMeas[g] ≠ .fresh := by
  simp only [heldOf, carrying_eq, Bool.and_eq_true, Bool.not_eq_true', List.isEmpty_eq_false_iff, List.all_eq_true,
    isFresh, beq_eq_false_iff_ne]

/-! ## The islands complete (R37, R38, R52) -/

/-- The islands of the new partition that are newly formed. -/
def formedIds (old : MeasCopy) (p : Part) : List SecId :=
  (islandIds p).filter fun i => islandKind old p.img.ties i != .kept

/-- The part at a partition change up to the targets: the notice queued, the islands complete, the marks of the entries. -/
def partitionStood (old : MeasCopy) (p : Part) : Part :=
  let p1 := queueNotice (notice .island 0 0 0 (bits p.img.ties.word 0 3) (idList p.img.ties) (idList old)) p
  let p2 := allSecs.foldl (formIsland old p.img.ties) p1
  let p3 := (islandIds p).foldl (standIsland old p.img.ties) p2
  let p4 := (formedIds old p).foldl (fun q i => enterMarks i q) p3
  (formedIds old p).foldl (fun q i => computeTargets i none q) p4

/-- The sequencer's work at a partition change: the entries, and the stop checks made again. -/
def partitionSequenced (old : MeasCopy) (p : Part) : Part :=
  (formedIds old p).foldl (fun q i => recheckStops i q)
    ((formedIds old p).foldl (fun q i => enterSequencer i (q.islands[i].condition) q) (partitionStood old p))

theorem partitionChange_eq (old : MeasCopy) (p : Part) :
    partitionChange old p
      = (islandIds p).foldl (ladderAtPartition old p.img.ties) (partitionSequenced old p) := rfl

theorem mem_islandIds {p : Part} {i : SecId} : i ∈ Machine.islandIds p ↔ isIslandId p.img.ties i = true := by
  simp [Machine.islandIds, allSecs]

theorem nodup_islandIds (p : Part) : (Machine.islandIds p).Nodup := (List.nodup_finRange 4).filter _

theorem mem_formedIds {old : MeasCopy} {p : Part} {i : SecId} :
    i ∈ formedIds old p ↔ isIslandId p.img.ties i = true ∧ islandKind old p.img.ties i ≠ .kept := by
  rw [formedIds, List.mem_filter, mem_islandIds, bne_iff_ne]

theorem nodup_formedIds (old : MeasCopy) (p : Part) : (formedIds old p).Nodup := (nodup_islandIds p).filter _

section
variable {i j : SecId} (hij : i ≠ j) (old new : MeasCopy) (p : Part)
include hij

theorem spares_formIsland : Spares i p (formIsland old new p j) := by
  unfold formIsland
  split
  · exact .refl i p
  · exact spares_setIsland hij p _

theorem spares_standIsland : Spares i p (standIsland old new p j) := by
  unfold standIsland
  split
  · exact (spares_setIsland hij p _).trans (spares_syncTimers hij _)
  · exact spares_retotal hij p

theorem spares_ladderAtPartition : Spares i p (ladderAtPartition old new p j) := by
  unfold ladderAtPartition
  split
  · exact .refl i p
  · split
    · exact spares_enterLadder hij p .dead
    · split
      · exact spares_splitStep hij p
      · exact .refl i p

end

theorem spares_queueNotice (i : SecId) (n : Notice) (p : Part) : Spares i p (queueNotice n p) :=
  ⟨⟨.of_eq i (by simp), by simp⟩, by simp only [queueNotice_frame], (queueNotice_att n p).1⟩

/-- An island newly formed from the members it has in `p`: it stands by them, its timers started from zero in RUNNING and
stopped outside it, with EXHAUSTED clear. -/
structure Formed (i : SecId) (p q : Part) : Prop where
  view : IslandView i p q
  stands : islandStands q i
  running : isRunning p = true → Timed Island.blank q i
  idle : isRunning p = false → Stopped q.islands[i]
  clear : q.islands[i].exhausted = false ∧ q.islands[i].need = 0#20

theorem Formed.later {i : SecId} {p q r : Part} (h : Formed i p q) (hv : IslandView i q r)
    (hs : SameStanding q.islands[i] r.islands[i])
    (hc : r.islands[i].exhausted = false ∧ r.islands[i].need = 0#20) : Formed i p r where
  view := h.view.trans hv
  stands := hv.islandStands h.stands hs
  running hr := (h.running hr).congr hs hv.plans hv.ms hv.entries
  idle hr := by
    obtain ⟨ho, hd, hk⟩ := h.idle hr
    exact ⟨hs.overload.trans ho, hs.startDelay.trans hd, hs.releaseHold.trans hk⟩
  clear := hc

theorem Formed.spared {i : SecId} {p q r : Part} (h : Formed i p q) (k : Spares i q r) : Formed i p r :=
  h.later k.toIslandView k.standing (by rw [k.record]; exact h.clear)

theorem Formed.enterMarks {i : SecId} {p q : Part} (h : Formed i p q) : Formed i p (enterMarks i q) := by
  refine h.later ⟨.of_eq i (by simp), by simp⟩ (enterMarks_standing i q) ?_
  obtain ⟨x, n, e, hclear⟩ := enterMarks_record i q
  rw [e]
  exact hclear h.clear.1 h.clear.2

theorem Formed.computeTargets {i : SecId} {p q : Part} (h : Formed i p q) (forced : Option GenId) :
    Formed i p (computeTargets i forced q) := by
  refine h.later ⟨.of_eq i (by simp), by simp⟩ (computeTargets_standing i forced q) ?_
  obtain ⟨b, e⟩ := computeTargets_record i forced q
  rw [e]
  exact h.clear

/-- What timers follow from rests on the timers of a record alone. -/
theorem Timed.of_timers {old old' : Island} {p : Part} {i : SecId} (h : Timed old p i)
    (ho : old'.overload = old.overload) (hd : old'.startDelay = old.startDelay)
    (hk : old'.releaseHold = old.releaseHold) : Timed old' p i := by
  have hsame : withTimers old' p.islands[i] = withTimers old p.islands[i] := by rw [withTimers, ho, hd, hk, withTimers]
  obtain ⟨hoverload, hdelay, hrelease⟩ := h
  exact ⟨by rw [hsame, hoverload], by rw [hsame, hdelay], by rw [hsame, hrelease]⟩

/-- A blank record brought up to date: the island is newly formed. -/
theorem formed_retotal {i : SecId} {p q : Part} (hv : IslandView i p q) (hb : q.islands[i] = Island.blank) :
    Formed i p (retotal i q) := by
  have hr : IslandView i q (retotal i q) := ⟨.of_eq i (by simp), by simp⟩
  obtain ⟨hexhausted, hneed, -⟩ := retotal_marks i q
  refine ⟨hv.trans hr, islandStands_retotal i q, fun hrun => ?_, fun hidle => ?_, ?_⟩
  · have hq : isRunning q = true := hv.running.trans hrun
    refine (timed_syncTimers (p := setIsland i { q.islands[i] with
      totals := totalsOf q i, condition := conditionOf q i (totalsOf q i), held := heldOf q i } q) i hq).of_timers ?_ ?_ ?_
      <;> rw [setIsland_islands, setAt_same, hb]
  · have hq : isRunning q = false := hv.running.trans hidle
    rw [retotal, syncTimers_record_idle (p := setIsland i _ q) i hq]
    exact ⟨rfl, rfl, rfl⟩
  · rw [hexhausted, hneed, hb]
    exact ⟨rfl, rfl⟩

/-! ## An island's turn in each stage -/

/-- The records formed section by section: an island's own is formed in its turn, the others spare it (R37, R56). -/
theorem exists_formIslands (i : SecId) (old : MeasCopy) (p : Part) (n : Notice) : ∃ a, Spares i p a ∧
    Spares i (formIsland old p.img.ties a i) (allSecs.foldl (formIsland old p.img.ties) (queueNotice n p)) := by
  obtain ⟨a, hbefore, hafter⟩ := Spares.turn (i := i) (f := formIsland old p.img.ties)
    (fun q j hij => spares_formIsland hij old p.img.ties q) (List.nodup_finRange 4) (List.mem_finRange i) (queueNotice n p)
  exact ⟨a, (spares_queueNotice i n p).trans hbefore, hafter⟩

/-- An island newly formed is given its marks: one that is DEAD sets attention DEAD (R47). -/
theorem enterMarks_dead {i : SecId} {p : Part} (h : p.islands[i].condition = .dead) :
    (enterMarks i p).att.word.getLsbD 0 = true := by
  have hbit : ∀ w : BitVec 16, (attWord w .dead).getLsbD 0 = true := fun w => by simp [attWord, attNumber]
  simp only [enterMarks, h]
  exact hbit _

section
variable {old : MeasCopy} {p : Part} {i : SecId} (hi : isIslandId p.img.ties i = true)
include hi

/-- A kept island is brought to its standing with every timer started from zero, and nothing else of it moves (R37, R52). -/
theorem partitionStood_kept (hk : islandKind old p.img.ties i = .kept) :
    ∃ a, Spares i p a ∧ Spares i (syncTimers i (stopTimers i a)) (partitionStood old p) := by
  have hother : i ∉ formedIds old p := fun h => (mem_formedIds.mp h).2 hk
  obtain ⟨a, hbefore, hformed⟩ := exists_formIslands i old p
    (notice .island 0 0 0 (bits p.img.ties.word 0 3) (idList p.img.ties) (idList old))
  have hown : formIsland old p.img.ties a i = a := if_pos (by rw [hi, hk]; rfl)
  rw [hown] at hformed
  obtain ⟨b, hturn, hstood⟩ := Spares.turn (f := standIsland old p.img.ties)
    (fun q j hij => spares_standIsland hij old p.img.ties q) (nodup_islandIds p) (mem_islandIds.mpr hi) _
  have hstand : standIsland old p.img.ties b i = syncTimers i (stopTimers i b) := if_pos hk
  rw [hstand] at hstood
  have hmarks := Spares.others (f := fun q j => enterMarks j q) (fun q j hij => spares_enterMarks hij q) hother
  have htargets := Spares.others (f := fun q j => computeTargets j none q)
    (fun q j hij => spares_computeTargets hij q none) hother
  exact ⟨b, hbefore.trans (hformed.trans hturn), hstood.trans ((hmarks _).trans (htargets _))⟩

/-- An island newly formed stands by its members, and one that is DEAD sets attention DEAD (R37, R47, R52). -/
theorem partitionStood_formed (hk : islandKind old p.img.ties i ≠ .kept) :
    Formed i p (partitionStood old p) ∧
      ((partitionStood old p).islands[i].condition = .dead → (partitionStood old p).att.word.getLsbD 0 = true) := by
  have hmem : i ∈ formedIds old p := mem_formedIds.mpr ⟨hi, hk⟩
  obtain ⟨a, hbefore, hformed⟩ := exists_formIslands i old p
    (notice .island 0 0 0 (bits p.img.ties.word 0 3) (idList p.img.ties) (idList old))
  have hblank : formIsland old p.img.ties a i = setIsland i Island.blank a :=
    if_neg (by rw [hi, Bool.true_and, beq_iff_eq]; exact hk)
  rw [hblank] at hformed
  obtain ⟨b, hturn, hstood⟩ := Spares.turn (f := standIsland old p.img.ties)
    (fun q j hij => spares_standIsland hij old p.img.ties q) (nodup_islandIds p) (mem_islandIds.mpr hi) _
  have hstand : standIsland old p.img.ties b i = retotal i b := if_neg hk
  rw [hstand] at hstood
  obtain ⟨c, hmarking, hmarked⟩ := Spares.turn (f := fun q j => enterMarks j q)
    (fun q j hij => spares_enterMarks hij q) (nodup_formedIds old p) hmem _
  obtain ⟨d, htargeting, htargeted⟩ := Spares.turn (f := fun q j => computeTargets j none q)
    (fun q j hij => spares_computeTargets hij q none) (nodup_formedIds old p) hmem _
  have hset : IslandView i a (setIsland i Island.blank a) := ⟨.of_eq i (by simp), by simp⟩
  have hrecord : b.islands[i] = Island.blank := by
    rw [(hformed.trans hturn).record, setIsland_islands, setAt_same]
  have hstands : Formed i p c := (formed_retotal ((hbefore.toIslandView.trans hset).trans
    (hformed.trans hturn).toIslandView) hrecord).spared (hstood.trans hmarking)
  have hmarks : Formed i p d := hstands.enterMarks.spared (hmarked.trans htargeting)
  refine ⟨(hmarks.computeTargets none).spared htargeted, fun hdead => ?_⟩
  have hcondition : c.islands[i].condition = .dead := by
    rw [← (enterMarks_standing i c).condition, ← (hmarked.trans htargeting).standing.condition,
      ← (computeTargets_standing i none d).condition, ← htargeted.standing.condition]
    exact hdead
  exact htargeted.rises 0 ((effects_computeTargets i none d).attention_rises.1 0
    ((hmarked.trans htargeting).rises 0 (enterMarks_dead hcondition)))

end

end Sys2Proof.Machine
end

section
/-! PROOFS. A TIES write that changes the partition outside RUNNING: O18 (R36, R37, R41 to R46, R48 to R50). -/

namespace Sys2Proof.Machine

/-! ## The write -/

/-- The settling condition rests on the plan and the copies. -/
theorem settled_congr {p q : Part} (himg : q.img = p.img) (hplans : q.plans = p.plans) : settled q = settled p := by
  simp only [settled, himg, hplans]

/-- A TIES write of another partition, by which the part does not settle: the copy is taken, and the partition changes. -/
theorem exec_tiesWrite_changes {x : Word} {s : State} (h : portFree .fp s = true)
    (hchange : ∃ sec, islandId (takeCopy .ties x s.part).img.ties sec ≠ islandId s.part.img.ties sec)
    (hstay : s.part.plans.partState = .settling → settled (takeCopy .ties x s.part) = false) :
    exec (.tiesWrite 15#4 x .free) s = .next { s with
      bus := busAfterWrite .fp (windowAddr s.part.base tiesOffset) 15#4 x s.bus
      part := partitionChange s.part.img.ties (takeCopy .ties x s.part) } := by
  have hother : samePartition s.part.img.ties (takeCopy .ties x s.part).img.ties = false := by
    obtain ⟨sec, hne⟩ := hchange
    rw [samePartition, List.all_eq_false]
    exact ⟨sec, List.mem_finRange sec, by simpa using hne.symm⟩
  have hstands : judgeSettled (partitionChange s.part.img.ties (takeCopy .ties x s.part))
      = partitionChange s.part.img.ties (takeCopy .ties x s.part) := by
    refine judgeSettled_stands fun hp => ?_
    rw [partitionChange_frame _ _ |>.2.2.2] at hp
    rw [settled_congr (p := takeCopy .ties x s.part) (by simp) (by simp), hstay hp]
    exact Bool.false_ne_true
  refine congrArg Host.Outcome.next ((windowWrite_measure h (by decide) (by decide) (.inl rfl)).trans ?_)
  rw [jobOf, jobEvent, tiesEvent, hother, if_neg Bool.false_ne_true, hstands]

/-! ## The plant through a partition change -/

/-- The notice of a partition change (R36). -/
def islandNotice (old : MeasCopy) (p : Part) : Notice :=
  notice .island 0 0 0 (bits p.img.ties.word 0 3) (idList p.img.ties) (idList old)

/-- What the forming of the islands leaves: the copies, the plans, the plant, its tables and the channels. -/
def plantOf (p : Part) := (p.img, p.plans, p.lu, p.gens, p.cons, p.drives, p.shedList, p.cmd)

theorem partitionStood_plant (old : MeasCopy) (p : Part) :
    plantOf (partitionStood old p) = plantOf (queueNotice (islandNotice old p) p) := by
  refine (foldl_keep plantOf _ _ _ fun q i => ?_).trans ((foldl_keep plantOf _ _ _ fun q i => ?_).trans
    ((foldl_keep plantOf _ _ _ fun q i => ?_).trans (foldl_keep plantOf _ _ _ fun q i => ?_)))
  all_goals simp [plantOf]

@[simp] theorem partitionStood_frame (old : MeasCopy) (p : Part) :
    (partitionStood old p).img = p.img ∧ (partitionStood old p).plans = p.plans ∧
      (partitionStood old p).lu = (queueNotice (islandNotice old p) p).lu ∧ (partitionStood old p).gens = p.gens ∧
      (partitionStood old p).cons = p.cons ∧ (partitionStood old p).drives = p.drives ∧
      (partitionStood old p).shedList = p.shedList ∧ (partitionStood old p).cmd = p.cmd := by
  simpa [plantOf] using partitionStood_plant old p

theorem enterSequencer_idle {p : Part} (h : isRunning p = false) (i : SecId) (c : Condition) :
    enterSequencer i c p = p := by
  simp [enterSequencer, h]

theorem recheckStops_idle {p : Part} (h : isRunning p = false) (i : SecId) : recheckStops i p = p := by
  simp [recheckStops, h]

theorem ladderAtPartition_idle {p : Part} (h : isRunning p = false) (old new : MeasCopy) (i : SecId) :
    ladderAtPartition old new p i = p := by
  simp [ladderAtPartition, enterLadder, h]

/-- Outside RUNNING the forming of the islands is all that a partition change does. -/
theorem partitionChange_idle {old : MeasCopy} {p : Part} (hr : isRunning p = false) :
    partitionChange old p = partitionStood old p := by
  have hidle : isRunning (partitionStood old p) = false := by
    rw [← hr]
    simp [isRunning]
  have hsequenced : partitionSequenced old p = partitionStood old p := by
    rw [partitionSequenced, List.foldl_fixed' (a := partitionStood old p) fun i => enterSequencer_idle hidle i _,
      List.foldl_fixed' (recheckStops_idle hidle)]
  rw [partitionChange_eq, hsequenced, List.foldl_fixed' (ladderAtPartition_idle hidle old p.img.ties)]

/-- The queueing of a notice moves the channels by the channels and the time alone. -/
theorem queueNotice_lu_takeCopy (n : Notice) (r : RecordId) (x : Word) (p : Part) :
    (queueNotice n (takeCopy r x p)).lu = (queueNotice n p).lu := by
  have hsame : (takeCopy r x p).lu = p.lu ∧ (takeCopy r x p).ms = p.ms := by simp
  obtain ⟨hlu, hms⟩ := hsame
  unfold queueNotice tryPostNotice
  simp only [hlu, hms]
  split
  · exact hlu
  · split
    · split <;> simp_all
    · rfl

/-! ## An island newly formed (R41 to R46, R49) -/

/-- The condition by the carriers and the totals (R43, R44, R46). -/
theorem conditionOf_eq (p : Part) (i : SecId) (t : Totals) :
    conditionOf p i t = (if gensIn p i [.online, .unloading] = [] then .dead
      else if t.limit < t.load - t.openingCredit then .overloaded
      else if (t.firm : Int) - (t.load : Int) < (p.header.startMargin : Int) then .short
      else .sound) := by
  rw [← carrying_eq]
  rfl

/-- A kept island through a partition change outside RUNNING: every timer stopped, and its record otherwise its own. -/
theorem partitionStood_kept_idle {old : MeasCopy} {p : Part} {i : SecId} (hi : isIslandId p.img.ties i = true)
    (hk : islandKind old p.img.ties i = .kept) (hr : isRunning p = false) :
    (partitionStood old p).islands[i]
      = { p.islands[i] with overload := none, startDelay := .stopped, releaseHold := none } := by
  obtain ⟨a, hbefore, hafter⟩ := partitionStood_kept hi hk
  have hidle : isRunning (stopTimers i a) = false := by
    rw [← hr, ← hbefore.running]
    rfl
  rw [hafter.record, syncTimers_record_idle i hidle, stopTimers, setIsland_islands, setAt_same, hbefore.record]

/-- Settles O18, by the islands complete up to their targets, which is all that a partition change does outside RUNNING. -/
theorem partitionChangeForms : Obligations.PartitionChangeForms := by
  intro s x hfree m hchange hpart
  have hidle : isRunning (takeCopy .ties x s.part) = false := by
    rcases hpart with h | ⟨h, -⟩ <;> simp [isRunning, h]
  have hstay : s.part.plans.partState = .settling → settled (takeCopy .ties x s.part) = false := fun h =>
    hpart.elim (fun hno => by rw [hno] at h; cases h) (·.2)
  refine ⟨_, exec_tiesWrite_changes hfree hchange hstay, rfl, rfl, ?_⟩
  have hrises : attRises s.part (partitionChange s.part.img.ties (takeCopy .ties x s.part)) :=
    ((effects_takeCopy ..).trans (effects_partitionChange ..)).attention_rises.1
  dsimp only
  rw [partitionChange_idle hidle] at hrises ⊢
  obtain ⟨himg, hplans, hlu, hgens, hcons, hdrives, hlist, hcmd⟩ :=
    partitionStood_frame s.part.img.ties (takeCopy .ties x s.part)
  refine ⟨himg, hlu.trans (queueNotice_lu_takeCopy ..), fun i hi hk => ?_, fun i hi => ?_, fun i hi hk => ?_,
    hgens, hcons, hdrives, hlist, hcmd, hplans, hrises⟩
  · obtain ⟨⟨hview, ⟨⟨htotals, hcondition⟩, hheld⟩, -, -, hexhausted, hneed⟩, -⟩ :=
      partitionStood_formed (p := takeCopy .ties x s.part) hi hk
    obtain ⟨hfirm, hlimit, hload⟩ := totalsOf_generators (takeCopy .ties x s.part) i
    have hcredit := totalsOf_openingCredit (takeCopy .ties x s.part) i
    refine ⟨hexhausted, hneed, htotals, hcondition, ?_⟩
    rw [← htotals, hview.conditionOf, conditionOf_eq] at hcondition
    rw [← hview.totalsOf, ← htotals] at hfirm hlimit hload hcredit
    refine ⟨hfirm, hlimit, hload, hcredit, hcondition, ?_⟩
    rw [hheld, hview.sameCarriers.heldOf]
    exact heldOf_iff _ i
  · by_cases hk : islandKind s.part.img.ties m i = .kept
    · rw [partitionStood_kept_idle (p := takeCopy .ties x s.part) hi hk hidle]
      exact ⟨rfl, rfl, rfl⟩
    · exact (partitionStood_formed (p := takeCopy .ties x s.part) hi hk).1.idle hidle
  · rw [partitionStood_kept_idle (p := takeCopy .ties x s.part) hi hk hidle]
    exact ⟨rfl, rfl, rfl, rfl, rfl⟩

end Sys2Proof.Machine
end

section
/-! PROOFS. A TIES write that changes the partition in RUNNING: O19 (R36, R52, R110, R111, R113, R123). -/

namespace Sys2Proof.Machine

/-! ## The sequencer's work at a partition change -/

section
variable (i : SecId) (old : MeasCopy) (p : Part)

/-- Through the sequencer's work an island's carriers stand, and an island that is poised stays so. -/
theorem partitionSequenced_sequenced : Sequenced i (partitionStood old p) (partitionSequenced old p) := by
  have henter : ∀ q j, Sequenced i q (enterSequencer j q.islands[j].condition q) := fun q j => by
    by_cases hij : i = j
    · subst hij
      exact sequenced_enterSequencer i _ q
    · exact (spares_enterSequencer hij q _).sequenced
  have hcheck : ∀ q j, Sequenced i q (recheckStops j q) := fun q j => by
    by_cases hij : i = j
    · subst hij
      exact sequenced_recheckStops i q
    · exact (spares_recheckStops hij q).sequenced
  exact (Sequenced.fold (f := fun q j => enterSequencer j q.islands[j].condition q) _ _ fun q _ j _ => henter q j).trans
    (Sequenced.fold (f := fun q j => recheckStops j q) _ _ fun q _ j _ => hcheck q j)

theorem partitionSequenced_rises : attRises (partitionStood old p) (partitionSequenced old p) :=
  ((Effects.fold _ (fun q j => effects_enterSequencer j _ q) (formedIds old p) _).trans
    (Effects.fold _ (fun q j => effects_recheckStops j q) (formedIds old p) _)).attention_rises.1

end

/-- A poised island that a generator carries is not DEAD. -/
theorem Poised.alive {old : Island} {i : SecId} {b : Part} (h : Poised old i b) (hc : carrying b i ≠ []) :
    b.islands[i].condition ≠ .dead := by
  obtain ⟨⟨-, hcondition⟩, -⟩ := h.stands
  rw [hcondition]
  exact (conditionOf_dead_iff b i _).not.mpr hc

section
variable {old : MeasCopy} {p : Part} {i : SecId} (hi : isIslandId p.img.ties i = true)
include hi

/-- A kept island's timers are started from zero, and nothing else of it moves (R52, R113). -/
theorem partitionChange_kept (hk : islandKind old p.img.ties i = .kept) (hr : isRunning p = true) :
    (∃ o, Stopped o ∧ Timed o (partitionChange old p) i) ∧ entriesOf (partitionChange old p) i = entriesOf p i := by
  have hother : i ∉ formedIds old p := fun h => (mem_formedIds.mp h).2 hk
  obtain ⟨a, hbefore, hstood⟩ := partitionStood_kept hi hk
  have henter := Spares.others (f := fun q j => enterSequencer j q.islands[j].condition q)
    (fun q j hij => spares_enterSequencer hij q _) hother (partitionStood old p)
  have hcheck := Spares.others (f := fun q j => recheckStops j q) (fun q j hij => spares_recheckStops hij q) hother
    ((formedIds old p).foldl (fun q j => enterSequencer j q.islands[j].condition q) (partitionStood old p))
  obtain ⟨b, hladder, hend⟩ := Spares.turn (f := ladderAtPartition old p.img.ties)
    (fun q j hij => spares_ladderAtPartition hij old p.img.ties q) (nodup_islandIds p) (mem_islandIds.mpr hi)
    (partitionSequenced old p)
  have hown : ladderAtPartition old p.img.ties b i = b := if_pos hk
  rw [hown, ← partitionChange_eq] at hend
  have hafter := (hstood.trans (henter.trans hcheck)).trans (hladder.trans hend)
  have hrun : isRunning (stopTimers i a) = true := hbefore.running.trans hr
  refine ⟨⟨(stopTimers i a).islands[i], ?_, ?_⟩, ?_⟩
  · rw [stopTimers, setIsland_islands, setAt_same]
    exact ⟨rfl, rfl, rfl⟩
  · exact (timed_syncTimers i hrun).congr hafter.standing hafter.plans hafter.ms hafter.entries
  · exact hafter.entries.trans ((entriesOf_congr (by simp) (by simp) (by simp) i).trans hbefore.entries)

/-- An island newly formed comes to the ladder poised, with the carriers it was formed of; one that is DEAD has set attention
DEAD. The ladder's turn is the last work in it. -/
theorem exists_partitionLadder (hk : islandKind old p.img.ties i ≠ .kept) (hr : isRunning p = true) :
    ∃ b, SameCarriers i p b ∧ Poised Island.blank i b ∧
      (b.islands[i].condition = .dead → b.att.word.getLsbD 0 = true) ∧
      Spares i (ladderAtPartition old p.img.ties b i) (partitionChange old p) := by
  obtain ⟨hformed, hmark⟩ := partitionStood_formed hi hk
  have hseq := partitionSequenced_sequenced i old p
  obtain ⟨b, hladder, hend⟩ := Spares.turn (f := ladderAtPartition old p.img.ties)
    (fun q j hij => spares_ladderAtPartition hij old p.img.ties q) (nodup_islandIds p) (mem_islandIds.mpr hi)
    (partitionSequenced old p)
  rw [← partitionChange_eq] at hend
  have hturn : Sequenced i (partitionStood old p) b := hseq.trans hladder.sequenced
  have hpoised : Poised Island.blank i (partitionStood old p) :=
    ⟨hformed.view.running.trans hr, hformed.stands, hformed.running hr, .inl ⟨rfl, rfl, rfl⟩⟩
  refine ⟨b, hformed.view.sameCarriers.trans hturn.toSameCarriers, hturn.poised _ hpoised, fun hdead => ?_, hend⟩
  refine hladder.rises 0 (partitionSequenced_rises old p 0 (hmark ?_))
  obtain ⟨⟨-, hstood⟩, -⟩ := hpoised.stands
  obtain ⟨⟨-, hnow⟩, -⟩ := (hturn.poised _ hpoised).stands
  rw [hstood, ← hturn.condition_iff.1, ← hnow, hdead]

/-- A newly formed island that no generator carries: DEAD, with the dead shed made (R36, R47, R111). -/
theorem partitionChange_dead (hk : islandKind old p.img.ties i ≠ .kept) (hr : isRunning p = true)
    (hc : carrying p i = []) :
    Timed Island.blank (partitionChange old p) i ∧ (partitionChange old p).islands[i].condition = .dead ∧
      (partitionChange old p).att.word.getLsbD 0 = true ∧
      ∀ tg ∈ restoringOf p i ++ candidatesOf p i, hasEntry (partitionChange old p) tg = true := by
  obtain ⟨b, hsame, hpoised, hmark, hend⟩ := exists_partitionLadder hi hk hr
  have hcarry : carrying b i = [] := hsame.carrying.trans hc
  have hdead : b.islands[i].condition = .dead := by
    obtain ⟨⟨-, hcondition⟩, -⟩ := hpoised.stands
    rw [hcondition]
    exact (conditionOf_dead_iff b i _).mpr hcarry
  have hshed : ladderAtPartition old p.img.ties b i = deadShed i b := by
    rw [ladderAtPartition, if_neg hk, if_pos hdead, enterLadder, hpoised.running]
    rfl
  rw [hshed] at hend
  obtain ⟨hentries, -, hstopped, -⟩ := deadShed_sheds hcarry (hpoised.timed.deadStopped hdead)
  refine ⟨(hstopped.congr hend.standing).timed _, hend.standing.condition.trans hstopped.condition,
    hend.rises 0 ((effects_deadShed i b).attention_rises.1 0 (hmark hdead)), fun tg htg => ?_⟩
  rw [← hsame.restoringOf, ← hsame.candidatesOf] at htg
  have hin : targetIsland (deadShed i b) tg = some i := by
    rw [(islandsOf_congr (p := b) (q := deadShed i b) (by simp) (by simp)).2.2.2]
    exact (List.mem_append.mp htg).elim targetIsland_of_mem_restoringOf targetIsland_of_mem_candidatesOf
  rw [hend.hasEntry hin, hentries tg htg]

/-- A merged island that a generator carries sheds nothing (R113). -/
theorem partitionChange_merged (hk : islandKind old p.img.ties i = .merged) (hr : isRunning p = true)
    (hc : carrying p i ≠ []) :
    Timed Island.blank (partitionChange old p) i ∧ entriesOf (partitionChange old p) i = entriesOf p i := by
  have hnew : islandKind old p.img.ties i ≠ .kept := by rw [hk]; decide
  obtain ⟨b, hsame, hpoised, -, hend⟩ := exists_partitionLadder hi hnew hr
  have halive : b.islands[i].condition ≠ .dead := hpoised.alive (by rw [hsame.carrying]; exact hc)
  have hown : ladderAtPartition old p.img.ties b i = b := by
    rw [ladderAtPartition, if_neg hnew, if_neg halive, if_neg]
    rw [hk]
    exact fun h => absurd h.1 (by decide)
  rw [hown] at hend
  exact ⟨hpoised.timed.congr hend.standing hend.plans hend.ms hend.entries, hend.entries.trans hsame.entries⟩

/-- A split island that a generator carries is met where its estimate is within its limit, and else makes its split step
(R110). -/
theorem partitionChange_split (hk : islandKind old p.img.ties i = .split) (hr : isRunning p = true)
    (hc : carrying p i ≠ []) :
    let t := partitionChange old p
    let estimate := splitEstimate p i
    let now := totalsOf p i
    Timed Island.blank t i ∧
    (estimate ≤ now.limit → entriesOf t i = entriesOf p i ∧
      t.islands[i].exhausted = false ∧ t.islands[i].need = 0#20) ∧
    (now.limit < estimate → ∃ new, entriesOf t i = entriesOf p i ++ new ∧
      stepOutcome t i ((estimate : Int) - (now.limit : Int) + (p.header.shedMargin : Int)
        - (now.openingCredit : Int)) new) := by
  intro t estimate now
  have hnew : islandKind old p.img.ties i ≠ .kept := by rw [hk]; decide
  obtain ⟨b, hsame, hpoised, -, hend⟩ := exists_partitionLadder hi hnew hr
  have halive : b.islands[i].condition ≠ .dead := hpoised.alive (by rw [hsame.carrying]; exact hc)
  have hstep : ladderAtPartition old p.img.ties b i = splitStep i b := by
    rw [ladderAtPartition, if_neg hnew, if_neg halive, if_pos ⟨hk, hpoised.running⟩]
  rw [hstep] at hend
  obtain ⟨⟨htotals, -⟩, hheld⟩ := hpoised.stands
  obtain ⟨htimed, hmet, hunmet⟩ := splitStep_outcome hpoised.running hheld ⟨rfl, rfl, rfl⟩ hpoised.timed
  rw [htotals, hsame.splitEstimate, hsame.limit, hsame.entries] at hmet hunmet
  rw [hsame.openingCredit, hsame.header] at hunmet
  refine ⟨htimed.congr hend.standing hend.plans hend.ms hend.entries, fun hle => ?_, fun hlt => ?_⟩
  · obtain ⟨hentries, hmarks⟩ := hmet hle
    exact ⟨hend.entries.trans hentries, by rw [hend.record]; exact hmarks⟩
  · obtain ⟨new, hentries, houtcome⟩ := hunmet hlt
    refine ⟨new, hend.entries.trans hentries, ?_⟩
    unfold stepOutcome at houtcome ⊢
    rw [hend.record]
    exact houtcome

/-- Every island's timers follow from stopped ones (R52). -/
theorem partitionChange_timed (hr : isRunning p = true) : ∃ o, Stopped o ∧ Timed o (partitionChange old p) i := by
  have hblank : Stopped Island.blank := ⟨rfl, rfl, rfl⟩
  by_cases hc : carrying p i = []
  · by_cases hk : islandKind old p.img.ties i = .kept
    · exact (partitionChange_kept hi hk hr).1
    · exact ⟨_, hblank, (partitionChange_dead hi hk hr hc).1⟩
  · cases hk : islandKind old p.img.ties i with
    | kept => exact (partitionChange_kept hi hk hr).1
    | merged => exact ⟨_, hblank, (partitionChange_merged hi hk hr hc).1⟩
    | split => exact ⟨_, hblank, (partitionChange_split hi hk hr hc).1⟩

end

/-! ## The obligation -/

/-- Settles O19, island by island: the sequencer's work leaves an island's carriers, and the ladder's turn comes last. -/
theorem partitionChangeInRunning : Obligations.PartitionChangeInRunning := by
  intro s x hfree hrun m hchange q
  have hr : isRunning q = true := hrun
  have hstay : s.part.plans.partState = .settling → settled (takeCopy .ties x s.part) = false := fun h => by
    simp [isRunning, h] at hrun
  refine ⟨_, exec_tiesWrite_changes hfree hchange hstay, rfl, rfl, ?_⟩
  obtain ⟨-, -, himg, hplans⟩ := partitionChange_frame s.part.img.ties q
  have hafter : isRunning (partitionChange s.part.img.ties q) = true := by rw [isRunning, hplans]; exact hr
  refine ⟨himg, hplans, ((effects_takeCopy ..).trans (effects_partitionChange ..)).attention_rises.1, fun i hi => ?_⟩
  obtain ⟨o, ⟨ho, hd, hk⟩, htimed⟩ := partitionChange_timed (old := s.part.img.ties) (p := q) hi hr
  refine ⟨?_, ?_, ?_, ?_, ?_⟩
  · exact timersFollow_of_timers ho hd hk (htimed.timersFollow hafter)
  · exact fun hkept => (partitionChange_kept (p := q) hi hkept hr).2
  · exact fun hnew hc => (partitionChange_dead (p := q) hi hnew hr hc).2
  · exact fun hmerged hc => (partitionChange_merged (p := q) hi hmerged hr hc).2
  · exact fun hsplit hc => (partitionChange_split (p := q) hi hsplit hr hc).2

end Sys2Proof.Machine
end

section
/-! PROOFS. What a change says to the list unit: the reports that it makes, one after another (R157, R160, R161). -/

namespace Sys2Proof.Machine

/-- The start of a post moves the channels by the channels and the time alone. -/
theorem tryPost_lu_congr (ch : Chan) {p q : Part} (hlu : q.lu = p.lu) (hms : q.ms = p.ms) :
    (tryPost ch q).lu = (tryPost ch p).lu := by
  cases ch with
  | command =>
    simp only [tryPost, tryPostCommand, hlu, hms]
    split
    · split
      · exact hlu
      · split <;> rfl
    · exact hlu
  | notice =>
    simp only [tryPost, tryPostNotice, hlu, hms]
    split
    · split
      · exact hlu
      · rfl
    · exact hlu

/-- A report moves the channels by the channels and the time alone. -/
theorem Report.make_lu_congr (r : Report) {p q : Part} (hlu : q.lu = p.lu) (hms : q.ms = p.ms) :
    (r.make q).lu = (r.make p).lu := by
  cases r with
  | command c =>
    simp only [Report.make, giveCommand, hlu]
    refine tryPost_lu_congr .command ?_ ?_ <;> split <;> simp [hms]
  | notice n =>
    simp only [Report.make, queueNotice, hlu]
    split
    · exact hlu
    · exact tryPost_lu_congr .notice rfl hms
  | attention b => exact hlu

@[simp] theorem Report.make_ms (r : Report) (p : Part) : (r.make p).ms = p.ms := by
  cases r <;> simp [Report.make]

theorem reported_append (rs later : List Report) (p : Part) :
    reported (rs ++ later) p = reported later (reported rs p) := List.foldl_append ..

@[simp] theorem reported_ms (rs : List Report) (p : Part) : (reported rs p).ms = p.ms :=
  foldl_keep Part.ms _ rs p fun q r => r.make_ms q

theorem reported_lu_congr (rs : List Report) {p q : Part} (hlu : q.lu = p.lu) (hms : q.ms = p.ms) :
    (reported rs q).lu = (reported rs p).lu := by
  induction rs generalizing p q with
  | nil => exact hlu
  | cons r rs ih => exact ih (r.make_lu_congr hlu hms) (by simp [hms])

/-- A change that says these reports to the list unit, and takes no time. -/
structure Says (rs : List Report) (p q : Part) : Prop where
  ms : q.ms = p.ms
  lu : q.lu = (reported rs p).lu

namespace Says

/-- A change that leaves the list unit says nothing. -/
theorem nothing {p q : Part} (hms : q.ms = p.ms) (hlu : q.lu = p.lu) : Says [] p q := ⟨hms, hlu⟩

theorem one (r : Report) (p : Part) : Says [r] p (r.make p) := ⟨r.make_ms p, rfl⟩

theorem trans {rs later : List Report} {p q r : Part} (h : Says rs p q) (k : Says later q r) :
    Says (rs ++ later) p r where
  ms := k.ms.trans h.ms
  lu := by
    rw [k.lu, reported_append]
    exact reported_lu_congr later h.lu (by rw [h.ms, reported_ms])

/-- What comes after says nothing more. -/
theorem quiet {rs : List Report} {p q r : Part} (h : Says rs p q) (hms : r.ms = q.ms) (hlu : r.lu = q.lu) :
    Says rs p r := ⟨hms.trans h.ms, hlu.trans h.lu⟩

/-- What came before says nothing. -/
theorem after {rs : List Report} {p q r : Part} (h : Says rs q r) (hms : q.ms = p.ms) (hlu : q.lu = p.lu) :
    Says rs p r := (nothing hms hlu).trans h

end Says

/-- Every event of the plant says something to the list unit, and reaches it in no other way. -/
theorem Reports.says {p q : Part} (h : Reports p q) : ∃ rs, Says rs p q := by
  induction h with
  | refl p => exact ⟨[], .nothing rfl rfl⟩
  | trans _ _ h k =>
    obtain ⟨rs, h⟩ := h
    obtain ⟨later, k⟩ := k
    exact ⟨_, h.trans k⟩
  | plant h => exact ⟨[], .nothing h.2.1 h.2.2.2.1⟩
  | attention b p => exact ⟨_, .one (.attention b) p⟩
  | report n p => exact ⟨_, .one (.notice n) p⟩
  | command c p => exact ⟨_, .one (.command c) p⟩
  | put w d p => exact ⟨[], .nothing rfl rfl⟩

theorem Effects.says {p q : Part} (h : Effects p q) : ∃ rs, Says rs p q := h.reports.says

/-! ## What the sequencer says (R158, R160) -/

/-- A command for a generator (R158). -/
def genCommand (g : GenId) (i : SecId) (kind : CmdKind) (cause : Nat) (a b : Word) : Report :=
  .command { target := .gen g, kind := kind, cause := BitVec.ofNat 8 cause, island := i, a := a, b := b }

/-- A notice with a generator as its subject (R160). -/
def genNotice (g : GenId) (i : SecId) (kind : NoticeKind) (cause detail : Nat) (a b : Word) : Report :=
  .notice (notice kind g.val cause i detail a b)

/-- A GEN_STATE notice, with the engine-ready mark of the generator's copy (R160; assumption log 22). -/
def stateNotice (p : Part) (g : GenId) (i : SecId) (new former : GenState) (a b : Word) : Report :=
  genNotice g i .genState (genStateCode new)
    (genStateCode former + 8 * flag (engineReady p.img.genMeas[g].word)) a b

section
variable {p q : Part} {g : GenId} {i : SecId} (hg : genIsland p g = some i)
include hg

theorem says_giveGen (kind : CmdKind) (cause : Nat) (a b : Word) :
    Says [genCommand g i kind cause a b] p (giveGen g kind cause a b p) := by
  have h := Says.one (genCommand g i kind cause a b) p
  simpa [giveGen, hg, islandField, genCommand, Report.make] using h

theorem says_noticeGen (kind : NoticeKind) (cause detail : Nat) (a b : Word) :
    Says [genNotice g i kind cause detail a b] p (noticeGen g kind cause detail a b p) := by
  have h := Says.one (genNotice g i kind cause detail a b) p
  simpa [noticeGen, hg, islandField, genNotice, Report.make] using h

theorem says_noticeGenState (new former : GenState) (a b : Word) :
    Says [stateNotice p g i new former a b] p (noticeGenState g new former a b p) := says_noticeGen hg ..

end

end Sys2Proof.Machine
end

section
/-! PROOFS. What the sequencer's shared operations leave of an island that they do not move, and what they say (R45, R47,
R62, R71, R84). -/

namespace Sys2Proof.Machine

/-! ## Changes of state that leave an island's totals (R42, R43) -/

/-- The same carriers, and the same of them ONLINE, give the same totals. -/
theorem SameCarriers.totalsOf {i : SecId} {p q : Part} (h : SameCarriers i p q)
    (ho : ∀ g, genIsland p g = some i → (genState q g == .online) = (genState p g == .online)) :
    totalsOf q i = totalsOf p i := by
  have hfirm : (fun g => genIn q i g && genState q g == .online) = fun g => genIn p i g && genState p g == .online := by
    funext g
    rw [h.genIn, genIn]
    by_cases hg : Machine.genIsland p g = some i
    · rw [ho g hg]
    · rw [beq_false_of_ne hg, Bool.false_and, Bool.false_and]
  have hsum : (Machine.totalsOf q i).firm = (Machine.totalsOf p i).firm := by
    simp only [Machine.totalsOf, hfirm, h.genContribution]
  have hlimit := h.limit
  have hload := h.load
  have hcredit := h.openingCredit
  revert hsum hlimit hload hcredit
  cases Machine.totalsOf q i
  cases Machine.totalsOf p i
  rintro rfl rfl rfl rfl
  rfl

theorem SameCarriers.conditionOf {i : SecId} {p q : Part} (h : SameCarriers i p q) (t : Totals) :
    conditionOf q i t = conditionOf p i t := by
  simp only [Machine.conditionOf, h.carrying, h.header]

/-- A generator that carries no load before a change of its state nor after leaves its island's totals. -/
theorem totalsOf_setGen {i : SecId} {g : GenId} {e : Gen} {p q : Part} (hv : LadderView i p q)
    (hq : q.gens = setAt p.gens g e) (hold : carries (genState p g) = false) (hnew : carries e.state = false) :
    totalsOf q i = totalsOf p i ∧ conditionOf q i (totalsOf q i) = conditionOf p i (totalsOf p i) := by
  have hsame : SameCarriers i p q := sameCarriers_setGen hv hq (by rw [hold, hnew])
  have htotals : totalsOf q i = totalsOf p i := by
    refine hsame.totalsOf fun h _ => ?_
    rw [genState, genState, hq, setAt_get]
    split
    · next e =>
      subst e
      simp only [carries, Bool.or_eq_false_iff] at hold hnew
      rw [hnew.1]
      exact hold.1.symm
    · rfl
  exact ⟨htotals, by rw [htotals, hsame.conditionOf]⟩

/-! ## An entry that hands no work on (R47) -/

/-- Outside RUNNING an entry to a condition gives its marks alone. -/
theorem enterCondition_idle {i : SecId} {p : Part} (h : isRunning p = false) : enterCondition i p = enterMarks i p := by
  have hm : isRunning (enterMarks i p) = false := by
    rw [← h]
    simp [isRunning]
  simp [enterCondition, enterSequencer, enterLadder, hm]

/-- With no generator UNLOADING in an island there is no stop to abort. -/
theorem abortAll_none {i : SecId} {p : Part} (cause : AbortCause)
    (h : ∀ g, genIsland p g = some i → p.gens[g].state ≠ .unloading) : abortAll i cause p = p := by
  refine List.foldl_fixed' (fun g => if_neg fun hg => ?_) allGens
  simp only [Bool.and_eq_true, genIn, genState, beq_iff_eq] at hg
  exact h g hg.1 hg.2

/-- An entry outside DEAD, and to OVERLOADED only where nothing is UNLOADING, gives its marks alone. -/
theorem enterCondition_marks {i : SecId} {p : Part} (hd : p.islands[i].condition ≠ .dead)
    (ho : p.islands[i].condition = .overloaded → ∀ g, genIsland p g = some i → p.gens[g].state ≠ .unloading) :
    enterCondition i p = enterMarks i p := by
  by_cases hc : p.islands[i].condition = .overloaded
  · rw [enterCondition_eq hc, enterLadder_alive i _ (by decide), enterSequencer]
    split
    · refine abortAll_none .overload fun g hg => ?_
      simp only [enterMarks_frame]
      exact ho hc g (by rw [← hg]; simp [genIsland])
    · rfl
  · exact enterCondition_quiet hd hc

/-- An update of the island hands no work on: the part is not RUNNING, or the island keeps its condition, or it enters one
that asks nothing of the sequencer and the ladder. -/
def Settles (i : SecId) (p : Part) : Prop :=
  isRunning p = false ∨ conditionOf p i (totalsOf p i) = p.islands[i].condition ∨
    conditionOf p i (totalsOf p i) ≠ .dead ∧ (conditionOf p i (totalsOf p i) = .overloaded →
      ∀ g, genIsland p g = some i → p.gens[g].state ≠ .unloading)

/-- The part after a generator's change up to the entry that it may bring. -/
def recomputed (i : SecId) (forced : Option GenId) (p : Part) : Part := computeTargets i forced (retotal i p)

@[simp] theorem recomputed_frame (i : SecId) (forced : Option GenId) (p : Part) :
    (recomputed i forced p).base = p.base ∧ (recomputed i forced p).ms = p.ms ∧ (recomputed i forced p).img = p.img ∧
      (recomputed i forced p).gens = p.gens ∧ (recomputed i forced p).cmd = p.cmd ∧
      (recomputed i forced p).cons = p.cons ∧ (recomputed i forced p).drives = p.drives ∧
      (recomputed i forced p).shedList = p.shedList ∧ (recomputed i forced p).lu = p.lu ∧
      (recomputed i forced p).plans = p.plans ∧ (recomputed i forced p).free = p.free := by
  simp [recomputed]

/-- The island after its update and the computation of its targets holds what its members give, and its marks. -/
theorem recomputed_record (i : SecId) (forced : Option GenId) (p : Part) :
    let r := (recomputed i forced p).islands[i]
    r.totals = totalsOf p i ∧ r.condition = conditionOf p i (totalsOf p i) ∧ r.exhausted = p.islands[i].exhausted ∧
      r.need = p.islands[i].need ∧ r.standbyExhausted = p.islands[i].standbyExhausted := by
  obtain ⟨b, hb⟩ := computeTargets_record i forced (retotal i p)
  obtain ⟨htotals, hcondition, -⟩ := retotal_record i p
  obtain ⟨hexhausted, hneed, hstandby⟩ := retotal_marks i p
  simp only [recomputed, hb]
  exact ⟨htotals, hcondition, hexhausted, hneed, hstandby⟩

/-- The update enters a condition where it gives another than the island held. -/
theorem entered_recomputed (i : SecId) (forced : Option GenId) (p : Part) :
    entered i p (recomputed i forced p) = true ↔ ¬conditionOf p i (totalsOf p i) = p.islands[i].condition := by
  obtain ⟨-, hcondition, -⟩ := recomputed_record i forced p
  rw [entered, hcondition, bne_iff_ne]
  exact ne_comm

theorem afterGen_eq {g : GenId} {i : SecId} (forced : Option GenId) {p : Part} (hg : genIsland p g = some i) :
    afterGen g forced p = if conditionOf p i (totalsOf p i) = p.islands[i].condition then recomputed i forced p
      else enterCondition i (recomputed i forced p) := by
  simp only [afterGen, hg]
  rw [← recomputed, ite_congr (propext (entered_recomputed i forced p)) (fun _ => rfl) fun _ => rfl, ite_not]

theorem afterGenInner_eq {g : GenId} {i : SecId} (forced : Option GenId) {p : Part} (hg : genIsland p g = some i) :
    afterGenInner g forced p = if conditionOf p i (totalsOf p i) = p.islands[i].condition then recomputed i forced p
      else enterMarks i (recomputed i forced p) := by
  simp only [afterGenInner, hg]
  rw [← recomputed, ite_congr (propext (entered_recomputed i forced p)) (fun _ => rfl) fun _ => rfl, ite_not]

/-- Where the update hands no work on, an event of a generator ends as one within another event does. -/
theorem afterGen_settles {g : GenId} {i : SecId} (forced : Option GenId) {p : Part} (hg : genIsland p g = some i)
    (h : Settles i p) : afterGen g forced p = afterGenInner g forced p := by
  rw [afterGen_eq forced hg, afterGenInner_eq forced hg]
  obtain ⟨-, hcondition, -⟩ := recomputed_record i forced p
  split
  · rfl
  · next hne =>
    rcases h with h | h | ⟨hd, ho⟩
    · exact enterCondition_idle (by rw [← h]; simp [isRunning])
    · exact absurd h hne
    · refine enterCondition_marks (by rw [hcondition]; exact hd) fun hc x hx => ?_
      rw [hcondition] at hc
      simp only [recomputed_frame]
      exact ho hc x (by rw [← hx]; simp [genIsland])

/-- What the island holds after an event of a generator that hands no work on. -/
theorem afterGenInner_record {g : GenId} {i : SecId} (forced : Option GenId) {p : Part} (hg : genIsland p g = some i) :
    let r := (afterGenInner g forced p).islands[i]
    r.totals = totalsOf p i ∧ r.condition = conditionOf p i (totalsOf p i) ∧
      (p.islands[i].standbyExhausted = false → r.standbyExhausted = false) ∧
      (conditionOf p i (totalsOf p i) = p.islands[i].condition → r.exhausted = p.islands[i].exhausted ∧
        r.need = p.islands[i].need ∧ r.standbyExhausted = p.islands[i].standbyExhausted) := by
  obtain ⟨htotals, hcondition, hexhausted, hneed, hstandby⟩ := recomputed_record i forced p
  rw [afterGenInner_eq forced hg]
  split
  · exact ⟨htotals, hcondition, fun h => hstandby.trans h, fun _ => ⟨hexhausted, hneed, hstandby⟩⟩
  · next hne =>
    obtain ⟨x, n, e, -⟩ := enterMarks_record i (recomputed i forced p)
    rw [e]
    exact ⟨htotals, hcondition, fun _ => rfl, fun h => absurd h hne⟩

/-! ## What the sequencer's operations say -/

section
variable {p : Part} {g : GenId} {i : SecId} (hg : genIsland p g = some i)
include hg

/-- The generator's island stands through a change of its state. -/
theorem genIsland_changeState (e : Gen) : genIsland (changeState g e p) g = some i := by
  rw [← hg]
  simp [genIsland]

/-- A start says START_GEN and GEN_STATE (R62). -/
theorem says_startGenerator (auto : Bool) (cause : StartCause) :
    Says [genCommand g i .startGen (startCauseCode cause) (kw (genRating p g)) 0#32,
      stateNotice p g i .starting (genState p g) 0#32 0#32] p (startGenerator g auto cause p) := by
  have hchanged := genIsland_changeState hg (startingGen auto cause p)
  have hgiven : Says [_] p _ := (says_giveGen hchanged .startGen (startCauseCode cause) (kw (genRating p g)) 0#32).after
    (by simp) (by simp)
  have hnoticed := hgiven.trans (says_noticeGenState (p := giveGen g .startGen (startCauseCode cause)
    (kw (genRating p g)) 0#32 (changeState g (startingGen auto cause p) p)) (g := g) (i := i)
    (by rw [← hg]; simp [genIsland]) .starting (genState p g) 0#32 0#32)
  simp only [stateNotice, giveGen_frame, changeState_frame] at hnoticed
  exact hnoticed.quiet (by simp [startGenerator, startingGen]) (by simp [startGenerator, startingGen])

/-- A withdrawn stop says START_GEN with cause RETURN where OPEN_GEN was given, and UNLOAD_ABORTED (R71). -/
theorem says_abortUnloading (cause : AbortCause) :
    Says ((if p.gens[g].openIssued = true then [genCommand g i .startGen returnCode (kw (genRating p g)) 0#32] else []) ++
      [genNotice g i .unloadAborted (abortCauseCode cause) 0 (kw p.gens[g].ramp) 0#32]) p
      (abortUnloading g cause p) := by
  have hchanged := genIsland_changeState hg { Gen.init with state := .online }
  unfold abortUnloading
  simp only []
  cases p.gens[g].openIssued
  · have h : Says [_] p _ := (says_noticeGen hchanged .unloadAborted (abortCauseCode cause) 0 (kw p.gens[g].ramp) 0#32).after
      (by simp) (by simp)
    exact h.quiet (by simp) (by simp)
  · have hgiven : Says [_] p _ := (says_giveGen hchanged .startGen returnCode (kw (genRating p g)) 0#32).after
      (by simp) (by simp)
    have h := hgiven.trans (says_noticeGen (p := giveGen g .startGen returnCode (kw (genRating p g)) 0#32
      (changeState g { Gen.init with state := .online } p)) (g := g) (i := i) (by rw [← hg]; simp [genIsland])
      .unloadAborted (abortCauseCode cause) 0 (kw p.gens[g].ramp) 0#32)
    exact h.quiet (by simp) (by simp)

end

end Sys2Proof.Machine
end

section
/-! PROOFS. What a computation of an island's targets gives one generator: its target, its ramp-in cap and its store-queue
entry (R85 to R92). -/

namespace Sys2Proof.Machine

/-! ## The store-queue entry of a TARGET word (R8) -/

/-- The store-queue entry of a generator's TARGET word. -/
def targetEntry (q : List SqEntry) (g : GenId) : Option SqEntry := q.find? fun e => e.word == .genTarget g

theorem targetEntry_put (d : Word) (q : List SqEntry) (g : GenId) :
    targetEntry (sqPut (.genTarget g) d q) g = some ⟨.genTarget g, d⟩ := by
  unfold targetEntry
  induction q with
  | nil => simp [sqPut]
  | cons e q ih =>
    unfold sqPut
    split
    · simp
    · next he => simp [he, ih]

theorem targetEntry_put_other {w : SqWord} (d : Word) (q : List SqEntry) {g : GenId} (h : w ≠ .genTarget g) :
    targetEntry (sqPut w d q) g = targetEntry q g := by
  unfold targetEntry
  induction q with
  | nil => simp [sqPut, h]
  | cons e q ih =>
    unfold sqPut
    split
    · next he => simp [he, h]
    · simp only [List.find?_cons, ih]

/-- The entry stands in the queue, with its word. -/
theorem mem_of_targetEntry {q : List SqEntry} {g : GenId} {e : SqEntry} (h : targetEntry q g = some e) :
    e ∈ q ∧ e.word = .genTarget g := by
  have hword := List.find?_some h
  exact ⟨List.mem_of_find?_eq_some h, by simpa using hword⟩

/-! ## One generator's share -/

/-- A generator's sharing entry and the store-queue entry of its target. -/
def shareOf (p : Part) (g : GenId) : Sharing × Option SqEntry := (p.sharing[g], targetEntry p.sq g)

/-- A generator's share as the writing of its target leaves it (R91). -/
def sharesWritten (s : Sharing) (g : GenId) (target : Nat) : Sharing × Option SqEntry :=
  ({ s with lastWritten := target }, some ⟨.genTarget g, pack [(target, 0, 16)]⟩)

theorem shareOf_writeTarget (g : GenId) (target : Nat) (p : Part) :
    shareOf (writeTarget g target p) g = sharesWritten p.sharing[g] g target := by
  simp [shareOf, sharesWritten, writeTarget, targetEntry_put]

theorem shareOf_writeTarget_other {g h : GenId} (hne : h ≠ g) (target : Nat) (p : Part) :
    shareOf (writeTarget h target p) g = shareOf p g := by
  have hsharing : (writeTarget h target p).sharing[g] = p.sharing[g] := by
    rw [writeTarget, (enqueue_frame _ _ _).2.2.2.2.2.1, setSharing_sharing, setAt_other _ _ hne]
  have hsq : targetEntry (writeTarget h target p).sq g = targetEntry p.sq g := by
    rw [writeTarget, enqueue_sq]
    exact targetEntry_put_other _ _ (by simpa using hne)
  rw [shareOf, hsharing, hsq, shareOf]

/-- The targets of several generators written by the deadband. -/
theorem shareOf_offerTargets (deadband : Nat) (forced : Option GenId) (target : GenId → Nat) (g : GenId)
    {l : List GenId} (hl : l.Nodup) (p : Part) :
    shareOf (l.foldl (fun q h => offerTarget deadband forced h (target h) q) p) g
      = if g ∈ l ∧ writesTarget deadband (forced == some g) (target g) p.sharing[g].lastWritten = true then
          sharesWritten p.sharing[g] g (target g)
        else shareOf p g := by
  induction l generalizing p with
  | nil => simp
  | cons h l ih =>
    obtain ⟨hnot, hl⟩ := List.nodup_cons.mp hl
    rw [List.foldl_cons, ih hl]
    by_cases hgh : h = g
    · subst hgh
      rw [if_neg fun hc => hnot hc.1, offerTarget]
      by_cases hw : writesTarget deadband (forced == some h) (target h) p.sharing[h].lastWritten = true
      · rw [if_pos hw, if_pos ⟨List.mem_cons_self, hw⟩, shareOf_writeTarget]
      · rw [if_neg hw, if_neg fun hc => hw hc.2]
    · have hfirst : shareOf (offerTarget deadband forced h (target h) p) g = shareOf p g := by
        rw [offerTarget]
        split
        · exact shareOf_writeTarget_other hgh _ p
        · rfl
      have hsharing : (offerTarget deadband forced h (target h) p).sharing[g] = p.sharing[g] :=
        congrArg Prod.fst hfirst
      have hmem : g ∈ h :: l ↔ g ∈ l := by simp [Ne.symm hgh]
      simp only [hfirst, hsharing, hmem]

/-! ## The caps that a computation finds reached (R87, R90) -/

/-- A generator's sharing entry once the caps that the computation finds reached are removed. -/
def capJudged (p : Part) (i : SecId) (g : GenId) : Sharing :=
  if g ∈ uncapped p i ∧ p.sharing[g].capOpen = true then dropCap p.sharing[g] else p.sharing[g]

theorem dropReachedCaps_sharing (i : SecId) (p : Part) (g : GenId) :
    (dropReachedCaps i p).sharing[g] = capJudged p i g := by
  have hfold : ∀ (l : List GenId) (v : Vector Sharing 8),
      (l.foldl (fun v g => if v[g].capOpen then setAt v g (dropCap v[g]) else v) v)[g]
        = if g ∈ l ∧ v[g].capOpen = true then dropCap v[g] else v[g] := by
    intro l
    induction l with
    | nil => simp
    | cons h l ih =>
      intro v
      rw [List.foldl_cons, ih]
      by_cases hgh : h = g
      · subst hgh
        by_cases hc : v[h].capOpen = true
        · rw [if_pos hc, setAt_same, if_neg fun hd => absurd hd.2 Bool.false_ne_true,
            if_pos ⟨List.mem_cons_self, hc⟩]
        · rw [if_neg hc, if_neg fun hd => hc hd.2, if_neg fun hd => hc hd.2]
      · have hmem : g ∈ h :: l ↔ g ∈ l := by simp [Ne.symm hgh]
        have hsame : (if v[h].capOpen = true then setAt v h (dropCap v[h]) else v)[g] = v[g] := by
          split
          · exact setAt_other _ _ hgh
          · rfl
        simp only [hsame, hmem]
  exact hfold (uncapped p i) p.sharing

theorem capJudged_lastWritten (p : Part) (i : SecId) (g : GenId) :
    (capJudged p i g).lastWritten = p.sharing[g].lastWritten := by
  unfold capJudged
  split <;> rfl

theorem mem_carrying {p : Part} {i : SecId} {g : GenId} :
    g ∈ carrying p i ↔ genIsland p g = some i ∧ carries (genState p g) = true := by
  simp [carrying, allGens, genIn]

theorem nodup_carrying (p : Part) (i : SecId) : (carrying p i).Nodup := (List.nodup_finRange 8).filter _

theorem mem_sharers {p : Part} {i : SecId} {g : GenId} :
    g ∈ sharers p i ↔ genIsland p g = some i ∧ p.gens[g].state = .online ∧ reqFixed p.img.genReq[g] = false := by
  simp [sharers, isSharer, mem_gensOf, genState]

theorem mem_uncapped {p : Part} {i : SecId} {g : GenId} :
    g ∈ uncapped p i ↔ g ∈ sharers p i ∧ isCapped p i g = false := by
  simp [uncapped]

/-- A computation gives each carrier of the island its target, where the deadband or its entry has it written, and drops
the caps that it finds reached. -/
theorem shareOf_computeTargets (i : SecId) (forced : Option GenId) (p : Part) (g : GenId) :
    shareOf (computeTargets i forced p) g
      = if g ∈ carrying p i ∧ writesTarget p.header.shareDeadband (forced == some g) (targetOf p i g)
            p.sharing[g].lastWritten = true then
          sharesWritten (capJudged p i g) g (targetOf p i g)
        else (capJudged p i g, targetEntry p.sq g) := by
  have hsharing : (judgeNoSharer i (dropReachedCaps i p)).sharing[g] = capJudged p i g := by
    simp only [judgeNoSharer_frame, dropReachedCaps_sharing]
  have hsq : (judgeNoSharer i (dropReachedCaps i p)).sq = p.sq := by simp
  unfold computeTargets
  rw [List.foldl_map, shareOf_offerTargets _ _ (targetOf p i) _ (nodup_carrying p i), shareOf, hsharing, hsq,
    capJudged_lastWritten]

/-- A computation leaves the share of a generator that does not carry the island's load. -/
theorem shareOf_computeTargets_other {i : SecId} {p : Part} {g : GenId} (forced : Option GenId) (h : g ∉ carrying p i) :
    shareOf (computeTargets i forced p) g = shareOf p g := by
  have hcap : capJudged p i g = p.sharing[g] := by
    refine if_neg fun hc => h ?_
    obtain ⟨hin, honline, -⟩ := mem_sharers.mp (mem_uncapped.mp hc.1).1
    exact mem_carrying.mpr ⟨hin, by rw [genState, honline]; rfl⟩
  rw [shareOf_computeTargets, if_neg fun hc => h hc.1, hcap, shareOf]

/-! ## What a target rests on (R85 to R88) -/

section
variable {i : SecId} {p q : Part} (h : IslandView i p q)
  (hload : q.islands[i].totals.load = p.islands[i].totals.load)
include h

theorem gensOf_congr : gensOf q i = gensOf p i := by simp only [gensOf, h.genIn]

theorem sharers_congr : sharers q i = sharers p i := by
  rw [sharers, sharers, gensOf_congr h]
  refine List.filter_congr fun g hg => ?_
  rw [isSharer, isSharer, genState, genState, h.gens g (mem_gensOf.mp hg), h.img]

theorem settledTarget_congr {g : GenId} (hg : genIsland p g = some i) : settledTarget q g = settledTarget p g := by
  have hstate : genState q g = genState p g := by rw [genState, genState, h.gens g hg]
  unfold settledTarget isFixed
  rw [hstate, h.gens g hg, h.img, h.genContribution]

theorem shareFactor_congr : shareFactor q = shareFactor p := by
  funext g
  simp only [shareFactor, genRating, h.img, h.plans]

include hload

/-- A first share rests on the island's generators, its load, the copies and the plan. -/
theorem firstShare_congr (g : GenId) : firstShare q i g = firstShare p i g := by
  have hsettled : (gensOf q i).map (settledTarget q) = (gensOf p i).map (settledTarget p) := by
    rw [gensOf_congr h]
    exact List.map_congr_left fun g hg => settledTarget_congr h (mem_gensOf.mp hg)
  simp only [firstShare, shareFactor_congr h, sharers_congr h, remainder, hload, hsettled]

/-- A target rests beside on which generators of the island their caps hold back, and at what values. -/
theorem targetOf_congr (hcap : ∀ g, genIsland p g = some i → isCapped q i g = isCapped p i g ∧
      (isCapped p i g = true → q.sharing[g].capValue = p.sharing[g].capValue)) {g : GenId}
    (hg : genIsland p g = some i) : targetOf q i g = targetOf p i g := by
  have hin : ∀ g ∈ sharers p i, genIsland p g = some i := fun g hg => (mem_sharers.mp hg).1
  have huncapped : uncapped q i = uncapped p i := by
    rw [uncapped, uncapped, sharers_congr h]
    exact List.filter_congr fun g hg => by rw [(hcap g (hin g hg)).1]
  have hcapped : (sharers q i).filter (isCapped q i) = (sharers p i).filter (isCapped p i) := by
    rw [sharers_congr h]
    exact List.filter_congr fun g hg => (hcap g (hin g hg)).1
  have hcut : cutOff q i = cutOff p i := by
    rw [cutOff, cutOff, hcapped]
    refine congrArg List.sum (List.map_congr_left fun g hg => ?_)
    obtain ⟨hg, hc⟩ := List.mem_filter.mp hg
    rw [firstShare_congr h hload, (hcap g (hin g hg)).2 hc]
  have hsharer : isSharer q g = isSharer p g := by rw [isSharer, isSharer, genState, genState, h.gens g hg, h.img]
  have hrating : genRating q g = genRating p g := by simp only [genRating, h.plans]
  rw [targetOf, targetOf, hsharer, (hcap g hg).1, firstShare_congr h hload, shareFactor_congr h, huncapped, hcut,
    settledTarget_congr h hg, hrating]
  by_cases hc : isCapped p i g = true
  · rw [(hcap g hg).2 hc]
  · simp only [hc, Bool.false_eq_true, if_false]

end

/-- Where the sharing entries of the island's generators stand, so do its targets. -/
theorem targetOf_stands {i : SecId} {p q : Part} (h : IslandView i p q)
    (hload : q.islands[i].totals.load = p.islands[i].totals.load)
    (hsharing : ∀ g, genIsland p g = some i → q.sharing[g] = p.sharing[g]) {g : GenId} (hg : genIsland p g = some i) :
    targetOf q i g = targetOf p i g :=
  targetOf_congr h hload (fun x hx => by
    rw [isCapped, isCapped, hsharing x hx, firstShare_congr h hload]
    exact ⟨rfl, fun _ => rfl⟩) hg

theorem islandView_computeTargets (i : SecId) (forced : Option GenId) (p : Part) :
    IslandView i p (computeTargets i forced p) := ⟨.of_eq i (by simp), by simp⟩

theorem computeTargets_load (i : SecId) (forced : Option GenId) (p : Part) :
    (computeTargets i forced p).islands[i].totals.load = p.islands[i].totals.load := by
  rw [(computeTargets_standing i forced p).totals]

/-- The sharing entry of a generator after a computation, but for its last target. -/
theorem sharing_computeTargets (i : SecId) (forced : Option GenId) (p : Part) (g : GenId) :
    ∃ last, (computeTargets i forced p).sharing[g] = { capJudged p i g with lastWritten := last } := by
  have hshare := congrArg Prod.fst (shareOf_computeTargets i forced p g)
  split at hshare
  · exact ⟨_, hshare⟩
  · exact ⟨_, hshare⟩

/-- The targets that a computation writes are those that the island has after it. -/
theorem targetOf_computeTargets {i : SecId} {p : Part} {g : GenId} (forced : Option GenId)
    (hg : genIsland p g = some i) : targetOf (computeTargets i forced p) i g = targetOf p i g := by
  have hview := islandView_computeTargets i forced p
  have hload := computeTargets_load i forced p
  refine targetOf_congr hview hload (fun x hx => ?_) hg
  obtain ⟨last, hlast⟩ := sharing_computeTargets i forced p x
  rw [isCapped, isCapped, hlast, firstShare_congr hview hload]
  by_cases hr : x ∈ uncapped p i ∧ p.sharing[x].capOpen = true
  · have hopen := (mem_uncapped.mp hr.1).2
    rw [isCapped] at hopen
    rw [capJudged, if_pos hr, hopen]
    exact ⟨rfl, nofun⟩
  · rw [capJudged, if_neg hr]
    exact ⟨rfl, fun _ => rfl⟩

/-- The target of the generator whose entry makes the computation is written whatever the deadband (R92). -/
theorem shareOf_computeTargets_forced {i : SecId} {p : Part} {g : GenId} (h : g ∈ carrying p i) :
    shareOf (computeTargets i (some g) p) g = sharesWritten (capJudged p i g) g (targetOf p i g) := by
  rw [shareOf_computeTargets, if_pos ⟨h, by simp [writesTarget]⟩]

end Sys2Proof.Machine
end

section
/-! PROOFS. A controller's write of a generator's REQ word: the grant, the action by the generator's state, and the
computation that a change of MODE or WEIGHT brings (R61, R84, R144). -/

namespace Sys2Proof.Machine

/-- The part with the copy of a REQ word taken, its self-clearing ACTION as 0 (R24). -/
def reqTaken (g : GenId) (x : Word) (p : Part) : Part :=
  { p with img := { p.img with genReq := setAt p.img.genReq g (x &&& ~~~3#32) } }

/-- Whether a REQ write changes MODE or WEIGHT (R144). -/
def reqChanges (g : GenId) (x : Word) (p : Part) : Bool :=
  reqFixed p.img.genReq[g] != reqFixed (x &&& ~~~3#32) || reqWeight p.img.genReq[g] != reqWeight (x &&& ~~~3#32)

/-- The part after a REQ write: the action, then the computation (R144). -/
def requested (g : GenId) (x : Word) (p : Part) : Part :=
  shareChange g (reqChanges g x p) (genAction g (reqAction x) (reqTaken g x p))

/-- CP's write of a REQ word of a present generator at a free port: stored, and handed to its owner (R144). -/
theorem windowWrite_request {s : State} {g : GenId} {x : Word} {i : SecId} (h : portFree .cp s = true)
    (hg : genIsland s.part g = some i) (hx : bit x 4 = true ∨ bits x 8 4 ≠ 0) :
    windowWrite .cp (genWordOffset g 1) 15#4 x .free s
      = { s with bus := busAfterWrite .cp (windowAddr s.part.base (genWordOffset g 1)) 15#4 (x &&& ~~~3#32) s.bus
                 part := requested g x s.part } := by
  have ho := genWordOffset_aligned g (w := 1) (by decide)
  have hpresent : s.part.plans.active.gens[g] ≠ none := fun hn => by simp [genIsland, hn] at hg
  have hv : writeVerdict .cp (.genReq g) 15#4 x s.part = none := by
    rw [writeVerdict, classVerdict_cp, reqCheck_eq, if_neg (by decide), if_neg (by decide), if_neg fun hc => ?_,
      if_neg fun hc => hpresent hc.2]
    rcases hx with hx | hx
    · exact absurd (hx.symm.trans hc.1) (by decide)
    · exact hx hc.2
  rw [windowWrite_granted .cp _ (.genReq g) 15#4 x s ho.1 ho.2 (classify_genReq g) nofun hv h]
  simp only [jobOf, jobEvent, storedWord, genReqEvent, requested, reqTaken, reqChanges, setAt_same]

/-- What the self-clearing ACTION leaves: every field above it. -/
theorem bits_clearAction (x : Word) {lo : Nat} (h : 2 ≤ lo ∧ lo + 4 ≤ 32) : bits (x &&& ~~~3#32) lo 4 = bits x lo 4 := by
  refine Nat.eq_of_testBit_eq fun n => ?_
  have hmask : n < 4 → Nat.testBit 4294967292 (n + lo) = true := by
    obtain ⟨hlo, hhi⟩ := h
    intro hn
    have hall : ∀ k < 32, 2 ≤ k → Nat.testBit 4294967292 k = true := by decide
    exact hall (n + lo) (by omega) (by omega)
  rw [bits, bits, Nat.testBit_mod_two_pow, Nat.testBit_mod_two_pow, Nat.testBit_div_two_pow, Nat.testBit_div_two_pow]
  by_cases hn : n < 4 <;> simp [hn, hmask]

theorem reqFixed_clearAction (x : Word) : reqFixed (x &&& ~~~3#32) = reqFixed x := by
  have hbit : Nat.testBit 4294967292 4 = true := by decide
  simp [reqFixed, bit, hbit]

theorem reqWeight_clearAction (x : Word) : reqWeight (x &&& ~~~3#32) = reqWeight x :=
  bits_clearAction x (by decide)

/-- A write that repeats MODE and WEIGHT brings no computation. -/
theorem reqChanges_of_same {g : GenId} {x : Word} {p : Part} (hmode : reqFixed p.img.genReq[g] = bit x 4)
    (hweight : reqWeight p.img.genReq[g] = bits x 8 4) : reqChanges g x p = false := by
  rw [reqChanges, reqFixed_clearAction, reqWeight_clearAction, hmode, hweight]
  simp [reqFixed, reqWeight]

/-- The computation that a change of MODE or WEIGHT brings leaves the island, but for its no-sharer mark. -/
theorem shareChange_record (g : GenId) (ch : Bool) (p : Part) (i : SecId) :
    ∃ b, (shareChange g ch p).islands[i] = { p.islands[i] with noSharer := b } := by
  unfold shareChange
  split
  · split
    · exact ⟨_, rfl⟩
    · next j _ =>
      by_cases hij : i = j
      · subst hij
        exact computeTargets_record i none p
      · refine ⟨p.islands[i].noSharer, ?_⟩
        exact (spares_computeTargets hij p none).record
  · exact ⟨_, rfl⟩

end Sys2Proof.Machine
end

section
/-! PROOFS. The share of a generator after an event that enters it to ONLINE: its target written, its cap judged, and
what a later computation keeps of both (R84, R90, R92). -/

namespace Sys2Proof.Machine

/-- A change of state in which the generator does not leave ONLINE, and does not cease to carry load, changes its entry
alone (R90, R92). -/
theorem changeState_kept {g : GenId} {e : Gen} {p : Part} (honline : genState p g ≠ .online ∨ e.state = .online)
    (hcarries : carries (genState p g) = false ∨ carries e.state = true) : changeState g e p = setGen g e p := by
  have hcap : ¬((genState p g) = .online ∧ e.state ≠ .online) := by
    rintro ⟨h, k⟩
    exact honline.elim (absurd h) k
  have hzero : (carries (genState p g) && !carries e.state) = false := by
    rcases hcarries with h | h <;> simp [h]
  rw [genState] at hcap hzero
  simp only [changeState, if_neg hcap, hzero, Bool.false_eq_true, if_false]

@[simp] theorem shareOf_enterMarks (i : SecId) (p : Part) (g : GenId) : shareOf (enterMarks i p) g = shareOf p g := by
  simp [shareOf]

/-- The share that an event of a generator leaves is that of its computation. -/
theorem shareOf_afterGenInner {g : GenId} {i : SecId} (forced : Option GenId) {p : Part} (hg : genIsland p g = some i)
    (h : GenId) : shareOf (afterGenInner g forced p) h = shareOf (recomputed i forced p) h := by
  rw [afterGenInner_eq forced hg]
  split
  · rfl
  · exact shareOf_enterMarks ..

/-- The targets that an event of a generator leaves are those of its computation. -/
theorem targetOf_afterGenInner {g h : GenId} {i : SecId} (forced : Option GenId) {p : Part} (hg : genIsland p g = some i)
    (hh : genIsland p h = some i) : targetOf (afterGenInner g forced p) i h = targetOf (retotal i p) i h := by
  have hwritten : targetOf (recomputed i forced p) i h = targetOf (retotal i p) i h :=
    targetOf_computeTargets forced (by rw [← hh]; simp [genIsland])
  rw [← hwritten, afterGenInner_eq forced hg]
  split
  · rfl
  · refine targetOf_stands ⟨.of_eq i (by simp), by simp⟩ ?_ (by simp) (by rw [← hh]; simp [genIsland])
    rw [(enterMarks_standing i _).totals]

/-- The entry that makes an event's computation leaves the generator its target, written, and its cap judged. -/
theorem shareOf_afterGenInner_forced {g : GenId} {i : SecId} {p : Part} (hg : genIsland p g = some i)
    (hc : carries (genState p g) = true) :
    shareOf (afterGenInner g (some g) p) g
      = sharesWritten (capJudged (retotal i p) i g) g (targetOf (afterGenInner g (some g) p) i g) := by
  have hcarrying : g ∈ carrying (retotal i p) i :=
    mem_carrying.mpr ⟨by rw [← hg]; simp [genIsland], by rw [← hc]; simp [genState]⟩
  rw [shareOf_afterGenInner _ hg, targetOf_afterGenInner _ hg hg]
  exact shareOf_computeTargets_forced hcarrying

/-- The store queue holds the last target written for a generator. -/
def LastQueued (p : Part) (g : GenId) : Prop :=
  targetEntry p.sq g = some ⟨.genTarget g, pack [(p.sharing[g].lastWritten, 0, 16)]⟩

theorem lastQueued_of_shareOf {p : Part} {g : GenId} {s : Sharing} {target : Nat}
    (h : shareOf p g = sharesWritten s g target) : LastQueued p g := by
  obtain ⟨hsharing, hentry⟩ := Prod.mk.inj h
  rw [LastQueued, hentry, hsharing]

/-- A computation keeps the last target written in the queue, and opens no cap. -/
theorem lastQueued_computeTargets {p : Part} {g : GenId} (i : SecId) (h : LastQueued p g) :
    LastQueued (computeTargets i none p) g := by
  have hshare := shareOf_computeTargets i none p g
  split at hshare
  · exact lastQueued_of_shareOf hshare
  · obtain ⟨hsharing, hentry⟩ := Prod.mk.inj hshare
    rw [LastQueued, hentry, hsharing, h, capJudged_lastWritten]

theorem capJudged_closed {p : Part} {i : SecId} {g : GenId} (h : p.sharing[g].capOpen = false) :
    (capJudged p i g).capOpen = false := by
  unfold capJudged
  split
  · rfl
  · exact h

theorem computeTargets_closed {p : Part} {g : GenId} (i : SecId) (forced : Option GenId)
    (h : p.sharing[g].capOpen = false) : (computeTargets i forced p).sharing[g].capOpen = false := by
  obtain ⟨last, hlast⟩ := sharing_computeTargets i forced p g
  rw [hlast]
  exact capJudged_closed h

/-- A change of MODE, WEIGHT or FIXED keeps the last target written in the queue, and opens no cap. -/
theorem shareChange_keeps (g : GenId) (ch : Bool) {p : Part} {h : GenId} :
    (LastQueued p h → LastQueued (shareChange g ch p) h) ∧
      (p.sharing[h].capOpen = false → (shareChange g ch p).sharing[h].capOpen = false) := by
  unfold shareChange
  split
  · split
    · exact ⟨id, id⟩
    · exact ⟨lastQueued_computeTargets _, computeTargets_closed _ none⟩
  · exact ⟨id, id⟩

/-- A withdrawn stop writes the generator's target whatever the deadband, and opens no cap (R71, R92). -/
theorem shareOf_abortUnloading {p : Part} {g : GenId} {i : SecId} (cause : AbortCause) (hg : genIsland p g = some i) :
    ∃ s, shareOf (abortUnloading g cause p) g = sharesWritten s g (targetOf (abortUnloading g cause p) i g) ∧
      (p.sharing[g].capOpen = false → s.capOpen = false) := by
  unfold abortUnloading
  simp only []
  rw [changeState_kept (.inr rfl) (.inr rfl)]
  refine ⟨_, shareOf_afterGenInner_forced ?_ ?_, fun h => capJudged_closed ?_⟩
  · rw [← hg]
    split <;> simp [genIsland]
  · split <;> simp [genState, setGen, carries]
  · refine Eq.trans ?_ h
    split <;> simp [setGen]

end Sys2Proof.Machine
end

section
/-! PROOFS. The actions of a REQ write that start a generator or withdraw its stop: O24 and O25 (R61, R62, R71). -/

namespace Sys2Proof.Machine

/-- The computation after the action leaves all but the targets, the caps and the no-sharer mark as the action does. -/
theorem requested_frame (g : GenId) (x : Word) (p : Part) :
    let done := genAction g (reqAction x) (reqTaken g x p)
    (requested g x p).gens = done.gens ∧ (requested g x p).cmd = done.cmd ∧ (requested g x p).cons = done.cons ∧
      (requested g x p).drives = done.drives ∧ (requested g x p).shedList = done.shedList ∧
      (requested g x p).lu = done.lu := by
  simp [requested]

theorem requested_plans (g : GenId) (x : Word) (p : Part) :
    (requested g x p).plans = p.plans ∧
      (requested g x p).img = { p.img with genReq := setAt p.img.genReq g (x &&& ~~~3#32) } := by
  simp [requested, reqTaken]

theorem requested_rises (g : GenId) (x : Word) (p : Part) : attRises p (requested g x p) :=
  ((effects_genAction g (reqAction x) (reqTaken g x p)).trans (effects_shareChange g (reqChanges g x p) _)).attention_rises.1

/-- What the action says is said from the part before the write. -/
theorem Says.requested {rs : List Report} {g : GenId} {x : Word} {p : Part}
    (h : Says rs (reqTaken g x p) (genAction g (reqAction x) (reqTaken g x p))) :
    (requested g x p).lu = (reported rs p).lu := by
  obtain ⟨-, -, -, -, -, hlu⟩ := requested_frame g x p
  rw [hlu, h.lu]
  exact reported_lu_congr rs rfl rfl

theorem reqAction_start {x : Word} (h : bits x 0 2 = 1) : reqAction x = .start := by simp [reqAction, h]

theorem reqAction_stop {x : Word} (h : bits x 0 2 = 2) : reqAction x = .stop := by simp [reqAction, h]

theorem reqAction_clear {x : Word} (h : bits x 0 2 = 3) : reqAction x = .clear := by simp [reqAction, h]

section
variable {p : Part} {g : GenId} {i : SecId} (hg : genIsland p g = some i)
include hg

theorem present_of_genIsland : p.plans.active.gens[g].isNone = false := by
  rw [genIsland] at hg
  revert hg
  cases p.plans.active.gens[g] <;> simp

/-- The action of a generator that lies in an island is judged by its state (R61). -/
theorem genAction_of_state {a : Action} {st : GenState} (hs : genState p g = st) :
    genAction g a p = match (generalizing := false) a, st with
      | .start, .idle => startGenerator g false .controller p
      | .start, .unloading => abortUnloading g .controller p
      | .stop, .starting => stopStarting g p
      | .stop, .online => stopCheck g p
      | .clear, .tripped | .clear, .failed => clearFault g p
      | _, _ => p := by
  unfold genAction
  rw [if_neg (by rw [present_of_genIsland hg]; exact Bool.false_ne_true)]
  subst hs
  rfl

end

/-- Settles O24, by the start that the write's action makes. -/
theorem startOfIdle : Obligations.StartOfIdle := by
  intro s g x i hport hg hstate haction hx
  let q := reqTaken g x s.part
  have hq : genIsland q g = some i := hg
  have hidle : genState q g = .idle := hstate
  have hdone : genAction g (reqAction x) q = startGenerator g false .controller q := by
    rw [reqAction_start haction, genAction_of_state hq hidle]
  obtain ⟨hgens, hcmd, hcons, hdrives, hshed, -⟩ := requested_frame g x s.part
  obtain ⟨hplans, himg⟩ := requested_plans g x s.part
  have hsays := says_startGenerator hq false .controller
  rw [hidle, ← hdone] at hsays
  rw [hdone] at hgens hcmd hcons hdrives hshed
  refine ⟨_, congrArg Host.Outcome.next (windowWrite_request hport hg hx), rfl, rfl, himg, ?_, ?_, ?_, ?_,
    ?_, ?_, hplans, requested_rises g x s.part⟩
  · exact hgens.trans (startGenerator_gens g false .controller q)
  · have hlu := hsays.requested
    simp only [stateNotice, genNotice, genStateCode, Nat.zero_add] at hlu
    exact hlu
  all_goals simp [hcmd, hcons, hdrives, hshed, q, reqTaken]

/-- An attention bit stands set where it was just set (R178). -/
theorem setAtt_bit (b : AttBit) (p : Part) : (setAtt b p).att.word.getLsbD (attNumber b) = true := by
  cases b <;> simp [attWord, attNumber]

/-- A withdrawn stop sets attention STOP_END (R71). -/
theorem abortUnloading_stopEnd (g : GenId) (cause : AbortCause) (p : Part) :
    (abortUnloading g cause p).att.word.getLsbD 7 = true :=
  (effects_afterGenInner g (some g) _).attention_rises.1 7 (setAtt_bit .stopEnd _)

/-- Settles O25, by the abort that the write's action makes, and the computation that a change of MODE or WEIGHT adds. -/
theorem startWithdrawsStop : Obligations.StartWithdrawsStop := by
  intro s g x i hport hg hstate haction hx
  let q := reqTaken g x s.part
  have hq : genIsland q g = some i := hg
  have hunloading : genState q g = .unloading := hstate
  have hdone : genAction g (reqAction x) q = abortUnloading g .controller q := by
    rw [reqAction_start haction, genAction_of_state hq hunloading]
  obtain ⟨hgens, hcmd, hcons, hdrives, hshed, -⟩ := requested_frame g x s.part
  obtain ⟨hplans, himg⟩ := requested_plans g x s.part
  obtain ⟨share, hshare, hclosed⟩ := shareOf_abortUnloading .controller hq
  have hsays := says_abortUnloading hq .controller
  rw [← hdone] at hsays hshare
  rw [hdone] at hgens hcmd hcons hdrives hshed
  obtain ⟨hqueued, hcap⟩ := shareChange_keeps g (reqChanges g x s.part) (p := genAction g (reqAction x) q) (h := g)
  have hentry := hqueued (lastQueued_of_shareOf hshare)
  refine ⟨_, congrArg Host.Outcome.next (windowWrite_request hport hg hx), rfl, rfl, himg, ?_, hsays.requested, ?_,
    requested_rises g x s.part, ⟨_, (mem_of_targetEntry hentry).1, rfl, rfl⟩, fun hmode hweight => ?_,
    fun h => hcap ?_, ?_, ?_, ?_, ?_, hplans⟩
  · exact hgens.trans (abortUnloading_gens g .controller q)
  · exact (effects_shareChange g _ _).attention_rises.1 7 (by rw [hdone]; exact abortUnloading_stopEnd g .controller q)
  · have hsame : requested g x s.part = abortUnloading g .controller q := by
      rw [requested, reqChanges_of_same hmode hweight, hdone]
      rfl
    rw [hdone] at hshare
    simp only [hsame]
    exact congrArg (·.1.lastWritten) hshare
  · exact (congrArg (·.1.capOpen) hshare).trans (hclosed h)
  all_goals simp [hcmd, hcons, hdrives, hshed, q, reqTaken]

end Sys2Proof.Machine
end

section
/-! PROOFS. The actions of a REQ write that return a generator to IDLE, or refuse its stop: O26 and O28 (R61, R63, R64,
R79). -/

namespace Sys2Proof.Machine

/-- After a change of a generator that carries no load, before it nor after, the update of an island that held what its
members give hands no work on. -/
theorem settles_setGen {i : SecId} {g : GenId} {e : Gen} {p q : Part} (hv : LadderView i p q)
    (hq : q.gens = setAt p.gens g e) (hold : carries (genState p g) = false) (hnew : carries e.state = false)
    (hc : q.islands[i].condition = p.islands[i].condition) (h : islandAgrees p i ∨ isRunning p = false) :
    Settles i q := by
  rcases h with ⟨-, hagrees⟩ | h
  · obtain ⟨-, hcondition⟩ := totalsOf_setGen hv hq hold hnew
    exact .inr (.inl (by rw [hcondition, hc, hagrees]))
  · exact .inl (by rw [hv.running, h])

/-- A GEN_STATE notice after changes that leave the copies and the plan. -/
theorem says_stateNotice {p q : Part} {g : GenId} {i : SecId} (hg : genIsland p g = some i)
    (hrest : q.img = p.img ∧ q.plans = p.plans) (new former : GenState) (a b : Word) :
    Says [stateNotice p g i new former a b] q (noticeGenState g new former a b q) := by
  obtain ⟨himg, hplans⟩ := hrest
  have h := says_noticeGenState (p := q) (g := g) (i := i) (by rw [← hg, (islandsOf_congr himg hplans).1]) new former a b
  rwa [stateNotice, himg] at h

theorem clearStandbyOf_eq {g : GenId} {i : SecId} {p : Part} (hg : genIsland p g = some i) :
    clearStandbyOf g p = setIsland i { p.islands[i] with standbyExhausted := false } p := by
  simp only [clearStandbyOf, hg]

/-- What a generator that returns to IDLE leaves, where its return hands no work on: its own entry, its reports, and the
standby-exhausted mark cleared (R61, R63, R79). -/
structure Idled (g : GenId) (i : SecId) (rs : List Report) (p q : Part) : Prop where
  gens : q.gens = setAt p.gens g Gen.init
  said : Says rs p q
  standby : q.islands[i].standbyExhausted = false
  cons : q.cons = p.cons
  shedList : q.shedList = p.shedList
  cmd : q.cmd = p.cmd

/-- The return to IDLE of a generator that carries no load, its reports made. -/
theorem idled_afterGen {g : GenId} {i : SecId} {rs : List Report} {p q : Part} (hg : genIsland p g = some i)
    (hs : carries (genState p g) = false) (h : islandAgrees p i ∨ isRunning p = false)
    (hgens : q.gens = setAt p.gens g Gen.init) (hsays : Says rs p q)
    (hrest : q.base = p.base ∧ q.img = p.img ∧ q.plans = p.plans ∧ q.islands = p.islands ∧ q.cons = p.cons ∧
      q.drives = p.drives ∧ q.shedList = p.shedList ∧ q.cmd = p.cmd) :
    Idled g i rs p (afterGen g none (clearStandbyOf g q)) := by
  obtain ⟨hbase, himg, hplans, hislands, hcons, hdrives, hshed, hcmd⟩ := hrest
  have hgq : genIsland q g = some i := by rw [← hg, (islandsOf_congr himg hplans).1]
  have hcleared := clearStandbyOf_eq hgq
  have hview : LadderView i p (clearStandbyOf g q) := by
    rw [hcleared]
    exact .of_eq i (by simp [himg, hplans, hcons, hdrives, hshed, hsays.ms])
  have hsettles : Settles i (clearStandbyOf g q) := by
    refine settles_setGen hview (e := Gen.init) (g := g) (by rw [hcleared]; exact hgens) hs rfl ?_ h
    rw [hcleared, setIsland_islands, setAt_same, hislands]
  have hgr : genIsland (clearStandbyOf g q) g = some i := by rw [hview.genIsland, hg]
  rw [afterGen_settles none hgr hsettles]
  obtain ⟨-, -, hstandby, -⟩ := afterGenInner_record none hgr
  refine ⟨?_, hsays.quiet ?_ ?_, hstandby ?_, ?_, ?_, ?_⟩
  · simp [hgens]
  · simp
  · simp
  · rw [hcleared, setIsland_islands, setAt_same]
  all_goals simp [hcons, hshed, hcmd]

/-- STOP of a STARTING generator (R63). -/
theorem idled_stopStarting {g : GenId} {i : SecId} {p : Part} (hg : genIsland p g = some i)
    (hs : genState p g = .starting) (h : islandAgrees p i ∨ isRunning p = false) :
    Idled g i [genCommand g i .stopGen 0 0#32 0#32, stateNotice p g i .idle .starting 0#32 0#32] p (stopStarting g p) := by
  have hcarries : carries (genState p g) = false := by rw [hs]; rfl
  unfold stopStarting
  rw [changeState_kept (.inl (by rw [hs]; decide)) (.inl hcarries)]
  have hchanged : genIsland (setGen g Gen.init p) g = some i := by rw [← hg]; simp [genIsland]
  have hgiven := (says_giveGen hchanged .stopGen 0 0#32 0#32).after (p := p) (by simp) (by simp)
  have hnoticed := says_stateNotice (q := giveGen g .stopGen 0 0#32 0#32 (setGen g Gen.init p)) hg (by simp)
    .idle .starting 0#32 0#32
  exact idled_afterGen hg hcarries h (by simp [setGen]) (hgiven.trans hnoticed) (by simp)

/-- CLEAR of a TRIPPED or FAILED generator (R61). -/
theorem idled_clearFault {g : GenId} {i : SecId} {p : Part} (hg : genIsland p g = some i)
    (hs : genState p g = .tripped ∨ genState p g = .failed) (h : islandAgrees p i ∨ isRunning p = false) :
    Idled g i [stateNotice p g i .idle (genState p g) 0#32 0#32] p (clearFault g p) := by
  have hcarries : carries (genState p g) = false := by rcases hs with hs | hs <;> rw [hs] <;> rfl
  have honline : genState p g ≠ .online := by rcases hs with hs | hs <;> rw [hs] <;> decide
  unfold clearFault
  simp only []
  rw [changeState_kept (.inl honline) (.inl hcarries)]
  have hnoticed := says_stateNotice (q := setGen g Gen.init p) hg (by simp) .idle (genState p g) 0#32 0#32
  exact idled_afterGen hg hcarries h (by simp [setGen]) (hnoticed.after (by simp) (by simp)) (by simp)

/-- What the computation of a REQ write leaves of a return to IDLE. -/
theorem Idled.requested {g : GenId} {i : SecId} {rs : List Report} {x : Word} {p : Part}
    (h : Idled g i rs (reqTaken g x p) (genAction g (reqAction x) (reqTaken g x p))) :
    let t := requested g x p
    t.gens = setAt p.gens g Gen.init ∧ t.lu = (reported rs p).lu ∧ t.islands[i].standbyExhausted = false ∧
      t.cons = p.cons ∧ t.shedList = p.shedList ∧ t.cmd = p.cmd ∧ t.plans = p.plans := by
  obtain ⟨hgens, hcmd, hcons, -, hshed, -⟩ := requested_frame g x p
  obtain ⟨hplans, -⟩ := requested_plans g x p
  obtain ⟨b, hrecord⟩ := shareChange_record g (reqChanges g x p) (genAction g (reqAction x) (reqTaken g x p)) i
  exact ⟨hgens.trans h.gens, h.said.requested, (congrArg Island.standbyExhausted hrecord).trans h.standby,
    hcons.trans h.cons, hshed.trans h.shedList, hcmd.trans h.cmd, hplans⟩

/-- Settles O26, by the return to IDLE that the write's action makes. -/
theorem returnToIdle : Obligations.ReturnToIdle := by
  intro s g x i hport hg hx hagrees ready
  have hwrite := windowWrite_request hport hg hx
  have hq : genIsland (reqTaken g x s.part) g = some i := hg
  refine ⟨fun hs haction => ?_, fun st hst hs haction => ?_⟩
  · have hstarting : genState (reqTaken g x s.part) g = .starting := hs
    have hidled := idled_stopStarting hq hstarting hagrees
    have hdone : genAction g .stop (reqTaken g x s.part) = stopStarting g (reqTaken g x s.part) :=
      genAction_of_state hq hstarting
    rw [← hdone, ← reqAction_stop haction] at hidled
    exact ⟨_, congrArg Host.Outcome.next hwrite, rfl, hidled.requested⟩
  · have hfault : genState (reqTaken g x s.part) g = st := hs
    have hidled := idled_clearFault hq (hst.imp hs.trans hs.trans) hagrees
    have hdone : genAction g .clear (reqTaken g x s.part) = clearFault g (reqTaken g x s.part) := by
      rw [genAction_of_state hq hfault]
      rcases hst with rfl | rfl <;> rfl
    rw [← hdone, ← reqAction_clear haction, hfault] at hidled
    exact ⟨_, congrArg Host.Outcome.next hwrite, rfl, hidled.requested⟩

/-! ## A refused stop (R64) -/

/-- What the stop check gives of a generator in an island: the reason and the margin of its refusal, or its stop. -/
theorem stopCheck_eq {g : GenId} {i : SecId} {p : Part} (hg : genIsland p g = some i) :
    stopCheck g p = if isRunning p = true then
        if p.islands[i].condition ≠ .sound then refuseStop g 0 (stopMargin p i g) p
        else if stopMargin p i g < (p.header.startMargin : Int) then refuseStop g 1 (stopMargin p i g) p
        else enterUnloading g p
      else refuseStop g 2 0 p := by
  simp only [stopCheck, hg]

theorem says_refuseStop {g : GenId} {i : SecId} {p : Part} (hg : genIsland p g = some i) (reason : Nat) (margin : Int) :
    Says [genNotice g i .stopRefused reason 0 (BitVec.ofInt 32 margin) 0#32] p (refuseStop g reason margin p) :=
  (says_noticeGen hg .stopRefused reason 0 (BitVec.ofInt 32 margin) 0#32).quiet rfl rfl

/-- Settles O28, by the three reasons of the stop check. -/
theorem stopRefused : Obligations.StopRefused := by
  intro s g x i hport hg hs haction hx margin reason value hreason
  let q := reqTaken g x s.part
  have hq : genIsland q g = some i := hg
  have hcheck : stopCheck g q = refuseStop g reason value q := by
    rw [stopCheck_eq hq]
    rcases hreason with ⟨hr, rfl, rfl⟩ | ⟨hr, hc, rfl, rfl⟩ | ⟨hr, hc, hm, rfl, rfl⟩
    · exact if_neg (by rw [show isRunning q = false from hr]; decide)
    · exact (if_pos hr).trans (if_pos hc)
    · exact (if_pos hr).trans ((if_neg fun h => h hc).trans (if_pos hm))
  have hdone : genAction g (reqAction x) q = refuseStop g reason value q := by
    rw [reqAction_stop haction, genAction_of_state (st := .online) hq hs, hcheck]
  obtain ⟨hgens, -, hcons, -, hshed, -⟩ := requested_frame g x s.part
  have hsays := says_refuseStop hq reason value
  rw [← hdone] at hsays
  rw [hdone] at hgens hcons hshed
  refine ⟨_, congrArg Host.Outcome.next (windowWrite_request hport hg hx), rfl, ?_, hsays.requested,
    (effects_shareChange g _ _).attention_rises.1 7 (by rw [hdone]; exact setAtt_bit .stopEnd _), ?_, ?_⟩
  all_goals simp [hgens, hcons, hshed, refuseStop, q, reqTaken]

end Sys2Proof.Machine
end

section
/-! PROOFS. The stop that the stop check passes: the entry to UNLOADING, its island still SOUND: O27 (R64, R66, R68). -/

namespace Sys2Proof.Machine

/-! ## The firm total less one generator (R42, R64) -/

/-- A sum over generators is that without one of them, and its own. -/
theorem sumGens_without {test : GenId → Bool} {g : GenId} (h : test g = true) (f : GenId → Nat) :
    sumGens test f = sumGens (fun x => test x && x != g) f + f g := by
  have hmem : g ∈ allGens.filter test := List.mem_filter.mpr ⟨List.mem_finRange g, h⟩
  have hnodup : (allGens.filter test).Nodup := (List.nodup_finRange 8).filter _
  have hrest : (allGens.filter test).erase g = allGens.filter fun x => test x && x != g := by
    rw [hnodup.erase_eq_filter, List.filter_filter]
    exact List.filter_congr fun x _ => Bool.and_comm ..
  have hperm := (List.perm_cons_erase hmem).map f
  rw [sumGens, hperm.sum_eq, List.map_cons, List.sum_cons, hrest, sumGens, Nat.add_comm]

theorem conditionOf_sound_iff (p : Part) (i : SecId) (t : Totals) :
    conditionOf p i t = .sound ↔
      carrying p i ≠ [] ∧ ¬t.limit < expectedLoad t ∧ (p.header.startMargin : Int) ≤ reserve t := by
  unfold conditionOf
  split
  · simp_all
  · split
    · simp_all
    · split <;> simp_all

section
variable {i : SecId} {g : GenId} {e : Gen} {p q : Part} (hv : LadderView i p q) (hg : genIsland p g = some i)
  (hq : q.gens = setAt p.gens g e) (hold : genState p g = .online) (hnew : e.state = .unloading)
include hv hg hq hold hnew

/-- A generator that goes from ONLINE to UNLOADING takes its contribution from the firm total. -/
theorem firm_unloading : (totalsOf p i).firm = (totalsOf q i).firm + genContribution p g := by
  have htest : (fun x => genIn q i x && genState q x == .online)
      = fun x => (genIn p i x && genState p x == .online) && x != g := by
    funext x
    rw [hv.genIn]
    by_cases hx : x = g
    · subst hx
      have hstate : genState q x = .unloading := by rw [genState, hq, setAt_same, hnew]
      simp [hstate]
    · have hstate : genState q x = genState p x := by rw [genState, hq, setAt_other _ _ (Ne.symm hx), genState]
      simp [hstate, hx]
  have hin : (genIn p i g && genState p g == .online) = true := by simp [genIn, hg, hold]
  simp only [totalsOf, htest, hv.genContribution]
  exact sumGens_without hin _

/-- The island stays SOUND where the firm total less the contribution keeps the margin (R46, R64). -/
theorem conditionOf_unloading (hsound : conditionOf p i (totalsOf p i) = .sound)
    (hmargin : (p.header.startMargin : Int) ≤ ((totalsOf p i).firm : Int) - (genContribution p g : Int)
      - ((totalsOf p i).load : Int)) : conditionOf q i (totalsOf q i) = .sound := by
  have hsame : SameCarriers i p q := sameCarriers_setGen hv hq (by rw [hold, hnew]; rfl)
  obtain ⟨hcarrying, hlimit, -⟩ := (conditionOf_sound_iff ..).mp hsound
  refine (conditionOf_sound_iff ..).mpr ⟨by rw [hsame.carrying]; exact hcarrying, ?_, ?_⟩
  · rw [expectedLoad, hsame.limit, hsame.load, hsame.openingCredit]
    exact hlimit
  · have hfirm := firm_unloading hv hg hq hold hnew
    rw [reserve, hv.header, hsame.load]
    omega

end

/-! ## The entry to UNLOADING (R66, R68) -/

theorem setAt_setAt {α : Type} {n : Nat} (v : Vector α n) (i : Fin n) (x y : α) :
    setAt (setAt v i x) i y = setAt v i y := by
  simp [setAt]

/-- OPEN_GEN given to a generator just replaced. -/
theorem giveOpenGen_gens {g : GenId} {e : Gen} {v : Vector Gen 8} {p : Part} (h : p.gens = setAt v g e) :
    (giveOpenGen g p).gens = setAt v g
      { e with openIssued := true, openTimer := some (after p.ms (100 * p.header.genOpenTimeout)) } := by
  have hgen : (giveOpenGen g p).gens = setAt p.gens g
      { p.gens[g] with openIssued := true, openTimer := some (after p.ms (100 * p.header.genOpenTimeout)) } := by
    simp [giveOpenGen, setGen]
  rw [hgen, h, setAt_same, setAt_setAt]

theorem says_giveOpenGen {g : GenId} {i : SecId} {p : Part} (hg : genIsland p g = some i) :
    Says [genCommand g i .openGen 0 (kw p.gens[g].ramp) (after p.ms (100 * p.header.genOpenTimeout))] p
      (giveOpenGen g p) :=
  (says_giveGen (by rw [← hg]; simp [genIsland]) ..).after (by simp) (by simp)

/-- A generator as its entry to UNLOADING leaves it: ramping down, or at the floor and opening. -/
def unloadingGen (g : GenId) (p : Part) : Gen :=
  let ramp := p.sharing[g].lastWritten
  if ramp ≤ unloadFloor p g then
    { Gen.init with state := .unloading, ramp := ramp, openIssued := true
                    openTimer := some (after p.ms (100 * p.header.genOpenTimeout)) }
  else { Gen.init with state := .unloading, ramp := ramp, rampTimer := some (after p.ms 100) }

/-- What an entry to UNLOADING says: OPEN_GEN where it is at the floor, and GEN_STATE. -/
def unloadingReports (g : GenId) (i : SecId) (p : Part) : List Report :=
  let ramp := p.sharing[g].lastWritten
  (if ramp ≤ unloadFloor p g then
    [genCommand g i .openGen 0 (kw ramp) (after p.ms (100 * p.header.genOpenTimeout))] else []) ++
    [stateNotice p g i .unloading .online 0#32 0#32]

/-- The entry to UNLOADING before its island's update: the generator's entry and the reports. -/
theorem enterUnloading_eq {g : GenId} {i : SecId} {p : Part} (hg : genIsland p g = some i) :
    ∃ r, enterUnloading g p = afterGen g (some g) r ∧ r.gens = setAt p.gens g (unloadingGen g p) ∧
      Says (unloadingReports g i p) p r ∧ r.img = p.img ∧ r.plans = p.plans ∧ r.islands = p.islands ∧
      r.cons = p.cons ∧ r.drives = p.drives ∧ r.shedList = p.shedList := by
  refine ⟨_, rfl, ?_⟩
  unfold unloadingGen unloadingReports
  by_cases h : p.sharing[g].lastWritten ≤ unloadFloor p g
  · simp only [h, decide_true, if_true]
    let e : Gen := { Gen.init with state := .unloading, ramp := p.sharing[g].lastWritten, rampTimer := none }
    have hchanged : (changeState g e p).gens = setAt p.gens g e := changeState_gens g e p
    have hms : after (changeState g e p).ms (100 * (changeState g e p).header.genOpenTimeout)
        = after p.ms (100 * p.header.genOpenTimeout) := by simp [Part.header]
    have hopen := says_giveOpenGen (genIsland_changeState hg e)
    rw [hchanged, setAt_same, hms] at hopen
    refine ⟨?_, ?_, ?_⟩
    · simp only [noticeGenState_frame]
      rw [giveOpenGen_gens hchanged, hms]
      rfl
    · exact (hopen.after (by simp) (by simp)).trans (says_stateNotice hg (by simp) .unloading .online 0#32 0#32)
    · simp
  · simp only [h, decide_false, if_false]
    refine ⟨?_, ?_, ?_⟩
    · simp [changeState_gens]
    · exact (says_stateNotice hg (by simp) .unloading .online 0#32 0#32).after (by simp) (by simp)
    · simp

/-- Settles O27, by the entry to UNLOADING, whose update keeps the island SOUND. -/
theorem stopUnloads : Obligations.StopUnloads := by
  intro s g x i hport hg hs haction hx hr hagrees hsound hmargin ramp floor expiry report
  let q := reqTaken g x s.part
  have hq : genIsland q g = some i := hg
  obtain ⟨htotals, hcondition⟩ := hagrees
  have hdone : genAction g (reqAction x) q = enterUnloading g q := by
    rw [reqAction_stop haction, genAction_of_state (st := .online) hq hs]
    refine (stopCheck_eq hq).trans ((if_pos hr).trans ((if_neg fun h => h hsound).trans (if_neg ?_)))
    exact not_lt.mpr hmargin
  obtain ⟨r, hdone', hgens', hsays, himg, hplans, hislands, hcons', hdrives, hshed'⟩ := enterUnloading_eq hq
  have hview : LadderView i q r := .of_eq i ⟨himg, hplans, hsays.ms, hcons', hdrives, hshed'⟩
  have hgr : genIsland r g = some i := by rw [hview.genIsland, hq]
  have hstays : conditionOf r i (totalsOf r i) = .sound := by
    refine conditionOf_unloading hview hq hgens' hs ?_ (hcondition.symm.trans hsound) ?_
    · unfold unloadingGen
      simp only []
      split <;> rfl
    · rw [← show s.part.islands[i].totals = totalsOf q i from htotals]
      exact hmargin
  have hsettles : Settles i r := .inr (.inl (by rw [hstays, hislands]; exact hsound.symm))
  rw [afterGen_settles _ hgr hsettles] at hdone'
  obtain ⟨hgens, -, hcons, -, hshed, -⟩ := requested_frame g x s.part
  obtain ⟨-, hrecord, -⟩ := afterGenInner_record (some g) hgr
  obtain ⟨b, hshare⟩ : ∃ b, (requested g x s.part).islands[i]
      = { (genAction g (reqAction x) q).islands[i] with noSharer := b } := shareChange_record ..
  have hlu := Says.requested (g := g) (x := x) (p := s.part) (rs := unloadingReports g i q) (by
    rw [hdone, hdone']
    exact hsays.quiet (by simp) (by simp))
  rw [hdone, hdone'] at hgens hcons hshed hshare
  refine ⟨_, congrArg Host.Outcome.next (windowWrite_request hport hg hx), rfl, fun h => ⟨?_, ?_⟩, fun h => ⟨?_, ?_⟩,
    ?_, ?_, ?_⟩
  · refine (hgens.trans (by simp)).trans (hgens'.trans (congrArg (setAt s.part.gens g) ?_))
    exact if_neg (not_le.mpr h)
  · have habove : ¬q.sharing[g].lastWritten ≤ unloadFloor q g := not_le.mpr h
    rw [unloadingReports, if_neg habove] at hlu
    exact hlu
  · refine (hgens.trans (by simp)).trans (hgens'.trans (congrArg (setAt s.part.gens g) ?_))
    exact if_pos h
  · have hbelow : q.sharing[g].lastWritten ≤ unloadFloor q g := h
    rw [unloadingReports, if_pos hbelow] at hlu
    exact hlu
  · exact (congrArg Island.condition hshare).trans (hrecord.trans hstays)
  · simp [hcons, hcons', q, reqTaken]
  · simp [hshed, hshed', q, reqTaken]

end Sys2Proof.Machine
end

section
/-! PROOFS. A standby request, case by case, and the start-delay timer's expiry: O48 (R50, R51, R76 to R78). -/

namespace Sys2Proof.Machine

/-! ## A standby request (R76, R78) -/

/-- An event of a generator sets no standby-exhausted mark. -/
theorem afterGenInner_standby {g : GenId} {i : SecId} (forced : Option GenId) {p : Part} (hg : genIsland p g = some i)
    (h : p.islands[i].standbyExhausted = false) : (afterGenInner g forced p).islands[i].standbyExhausted = false := by
  obtain ⟨-, -, hstandby, -⟩ := afterGenInner_record forced hg
  exact hstandby h

section
variable {p : Part} {i : SecId} (cause : StartCause) (hr : isRunning p = true) (hs : ¬startingIn p i)
include hr hs

/-- With a candidate, and no generator STARTING, the candidate is started automatically. -/
theorem requestStandby_eq_start {h : GenId} (hh : isStandby p i h)
    (hlow : ∀ k, isStandby p i k → k ≠ h → genRank p h < genRank p k) :
    requestStandby i cause p
      = startGenerator h true cause (setIsland i { p.islands[i] with standbyExhausted := false } p) := by
  have hany : anyStarting p i = false := by rwa [← Bool.not_eq_true, anyStarting_iff]
  simp only [requestStandby, hr, hany, standbyCandidate_eq_some hh hlow, Bool.not_false, Bool.and_self, if_true]

/-- With no candidate, and no generator STARTING, the island's standby is exhausted. -/
theorem requestStandby_eq_none (hh : ∀ h, ¬isStandby p i h) : requestStandby i cause p = noStandby i cause p := by
  have hany : anyStarting p i = false := by rwa [← Bool.not_eq_true, anyStarting_iff]
  simp only [requestStandby, hr, hany, standbyCandidate_eq_none hh, Bool.not_false, Bool.and_self, if_true]

/-- What the start of the candidate gives: its entry, its reports, and the standby-exhausted mark cleared. -/
theorem requestStandby_started {h : GenId} (hh : isStandby p i h)
    (hlow : ∀ k, isStandby p i k → k ≠ h → genRank p h < genRank p k) :
    let q := requestStandby i cause p
    q.gens = setAt p.gens h (startingGen true cause p) ∧
      Says [genCommand h i .startGen (startCauseCode cause) (kw (genRating p h)) 0#32,
        stateNotice p h i .starting .idle 0#32 0#32] p q ∧
      q.islands[i].standbyExhausted = false := by
  have hstart := requestStandby_eq_start cause hr hs hh hlow
  refine ⟨requestStandby_starts hr hs hh hlow, ?_, ?_⟩ <;> obtain ⟨hin, hidle, -⟩ := hh
  · have hsays := says_startGenerator (p := setIsland i { p.islands[i] with standbyExhausted := false } p) hin true cause
    rw [show genState (setIsland i _ p) h = .idle from hidle] at hsays
    simp only [hstart]
    exact hsays.after rfl rfl
  · simp only [hstart]
    refine afterGenInner_standby none (by rw [← hin]; simp [genIsland]) ?_
    simp only [noticeGenState_frame, giveGen_frame, changeState_frame, setIsland_islands, setAt_same]

end

/-- A notice of the list unit does not rest on the islands. -/
theorem queueNotice_setIsland (n : Notice) (i : SecId) (r : Island) (p : Part) :
    queueNotice n (setIsland i r p) = setIsland i r (queueNotice n p) := by
  have hpost : ∀ q : Part, tryPostNotice (setIsland i r q) = setIsland i r (tryPostNotice q) := by
    intro q
    simp only [tryPostNotice, setIsland_frame]
    split
    · split <;> rfl
    · rfl
  simp only [queueNotice, setIsland_frame]
  split
  · rfl
  · exact hpost { p with lu := { p.lu with notices := p.lu.notices ++ [n] } }

/-- The request that finds no candidate reports it once (R78). -/
theorem noStandby_eq {i : SecId} {cause : StartCause} {p : Part} (h : p.islands[i].standbyExhausted = false) :
    noStandby i cause p = setIsland i { p.islands[i] with standbyExhausted := true }
      (reported [.notice (notice .noStandby i.val (startCauseCode cause) i 0 0#32 0#32), .attention .startFail] p) :=
  if_neg (by rw [h]; decide)

/-! ## The start-delay timer that a start leaves (R50, R51) -/

/-- The start-delay timer's next rests on the run condition, HELD, the timer itself, the plan and the time. -/
theorem nextStartDelay_congr {p q : Part} {r t : Island} (hc : t.condition = r.condition) (hh : t.held = r.held)
    (hd : t.startDelay = r.startDelay) (hp : q.plans = p.plans) (hms : q.ms = p.ms) :
    nextStartDelay q t = nextStartDelay p r := by
  unfold nextStartDelay Part.header
  rw [hc, hh, hd, hp, hms]

/-- After an event of a generator its island's start-delay timer follows from the one it had. -/
theorem afterGenInner_startDelay {g : GenId} {i : SecId} (forced : Option GenId) {p : Part} (hg : genIsland p g = some i)
    (hr : isRunning p = true) :
    let r := (afterGenInner g forced p).islands[i]
    r.startDelay = nextStartDelay p { r with startDelay := p.islands[i].startDelay } := by
  have hstanding := afterGenInner_standing forced hg
  obtain ⟨-, hcondition, hheld⟩ := retotal_record i p
  simp only []
  rw [hstanding.startDelay, retotal, syncTimers_record (p := setIsland i _ p) i hr]
  refine nextStartDelay_congr ?_ ?_ ?_ rfl rfl <;> rw [setIsland_islands, setAt_same]
  · exact (hstanding.condition.trans hcondition).symm
  · exact (hstanding.held.trans hheld).symm

theorem startGenerator_startDelay {g : GenId} {i : SecId} (auto : Bool) (cause : StartCause) {p : Part}
    (hg : genIsland p g = some i) (hr : isRunning p = true) :
    let r := (startGenerator g auto cause p).islands[i]
    r.startDelay = nextStartDelay p { r with startDelay := p.islands[i].startDelay } := by
  unfold startGenerator
  refine (afterGenInner_startDelay none (by rw [← hg]; simp [genIsland]) (by rw [← hr]; simp [isRunning])).trans ?_
  refine nextStartDelay_congr rfl rfl ?_ ?_ ?_ <;>
    simp only [noticeGenState_frame, giveGen_frame, changeState_frame]

/-- After a standby request its island's start-delay timer, followed again, follows from the one before the request. -/
theorem requestStandby_startDelay {i : SecId} (cause : StartCause) {p : Part} (hr : isRunning p = true) :
    let q := requestStandby i cause p
    nextStartDelay q q.islands[i] = nextStartDelay q { q.islands[i] with startDelay := p.islands[i].startDelay } := by
  unfold requestStandby
  simp only []
  split
  · split
    · next g hg =>
      obtain ⟨hin, -⟩ := ((standbyCandidate_isCandidate p i).2 g hg).1
      have hstart := startGenerator_startDelay (p := setIsland i { p.islands[i] with standbyExhausted := false } p)
        true cause hin hr
      rw [setIsland_islands, setAt_same] at hstart
      exact nextStartDelay_again hstart rfl (.inr rfl) (by simp) (by simp)
    · unfold noStandby
      split
      · rfl
      · simp only [setIsland_islands, setAt_same]
  · rfl

/-! ## The expiry (R77) -/

/-- The start-delay timer started again from the moment of its expiry, from 1 ms where START_DELAY is 0 (R50). -/
def delayAgain (i : SecId) (p : Part) : Part :=
  setIsland i { p.islands[i] with startDelay := .running (after p.ms (max 1 p.header.startDelay)) } p

theorem startDelayExpiry_notDue {i : SecId} {p : Part}
    (h : ∀ e, p.islands[i].startDelay = .running e → due e p.ms = false) : startDelayExpiry i p = p := by
  unfold startDelayExpiry
  split
  · next e he => rw [if_neg (by rw [h e he]; decide)]
  · rfl
  · rfl

theorem startDelayExpiry_due {i : SecId} {p : Part} {e : Word} (he : p.islands[i].startDelay = .running e)
    (hd : due e p.ms = true) :
    startDelayExpiry i p = syncTimers i (requestStandby i .startDelay (delayAgain i p)) := by
  unfold startDelayExpiry
  rw [he]
  exact if_pos hd

/-- A running start-delay timer's next, by the run condition and HELD (R50, R51). -/
theorem nextStartDelay_running (p : Part) (r : Island) (e : Word) :
    nextStartDelay p { r with startDelay := .running e }
      = if r.condition = .short ∨ r.condition = .overloaded then
          if r.held = true then .suspended (msLeft e p.ms) else .running e
        else .stopped := by
  simp only [nextStartDelay]
  cases r.held <;> rfl

/-- The start-delay timer after its expiry: running again, or suspended, where its run condition holds, else stopped. -/
theorem startDelay_again {i : SecId} {p : Part} (hr : isRunning p = true) :
    let r := (syncTimers i (requestStandby i .startDelay (delayAgain i p))).islands[i]
    let again := after p.ms (if p.header.startDelay = 0 then 1 else p.header.startDelay)
    r.startDelay = if r.condition = .short ∨ r.condition = .overloaded then
        if r.held = true then .suspended (msLeft again p.ms) else .running again
      else .stopped := by
  have hagain : max 1 p.header.startDelay = if p.header.startDelay = 0 then 1 else p.header.startDelay := by
    split <;> omega
  have hfollows := requestStandby_startDelay (i := i) .startDelay (p := delayAgain i p) hr
  rw [delayAgain, setIsland_islands, setAt_same, ← delayAgain, hagain] at hfollows
  rw [syncTimers_record i (by rw [← hr]; simp [isRunning, delayAgain])]
  have hms : (requestStandby i .startDelay (delayAgain i p)).ms = p.ms := by simp [delayAgain]
  refine hfollows.trans ((nextStartDelay_running _ _ _).trans ?_)
  rw [hms]

/-- The timers are all that a synchronization moves. -/
theorem syncTimers_islands (i : SecId) (p : Part) :
    syncTimers i p = { p with islands := (syncTimers i p).islands } := by
  obtain ⟨o, d, k, hsync, -⟩ := syncTimers_eq i p
  rw [hsync]
  rfl

/-- Two changes of the islands alone are one. -/
theorem islandsAlone_trans {p q r : Part} (h : q = { p with islands := q.islands })
    (k : r = { q with islands := r.islands }) : r = { p with islands := r.islands } := by
  have hq := congrArg (fun x : Part => ({ x with islands := r.islands } : Part)) h
  exact k.trans hq

theorem reported_setIsland (n : Notice) (b : AttBit) (i : SecId) (r : Island) (p : Part) :
    reported [.notice n, .attention b] (setIsland i r p) = setIsland i r (reported [.notice n, .attention b] p) :=
  congrArg (setAtt b) (queueNotice_setIsland n i r p)

/-- What an expiry that finds no candidate leaves: the exhausted standby reported once (R78). -/
theorem noStandby_delayAgain {i : SecId} {p : Part} :
    let q := noStandby i .startDelay (delayAgain i p)
    q.islands[i].standbyExhausted = true ∧
      (p.islands[i].standbyExhausted = true → q = { p with islands := q.islands }) ∧
      (p.islands[i].standbyExhausted = false →
        q = { reported [.notice (notice .noStandby i.val 1 i 0 0#32 0#32), .attention .startFail] p with
          islands := q.islands }) := by
  have hmark : (delayAgain i p).islands[i].standbyExhausted = p.islands[i].standbyExhausted := by
    rw [delayAgain, setIsland_islands, setAt_same]
  cases h : p.islands[i].standbyExhausted <;> rw [h] at hmark
  · have hnone := noStandby_eq (cause := .startDelay) hmark
    rw [delayAgain, reported_setIsland, ← delayAgain] at hnone
    have hset : (noStandby i .startDelay (delayAgain i p)).islands[i].standbyExhausted = true := by
      simp only [hnone, setIsland_islands, setAt_same]
    exact ⟨hset, nofun, fun _ => by rw [hnone]; rfl⟩
  · have hnone : noStandby i .startDelay (delayAgain i p) = delayAgain i p := if_pos hmark
    simp only [hnone]
    exact ⟨hmark, fun _ => rfl, nofun⟩

/-- The expiry in RUNNING, its timer due. -/
theorem exec_startDelayTimerExpiry_due {i : SecId} {s : State} {e : Word}
    (he : s.part.islands[i].startDelay = .running e) (hd : due e s.part.ms = true) :
    exec (.startDelayTimerExpiry i) s = .next { s with
      part := syncTimers i (requestStandby i .startDelay (delayAgain i s.part)) } :=
  congrArg (fun q : Part => Host.Outcome.next ({ s with part := q } : State)) (startDelayExpiry_due he hd)

/-- Settles O48, by the standby request that the expiry makes. -/
theorem startDelayExpires : Obligations.StartDelayExpires := by
  intro s i
  refine ⟨fun h => congrArg (fun q : Part => Host.Outcome.next ({ s with part := q } : State)) (startDelayExpiry_notDue h),
    fun e he hd hr => ?_⟩
  have hexec := exec_startDelayTimerExpiry_due he hd
  obtain ⟨-, -, -, -, -, hmark⟩ := syncTimers_marks i (requestStandby i .startDelay (delayAgain i s.part))
  refine ⟨⟨_, hexec, startDelay_again hr⟩, fun hs => ⟨_, hexec, rfl, ?_⟩, fun g hs hg hidle hrank hlow => ?_,
    fun hs hnone => ?_⟩
  · rw [requestStandby_starting (p := delayAgain i s.part) hs]
    exact syncTimers_islands i (delayAgain i s.part)
  · have hnot : ¬startingIn (delayAgain i s.part) i := fun ⟨h, hh, hst⟩ => hs h hh hst
    obtain ⟨hgens, hsays, hstandby⟩ := requestStandby_started .startDelay (p := delayAgain i s.part) hr hnot
      ⟨hg, hidle, hrank⟩ fun k ⟨hk, hki, hkr⟩ => hlow k hk hki hkr
    have hlu := (hsays.quiet (r := syncTimers i (requestStandby i .startDelay (delayAgain i s.part)))
      (by simp) (by simp)).after (p := s.part) rfl rfl
    simp only [stateNotice, genNotice, genStateCode, Nat.zero_add] at hlu
    refine ⟨_, hexec, rfl, rfl, Eq.trans ?_ hgens, hlu.lu, hmark.trans hstandby, ?_⟩
    · simp
    · simp [delayAgain]
  · have hnot : ¬startingIn (delayAgain i s.part) i := fun ⟨h, hh, hst⟩ => hs h hh hst
    have hrequest := requestStandby_eq_none .startDelay (p := delayAgain i s.part) hr hnot
      fun h ⟨hh, hi, hrank⟩ => hrank (hnone h hh hi)
    obtain ⟨hmarked, hstands, hreports⟩ := noStandby_delayAgain (i := i) (p := s.part)
    have hsync := syncTimers_islands i (noStandby i .startDelay (delayAgain i s.part))
    rw [hrequest] at hexec hmark
    exact ⟨_, hexec, rfl, rfl, hmark.trans hmarked, fun h => islandsAlone_trans (hstands h) hsync,
      fun h => islandsAlone_trans (hreports h) hsync⟩

end Sys2Proof.Machine
end

section
/-! PROOFS. A ramp step of a stop, and a raise of a ramp-in cap: O51 (R67, R68, R87, R90, R91). -/

namespace Sys2Proof.Machine

/-! ## The ramp step (R67, R68) -/

section
variable {p : Part} {g : GenId} {gp : GenPlan} (hgp : p.plans.active.gens[g] = some gp)
include hgp

theorem genIsland_of_plan : genIsland p g = some (islandId p.img.ties gp.sec) := by
  rw [genIsland, hgp]
  rfl

theorem genRating_of_plan : genRating p g = gp.rating := by
  rw [genRating, hgp]

/-- A due ramp step, with the floor and the rate of the plan. -/
theorem rampDown_due {d : Word} (hs : p.gens[g].state = .unloading) (ht : p.gens[g].rampTimer = some d)
    (hd : due d p.ms = true) :
    let e := p.gens[g]
    let ramp := e.ramp - max 1 (gp.rampRate / 10)
    rampDown g p = computeTargets (islandId p.img.ties gp.sec) none
      (if ramp ≤ gp.rating * p.header.unloadFloorPct / 100 then
        giveOpenGen g (setGen g { e with ramp := ramp, rampTimer := none } p)
      else setGen g { e with ramp := ramp, rampTimer := some (after p.ms 100) } p) := by
  have hdue : p.gens[g].state = .unloading ∧ timerDue p.gens[g].rampTimer p.ms = true := ⟨hs, by rw [ht]; exact hd⟩
  simp only [rampDown, if_pos hdue, hgp, unloadFloor, genRating_of_plan hgp, genIsland_of_plan hgp]

/-! ## The raise of a cap (R90) -/

/-- A sharing entry as a raise leaves it: its cap formed afresh, or removed at the rating (R90). -/
def raisedSharing (gp : GenPlan) (g : GenId) (p : Part) : Sharing :=
  let c := p.sharing[g]
  let cap := c.connection + gp.rampRate * (c.raises.toNat + 1) / 10
  if gp.rating ≤ cap then dropCap c
  else { c with raises := c.raises + 1, capValue := cap, raiseTimer := some (after p.ms 100) }

theorem raiseCap_due {d : Word} (ho : p.sharing[g].capOpen = true) (ht : p.sharing[g].raiseTimer = some d)
    (hd : due d p.ms = true) (hraises : p.sharing[g].raises ≠ 0xFFFF#16) :
    raiseCap g p = computeTargets (islandId p.img.ties gp.sec) none (setSharing g (raisedSharing gp g p) p) := by
  have hdue : (p.sharing[g].capOpen && timerDue p.sharing[g].raiseTimer p.ms) = true := by
    rw [ho, ht]
    exact hd
  have hnat : (p.sharing[g].raises + 1).toNat = p.sharing[g].raises.toNat + 1 := by
    bv_omega
  simp only [raiseCap, if_pos hdue, hgp, nextRaises, if_neg hraises, genRating_of_plan hgp, genIsland_of_plan hgp, hnat,
    raisedSharing]

end

/-! ## The computation that a raise brings (R87, R90, R91) -/

section
variable {p : Part} {i : SecId} {g : GenId}

/-- A cap that the computation does not judge stands: none is open, or the generator is not in MODE SHARE. -/
theorem capJudged_stands (h : p.sharing[g].capOpen = false ∨ reqFixed p.img.genReq[g] = true) :
    capJudged p i g = p.sharing[g] := by
  refine if_neg fun ⟨hmem, hopen⟩ => ?_
  rcases h with h | h
  · exact Bool.false_ne_true (h.symm.trans hopen)
  · obtain ⟨-, -, hshare⟩ := mem_sharers.mp (mem_uncapped.mp hmem).1
    exact Bool.false_ne_true (hshare.symm.trans h)

theorem isCapped_eq_false_iff (ho : p.sharing[g].capOpen = true) :
    isCapped p i g = false ↔ firstShare p i g ≤ p.sharing[g].capValue := by
  rw [isCapped, ho, Bool.true_and, decide_eq_false_iff_not, not_lt]

/-- The open cap of a generator in MODE SHARE is removed where its first share is within it, and else stands. -/
theorem capJudged_sharer (hg : genIsland p g = some i) (hs : p.gens[g].state = .online)
    (hshare : reqFixed p.img.genReq[g] = false) (ho : p.sharing[g].capOpen = true) :
    capJudged p i g = if firstShare p i g ≤ p.sharing[g].capValue then dropCap p.sharing[g] else p.sharing[g] := by
  have hmem : g ∈ uncapped p i ↔ firstShare p i g ≤ p.sharing[g].capValue :=
    mem_uncapped.trans ((and_iff_right (mem_sharers.mpr ⟨hg, hs, hshare⟩)).trans (isCapped_eq_false_iff ho))
  exact ite_congr (propext ((and_iff_left ho).trans hmem)) (fun _ => rfl) fun _ => rfl

/-- A generator that its cap holds back has the cap as its target, within its rating (R87). -/
theorem targetOf_capped (hs : p.gens[g].state = .online) (hshare : reqFixed p.img.genReq[g] = false)
    (ho : p.sharing[g].capOpen = true) (hc : p.sharing[g].capValue < firstShare p i g) :
    targetOf p i g = min p.sharing[g].capValue (genRating p g) := by
  have hsharer : isSharer p g = true := by rw [isSharer, genState, hs, hshare]; rfl
  have hcapped : isCapped p i g = true := by rw [isCapped, ho, decide_eq_true hc]; rfl
  rw [targetOf, hsharer, hcapped]
  rfl

/-- What a computation writes of a carrier's target: by the deadband, the target or nothing (R91). -/
theorem computeTargets_deadband (hg : genIsland p g = some i) (hc : carries (genState p g) = true) :
    let q := computeTargets i none p
    let last := p.sharing[g].lastWritten
    let target := targetOf p i g
    (last + p.header.shareDeadband < target ∨ target + p.header.shareDeadband < last →
      q.sharing[g].lastWritten = target ∧ ∃ x ∈ q.sq, x.word = .genTarget g ∧ x.data = pack [(target, 0, 16)]) ∧
    (last ≤ target + p.header.shareDeadband → target ≤ last + p.header.shareDeadband →
      q.sharing[g].lastWritten = last) := by
  have hmem := mem_carrying.mpr ⟨hg, hc⟩
  have hshare := shareOf_computeTargets i none p g
  have hwrites : (g ∈ carrying p i ∧ writesTarget p.header.shareDeadband (none == some g) (targetOf p i g)
      p.sharing[g].lastWritten = true) ↔ p.sharing[g].lastWritten + p.header.shareDeadband < targetOf p i g ∨
        targetOf p i g + p.header.shareDeadband < p.sharing[g].lastWritten := by
    simp [hmem, writesTarget]
  refine ⟨fun h => ?_, fun hlow hhigh => ?_⟩
  · rw [if_pos (hwrites.mpr h)] at hshare
    obtain ⟨hsharing, hentry⟩ := Prod.mk.inj hshare
    exact ⟨congrArg Sharing.lastWritten hsharing, _, (mem_of_targetEntry hentry).1, rfl, rfl⟩
  · rw [if_neg (hwrites.not.mpr (by omega))] at hshare
    obtain ⟨hsharing, -⟩ := Prod.mk.inj hshare
    rw [hsharing, capJudged_lastWritten]

/-- A computation leaves of a sharing entry what the judgement of its cap leaves, and the last target. -/
theorem sharing_computeTargets_of {x : Sharing} (i : SecId) (forced : Option GenId) (h : capJudged p i g = x) :
    (computeTargets i forced p).sharing[g]
      = { x with lastWritten := (computeTargets i forced p).sharing[g].lastWritten } := by
  obtain ⟨last, hlast⟩ := sharing_computeTargets i forced p g
  rw [hlast, h]

end

/-- Settles O51, by the computation that a ramp step and a raise bring. -/
theorem rampAndCapStep : Obligations.RampAndCapStep := by
  intro s g gp hgp e c i
  have hg : genIsland s.part g = some i := genIsland_of_plan hgp
  have hgens : ∀ q : Part, (computeTargets i none q).gens = q.gens := fun q => by simp
  have hlu : ∀ q : Part, (computeTargets i none q).lu = q.lu := fun q => by simp
  refine ⟨?_, ?_⟩
  · intro d hs ht hd ramp floor expiry
    have hstep := rampDown_due hgp hs ht hd
    by_cases h : ramp ≤ floor
    · have hset : (setGen g { e with ramp := ramp, rampTimer := none } s.part).gens
          = setAt s.part.gens g { e with ramp := ramp, rampTimer := none } := rfl
      have hopen := (says_giveOpenGen (p := setGen g { e with ramp := ramp, rampTimer := none } s.part) hg).after
        (p := s.part) rfl rfl
      rw [hset, setAt_same] at hopen
      simp only [] at hstep
      rw [if_pos h] at hstep
      exact ⟨_, congrArg (fun q : Part => Host.Outcome.next ({ s with part := q } : State)) hstep, rfl, rfl,
        fun habove => absurd h (not_le.mpr habove),
        fun _ => ⟨(hgens _).trans (giveOpenGen_gens hset), (hlu _).trans hopen.lu⟩, by simp⟩
    · simp only [] at hstep
      rw [if_neg h] at hstep
      exact ⟨_, congrArg (fun q : Part => Host.Outcome.next ({ s with part := q } : State)) hstep, rfl, rfl,
        fun _ => ⟨hlu _, hgens _⟩, fun hbelow => absurd hbelow h, by simp⟩
  · intro d ho ht hd hraises cap
    have hraise := raiseCap_due hgp ho ht hd hraises
    let p := setSharing g (raisedSharing gp g s.part) s.part
    have hview : IslandView i s.part p := ⟨.of_eq i (by simp [p]), by simp [p]⟩
    have hentry : p.sharing[g] = raisedSharing gp g s.part := setAt_same ..
    have hkept : cap < gp.rating → p.sharing[g]
        = { c with raises := c.raises + 1, capValue := cap, raiseTimer := some (after s.part.ms 100) } :=
      fun h => hentry.trans (if_neg (not_le.mpr h))
    have hopen : cap < gp.rating → p.sharing[g].capOpen = true := fun h => by rw [hkept h]; exact ho
    have hvalue : cap < gp.rating → p.sharing[g].capValue = cap := fun h => by rw [hkept h]
    have hlast : p.sharing[g].lastWritten = c.lastWritten := by
      rw [hentry, raisedSharing]
      split <;> rfl
    have hfirst : firstShare p i g = firstShare s.part i g := firstShare_congr hview rfl g
    have htarget : cap < gp.rating → reqFixed s.part.img.genReq[g] = false → e.state = .online →
        cap < firstShare s.part i g → targetOf p i g = cap := fun h hshare hs hheld => by
      have hrating : genRating p g = gp.rating := genRating_of_plan hgp
      rw [targetOf_capped (p := p) hs hshare (hopen h) (by rw [hfirst, hvalue h]; exact hheld), hvalue h, hrating,
        min_eq_left h.le]
    refine ⟨_, congrArg (fun q : Part => Host.Outcome.next ({ s with part := q } : State)) hraise, rfl, rfl, ?_⟩
    intro now raised removed
    refine ⟨fun h => ?_, fun h hfixed => ?_, fun h hshare hs => ⟨fun hreached => ?_, fun hheld => ⟨?_, ?_, ?_⟩⟩, ?_⟩
    · have hdropped : p.sharing[g] = dropCap c := hentry.trans (if_pos h)
      exact sharing_computeTargets_of i none ((capJudged_stands (.inl (by rw [hdropped]; rfl))).trans hdropped)
    · have hjudged : capJudged p i g = p.sharing[g] := capJudged_stands (.inr hfixed)
      refine (sharing_computeTargets_of i none (hjudged.trans (hkept h))).trans ?_
      rw [ho]
    · have hjudged := capJudged_sharer (p := p) hg hs hshare (hopen h)
      rw [hfirst, hvalue h, if_pos hreached, hkept h] at hjudged
      exact sharing_computeTargets_of i none hjudged
    · have hjudged := capJudged_sharer (p := p) hg hs hshare (hopen h)
      rw [hfirst, hvalue h, if_neg (not_le.mpr hheld), hkept h] at hjudged
      refine (sharing_computeTargets_of i none hjudged).trans ?_
      rw [ho]
    · exact (targetOf_computeTargets (p := p) none hg).trans (htarget h hshare hs hheld)
    · have hcarries : carries (genState p g) = true := by rw [show genState p g = .online from hs]; rfl
      have hwritten := computeTargets_deadband (p := p) hg hcarries
      rw [htarget h hshare hs hheld, hlast] at hwritten
      exact hwritten
    · simp

end Sys2Proof.Machine
end

section
/-! PROOFS. The start timer's and the open timer's expiries, and the standby start that a failed one asks for: O50 (R65,
R70, R75, R76, R78). -/

namespace Sys2Proof.Machine

/-- With the same carriers, and some, the update of an island that held what its members give hands no work on. -/
theorem settles_carriers {i : SecId} {p q : Part} (h : SameCarriers i p q)
    (hc : q.islands[i].condition = p.islands[i].condition) (hne : carrying p i ≠ [])
    (hagrees : islandAgrees p i ∨ isRunning p = false) : Settles i q := by
  rcases hagrees with ⟨-, hcondition⟩ | hr
  · obtain ⟨hdead, hover⟩ := h.condition_iff
    by_cases ho : conditionOf q i (totalsOf q i) = .overloaded
    · exact .inr (.inl (by rw [ho, hc, hcondition, hover.mp ho]))
    · refine .inr (.inr ⟨fun hd => hne ?_, fun he => absurd he ho⟩)
      exact (conditionOf_dead_iff ..).mp (hdead.mp hd)
  · exact .inl (by rw [h.running, hr])

/-! ## A failed start (R65) -/

/-- The generator FAILED, its reports made, before its island's update (R65). -/
def startFailing (g : GenId) (p : Part) : Part :=
  p |> changeState g { Gen.init with state := .failed }
    |> giveGen g .stopGen 1 0#32 0#32
    |> noticeGen g .startFail (startCauseCode p.gens[g].cause) (flag p.gens[g].readySeen) 0#32 0#32
    |> setAtt .startFail

/-- What a failed start says: STOP_GEN and START_FAIL. -/
def failReports (g : GenId) (i : SecId) (e : Gen) : List Report :=
  [genCommand g i .stopGen 1 0#32 0#32,
    genNotice g i .startFail (startCauseCode e.cause) (flag e.readySeen) 0#32 0#32]

/-- What a failed start leaves before its island asks for the next one. -/
structure StartFailed (g : GenId) (i : SecId) (p q : Part) : Prop where
  gens : q.gens = setAt p.gens g { Gen.init with state := .failed }
  said : Says (failReports g i p.gens[g]) p q
  attention : q.att.word.getLsbD 5 = true
  img : q.img = p.img
  plans : q.plans = p.plans
  cons : q.cons = p.cons
  shedList : q.shedList = p.shedList
  stands : islandAgrees p i → q.islands[i].condition = p.islands[i].condition ∧
    q.islands[i].standbyExhausted = p.islands[i].standbyExhausted

theorem startFailed_afterGen {g : GenId} {i : SecId} {p : Part} (hg : genIsland p g = some i)
    (hs : genState p g = .starting) (h : islandAgrees p i ∨ isRunning p = false) :
    StartFailed g i p (afterGen g none (startFailing g p)) := by
  have hcarries : carries (genState p g) = false := by rw [hs]; rfl
  have hgens : (startFailing g p).gens = setAt p.gens g { Gen.init with state := .failed } := by
    simp [startFailing, changeState_gens]
  have hsaid : Says (failReports g i p.gens[g]) p (startFailing g p) := by
    have hgiven := (says_giveGen (p := changeState g { Gen.init with state := .failed } p) (genIsland_changeState hg _)
      .stopGen 1 0#32 0#32).after (p := p) (by simp) (by simp)
    have hnoticed := says_noticeGen (p := giveGen g .stopGen 1 0#32 0#32
      (changeState g { Gen.init with state := .failed } p)) (g := g) (i := i) (by rw [← hg]; simp [genIsland])
      .startFail (startCauseCode p.gens[g].cause) (flag p.gens[g].readySeen) 0#32 0#32
    exact (hgiven.trans hnoticed).quiet (by simp [startFailing]) (by simp [startFailing])
  have hview : LadderView i p (startFailing g p) := .of_eq i (by simp [startFailing])
  have hgq : genIsland (startFailing g p) g = some i := by rw [hview.genIsland, hg]
  have hislands : (startFailing g p).islands = p.islands := by simp [startFailing]
  have hsettles := settles_setGen hview hgens hcarries rfl (by rw [hislands]) h
  rw [afterGen_settles none hgq hsettles]
  refine ⟨?_, hsaid.quiet ?_ ?_, (effects_afterGenInner g none _).attention_rises.1 5 (setAtt_bit .startFail _), ?_, ?_,
    ?_, ?_, fun hagrees => ?_⟩
  · simp [hgens]
  · simp
  · simp
  · simp [startFailing]
  · simp [startFailing]
  · simp [startFailing]
  · simp [startFailing]
  · obtain ⟨-, hcondition⟩ := totalsOf_setGen hview hgens hcarries rfl
    obtain ⟨-, hrecord, -, hmarks⟩ := afterGenInner_record none hgq
    rw [hcondition, ← hagrees.2, hislands] at hmarks
    rw [hrecord, hcondition, ← hagrees.2]
    exact ⟨rfl, (hmarks rfl).2.2⟩

theorem requestStandby_idle (i : SecId) (cause : StartCause) {p : Part} (h : isRunning p = false) :
    requestStandby i cause p = p := by
  simp [requestStandby, h]

/-- The expiry of the start timer of a generator in an island. -/
theorem startTimeout_due {g : GenId} {i : SecId} {p : Part} {d : Word} (hg : genIsland p g = some i)
    (hs : p.gens[g].state = .starting) (ht : p.gens[g].startTimer = some d) (hd : due d p.ms = true) :
    startTimeout g p = if (p.gens[g].automatic &&
        (afterGen g none (startFailing g p)).islands[i].condition != .sound) = true then
      requestStandby i .fallback (afterGen g none (startFailing g p)) else afterGen g none (startFailing g p) := by
  have hdue : p.gens[g].state = .starting ∧ timerDue p.gens[g].startTimer p.ms = true := ⟨hs, by rw [ht]; exact hd⟩
  simp only [startTimeout, if_pos hdue, hg]
  rfl

/-! ## The next standby start (R65, R75) -/

/-- Another generator of the island in a state. -/
def otherIn (p : Part) (g : GenId) (i : SecId) (st : GenState) (h : GenId) : Prop :=
  h ≠ g ∧ genIsland p h = some i ∧ p.gens[h].state = st

section
variable {g : GenId} {i : SecId} {p q : Part} (h : StartFailed g i p q)
include h

theorem StartFailed.genIsland : genIsland q = genIsland p := (islandsOf_congr h.img h.plans).1

theorem StartFailed.running : isRunning q = isRunning p := by rw [isRunning, isRunning, h.plans]

/-- With the failed one out, a generator is in a state of the sequence where another of the island is. -/
theorem StartFailed.in_iff {st : GenState} (hst : st ≠ .failed) (k : GenId) :
    (Machine.genIsland q k = some i ∧ q.gens[k].state = st) ↔ otherIn p g i st k := by
  rw [h.genIsland, h.gens, setAt_get]
  split
  · next e =>
    subst e
    exact iff_of_false (fun ⟨_, hk⟩ => hst hk.symm) fun ⟨hne, _⟩ => hne rfl
  · next e => exact ⟨fun hk => ⟨fun e' => e e'.symm, hk⟩, fun hk => hk.2⟩

theorem StartFailed.startingIn_iff : startingIn q i ↔ ∃ k, otherIn p g i .starting k :=
  exists_congr fun k => h.in_iff (by decide) k

theorem StartFailed.isStandby_iff (k : GenId) :
    isStandby q i k ↔ otherIn p g i .idle k ∧ genRank p k ≠ 0 := by
  have hrank : genRank q k = genRank p k := by simp only [genRank, h.plans]
  rw [isStandby, ← and_assoc, h.in_iff (by decide) k, hrank]

end

/-- The request that finds no candidate leaves the mark set, and reports it where it was clear (R78). -/
theorem noStandby_gives (i : SecId) (cause : StartCause) (p : Part) :
    let t := noStandby i cause p
    t.gens = p.gens ∧ t.islands[i].standbyExhausted = true ∧
      Says (if p.islands[i].standbyExhausted = true then [] else
        [.notice (notice .noStandby i.val (startCauseCode cause) i 0 0#32 0#32)]) p t := by
  unfold noStandby
  split
  · next h =>
    exact ⟨rfl, h, .nothing rfl rfl⟩
  · refine ⟨by simp, ?_, (Says.one (.notice _) p).quiet rfl rfl⟩
    simp only [setIsland_islands, setAt_same]

/-- The standby that a failed start asks for finds no candidate. -/
theorem StartFailed.exhausts {g : GenId} {i : SecId} {p q : Part} (h : StartFailed g i p q) (hr : isRunning p = true)
    (hstarting : ∀ k, ¬otherIn p g i .starting k) (hidle : ∀ k, otherIn p g i .idle k → genRank p k = 0)
    (hmark : q.islands[i].standbyExhausted = p.islands[i].standbyExhausted) :
    let t := requestStandby i .fallback q
    t.gens = q.gens ∧ t.islands[i].standbyExhausted = true ∧
      Says (if p.islands[i].standbyExhausted = true then [] else
        [.notice (notice .noStandby i.val 4 i 0 0#32 0#32)]) q t := by
  have hnone := requestStandby_eq_none (i := i) .fallback (h.running.trans hr)
    (fun hs => (h.startingIn_iff.mp hs).elim hstarting) fun k hk =>
      (h.isStandby_iff k).mp hk |>.elim fun hother hrank => hrank (hidle k hother)
  rw [hnone, ← hmark]
  exact noStandby_gives i .fallback q

/-- The standby that a failed start asks for starts the candidate. -/
theorem StartFailed.starts {g h : GenId} {i : SecId} {p q : Part} (hq : StartFailed g i p q) (hr : isRunning p = true)
    (hstarting : ∀ k, ¬otherIn p g i .starting k) (hidle : otherIn p g i .idle h) (hrank : genRank p h ≠ 0)
    (hlow : ∀ k, otherIn p g i .idle k → genRank p k ≠ 0 → k ≠ h → genRank p h < genRank p k) :
    let t := requestStandby i .fallback q
    t.gens = setAt q.gens h (startingGen true .fallback p) ∧ t.islands[i].standbyExhausted = false ∧
      Says [genCommand h i .startGen 4 (kw (genRating p h)) 0#32, stateNotice p h i .starting .idle 0#32 0#32] q t := by
  have hsame : genRank q = genRank p ∧ genRating q h = genRating p h := by
    constructor
    · funext k
      simp only [genRank, hq.plans]
    · simp only [genRating, hq.plans]
  obtain ⟨hgens, hsays, hcleared⟩ := requestStandby_started (i := i) .fallback (hq.running.trans hr)
    (fun hs => (hq.startingIn_iff.mp hs).elim hstarting) ((hq.isStandby_iff h).mpr ⟨hidle, hrank⟩) fun k hk hne => by
      obtain ⟨hother, hk⟩ := (hq.isStandby_iff k).mp hk
      rw [hsame.1]
      exact hlow k hother hk hne
  have hentry : startingGen true .fallback q = startingGen true .fallback p := by
    simp only [startingGen, hq.said.ms, Part.header, hq.plans]
  rw [hentry] at hgens
  rw [stateNotice, hq.img, hsame.2] at hsays
  exact ⟨hgens, hcleared, hsays⟩

/-! ## An open timer that expires (R70) -/

/-- The generator ONLINE again, its reports made, before its island's update (R70). -/
def unloadFailing (g : GenId) (p : Part) : Part :=
  p |> changeState g { Gen.init with state := .online }
    |> giveGen g .startGen returnCode (kw (genRating p g)) 0#32
    |> noticeGen g .unloadFailed 0 0 (kw p.gens[g].ramp) 0#32
    |> setAtt .stopEnd

theorem openTimeout_due {g : GenId} {p : Part} {d : Word} (hs : p.gens[g].state = .unloading)
    (ht : p.gens[g].openTimer = some d) (hd : due d p.ms = true) :
    openTimeout g p = afterGen g (some g) (unloadFailing g p) :=
  if_pos ⟨hs, by rw [ht]; exact hd⟩

theorem says_unloadFailing {g : GenId} {i : SecId} {p : Part} (hg : genIsland p g = some i) :
    Says [genCommand g i .startGen returnCode (kw (genRating p g)) 0#32,
      genNotice g i .unloadFailed 0 0 (kw p.gens[g].ramp) 0#32] p (unloadFailing g p) := by
  have hgiven := (says_giveGen (p := changeState g { Gen.init with state := .online } p) (genIsland_changeState hg _)
    .startGen returnCode (kw (genRating p g)) 0#32).after (p := p) (by simp) (by simp)
  have hnoticed := says_noticeGen (p := giveGen g .startGen returnCode (kw (genRating p g)) 0#32
    (changeState g { Gen.init with state := .online } p)) (g := g) (i := i) (by rw [← hg]; simp [genIsland])
    .unloadFailed 0 0 (kw p.gens[g].ramp) 0#32
  exact (hgiven.trans hnoticed).quiet (by simp [unloadFailing]) (by simp [unloadFailing])

/-- A failed stop leaves the island's carriers, and its update hands no work on. -/
theorem settles_unloadFailing {g : GenId} {i : SecId} {p : Part} (hg : genIsland p g = some i)
    (hs : genState p g = .unloading) (h : islandAgrees p i ∨ isRunning p = false) : Settles i (unloadFailing g p) := by
  have hcarries : carries (genState p g) = true := by rw [hs]; rfl
  have hview : LadderView i p (unloadFailing g p) := .of_eq i (by simp [unloadFailing])
  have hgens : (unloadFailing g p).gens = setAt p.gens g { Gen.init with state := .online } := by
    simp [unloadFailing, changeState_gens]
  have hislands : (unloadFailing g p).islands = p.islands := by simp [unloadFailing]
  exact settles_carriers (sameCarriers_setGen hview hgens hcarries.symm) (by rw [hislands])
    (List.ne_nil_of_mem (mem_carrying.mpr ⟨hg, hcarries⟩)) h

/-- What a failed stop leaves: the generator ONLINE again, its reports, and attention STOP_END (R70). -/
theorem openTimeout_fails {g : GenId} {i : SecId} {p : Part} {d : Word} (hg : genIsland p g = some i)
    (hs : p.gens[g].state = .unloading) (ht : p.gens[g].openTimer = some d) (hd : due d p.ms = true)
    (h : islandAgrees p i ∨ isRunning p = false) :
    let t := openTimeout g p
    t.gens = setAt p.gens g { Gen.init with state := .online } ∧
      Says [genCommand g i .startGen returnCode (kw (genRating p g)) 0#32,
        genNotice g i .unloadFailed 0 0 (kw p.gens[g].ramp) 0#32] p t ∧
      t.att.word.getLsbD 7 = true ∧ t.cons = p.cons ∧ t.shedList = p.shedList := by
  rw [openTimeout_due hs ht hd, afterGen_settles _ (by rw [← hg]; simp [genIsland, unloadFailing])
    (settles_unloadFailing hg hs h)]
  refine ⟨?_, (says_unloadFailing hg).quiet (by simp) (by simp),
    (effects_afterGenInner g (some g) (unloadFailing g p)).attention_rises.1 7 (setAtt_bit .stopEnd _), ?_⟩
  · simp [unloadFailing, changeState_gens]
  · simp [unloadFailing]

/-- A start that the controller asked for, or that fails outside RUNNING or in a SOUND island, asks for no other (R65). -/
theorem startTimeout_ends {g : GenId} {i : SecId} {p : Part} {d : Word} (hg : genIsland p g = some i)
    (hs : p.gens[g].state = .starting) (ht : p.gens[g].startTimer = some d) (hd : due d p.ms = true)
    (h : islandAgrees p i ∨ isRunning p = false)
    (hend : p.gens[g].automatic = false ∨ isRunning p = false ∨ p.islands[i].condition = .sound) :
    startTimeout g p = afterGen g none (startFailing g p) := by
  have hfailed := startFailed_afterGen hg hs h
  rw [startTimeout_due hg hs ht hd]
  split
  · next hasks =>
    obtain ⟨hauto, hc⟩ := Bool.and_eq_true_iff.mp hasks
    rcases hend with hmanual | hidle | hsound
    · exact absurd (hmanual.symm.trans hauto) Bool.false_ne_true
    · exact requestStandby_idle _ _ (hfailed.running.trans hidle)
    · rcases h with hagrees | hidle
      · rw [(hfailed.stands hagrees).1, hsound] at hc
        exact absurd hc (by decide)
      · exact requestStandby_idle _ _ (hfailed.running.trans hidle)
  · rfl

/-- An automatic start that fails in RUNNING in an island that is not SOUND asks for the next (R65, R75). -/
theorem startTimeout_asks {g : GenId} {i : SecId} {p : Part} {d : Word} (hg : genIsland p g = some i)
    (hs : p.gens[g].state = .starting) (ht : p.gens[g].startTimer = some d) (hd : due d p.ms = true)
    (h : islandAgrees p i) (hauto : p.gens[g].automatic = true) (hc : p.islands[i].condition ≠ .sound) :
    startTimeout g p = requestStandby i .fallback (afterGen g none (startFailing g p)) := by
  obtain ⟨hcondition, -⟩ := (startFailed_afterGen hg hs (.inl h)).stands h
  rw [startTimeout_due hg hs ht hd, if_pos]
  rw [hauto, hcondition]
  simpa using hc

/-- Settles O50, by the update that an expiry brings, and the standby request of a failed automatic start. -/
theorem generatorTimersExpire : Obligations.GeneratorTimersExpire := by
  intro s g i hg hagrees e
  refine ⟨fun d hs ht hd hend => ?_, ?_, fun d hs ht hd => ?_⟩
  · have hfailed := startFailed_afterGen hg hs hagrees
    have hexec : exec (.startTimerExpiry g) s
        = .next { s with part := afterGen g none (startFailing g s.part) } :=
      congrArg (fun q : Part => Host.Outcome.next ({ s with part := q } : State))
        (startTimeout_ends hg hs ht hd hagrees hend)
    refine ⟨_, hexec, rfl, rfl, ?_⟩
    dsimp only
    exact ⟨hfailed.gens, hfailed.said.lu, hfailed.attention, hfailed.cons, hfailed.shedList⟩
  · intro d hs ht hd hauto hr hc failed others reports
    have hstands : islandAgrees s.part i := hagrees.resolve_right (by rw [hr]; decide)
    have hfailed := startFailed_afterGen hg hs hagrees
    obtain ⟨-, hmark⟩ := hfailed.stands hstands
    have hbit : (requestStandby i .fallback (afterGen g none (startFailing g s.part))).att.word.getLsbD 5 = true :=
      (effects_requestStandby i .fallback (afterGen g none (startFailing g s.part))).attention_rises.1 5 hfailed.attention
    have hexec : exec (.startTimerExpiry g) s
        = .next { s with part := requestStandby i .fallback (afterGen g none (startFailing g s.part)) } :=
      congrArg (fun q : Part => Host.Outcome.next ({ s with part := q } : State))
        (startTimeout_asks hg hs ht hd hstands hauto hc)
    refine ⟨_, hexec, rfl, rfl, by dsimp only; exact hbit, ?_, ?_, fun hstarting => ?_,
      fun h hstarting hidle hrank hlow => ?_, fun hstarting hnone => ?_⟩
    · exact Eq.trans (by simp) hfailed.cons
    · exact Eq.trans (by simp) hfailed.shedList
    · have hwaits := requestStandby_starting (cause := .fallback) (hfailed.startingIn_iff.mpr hstarting)
      dsimp only
      rw [hwaits]
      exact ⟨hfailed.gens, hfailed.said.lu⟩
    · obtain ⟨hgens, hcleared, hsays⟩ := hfailed.starts hr hstarting hidle hrank hlow
      have hsaid := hfailed.said.trans hsays
      simp only [stateNotice, genNotice, genStateCode, Nat.zero_add] at hsaid
      exact ⟨hgens.trans (congrArg (setAt · h _) hfailed.gens), hcleared, hsaid.lu⟩
    · obtain ⟨hgens, hset, hsays⟩ := hfailed.exhausts hr hstarting hnone hmark
      exact ⟨hgens.trans hfailed.gens, hset, (hfailed.said.trans hsays).lu⟩
  · obtain ⟨hgens, hsaid, hrest⟩ := openTimeout_fails hg hs ht hd hagrees
    refine ⟨_, rfl, rfl, rfl, ?_⟩
    dsimp only
    exact ⟨hgens, hsaid.lu, hrest⟩

end Sys2Proof.Machine
end

section
/-! PROOFS. A generator MEAS write of a present generator, and a trip outside RUNNING: O21 (R58, R73, R74, R92). -/

namespace Sys2Proof.Machine

/-! ## The write (R22, R58) -/

/-- The part with a generator's MEAS copy taken, its freshness timer started (R22, R31). -/
def measTaken (g : GenId) (x : Word) (p : Part) : Part :=
  { p with img := { p.img with genMeas := setAt p.img.genMeas g ⟨x, true, some (after p.ms (staleTime p))⟩ } }

/-- The part after a MEAS write of a present generator: moved by its breaker, then the settling condition judged. -/
def measured (g : GenId) (x : Word) (p : Part) : Part :=
  judgeSettled (moveByBreaker g (measKw p.img.genMeas[g]) (measTaken g x p))

theorem exec_generatorMeasWrite {s : State} {g : GenId} {x : Word} (h : portFree .fp s = true)
    (hg : s.part.plans.active.gens[g].isSome = true) :
    exec (.generatorMeasWrite g 15#4 x .free) s = .next { s with
      bus := busAfterWrite .fp (windowAddr s.part.base (genWordOffset g 0)) 15#4 x s.bus
      part := measured g x s.part } := by
  have hwrite := windowWrite_measure (x := x) h (genWordOffset_aligned g (by decide)) (classify_genMeas g)
    (.inr (.inl ⟨g, rfl⟩))
  refine congrArg Host.Outcome.next (hwrite.trans ?_)
  have hevent : genMeasEvent g s.part.img.genMeas[g] (takeCopy (.gen g) x s.part) = measured g x s.part := if_pos hg
  rw [jobOf, jobEvent, hevent]

theorem isSome_of_genIsland {p : Part} {g : GenId} {i : SecId} (hg : genIsland p g = some i) :
    p.plans.active.gens[g].isSome = true := by
  have h := present_of_genIsland hg
  revert h
  cases p.plans.active.gens[g] <;> simp

theorem measTaken_copy (g : GenId) (x : Word) (p : Part) : (measTaken g x p).img.genMeas[g].word = x :=
  congrArg MeasCopy.word (setAt_same ..)

section
variable {g : GenId} {x : Word} {p : Part} (last : Nat)

/-- The move of a generator whose breaker is reported CLOSED (R58). -/
theorem moveByBreaker_closed (hx : bit x 16 = true) :
    moveByBreaker g last (measTaken g x p) = match genState p g with
      | .idle | .starting | .tripped | .failed => goOnline g (measTaken g x p)
      | .online | .unloading => afterGen g none (measTaken g x p) := by
  unfold moveByBreaker
  rw [if_pos (by rw [measTaken_copy]; exact hx)]
  rfl

/-- The move of a generator whose breaker is reported OPEN (R58). -/
theorem moveByBreaker_open (hx : bit x 16 = false) :
    moveByBreaker g last (measTaken g x p) = match genState p g with
      | .starting => noteReady g (measTaken g x p)
      | .online => trip g last (measTaken g x p)
      | .unloading => if p.gens[g].openIssued then stopCompleted g (measTaken g x p) else trip g last (measTaken g x p)
      | .idle | .tripped | .failed => afterGen g none (measTaken g x p) := by
  unfold moveByBreaker
  rw [if_neg (by rw [measTaken_copy, closedBit, hx]; exact Bool.false_ne_true)]
  rfl

end

/-! ## The share of a generator that leaves its load (R90, R92) -/

/-- A generator that ceases to carry load has its target written as 0, and its cap removed where it was ONLINE. -/
theorem shareOf_changeState_leaving {g : GenId} {e : Gen} {p : Part} (hold : carries (genState p g) = true)
    (hnew : carries e.state = false) :
    shareOf (changeState g e p) g
      = sharesWritten (if genState p g = .online then dropCap p.sharing[g] else p.sharing[g]) g 0 := by
  have honline : e.state ≠ .online := fun h => by rw [h] at hnew; exact absurd hnew (by decide)
  have hzero : (carries p.gens[g].state && !carries e.state) = true := by
    rw [hnew]
    exact (Bool.and_true _).trans hold
  unfold changeState
  simp only [hzero, if_true, zeroTarget, shareOf_writeTarget]
  by_cases h : genState p g = .online
  · rw [if_pos ⟨h, honline⟩, if_pos h]
    simp [removeCap, setSharing, setGen]
  · rw [if_neg fun hc => h hc.1, if_neg h]
    rfl

/-- A generator that carries no load keeps its share through its own event. -/
theorem shareOf_afterGenInner_idle {g h : GenId} {i : SecId} (forced : Option GenId) {p : Part}
    (hg : genIsland p g = some i) (hh : h ∉ carrying p i) : shareOf (afterGenInner g forced p) h = shareOf p h := by
  have hcarrying : h ∉ carrying (retotal i p) i := by
    rw [(show SameCarriers i p (retotal i p) from IslandView.sameCarriers ⟨.of_eq i (by simp), by simp⟩).carrying]
    exact hh
  rw [shareOf_afterGenInner _ hg, recomputed, shareOf_computeTargets_other _ hcarrying]
  simp [shareOf]

/-! ## A trip whose update hands no work on (R73) -/

/-- A generator as a trip leaves it. -/
def trippedGen : Gen := { Gen.init with state := .tripped }

/-- The part with the generator tripped, its island's update and targets following. -/
def outOfService (g : GenId) (p : Part) : Part := afterGenInner g none (changeState g trippedGen p)

theorem outOfService_gens (g : GenId) (p : Part) : (outOfService g p).gens = setAt p.gens g trippedGen := by
  simp [outOfService, changeState_gens]

theorem outOfService_frame (g : GenId) (p : Part) :
    (outOfService g p).ms = p.ms ∧ (outOfService g p).img = p.img ∧ (outOfService g p).plans = p.plans ∧
      (outOfService g p).cmd = p.cmd ∧ (outOfService g p).cons = p.cons ∧ (outOfService g p).drives = p.drives ∧
      (outOfService g p).shedList = p.shedList ∧ (outOfService g p).lu = p.lu := by
  simp [outOfService]

section
variable {g : GenId} {i : SecId} {p : Part} (hg : genIsland p g = some i)
include hg

/-- The target of a generator that trips from ONLINE is written as 0, its cap removed (R90, R92). -/
theorem shareOf_outOfService (hs : genState p g = .online) :
    shareOf (outOfService g p) g = sharesWritten (dropCap p.sharing[g]) g 0 := by
  have hstate : genState (changeState g trippedGen p) g = .tripped := by
    rw [genState, changeState_gens, setAt_same]
    rfl
  have hidle : g ∉ carrying (changeState g trippedGen p) i := fun h => by
    have hc := (mem_carrying.mp h).2
    rw [hstate] at hc
    exact absurd hc (by decide)
  rw [outOfService, shareOf_afterGenInner_idle none (genIsland_changeState hg _) hidle,
    shareOf_changeState_leaving (by rw [hs]; rfl) rfl, if_pos hs]

/-- A trip in an island where nothing is UNLOADING and whose update hands no work on: no stop is aborted (R73). -/
theorem trip_eq (last : Nat) (hs : genState p g = .online)
    (hnone : ∀ h, genIsland p h = some i → p.gens[h].state ≠ .unloading)
    (hsettles : Settles i (changeState g trippedGen p)) :
    trip g last p = requestStandby i .trip (noticeGenState g .tripped .online (kw last)
      (kw p.islands[i].totals.load) (setAtt .genTrip (fastStep i p.islands[i].totals.load (outOfService g p)))) := by
  have hquiet : abortAll i .trip (outOfService g p) = outOfService g p := by
    refine abortAll_none .trip fun h hh => ?_
    rw [outOfService_gens, setAt_get]
    split
    · decide
    · exact hnone h (by rw [← hh]; simp [genIsland, outOfService])
  have hevent : afterGen g none (changeState g trippedGen p) = outOfService g p :=
    afterGen_settles none (genIsland_changeState hg _) hsettles
  simp only [trip, hg, hs]
  rw [← trippedGen, hevent, hquiet]

end

/-- A move that does not settle the part has nothing judged after it (R175). -/
theorem judgeSettled_stays {p q : Part} (himg : q.img = p.img) (hplans : q.plans = p.plans)
    (h : p.plans.partState ≠ .settling ∨ settled p = false) : judgeSettled q = q := by
  refine judgeSettled_stands fun hq => ?_
  rw [settled_congr himg hplans, h.resolve_left fun hne => hne (by rw [← hplans, hq])]
  exact Bool.false_ne_true

/-- Settles O21: outside RUNNING the trip gives no more than its own change, its notice and its attention. -/
theorem tripOutsideRunning : Obligations.TripOutsideRunning := by
  intro s g x i hport hx hg hs m hstate hnone
  let q := measTaken g x s.part
  have hq : genIsland q g = some i := hg
  have hidle : isRunning q = false := by
    have hr : s.part.plans.partState ≠ .running := by
      rcases hstate with h | ⟨h, -⟩ <;> rw [h] <;> decide
    exact beq_false_of_ne hr
  have hstopped : isRunning (outOfService g q) = false := by
    rw [← hidle]
    simp [isRunning, outOfService]
  have hfast : fastStep i q.islands[i].totals.load (outOfService g q) = outOfService g q := by
    simp [fastStep, hstopped]
  have htrip := trip_eq hq (measKw s.part.img.genMeas[g]) hs (fun h _ => hnone h)
    (.inl (by rw [← hidle]; simp [isRunning]))
  rw [hfast, requestStandby_idle _ _ (by rw [← hstopped]; simp [isRunning])] at htrip
  have hmoved : measured g x s.part = trip g (measKw s.part.img.genMeas[g]) q := by
    have hmove : moveByBreaker g (measKw s.part.img.genMeas[g]) q = trip g (measKw s.part.img.genMeas[g]) q := by
      rw [moveByBreaker_open _ hx, show genState s.part g = .online from hs]
    rw [measured, hmove]
    refine judgeSettled_stays (p := q) (by simp) (by simp) (hstate.imp (fun h => ?_) And.right)
    rw [show q.plans.partState = .noPlan from h]
    decide
  have hexec := exec_generatorMeasWrite (x := x) hport (isSome_of_genIsland hg)
  rw [hmoved, htrip] at hexec
  obtain ⟨hms, himg, hplans, -, hcons, -, hshed, hlu⟩ := outOfService_frame g q
  have hsaid := says_stateNotice (q := setAtt .genTrip (outOfService g q)) hq (by simp [himg, hplans]) .tripped .online
    (kw (measKw s.part.img.genMeas[g])) (kw s.part.islands[i].totals.load)
  rw [stateNotice, measTaken_copy] at hsaid
  have hshare : shareOf (noticeGenState g .tripped .online (kw (measKw s.part.img.genMeas[g]))
      (kw s.part.islands[i].totals.load) (setAtt .genTrip (outOfService g q))) g
        = sharesWritten (dropCap s.part.sharing[g]) g 0 := by
    refine Eq.trans ?_ (shareOf_outOfService (p := q) hq hs)
    simp [shareOf]
  obtain ⟨hsharing, hentry⟩ := Prod.mk.inj hshare
  have hbit : (setAtt .genTrip (outOfService g q)).att.word.getLsbD 2 = true := setAtt_bit .genTrip _
  refine ⟨_, hexec, ?_, hsharing, ⟨_, (mem_of_targetEntry hentry).1, rfl, rfl⟩, (hsaid.after (p := s.part) hms hlu).lu,
    by dsimp only; exact (effects_noticeGenState ..).attention_rises.1 2 hbit, ?_, ?_⟩
  · simp only [noticeGenState_frame, setAtt_frame, outOfService_gens]
    rfl
  · simp only [noticeGenState_frame, setAtt_frame, hshed]
    rfl
  · simp only [noticeGenState_frame, setAtt_frame, hcons]
    rfl

end Sys2Proof.Machine
end

section
/-! PROOFS. An island's standing through the work of a trip in RUNNING, its timers following from those that ran before it
(R45, R46, R50, R51, R123). -/

namespace Sys2Proof.Machine

/-! ## Timers that ran, formed again -/

/-- The start-delay timer's run condition (R77). -/
def needsStart (c : Condition) : Prop := c = .short ∨ c = .overloaded

theorem nextOverload_onward {p q : Part} {r t : Island} {o : Option Word}
    (ht : t.overload = nextOverload p { r with overload := o }) (h : t.condition = .overloaded → r.condition = .overloaded)
    (hms : q.ms = p.ms) (hp : q.plans = p.plans) : nextOverload q t = nextOverload q { t with overload := o } := by
  by_cases hc : t.condition = .overloaded
  · exact nextOverload_again ht (.inr (hc.trans (h hc).symm)) hms hp
  · simp only [nextOverload, if_neg hc]

theorem nextStartDelay_onward {p q : Part} {r t : Island} {d : DelayTimer}
    (ht : t.startDelay = nextStartDelay p { r with startDelay := d }) (hh : t.held = r.held)
    (h : needsStart t.condition → needsStart r.condition) (hms : q.ms = p.ms) (hp : q.plans = p.plans) :
    nextStartDelay q t = nextStartDelay q { t with startDelay := d } := by
  by_cases hc : needsStart t.condition
  · have hr := h hc
    have hsame : t.startDelay = nextStartDelay p { r with condition := t.condition, startDelay := d } :=
      ht.trans ((if_pos hr).trans (if_pos hc).symm)
    exact nextStartDelay_again (r := { r with condition := t.condition }) hsame hh (.inr rfl) hms hp
  · unfold needsStart at hc
    simp only [nextStartDelay, if_neg hc]

/-- The release-hold timer runs for the target that is judged. -/
theorem target_of_nextReleaseHold {p : Part} {r : Island} {j : Option Target} {tg : Target} {w : Word}
    (h : nextReleaseHold p r j = some (tg, w)) : j = some tg := by
  unfold nextReleaseHold at h
  split at h
  · cases h
  · simp only [] at h
    split at h
    · split at h <;> simp_all
    · simp_all

theorem nextReleaseHold_kept {p : Part} {r : Island} {tg : Target} {w : Word} (h : r.releaseHold = some (tg, w)) :
    nextReleaseHold p r (some tg) = some (tg, w) := by
  simp [nextReleaseHold, h]

theorem nextReleaseHold_fresh {p : Part} {r : Island} {tg : Target} (h : ∀ w, r.releaseHold ≠ some (tg, w)) :
    nextReleaseHold p r (some tg) = some (tg, after p.ms (1000 * p.header.releaseHold)) := by
  unfold nextReleaseHold
  simp only []
  split
  · next tg' w hk => exact if_neg fun e => h w (by rw [hk, e])
  · rfl

theorem nextReleaseHold_onward {p q : Part} {r t : Island} {k : Option (Target × Word)} {j j' : Option Target}
    (ht : t.releaseHold = nextReleaseHold p { r with releaseHold := k } j)
    (h : ∀ tg, j' = some tg → j = some tg ∨ ∀ w, k ≠ some (tg, w)) (hms : q.ms = p.ms) (hp : q.plans = p.plans) :
    nextReleaseHold q t j' = nextReleaseHold q { t with releaseHold := k } j' := by
  cases j' with
  | none => rfl
  | some tg =>
    have hsame : nextReleaseHold q { t with releaseHold := k } (some tg)
        = nextReleaseHold p { r with releaseHold := k } (some tg) := by
      simp only [nextReleaseHold, Part.header, hms, hp]
    by_cases hj : j = some tg
    · subst hj
      rw [hsame, ← ht]
      by_cases hk : ∃ w, k = some (tg, w)
      · obtain ⟨w, rfl⟩ := hk
        rw [nextReleaseHold_kept rfl] at ht
        rw [nextReleaseHold_kept ht, ht]
      · rw [nextReleaseHold_fresh fun w hw => hk ⟨w, hw⟩] at ht
        rw [nextReleaseHold_kept ht, ht]
    · have hother := (h tg rfl).resolve_left hj
      rw [nextReleaseHold_fresh (r := t) fun w hw => hj (target_of_nextReleaseHold (ht.symm.trans hw)),
        nextReleaseHold_fresh hother]

/-- The timers follow again from timers that may have run: OVERLOADED, and the need of a start, held before where they hold
now, and what is released was released before, or is not what the timer ran for. -/
theorem Timed.onward {old : Island} {p q : Part} {i : SecId} (h : Timed old p i) (hr : isRunning q = true)
    (hp : q.plans = p.plans) (hms : q.ms = p.ms)
    (ho : q.islands[i].overload = p.islands[i].overload) (hd : q.islands[i].startDelay = p.islands[i].startDelay)
    (hk : q.islands[i].releaseHold = p.islands[i].releaseHold) (hheld : q.islands[i].held = p.islands[i].held)
    (hover : q.islands[i].condition = .overloaded → p.islands[i].condition = .overloaded)
    (hstart : needsStart q.islands[i].condition → needsStart p.islands[i].condition)
    (hrelease : ∀ tg, releaseFor q i = some tg → releaseFor p i = some tg ∨ ∀ w, old.releaseHold ≠ some (tg, w)) :
    Timed old (Machine.syncTimers i q) i := by
  obtain ⟨hno, hnd, hnk⟩ := nextTimers_congr (p := q) (q := Machine.syncTimers i q) (r := withTimers old q.islands[i])
    (t := withTimers old (Machine.syncTimers i q).islands[i]) (by rw [syncTimers_record i hr]; rfl)
    (by rw [syncTimers_record i hr]; rfl) rfl rfl rfl (by simp) (by simp) (releaseFor q i)
  refine ⟨?_, ?_, ?_⟩
  · rw [hno, syncTimers_record i hr]
    exact nextOverload_onward (ho.trans h.overload) hover hms hp
  · rw [hnd, syncTimers_record i hr]
    exact nextStartDelay_onward (hd.trans h.startDelay) hheld hstart hms hp
  · rw [releaseFor_syncTimers, hnk, syncTimers_record i hr]
    exact nextReleaseHold_onward (r := withTimers old p.islands[i]) (hk.trans h.releaseHold) hrelease hms hp

/-- An update of an island whose HELD mark its carriers still give, its timers following from those that ran. -/
theorem Timed.onward_retotal {old : Island} {p q : Part} {i : SecId} (h : Timed old p i) (hr : isRunning q = true)
    (hp : q.plans = p.plans) (hms : q.ms = p.ms) (ht : SameStanding p.islands[i] q.islands[i])
    (hheld : p.islands[i].held = heldOf q i)
    (hover : conditionOf q i (totalsOf q i) = .overloaded → p.islands[i].condition = .overloaded)
    (hstart : needsStart (conditionOf q i (totalsOf q i)) → needsStart p.islands[i].condition)
    (hrelease : ∀ tg, releaseFor (Machine.retotal i q) i = some tg →
      releaseFor p i = some tg ∨ ∀ w, old.releaseHold ≠ some (tg, w)) : Timed old (Machine.retotal i q) i := by
  refine Timed.onward (p := p) h hr hp hms ?_ ?_ ?_ ?_ ?_ ?_ fun tg htg => hrelease tg ?_
  case refine_7 => rw [Machine.retotal, releaseFor_syncTimers]; exact htg
  all_goals rw [setIsland_islands, setAt_same]
  · exact ht.overload
  · exact ht.startDelay
  · exact ht.releaseHold
  · exact hheld.symm
  · exact hover
  · exact hstart

end Sys2Proof.Machine
end

section
/-! PROOFS. A shed step of an island whose timers may have run before it: the entries that it appends behind the standing
ones, and the standing that it keeps (R102 to R105, R119, R123). -/

namespace Sys2Proof.Machine

/-! ## A standing island (R45, R50) -/

/-- In RUNNING, an island that stands by its members, its timers following from those of `old`. -/
structure Standing (old : Island) (i : SecId) (p : Part) : Prop where
  running : isRunning p = true
  stands : islandStands p i
  timed : Timed old p i

/-- What an island's totals and its carriers rest on: the generators, the shed list, the copies and the plan. -/
theorem totalsOf_congr {p q : Part} (himg : q.img = p.img) (hplans : q.plans = p.plans) (hgens : q.gens = p.gens)
    (hlist : q.shedList = p.shedList) (i : SecId) :
    totalsOf q i = totalsOf p i ∧ conditionOf q i = conditionOf p i := by
  have hin : genIn q i = genIn p i := by
    funext g
    rw [genIn, genIn, (islandsOf_congr himg hplans).1]
  have hcontribution : genContribution q = genContribution p := by
    funext g
    simp only [genContribution, hplans]
  refine ⟨?_, ?_⟩
  · simp only [totalsOf, hin, genState, hgens, hcontribution, himg, entriesOf_congr himg hplans hlist i]
  · funext t
    rw [conditionOf, conditionOf, (carriers_congr himg hplans hgens i).1, Part.header, hplans, Part.header]

/-- A change that leaves what an island rests on, and the standing that its record holds. -/
theorem Standing.congr {old : Island} {i : SecId} {p q : Part} (h : Standing old i p) (himg : q.img = p.img)
    (hplans : q.plans = p.plans) (hms : q.ms = p.ms) (hgens : q.gens = p.gens) (hlist : q.shedList = p.shedList)
    (hr : SameStanding p.islands[i] q.islands[i]) : Standing old i q where
  running := by rw [isRunning, hplans]; exact h.running
  stands := by
    obtain ⟨⟨htotals, hcondition⟩, hheld⟩ := h.stands
    obtain ⟨ht, hc⟩ := totalsOf_congr himg hplans hgens hlist i
    refine ⟨⟨?_, ?_⟩, ?_⟩
    · rw [hr.totals, ht, htotals]
    · rw [hr.condition, ht, hc, hcondition]
    · rw [hr.held, (carriers_congr himg hplans hgens i).2, hheld]
  timed := h.timed.congr hr hplans hms (entriesOf_congr himg hplans hlist i)

/-! ## An entry appended (R102 to R104) -/

/-- More opening credit neither overloads an island, nor asks for a start where none was asked for. -/
theorem conditionOf_credit {p : Part} {i : SecId} {t u : Totals} (hfirm : u.firm = t.firm) (hlimit : u.limit = t.limit)
    (hload : u.load = t.load) (hcredit : t.openingCredit ≤ u.openingCredit) :
    (conditionOf p i u = .overloaded → conditionOf p i t = .overloaded) ∧
      (needsStart (conditionOf p i u) → needsStart (conditionOf p i t)) := by
  have hexpected : expectedLoad u ≤ expectedLoad t := by
    unfold expectedLoad
    omega
  have hreserve : reserve u = reserve t := by rw [reserve, reserve, hfirm, hload]
  unfold needsStart conditionOf
  rw [hlimit, hreserve]
  by_cases hc : carrying p i = []
  · simp [hc]
  · by_cases ho : t.limit < expectedLoad t
    · simp [hc, ho]
    · have hu : ¬t.limit < expectedLoad u := by omega
      simp [hc, ho, hu]

section
variable {i : SecId} {e : ShedEntry} {p : Part} (ht : targetIsland p e.target = some i)
include ht

theorem entriesOf_appendEntry : entriesOf (appendEntry e p) i = entriesOf p i ++ [e] := by
  rw [entriesOf_append (p := p) (q := appendEntry e p) (e := e) rfl rfl rfl, if_pos ht]

/-- An entry appended moves its island's totals by the opening credit alone, and that where it is OPENING. -/
theorem totalsOf_appendEntry :
    let t := totalsOf p i
    let u := totalsOf (appendEntry e p) i
    u.firm = t.firm ∧ u.limit = t.limit ∧ u.load = t.load ∧ t.openingCredit ≤ u.openingCredit ∧
      (e.state = .held → u = t) := by
  have hentries := entriesOf_appendEntry ht
  refine ⟨rfl, rfl, rfl, ?_, fun hheld => ?_⟩
  · simp only [totalsOf, hentries, List.filter_append, List.map_append, List.sum_append]
    omega
  · have hopening : isOpening e = false := by simp [isOpening, hheld]
    simp only [totalsOf, hentries, List.filter_append, List.filter_singleton, hopening, cond_false, List.append_nil]
    rfl

/-- What is released once an entry is appended is that entry. -/
theorem releaseFor_appendEntry {q : Part} {tg : Target} (hentries : entriesOf q i = entriesOf (appendEntry e p) i)
    (h : releaseFor q i = some tg) : tg = e.target := by
  obtain ⟨-, -, -, -, x, hlast, rfl, -⟩ := (releaseFor_eq_some_iff q i tg).mp h
  rw [hentries, entriesOf_appendEntry ht, List.getLast?_concat] at hlast
  rw [← Option.some.inj hlast]

/-- A HELD entry appended, and the release condition judged again. -/
theorem Standing.appendHeld {old : Island} (h : Standing old i p) (hheld : e.state = .held)
    (hnew : ∀ w, old.releaseHold ≠ some (e.target, w)) : Standing old i (syncTimers i (appendEntry e p)) where
  running := by rw [← h.running]; simp [isRunning]
  stands := by
    obtain ⟨⟨htotals, hcondition⟩, hmark⟩ := h.stands
    obtain ⟨ht', hc', hh', -⟩ := syncTimers_marks i (appendEntry e p)
    obtain ⟨-, -, -, -, hsame⟩ := totalsOf_appendEntry ht
    obtain ⟨hafter, hcafter⟩ := totalsOf_congr (p := appendEntry e p) (q := syncTimers i (appendEntry e p))
      (by simp) (by simp) (by simp) (by simp) i
    refine ⟨⟨?_, ?_⟩, ?_⟩
    · rw [ht', hafter, hsame hheld]
      exact htotals
    · rw [hc', hafter, hcafter, hsame hheld]
      exact hcondition
    · rw [hh', (carriers_congr (p := appendEntry e p) (by simp) (by simp) (by simp) i).2]
      exact hmark
  timed := h.timed.onward (q := appendEntry e p) h.running rfl rfl rfl rfl rfl rfl id id fun tg hrelease => by
    rw [releaseFor_appendEntry ht rfl hrelease]
    exact .inr hnew

/-- An entry appended, and the island's update (R102). -/
theorem Standing.appendOpening {old : Island} (h : Standing old i p)
    (hnew : ∀ w, old.releaseHold ≠ some (e.target, w)) : Standing old i (updateInner i (appendEntry e p)) := by
  obtain ⟨⟨htotals, hcondition⟩, hmark⟩ := h.stands
  obtain ⟨hfirm, hlimit, hload, hcredit, -⟩ := totalsOf_appendEntry ht
  obtain ⟨hover, hstart⟩ := conditionOf_credit (p := p) (i := i) hfirm hlimit hload hcredit
  rw [← hcondition] at hover hstart
  have htimed : Timed old (retotal i (appendEntry e p)) i :=
    h.timed.onward_retotal (q := appendEntry e p) h.running rfl rfl (.refl _) hmark hover hstart fun tg hrelease => by
      rw [releaseFor_appendEntry ht (entriesOf_congr (by simp) (by simp) (by simp) i) hrelease]
      exact .inr hnew
  have hstanding : Standing old i (retotal i (appendEntry e p)) :=
    ⟨by rw [← h.running]; simp [isRunning], islandStands_retotal i _, htimed⟩
  exact hstanding.congr (by simp) (by simp) (by simp) (by simp) (by simp) (updateInner_standing i _)

end

/-! ## The entries that a step appends (R105) -/

/-- A change that appends these entries to the shed list and moves no generator: the island stands on, unless its
release-hold timer ran for one of them. -/
structure Appends (i : SecId) (new : List ShedEntry) (p q : Part) : Prop where
  img : q.img = p.img
  plans : q.plans = p.plans
  ms : q.ms = p.ms
  gens : q.gens = p.gens
  list : q.shedList = p.shedList ++ new
  standing : ∀ old, Standing old i p → (∀ e ∈ new, ∀ w, old.releaseHold ≠ some (e.target, w)) → Standing old i q

theorem Appends.refl (i : SecId) (p : Part) : Appends i [] p p :=
  ⟨rfl, rfl, rfl, rfl, (List.append_nil _).symm, fun _ h _ => h⟩

theorem Appends.trans {i : SecId} {new more : List ShedEntry} {p q r : Part} (h : Appends i new p q)
    (k : Appends i more q r) : Appends i (new ++ more) p r where
  img := k.img.trans h.img
  plans := k.plans.trans h.plans
  ms := k.ms.trans h.ms
  gens := k.gens.trans h.gens
  list := by rw [k.list, h.list, List.append_assoc]
  standing old hs hnew := by
    obtain ⟨hfirst, hmore⟩ := List.forall_mem_append.mp hnew
    exact k.standing old (h.standing old hs hfirst) hmore

theorem Appends.targetIsland {i : SecId} {new : List ShedEntry} {p q : Part} (h : Appends i new p q) (t : Target) :
    targetIsland q t = targetIsland p t := by
  rw [(islandsOf_congr h.img h.plans).2.2.2]

/-- One entry appended, by the standing that its appending alone keeps. -/
theorem Appends.of_standing {i : SecId} {e : ShedEntry} {p q r : Part}
    (hframe : q.img = p.img ∧ q.plans = p.plans ∧ q.ms = p.ms ∧ q.gens = p.gens)
    (hlist : q.shedList = p.shedList ++ [e]) (hr : r.img = p.img ∧ r.plans = p.plans ∧ r.ms = p.ms ∧ r.gens = p.gens ∧
      r.shedList = p.shedList ++ [e]) (hislands : q.islands = r.islands)
    (hs : ∀ old, Standing old i p → (∀ w, old.releaseHold ≠ some (e.target, w)) → Standing old i r) :
    Appends i [e] p q where
  img := hframe.1
  plans := hframe.2.1
  ms := hframe.2.2.1
  gens := hframe.2.2.2
  list := hlist
  standing old h hnew := by
    obtain ⟨himg, hplans, hms, hgens⟩ := hframe
    obtain ⟨himg', hplans', hms', hgens', hlist'⟩ := hr
    refine (hs old h (hnew e List.mem_cons_self)).congr ?_ ?_ ?_ ?_ ?_ (by rw [hislands]; exact .refl _)
    · rw [himg, himg']
    · rw [hplans, hplans']
    · rw [hms, hms']
    · rw [hgens, hgens']
    · rw [hlist, hlist']

section
variable {i : SecId} {p : Part}

theorem appends_shedConsumer {c : ConsId} (cause : ShedCause) (credit : Nat) (hc : consIsland p c = some i) :
    Appends i [⟨.cons c, cause, credit, p.ms, .opening (after p.ms (consTimeout p c))⟩] p
      (shedConsumer c cause credit p) :=
  .of_standing (by simp) (shedConsumer_tables ..).1 (r := updateInner i (appendEntry _ p)) (by simp [appendEntry])
    (by simp [shedConsumer, hc, updateInnerOf]) fun _ h hnew => h.appendOpening (by exact hc) hnew

theorem appends_shedDrive {d : DriveId} (cause : ShedCause) (credit cut : Nat) (hd : driveIsland p d = some i) :
    Appends i [⟨.drive d, cause, credit, p.ms, .held⟩] p (shedDrive d cause credit cut p) :=
  .of_standing (by simp) (shedDrive_tables ..).1 (r := syncTimers i (appendEntry _ p)) (by simp [appendEntry])
    (by simp [shedDrive, hd, judgeReleaseOf]) fun _ h hnew => h.appendHeld (by exact hd) rfl hnew

theorem appends_reshed {c : ConsId} (hc : consIsland p c = some i) :
    Appends i [⟨.cons c, .restoreCancel, 0, p.ms, .held⟩] p (reshed c p) :=
  .of_standing (by simp) (reshed_tables ..).1 (r := syncTimers i (appendEntry _ p)) (by simp [appendEntry])
    (by simp [reshed, hc, judgeReleaseOf]) fun _ h hnew => h.appendHeld (by exact hc) rfl hnew

/-- The first group re-shed: an entry without credit for each consumer (R105). -/
theorem appends_reshedAll (ts : List Target) (h : ∀ t ∈ ts, ∃ c, t = .cons c ∧ consIsland p c = some i) :
    ∃ new, Appends i new p (reshedAll ts p) ∧ (new.map ShedEntry.credit).sum = 0 ∧ ∀ e ∈ new, e.target ∈ ts := by
  induction ts generalizing p with
  | nil => exact ⟨[], .refl i p, rfl, nofun⟩
  | cons t ts ih =>
    obtain ⟨c, rfl, hc⟩ := h t List.mem_cons_self
    have hfirst := appends_reshed hc
    obtain ⟨new, hnew, hcredit, htargets⟩ := ih (p := reshed c p) fun u hu => by
      obtain ⟨x, rfl, hx⟩ := h u (List.mem_cons_of_mem _ hu)
      exact ⟨x, rfl, (hfirst.targetIsland (.cons x)).trans hx⟩
    exact ⟨_, hfirst.trans hnew, by simp [hcredit], List.forall_mem_cons.mpr ⟨List.mem_cons_self, fun e he =>
      List.mem_cons_of_mem _ (htargets e he)⟩⟩

/-- A candidate taken appends the entry that covers what the need falls by, or none and the need stands (R101). -/
theorem appends_takeCandidate (cause : ShedCause) {t : Target} (need : Int) (ht : targetIsland p t = some i) :
    ∃ new, Appends i new p (takeCandidate cause t need p).2 ∧
      (takeCandidate cause t need p).1 = need - ((new.map ShedEntry.credit).sum : Nat) ∧ ∀ e ∈ new, e.target = t := by
  cases t with
  | cons c => exact ⟨_, appends_shedConsumer cause _ ht, by simp [takeCandidate], by simp⟩
  | drive d =>
    simp only [takeCandidate]
    split
    · exact ⟨[], .refl i p, by simp, nofun⟩
    · exact ⟨_, appends_shedDrive cause _ _ ht, by simp, by simp⟩

theorem appends_walkCandidates (cause : ShedCause) (ts : List Target) (need : Int)
    (h : ∀ t ∈ ts, targetIsland p t = some i) :
    ∃ new, Appends i new p (walkCandidates cause ts need p).2 ∧
      (walkCandidates cause ts need p).1 = need - ((new.map ShedEntry.credit).sum : Nat) ∧ ∀ e ∈ new, e.target ∈ ts := by
  induction ts generalizing need p with
  | nil => exact ⟨[], .refl i p, by simp [walkCandidates], nofun⟩
  | cons t ts ih =>
    rw [walkCandidates]
    split
    · exact ⟨[], .refl i p, by simp, nofun⟩
    · obtain ⟨first, hfirst, hneed, htarget⟩ := appends_takeCandidate cause need (h t List.mem_cons_self)
      obtain ⟨rest, hrest, hleft, htargets⟩ := ih (takeCandidate cause t need p).1 fun u hu =>
        (hfirst.targetIsland u).trans (h u (List.mem_cons_of_mem t hu))
      refine ⟨_, hfirst.trans hrest, ?_, List.forall_mem_append.mpr ⟨fun e he => ?_, fun e he => ?_⟩⟩
      · rw [hleft, hneed, List.map_append, List.sum_append]
        omega
      · rw [htarget e he]
        exact List.mem_cons_self
      · exact List.mem_cons_of_mem t (htargets e he)

/-- The end of a step leaves the standing. -/
theorem Standing.stepEnd {old : Island} (h : Standing old i p) (cause : ShedCause) (need : Nat) :
    Standing old i (stepMet i p) ∧ Standing old i (stepUnmet i cause need p) := by
  refine ⟨h.congr (by simp) (by simp) (by simp) (by simp) (by simp) ?_,
    h.congr (by simp) (by simp) (by simp) (by simp) (by simp) ?_⟩
  · rw [stepMet_record]
    exact ⟨rfl, rfl, rfl, rfl, rfl, rfl⟩
  · rw [stepUnmet_record]
    exact ⟨rfl, rfl, rfl, rfl, rfl, rfl⟩

/-- A shed step of a standing island whose release-hold timer ran for no target that the step may take: it appends entries
behind the standing ones, its outcome is the need's beside their credits, and the island stands on. -/
theorem shedStep_standing {old : Island} (cause : ShedCause) (need : Int) (h : Standing old i p)
    (hfree : ∀ t ∈ restoringOf p i ++ candidatesOf p i, ∀ w, old.releaseHold ≠ some (t, w)) :
    ∃ new, (shedStep i cause need p).shedList = p.shedList ++ new ∧ stepOutcome (shedStep i cause need p) i need new ∧
      Standing old i (shedStep i cause need p) := by
  unfold shedStep
  by_cases hneed : need ≤ 0
  · rw [if_pos hneed]
    exact ⟨[], by simp, stepMet_outcome p hneed fun _ => rfl, (h.stepEnd cause 0).1⟩
  · rw [if_neg hneed]
    obtain ⟨first, hfirst, hcredit, hrestoring⟩ := appends_reshedAll (restoringOf p i) fun t => cons_of_mem_restoringOf
    obtain ⟨second, hsecond, hleft, hcandidates⟩ := appends_walkCandidates cause (candidatesOf p i) need fun t h =>
      (hfirst.targetIsland t).trans (targetIsland_of_mem_candidatesOf h)
    have hwalk := hfirst.trans hsecond
    have hsum : ((first ++ second).map ShedEntry.credit).sum = (second.map ShedEntry.credit).sum := by
      rw [List.map_append, List.sum_append, hcredit, Nat.zero_add]
    rw [← hsum] at hleft
    have hstands := hwalk.standing old h (List.forall_mem_append.mpr
      ⟨fun e he => hfree _ (List.mem_append_left _ (hrestoring e he)),
        fun e he => hfree _ (List.mem_append_right _ (hcandidates e he))⟩)
    simp only []
    split
    · exact ⟨_, by simpa using hwalk.list, stepMet_outcome _ (by omega) fun hle => absurd hle hneed,
        (hstands.stepEnd cause 0).1⟩
    · refine ⟨first ++ second, by simpa using hwalk.list, ?_, (hstands.stepEnd cause _).2⟩
      rw [hleft]
      exact stepUnmet_outcome cause _ (by omega)

end

end Sys2Proof.Machine
end

section
/-! PROOFS. A trip in RUNNING, in an island that another generator keeps from DEAD: O22 (R73, R75, R76, R105 to R108). -/

namespace Sys2Proof.Machine

/-! ## The standing that a trip and a standby start leave (R45, R50) -/

/-- After an event of a generator that hands no work on, its island stands as its update leaves it. -/
theorem Standing.afterEvent {old : Island} {g : GenId} {i : SecId} (forced : Option GenId) {p : Part}
    (h : Standing old i (retotal i p)) (hg : genIsland p g = some i) : Standing old i (afterGenInner g forced p) :=
  h.congr (by simp) (by simp) (by simp) (by simp) (by simp) (afterGenInner_standing forced hg)

theorem standing_retotal {i : SecId} {p : Part} (hr : isRunning p = true) : Standing p.islands[i] i (retotal i p) := by
  have htimed := timed_syncTimers (p := setIsland i { p.islands[i] with
    totals := totalsOf p i, condition := conditionOf p i (totalsOf p i), held := heldOf p i } p) i hr
  rw [setIsland_islands, setAt_same] at htimed
  exact ⟨by rw [← hr]; simp [isRunning], islandStands_retotal i p, htimed.of_timers rfl rfl rfl⟩

theorem standing_outOfService {g : GenId} {i : SecId} {p : Part} (hg : genIsland p g = some i)
    (hr : isRunning p = true) : Standing p.islands[i] i (outOfService g p) := by
  have hislands : (changeState g trippedGen p).islands = p.islands := by simp
  have h := standing_retotal (i := i) (p := changeState g trippedGen p) (by rw [← hr]; simp [isRunning])
  rw [hislands] at h
  exact h.afterEvent none (genIsland_changeState hg _)

/-- The event of a generator that carries no load, before it nor after, leaves its island standing, with EXHAUSTED and
the remaining need as they were. -/
theorem Standing.idleEvent {old : Island} {g : GenId} {i : SecId} {e : Gen} {p q : Part} (h : Standing old i p)
    (forced : Option GenId) (hv : LadderView i p q) (hgens : q.gens = setAt p.gens g e)
    (hold : carries (genState p g) = false) (hnew : carries e.state = false) (hislands : q.islands = p.islands)
    (hg : genIsland q g = some i) :
    let t := afterGenInner g forced q
    Standing old i t ∧ t.islands[i].exhausted = p.islands[i].exhausted ∧ t.islands[i].need = p.islands[i].need := by
  obtain ⟨⟨htotals, hcondition⟩, hheld⟩ := h.stands
  obtain ⟨htsame, hcsame⟩ := totalsOf_setGen hv hgens hold hnew
  have hheldOf : heldOf q i = heldOf p i := (sameCarriers_setGen hv hgens (by rw [hold, hnew])).heldOf
  rw [← hcondition] at hcsame
  have hrecord : SameStanding p.islands[i] q.islands[i] := by
    rw [hislands]
    exact .refl _
  have hreleased : releaseFor (retotal i q) i = releaseFor p i := by
    obtain ⟨ht, hc, hh⟩ := retotal_record i q
    exact releaseFor_congr (by rw [ht, htsame, htotals]) (by rw [hc, hcsame]) (by rw [hh, hheldOf, hheld])
      (by simp [hv.plans]) ((entriesOf_congr (by simp) (by simp) (by simp) i).trans hv.entries)
  have hr : isRunning q = true := by rw [hv.running, h.running]
  have htimed : Timed old (retotal i q) i :=
    h.timed.onward_retotal hr hv.plans hv.ms hrecord (by rw [hheldOf, hheld]) (by rw [hcsame]; exact id)
      (by rw [hcsame]; exact id) fun tg htg => .inl (by rw [← hreleased, htg])
  have hstanding : Standing old i (retotal i q) := ⟨by rw [← hr]; simp [isRunning], islandStands_retotal i q, htimed⟩
  obtain ⟨-, -, -, hmarks⟩ := afterGenInner_record forced hg
  obtain ⟨hexhausted, hneed, -⟩ := hmarks (by rw [hcsame, hislands])
  exact ⟨hstanding.afterEvent forced hg, by rw [hexhausted, hislands], by rw [hneed, hislands]⟩

theorem Standing.afterStart {old : Island} {g : GenId} {i : SecId} {p : Part} (h : Standing old i p)
    (auto : Bool) (cause : StartCause) (hg : genIsland p g = some i) (hs : genState p g = .idle) :
    let t := startGenerator g auto cause p
    Standing old i t ∧ t.islands[i].exhausted = p.islands[i].exhausted ∧ t.islands[i].need = p.islands[i].need := by
  unfold startGenerator
  exact h.idleEvent (e := startingGen auto cause p) none (.of_eq i (by simp)) (by simp [changeState_gens, startingGen])
    (by rw [hs]; rfl) rfl (by simp) (by rw [← hg]; simp [genIsland])

/-- A standby request leaves its island standing, with EXHAUSTED and the remaining need as they were. -/
theorem Standing.afterRequest {old : Island} {i : SecId} {p : Part} (h : Standing old i p) (cause : StartCause) :
    let t := requestStandby i cause p
    Standing old i t ∧ t.islands[i].exhausted = p.islands[i].exhausted ∧ t.islands[i].need = p.islands[i].need := by
  have hmark : ∀ (b : Bool) (q : Part), q.img = p.img ∧ q.plans = p.plans ∧ q.ms = p.ms ∧ q.gens = p.gens ∧
      q.shedList = p.shedList → Standing old i (setIsland i { p.islands[i] with standbyExhausted := b } q) := by
    rintro b q ⟨himg, hplans, hms, hgens, hlist⟩
    refine h.congr himg hplans hms hgens hlist ?_
    rw [setIsland_islands, setAt_same]
    exact ⟨rfl, rfl, rfl, rfl, rfl, rfl⟩
  unfold requestStandby
  split
  · split
    · next g hg =>
      obtain ⟨hin, hidle, -⟩ := ((standbyCandidate_isCandidate p i).2 g hg).1
      have hstarted := (hmark false p (by simp)).afterStart true cause (g := g) hin hidle
      rw [setIsland_islands, setAt_same] at hstarted
      exact hstarted
    · unfold noStandby
      split
      · exact ⟨h, rfl, rfl⟩
      · refine ⟨?_, ?_, ?_⟩
        · exact hmark true _ (by simp)
        · simp only [setIsland_islands, setAt_same]
        · simp only [setIsland_islands, setAt_same]
  · exact ⟨h, rfl, rfl⟩

end Sys2Proof.Machine
end

section
/-! PROOFS. A trip in RUNNING, in an island that another generator keeps from DEAD: O22 (R73, R75, R76, R105 to R108). -/

namespace Sys2Proof.Machine

/-! ## What a step may take (R100) -/

theorem noEntry_of_mem_candidatesOf {p : Part} {i : SecId} {t : Target} (h : t ∈ candidatesOf p i) :
    hasEntry p t = false := by
  have hm := mem_of_mem_sortByKey h
  simp only [List.mem_append, List.mem_map, List.mem_filter, consCandidate, driveCandidate, Bool.and_eq_true,
    Bool.not_eq_true'] at hm
  rcases hm with ⟨c, ⟨-, ⟨⟨⟨⟨-, -⟩, hc⟩, -⟩, -⟩, -⟩, rfl⟩ | ⟨d, ⟨-, ⟨⟨⟨-, -⟩, hd⟩, -⟩, -⟩, rfl⟩
  · exact hc
  · exact hd

theorem restoring_of_mem_restoringOf {p : Part} {i : SecId} {t : Target} (h : t ∈ restoringOf p i) :
    ∃ c, t = .cons c ∧ p.cons[c].state = .restoring := by
  obtain ⟨c, hc, rfl⟩ := List.mem_map.mp (mem_of_mem_sortByKey h)
  simp only [List.mem_filter, Bool.and_eq_true, beq_iff_eq] at hc
  exact ⟨c, rfl, hc.2.2⟩

/-- A release-hold timer that runs for the most recent entry runs for no target that a step may take. -/
theorem releaseHold_spared {p q : Part} {i : SecId} (hlist : q.shedList = p.shedList) (hcons : q.cons = p.cons)
    (hlast : ∀ tg e, p.islands[i].releaseHold = some (tg, e) →
      (entriesOf p i).getLast?.map ShedEntry.target = some tg)
    (hrestoring : ∀ c : ConsId, p.cons[c].state = .restoring → hasEntry p (.cons c) = false) :
    ∀ t ∈ restoringOf q i ++ candidatesOf q i, ∀ w, p.islands[i].releaseHold ≠ some (t, w) := by
  intro t ht w hw
  have hentry : hasEntry p t = true := by
    obtain ⟨e, he, rfl⟩ := Option.map_eq_some_iff.mp (hlast t w hw)
    have hmem := List.mem_of_getLast? he
    exact List.any_eq_true.mpr ⟨e, (List.mem_filter.mp hmem).1, beq_self_eq_true _⟩
  refine Bool.false_ne_true (Eq.trans (Eq.symm ?_) hentry)
  rcases List.mem_append.mp ht with hr | hc
  · obtain ⟨c, rfl, hs⟩ := restoring_of_mem_restoringOf hr
    exact hrestoring c (by rw [← hcons, hs])
  · have hnone := noEntry_of_mem_candidatesOf hc
    rwa [hasEntry, hlist] at hnone

/-! ## The share of another generator (R92) -/

/-- A start leaves the share of a generator that carries no load. -/
theorem shareOf_startGenerator {p : Part} {g h : GenId} {i : SecId} (auto : Bool) (cause : StartCause)
    (hh : genIsland p h = some i) (hs : genState p h = .idle) (hg : g ∉ carrying p i) :
    shareOf (startGenerator h auto cause p) g = shareOf p g := by
  have hkept : changeState h (startingGen auto cause p) p = setGen h (startingGen auto cause p) p :=
    changeState_kept (.inl (by rw [hs]; decide)) (.inl (by rw [hs]; rfl))
  have hstart : startGenerator h auto cause p = afterGenInner h none (noticeGenState h .starting (genState p h) 0#32 0#32
      (giveGen h .startGen (startCauseCode cause) (kw (genRating p h)) 0#32 (setGen h (startingGen auto cause p) p))) := by
    rw [← hkept]
    rfl
  rw [hstart, shareOf_afterGenInner_idle none (by rw [← hh]; simp [genIsland])]
  · simp [shareOf]
  · have hsame : SameCarriers i p (noticeGenState h .starting (genState p h) 0#32 0#32
        (giveGen h .startGen (startCauseCode cause) (kw (genRating p h)) 0#32 (setGen h (startingGen auto cause p) p))) :=
      sameCarriers_setGen (.of_eq i (by simp)) (g := h) (e := startingGen auto cause p) (by simp [setGen])
        (by rw [hs]; rfl)
    rw [hsame.carrying]
    exact hg

theorem shareOf_requestStandby {p : Part} {g : GenId} {i : SecId} (cause : StartCause) (hg : g ∉ carrying p i) :
    shareOf (requestStandby i cause p) g = shareOf p g := by
  unfold requestStandby
  split
  · split
    · next h hh =>
      obtain ⟨hin, hidle, -⟩ := ((standbyCandidate_isCandidate p i).2 h hh).1
      exact shareOf_startGenerator (p := setIsland i { p.islands[i] with standbyExhausted := false } p) true cause hin
        hidle hg
    · unfold noStandby
      split
      · rfl
      · simp [shareOf]
  · rfl

/-! ## The trip up to its standby request (R73) -/

/-- What a trip leaves before its standby request, its fast step made with this need. -/
structure TripStep (g : GenId) (i : SecId) (need : Int) (r : Report) (p q : Part) : Prop where
  img : q.img = p.img
  plans : q.plans = p.plans
  gens : q.gens = setAt p.gens g trippedGen
  ms : q.ms = p.ms
  target : q.sharing[g].lastWritten = 0
  attention : q.att.word.getLsbD 2 = true
  step : ∃ new, q.shedList = p.shedList ++ new ∧ stepOutcome q i need new
  standing : Standing p.islands[i] i q
  others : ∀ j : SecId, j ≠ i → q.islands[j] = p.islands[j]
  met : need ≤ 0 → (q.cons = p.cons ∧ q.drives = p.drives ∧ q.cmd = p.cmd) ∧ Says [r] p q

/-- The fast step's need: the load before the change, less the limit and the opening credit after it, with the margin
(R107). -/
def tripNeed (g : GenId) (i : SecId) (p : Part) : Int :=
  let now := totalsOf (changeState g trippedGen p) i
  (p.islands[i].totals.load : Int) - (now.limit : Int) + (p.header.shedMargin : Int) - (now.openingCredit : Int)

/-- Another ONLINE generator keeps the island from DEAD. -/
theorem changeState_alive {g : GenId} {i : SecId} {e : Gen} {p : Part}
    (hother : ∃ h : GenId, h ≠ g ∧ genIsland p h = some i ∧ p.gens[h].state = .online) :
    carrying (changeState g e p) i ≠ [] := by
  obtain ⟨h, hne, hin, honline⟩ := hother
  refine List.ne_nil_of_mem (mem_carrying (g := h).mpr ⟨by rw [← hin]; simp [genIsland], ?_⟩)
  rw [genState, changeState_gens, setAt_other _ _ (Ne.symm hne), honline]
  rfl

section
variable {g : GenId} {i : SecId} {p : Part} (hg : genIsland p g = some i) (hr : isRunning p = true)
include hg

/-- The record of the island once the generator is out. -/
theorem outOfService_record : (outOfService g p).islands[i].totals = totalsOf (changeState g trippedGen p) i ∧
    (outOfService g p).islands[i].condition
      = conditionOf (changeState g trippedGen p) i (totalsOf (changeState g trippedGen p) i) := by
  obtain ⟨htotals, hcondition, -⟩ := afterGenInner_record none (genIsland_changeState hg trippedGen)
  exact ⟨htotals, hcondition⟩

include hr

theorem fastStep_outOfService (hother : ∃ h : GenId, h ≠ g ∧ genIsland p h = some i ∧ p.gens[h].state = .online) :
    fastStep i p.islands[i].totals.load (outOfService g p) = shedStep i .trip (tripNeed g i p) (outOfService g p) := by
  obtain ⟨htotals, hcondition⟩ := outOfService_record hg
  have hrun : isRunning (outOfService g p) = true := by
    rw [← hr]
    simp [isRunning, outOfService]
  have halive : (outOfService g p).islands[i].condition ≠ .dead := by
    rw [hcondition]
    exact fun hd => changeState_alive hother ((conditionOf_dead_iff ..).mp hd)
  have hheader : (outOfService g p).header = p.header := by simp [Part.header, outOfService]
  have hacts : (isRunning (outOfService g p) && (outOfService g p).islands[i].condition != .dead) = true := by
    simpa [hrun] using halive
  simp only [fastStep, if_pos hacts, htotals, hheader, tripNeed]

/-- The trip, its fast step made, its attention and notice given (R73). -/
def tripStepped (g : GenId) (i : SecId) (last : Nat) (p : Part) : Part :=
  noticeGenState g .tripped .online (kw last) (kw p.islands[i].totals.load)
    (setAtt .genTrip (shedStep i .trip (tripNeed g i p) (outOfService g p)))

theorem tripStep_tripStepped (last : Nat) (hs : genState p g = .online)
    (hfree : ∀ t ∈ restoringOf (outOfService g p) i ++ candidatesOf (outOfService g p) i,
      ∀ w, p.islands[i].releaseHold ≠ some (t, w)) :
    TripStep g i (tripNeed g i p)
      (stateNotice p g i .tripped .online (kw last) (kw p.islands[i].totals.load)) p (tripStepped g i last p) := by
  obtain ⟨hms, himg, hplans, hcmd, hcons, hdrives, hshed, hlu⟩ := outOfService_frame g p
  obtain ⟨new, hlist, houtcome, hstanding⟩ := shedStep_standing .trip (tripNeed g i p)
    (standing_outOfService hg hr) hfree
  have hislands : (tripStepped g i last p).islands
      = (shedStep i .trip (tripNeed g i p) (outOfService g p)).islands := by simp [tripStepped]
  have hshare := shareOf_outOfService hg hs
  refine ⟨?_, ?_, ?_, ?_, ?_, ?_, ⟨new, ?_, ?_⟩, ?_, fun j hj => ?_, fun hmet => ?_⟩
  · simp [tripStepped, himg]
  · simp [tripStepped, hplans]
  · simp [tripStepped, outOfService_gens]
  · simp [tripStepped, hms]
  · refine Eq.trans ?_ (congrArg (·.1.lastWritten) hshare)
    simp [tripStepped, shareOf]
  · exact (effects_noticeGenState ..).attention_rises.1 2 (setAtt_bit .genTrip _)
  · rw [← hshed, ← hlist]
    simp [tripStepped]
  · rw [stepOutcome, hislands]
    exact houtcome
  · exact hstanding.congr (by simp [tripStepped]) (by simp [tripStepped]) (by simp [tripStepped])
      (by simp [tripStepped]) (by simp [tripStepped]) (by rw [hislands]; exact .refl _)
  · rw [hislands, (spares_shedStep hj _ _ _).record]
    refine ((within_afterGenInner none (genIsland_changeState hg trippedGen)).others j hj).trans ?_
    simp only [changeState_frame]
  · have hstep : shedStep i .trip (tripNeed g i p) (outOfService g p) = stepMet i (outOfService g p) := if_pos hmet
    have hsaid := says_stateNotice (q := setAtt .genTrip (stepMet i (outOfService g p))) hg
      (by simp [himg, hplans]) .tripped .online (kw last) (kw p.islands[i].totals.load)
    rw [tripStepped, hstep]
    refine ⟨by simp [hcons, hdrives, hcmd], hsaid.after (by simp [hms]) (by simp [hlu])⟩

end

/-! ## The standby request of a trip (R75, R76) -/

/-- The tripped generator carries nothing. -/
theorem TripStep.idle {g : GenId} {i : SecId} {need : Int} {r : Report} {p q : Part} (h : TripStep g i need r p q) :
    g ∉ carrying q i := fun hm => by
  have hc := (mem_carrying.mp hm).2
  rw [genState, h.gens, setAt_same] at hc
  exact absurd hc (by decide)

section
variable {g : GenId} {i : SecId} {need : Int} {r : Report} {p q : Part} (h : TripStep g i need r p q)
  (hs : genState p g = .online)
include h hs

/-- With the tripped one out, the island's generators are in the states of the sequence as before. -/
theorem TripStep.in_iff {st : GenState} (hst : st ≠ .tripped ∧ st ≠ .online) (k : GenId) :
    (genIsland q k = some i ∧ q.gens[k].state = st) ↔ genIsland p k = some i ∧ p.gens[k].state = st := by
  rw [(islandsOf_congr h.img h.plans).1, h.gens, setAt_get]
  split
  · next e =>
    subst e
    rw [genState] at hs
    exact and_congr_right fun _ => iff_of_false (fun e => hst.1 e.symm) fun e => hst.2 (e.symm.trans hs)
  · rfl

theorem TripStep.startingIn_iff : startingIn q i ↔ startingIn p i :=
  exists_congr fun k => h.in_iff hs (by decide) k

theorem TripStep.isStandby_iff (k : GenId) : isStandby q i k ↔ isStandby p i k := by
  have hrank : genRank q k = genRank p k := by simp only [genRank, h.plans]
  rw [isStandby, isStandby, ← and_assoc, h.in_iff hs (by decide) k, hrank, and_assoc]

/-- The candidate's start (R76). -/
theorem TripStep.starts (hr : isRunning p = true) {k : GenId} (hn : ¬startingIn p i) (hk : isStandby p i k)
    (hlow : ∀ x, isStandby p i x → x ≠ k → genRank p k < genRank p x) :
    let t := requestStandby i .trip q
    t.gens = setAt (setAt p.gens g trippedGen) k (startingGen true .trip p) ∧
      Says [genCommand k i .startGen 2 (kw (genRating p k)) 0#32, stateNotice p k i .starting .idle 0#32 0#32] q t := by
  have hrank : genRank q = genRank p := by
    funext x
    simp only [genRank, h.plans]
  have hrating : genRating q k = genRating p k := by simp only [genRating, h.plans]
  have hentry : startingGen true .trip q = startingGen true .trip p := by
    simp only [startingGen, h.ms, Part.header, h.plans]
  obtain ⟨hgens, hsays, -⟩ := requestStandby_started (i := i) .trip (by rw [isRunning, h.plans]; exact hr)
    ((h.startingIn_iff hs).not.mpr hn) ((h.isStandby_iff hs k).mpr hk) fun x hx hne => by
      rw [hrank]
      exact hlow x ((h.isStandby_iff hs x).mp hx) hne
  rw [hentry, h.gens] at hgens
  rw [stateNotice, h.img, hrating] at hsays
  exact ⟨hgens, hsays⟩

end

/-- What a trip gives once its standby request is made: what the request gives beside, by the generator started. -/
structure TripGiven (g : GenId) (i : SecId) (need : Int) (r : Report) (p t : Part) : Prop where
  img : t.img = p.img
  target : t.sharing[g].lastWritten = 0
  attention : t.att.word.getLsbD 2 = true
  step : ∃ new, t.shedList = p.shedList ++ new ∧ stepOutcome t i need new
  standing : Standing p.islands[i] i t
  others : ∀ j : SecId, j ≠ i → t.islands[j] = p.islands[j]
  met : need ≤ 0 → t.cons = p.cons ∧ t.drives = p.drives ∧ t.cmd = p.cmd
  waits : startingIn p i → t.gens = setAt p.gens g trippedGen ∧ (need ≤ 0 → Says [r] p t)
  starts : ¬startingIn p i → ∀ k, isStandby p i k → (∀ x, isStandby p i x → x ≠ k → genRank p k < genRank p x) →
    t.gens = setAt (setAt p.gens g trippedGen) k (startingGen true .trip p) ∧
      (need ≤ 0 → Says [r, genCommand k i .startGen 2 (kw (genRating p k)) 0#32,
        stateNotice p k i .starting .idle 0#32 0#32] p t)

theorem TripStep.given {g : GenId} {i : SecId} {need : Int} {r : Report} {p q : Part} (h : TripStep g i need r p q)
    (hs : genState p g = .online) (hr : isRunning p = true) : TripGiven g i need r p (requestStandby i .trip q) := by
  obtain ⟨new, hlist, houtcome⟩ := h.step
  obtain ⟨hstanding, hexhausted, hneed⟩ := h.standing.afterRequest .trip
  refine ⟨by simp [h.img], ?_, (effects_requestStandby i .trip q).attention_rises.1 2 h.attention,
    ⟨new, by simp [hlist], ?_⟩, hstanding, fun j hj => ?_, fun hmet => ?_, fun hstarting => ?_,
    fun hn k hk hlow => ?_⟩
  · exact (congrArg (·.1.lastWritten) (shareOf_requestStandby .trip h.idle)).trans h.target
  · rw [stepOutcome, hexhausted, hneed]
    exact houtcome
  · exact ((within_requestStandby i .trip q).others j hj).trans (h.others j hj)
  · obtain ⟨⟨hcons, hdrives, hcmd⟩, -⟩ := h.met hmet
    simp [hcons, hdrives, hcmd]
  · rw [requestStandby_starting ((h.startingIn_iff hs).mpr hstarting)]
    exact ⟨h.gens, fun hmet => (h.met hmet).2⟩
  · obtain ⟨hgens, hsays⟩ := h.starts hs hr hn hk hlow
    exact ⟨hgens, fun hmet => (h.met hmet).2.trans hsays⟩

/-! ## The write that reports the trip -/

/-- What an island's totals rest on stands through the rest of a change of state. -/
theorem totalsOf_changeState (g : GenId) (e : Gen) (p : Part) (i : SecId) :
    totalsOf (changeState g e p) i = totalsOf (setGen g e p) i :=
  (totalsOf_congr (by simp) (by simp) (by simp [changeState_gens, setGen]) (by simp) i).1

/-- A trip's update hands no work on where another generator is ONLINE and none is UNLOADING. -/
theorem settles_trip {g : GenId} {i : SecId} {p : Part}
    (hnone : ∀ h : GenId, genIsland p h = some i → p.gens[h].state ≠ .unloading)
    (hother : ∃ h : GenId, h ≠ g ∧ genIsland p h = some i ∧ p.gens[h].state = .online) :
    Settles i (changeState g trippedGen p) := by
  refine .inr (.inr ⟨fun hd => changeState_alive hother ((conditionOf_dead_iff ..).mp hd), fun _ k hk => ?_⟩)
  rw [changeState_gens, setAt_get]
  split
  · decide
  · exact hnone k (by rw [← hk]; simp [genIsland])

/-- The write of an OPEN report of an ONLINE generator in RUNNING is its trip. -/
theorem measured_trip {g : GenId} {i : SecId} {x : Word} {p : Part} (hx : bit x 16 = false)
    (hg : genIsland p g = some i) (hs : genState p g = .online) (hr : isRunning p = true)
    (hnone : ∀ h : GenId, genIsland p h = some i → p.gens[h].state ≠ .unloading)
    (hother : ∃ h : GenId, h ≠ g ∧ genIsland p h = some i ∧ p.gens[h].state = .online) :
    measured g x p
      = requestStandby i .trip (tripStepped g i (measKw p.img.genMeas[g]) (measTaken g x p)) := by
  have hmove : moveByBreaker g (measKw p.img.genMeas[g]) (measTaken g x p)
      = trip g (measKw p.img.genMeas[g]) (measTaken g x p) := by
    rw [moveByBreaker_open _ hx, hs]
  have hstays : judgeSettled (trip g (measKw p.img.genMeas[g]) (measTaken g x p))
      = trip g (measKw p.img.genMeas[g]) (measTaken g x p) := by
    refine judgeSettled_stays (p := measTaken g x p) (by simp) (by simp) (.inl fun hc => ?_)
    have hrun : p.plans.partState = .running := by simpa [isRunning] using hr
    exact absurd (hrun.symm.trans hc) (by decide)
  have htrip := trip_eq (p := measTaken g x p) hg (measKw p.img.genMeas[g]) hs hnone (settles_trip hnone hother)
  rw [measured, hmove, hstays, htrip, fastStep_outOfService (p := measTaken g x p) hg hr hother, tripStepped]

/-- A notice of the generator measured carries the engine-ready mark of the report (assumption log 22). -/
theorem stateNotice_measTaken (g : GenId) (x : Word) (p : Part) (i : SecId) (new former : GenState) (a b : Word) :
    stateNotice (measTaken g x p) g i new former a b = genNotice g i .genState (genStateCode new)
      (genStateCode former + 8 * flag (bit x 17)) a b := by
  rw [stateNotice, measTaken_copy, engineReady]

/-- A notice of another generator carries the engine-ready mark that stood. -/
theorem stateNotice_measTaken_other {g h : GenId} (hne : h ≠ g) (x : Word) (p : Part) (i : SecId)
    (new former : GenState) (a b : Word) :
    stateNotice (measTaken g x p) h i new former a b = stateNotice p h i new former a b := by
  have hword : (measTaken g x p).img.genMeas[h].word = p.img.genMeas[h].word :=
    congrArg MeasCopy.word (setAt_other _ _ hne.symm)
  rw [stateNotice, hword, stateNotice]

/-- Reports said after the copy is taken are said to the list unit that stood. -/
theorem Says.lu_of_measTaken {rs : List Report} {g : GenId} {x : Word} {p q : Part}
    (h : Says rs (measTaken g x p) q) : q.lu = (reported rs p).lu :=
  h.lu.trans (reported_lu_congr rs rfl rfl)

/-- Settles O22, by the fast step of a trip and its standby request. -/
theorem tripInRunning : Obligations.TripInRunning := by
  intro s g x i hport hx hg hs hr hnone hother hlast hrestoring m tripped q now need report
  have hexec := exec_generatorMeasWrite (x := x) hport (isSome_of_genIsland hg)
  rw [measured_trip hx hg hs hr hnone hother] at hexec
  obtain ⟨-, -, -, -, hcons, -, hshed, -⟩ := outOfService_frame g (measTaken g x s.part)
  have hstep := tripStep_tripStepped (p := measTaken g x s.part) hg hr (measKw s.part.img.genMeas[g]) hs
    (releaseHold_spared (p := s.part) hshed hcons hlast hrestoring)
  have hgiven := hstep.given hs hr
  have hneed : tripNeed g i (measTaken g x s.part) = need := by
    rw [tripNeed, totalsOf_changeState]
    rfl
  rw [hneed] at hgiven
  refine ⟨_, hexec, rfl, hgiven.img, ?_⟩
  dsimp only
  rw [stateNotice_measTaken] at hgiven
  refine ⟨hgiven.attention, hgiven.target, hgiven.step, hgiven.standing.timed.timersFollow hgiven.standing.running,
    hgiven.others, hgiven.met, fun hstarting => ?_, fun h hn hin hidle hrank hlow => ?_⟩
  · obtain ⟨hgens, hsaid⟩ := hgiven.waits hstarting
    exact ⟨hgens, fun hmet => (hsaid hmet).lu_of_measTaken⟩
  · have hne : h ≠ g := fun e => by
      subst e
      exact absurd (hs.symm.trans hidle) (by decide)
    have hstands : ∀ y, isStandby (measTaken g x s.part) i y → y ≠ h → genRank s.part h < genRank s.part y :=
      fun y ⟨hy, hyidle, hyrank⟩ hyne => hlow y hy hyidle hyrank hyne
    obtain ⟨hgens, hsaid⟩ := hgiven.starts (fun ⟨k, hk, hkstarting⟩ => hn k hk hkstarting) h ⟨hin, hidle, hrank⟩
      hstands
    rw [stateNotice_measTaken_other hne, stateNotice, genStateCode, genStateCode, Nat.zero_add] at hsaid
    exact ⟨hgens, fun hmet => (hsaid hmet).lu_of_measTaken⟩

end Sys2Proof.Machine
end

section
/-! PROOFS. How the generators move in a MEAS write: the one measured by its breaker, any other by the work that an
island's update hands on (R58, R71, R76). -/

namespace Sys2Proof.Machine

/-! ## The moves of work handed on (R47) -/

/-- What work handed on makes of a generator's entry: nothing, an abort or a start (R71, R76). -/
def HandedGen (a b : Gen) : Prop :=
  b = a ∨ (a.state = .unloading ∧ b.state = .online) ∨ (a.state = .idle ∧ b.state = .starting)

theorem HandedGen.trans {a b c : Gen} (h : HandedGen a b) (k : HandedGen b c) : HandedGen a c := by
  rcases h with rfl | ⟨ha, hb⟩ | ⟨ha, hb⟩
  · exact k
  · rcases k with rfl | ⟨hk, -⟩ | ⟨hk, -⟩
    · exact .inr (.inl ⟨ha, hb⟩)
    · exact absurd (hb.symm.trans hk) (by decide)
    · exact absurd (hb.symm.trans hk) (by decide)
  · rcases k with rfl | ⟨hk, -⟩ | ⟨hk, -⟩
    · exact .inr (.inr ⟨ha, hb⟩)
    · exact absurd (hb.symm.trans hk) (by decide)
    · exact absurd (hb.symm.trans hk) (by decide)

/-- What work handed on leaves as it was: a generator neither UNLOADING nor IDLE. -/
theorem HandedGen.eq {a b : Gen} (h : HandedGen a b) (hu : a.state ≠ .unloading) (hi : a.state ≠ .idle) : b = a := by
  rcases h with h | ⟨h, -⟩ | ⟨h, -⟩
  · exact h
  · exact absurd h hu
  · exact absurd h hi

theorem HandedGen.state {a b : Gen} (h : HandedGen a b) : b.state = a.state ∨
    (a.state = .unloading ∧ b.state = .online) ∨ (a.state = .idle ∧ b.state = .starting) :=
  h.imp_left (congrArg Gen.state)

/-- Work handed on makes no generator UNLOADING. -/
theorem HandedGen.unloading {a b : Gen} (h : HandedGen a b) (hb : b.state = .unloading) : a.state = .unloading := by
  rcases h with rfl | ⟨-, h⟩ | ⟨-, h⟩
  · exact hb
  · exact absurd (hb.symm.trans h) (by decide)
  · exact absurd (hb.symm.trans h) (by decide)

/-- Work handed on changes which generators carry load nowhere. -/
theorem HandedGen.carries {a b : Gen} (h : HandedGen a b) : carries b.state = carries a.state := by
  rcases h with rfl | ⟨ha, hb⟩ | ⟨ha, hb⟩
  · rfl
  · rw [ha, hb]
    rfl
  · rw [ha, hb]
    rfl

/-- A change in which the generators move by work handed on alone. -/
def Handed (p q : Part) : Prop := ∀ h : GenId, HandedGen p.gens[h] q.gens[h]

theorem Handed.of_gens {p q : Part} (h : q.gens = p.gens) : Handed p q := fun k => .inl (by rw [h])

theorem Handed.trans {p q r : Part} (h : Handed p q) (k : Handed q r) : Handed p r := fun x => (h x).trans (k x)

theorem Handed.fold {α : Type} {f : Part → α → Part} (h : ∀ q a, Handed q (f q a)) (l : List α) (p : Part) :
    Handed p (l.foldl f p) :=
  foldl_keeps (Handed p) f l p (.of_gens rfl) fun q a _ hq => hq.trans (h q a)

/-- A generator's entry replaced by one that work handed on makes of it. -/
theorem Handed.of_setAt {g : GenId} {e : Gen} {p q : Part} (hq : q.gens = setAt p.gens g e)
    (he : HandedGen p.gens[g] e) : Handed p q := fun x => by
  rw [hq, setAt_get]
  split
  · next h =>
    subst h
    exact he
  · exact .inl rfl

theorem handed_abortAll (i : SecId) (cause : AbortCause) (p : Part) : Handed p (abortAll i cause p) := by
  refine .fold (fun q g => ?_) allGens p
  split
  · next h =>
    obtain ⟨-, hs⟩ := Bool.and_eq_true_iff.mp h
    exact .of_setAt (abortUnloading_gens g cause q) (.inr (.inl ⟨by simpa [genState] using hs, rfl⟩))
  · exact .of_gens rfl

theorem handed_requestStandby (i : SecId) (cause : StartCause) (p : Part) : Handed p (requestStandby i cause p) := by
  unfold requestStandby
  split
  · split
    · next g hg =>
      obtain ⟨-, hidle, -⟩ := ((standbyCandidate_isCandidate p i).2 g hg).1
      exact .of_setAt (p := p) (startGenerator_gens g true cause _) (.inr (.inr ⟨hidle, rfl⟩))
    · exact .of_gens (by simp)
  · exact .of_gens rfl

theorem handed_enterCondition (i : SecId) (p : Part) : Handed p (enterCondition i p) := by
  have hmarks : Handed p (enterMarks i p) := .of_gens (by simp)
  have hladder : Handed (enterSequencer i p.islands[i].condition (enterMarks i p)) (enterCondition i p) :=
    .of_gens (by rw [enterCondition_eq rfl]; simp only [enterLadder_frame])
  refine (hmarks.trans ?_).trans hladder
  unfold enterSequencer
  split
  · cases p.islands[i].condition with
    | overloaded => exact handed_abortAll i .overload _
    | dead => exact handed_requestStandby i .dead _
    | sound | short => exact .of_gens rfl
  · exact .of_gens rfl

theorem handed_afterGen (g : GenId) (forced : Option GenId) (p : Part) : Handed p (afterGen g forced p) := by
  unfold afterGen
  split
  · exact .of_gens rfl
  · next i _ =>
    have hcomputed : Handed p (computeTargets i forced (retotal i p)) := .of_gens (by simp)
    simp only []
    split
    · exact hcomputed.trans (handed_enterCondition i _)
    · exact hcomputed

theorem handed_toRunning (p : Part) : Handed p (toRunning p) := by
  have hsynced := Handed.fold (f := fun q i => syncTimers i q) (fun q i => .of_gens (by simp))
    (islandIds (madeRunning p)) (madeRunning p)
  exact hsynced.trans (.fold (fun q i => handed_enterCondition i q) _ _)

theorem handed_judgeSettled (p : Part) : Handed p (judgeSettled p) := by
  unfold judgeSettled
  split
  · exact handed_toRunning p
  · exact .of_gens rfl

/-! ## The generator measured (R58) -/

/-- The entry to which a MEAS word moves its generator, before work handed on (R58 to R60, R69, R73). -/
def movedGen (x : Word) (e : Gen) : Gen :=
  match bit x 16, e.state with
  | true, .idle | true, .starting | true, .tripped | true, .failed => { Gen.init with state := .online }
  | false, .starting => { e with readySeen := e.readySeen || bit x 17 }
  | false, .online => trippedGen
  | false, .unloading => if e.openIssued then Gen.init else trippedGen
  | _, _ => e

/-- A generator moves to an entry, and work handed on moves on from there. -/
def GenMoves (g : GenId) (e : Gen) (p q : Part) : Prop := Handed (setGen g e p) q

theorem GenMoves.own {g : GenId} {e : Gen} {p q : Part} (h : GenMoves g e p q) : HandedGen e q.gens[g] := by
  have hg := h g
  rwa [show (setGen g e p).gens[g] = e from setAt_same ..] at hg

theorem GenMoves.other {g h : GenId} {e : Gen} {p q : Part} (hm : GenMoves g e p q) (hne : h ≠ g) :
    HandedGen p.gens[h] q.gens[h] := by
  have hh := hm h
  rwa [show (setGen g e p).gens[h] = p.gens[h] from setAt_other _ _ hne.symm] at hh

theorem GenMoves.of_gens {g : GenId} {e : Gen} {p q : Part} (h : q.gens = setAt p.gens g e) : GenMoves g e p q :=
  Handed.of_gens (p := setGen g e p) h

theorem GenMoves.onward {g : GenId} {e : Gen} {p q r : Part} (h : GenMoves g e p q) (k : Handed q r) : GenMoves g e p r :=
  Handed.trans h k

/-- A generator that stays where it is. -/
theorem GenMoves.stays {g : GenId} {p q : Part} (h : Handed p q) : GenMoves g p.gens[g] p q := by
  have hsame : Handed (setGen g p.gens[g] p) p := fun x => by
    rw [setGen, setAt_get]
    split
    · next e =>
      subst e
      exact .inl rfl
    · exact .inl rfl
  exact hsame.trans h

theorem moves_goOnline (g : GenId) (p : Part) : GenMoves g { Gen.init with state := .online } p (goOnline g p) :=
  (GenMoves.of_gens (by simp [changeState_gens])).onward (handed_afterGen g (some g) _)

theorem moves_noteReady (g : GenId) (p : Part) : GenMoves g
    { p.gens[g] with readySeen := p.gens[g].readySeen || engineReady p.img.genMeas[g].word } p (noteReady g p) := by
  unfold noteReady
  split
  · next h =>
    obtain ⟨hready, -⟩ := Bool.and_eq_true_iff.mp h
    rw [hready, Bool.or_true]
    exact (GenMoves.of_gens (by simp [setGen])).onward (handed_afterGen g none _)
  · next h =>
    have hseen : (p.gens[g].readySeen || engineReady p.img.genMeas[g].word) = p.gens[g].readySeen := by
      revert h
      cases p.gens[g].readySeen <;> simp
    rw [hseen]
    exact .stays (handed_afterGen g none p)

theorem moves_stopCompleted (g : GenId) (p : Part) : GenMoves g Gen.init p (stopCompleted g p) :=
  (GenMoves.of_gens (e := { Gen.init with state := .idle }) (by simp [changeState_gens])).onward (handed_afterGen g none _)

theorem moves_trip {g : GenId} {i : SecId} {p : Part} (hg : genIsland p g = some i) (last : Nat) :
    GenMoves g trippedGen p (trip g last p) := by
  unfold trip
  rw [hg]
  have hout : GenMoves g trippedGen p (changeState g trippedGen p) := .of_gens (changeState_gens ..)
  have hworked := (hout.onward (handed_afterGen g none _)).onward (handed_abortAll i .trip _)
  refine (hworked.onward ?_).onward (handed_requestStandby i .trip _)
  exact .of_gens (by simp only [noticeGenState_frame, setAtt_frame, fastStep_frame, trippedGen])

theorem moves_moveByBreaker {g : GenId} {i : SecId} {x : Word} {p : Part} (hg : genIsland p g = some i) (last : Nat) :
    GenMoves g (movedGen x p.gens[g]) p (moveByBreaker g last (measTaken g x p)) := by
  cases hx : bit x 16
  · rw [moveByBreaker_open last hx, movedGen, hx]
    have hready := moves_noteReady g (measTaken g x p)
    rw [measTaken_copy, engineReady] at hready
    cases hs : p.gens[g].state <;> simp only [genState, hs]
    case starting =>
      rw [← hs]
      exact hready
    case online => exact moves_trip (p := measTaken g x p) hg last
    case unloading =>
      split
      · exact moves_stopCompleted g (measTaken g x p)
      · exact moves_trip (p := measTaken g x p) hg last
    all_goals exact .stays (p := measTaken g x p) (handed_afterGen g none _)
  · rw [moveByBreaker_closed last hx, movedGen, hx]
    cases hs : p.gens[g].state <;> simp only [genState, hs]
    case online | unloading => exact .stays (p := measTaken g x p) (handed_afterGen g none _)
    all_goals exact moves_goOnline g (measTaken g x p)

/-- A MEAS write moves its generator by the breaker reported, and any other by work handed on alone. -/
theorem moves_measured {g : GenId} {i : SecId} {x : Word} {p : Part} (hg : genIsland p g = some i) :
    GenMoves g (movedGen x p.gens[g]) p (measured g x p) :=
  (moves_moveByBreaker hg _).onward (handed_judgeSettled _)

end Sys2Proof.Machine
end

section
/-! PROOFS. What work handed on leaves of the targets: an island's entry writes none outside the island, nor that of a
generator that carries no load (R47, R71, R76, R92, R111). -/

namespace Sys2Proof.Machine

/-! ## The ladder writes no target (R102, R103, R111) -/

theorem targetEntry_shedConsumer (c : ConsId) (cause : ShedCause) (credit : Nat) (p : Part) (g : GenId) :
    targetEntry (shedConsumer c cause credit p).sq g = targetEntry p.sq g := by
  simp [shedConsumer, targetEntry_put_other]

theorem targetEntry_reshed (c : ConsId) (p : Part) (g : GenId) :
    targetEntry (reshed c p).sq g = targetEntry p.sq g := by
  simp [reshed, targetEntry_put_other]

theorem targetEntry_writeDriveLimit (d : DriveId) (p : Part) (g : GenId) :
    targetEntry (writeDriveLimit d p).sq g = targetEntry p.sq g := by
  simp [writeDriveLimit, targetEntry_put_other]

theorem targetEntry_shedDrive (d : DriveId) (cause : ShedCause) (credit cut : Nat) (p : Part) (g : GenId) :
    targetEntry (shedDrive d cause credit cut p).sq g = targetEntry p.sq g := by
  simp [shedDrive, noticeDriveShed, targetEntry_writeDriveLimit]

theorem targetEntry_deadLower (i : SecId) (p : Part) (d : DriveId) (g : GenId) :
    targetEntry (deadLower i p d).sq g = targetEntry p.sq g := by
  unfold deadLower
  simp only []
  split
  · simp [noticeDriveShed, targetEntry_writeDriveLimit]
  · rfl

theorem targetEntry_deadTake (p : Part) (t : Target) (g : GenId) :
    targetEntry (deadTake p t).sq g = targetEntry p.sq g := by
  cases t with
  | cons c => exact targetEntry_shedConsumer c .dead _ p g
  | drive d => exact targetEntry_shedDrive d .dead _ _ p g

/-- A dead shed leaves every generator's share. -/
theorem shareOf_deadShed (i : SecId) (p : Part) (g : GenId) : shareOf (deadShed i p) g = shareOf p g := by
  have hreshed : targetEntry (reshedAll (restoringOf p i) p).sq g = targetEntry p.sq g := by
    refine foldl_keep (fun q : Part => targetEntry q.sq g) _ _ p fun q t => ?_
    cases t with
    | cons c => exact targetEntry_reshed c q g
    | drive d => rfl
  have htaken : targetEntry ((candidatesOf p i).foldl deadTake (reshedAll (restoringOf p i) p)).sq g
      = targetEntry p.sq g :=
    (foldl_keep (fun q : Part => targetEntry q.sq g) _ _ _ fun q t => targetEntry_deadTake q t g).trans hreshed
  have hentry : targetEntry (deadShed i p).sq g = targetEntry p.sq g :=
    (foldl_keep (fun q : Part => targetEntry q.sq g) _ _ _ fun q d => targetEntry_deadLower i q d g).trans htaken
  simp only [shareOf, deadShed_frame, hentry]

/-! ## The sequencer writes targets of its island's carriers alone -/

/-- A change in which an island's carriers stand, and in which a generator that is none of them keeps its share. -/
structure SparesIdle (g : GenId) (i : SecId) (p q : Part) : Prop extends SameCarriers i p q where
  share : g ∉ carrying p i → shareOf q g = shareOf p g

theorem SparesIdle.trans {g : GenId} {i : SecId} {p q r : Part} (h : SparesIdle g i p q) (k : SparesIdle g i q r) :
    SparesIdle g i p r where
  toSameCarriers := h.toSameCarriers.trans k.toSameCarriers
  share hg := (k.share (by rw [h.carrying]; exact hg)).trans (h.share hg)

/-- An abort writes the target of the generator that it returns to ONLINE, and those of the others that carry load. -/
theorem sparesIdle_abortUnloading (g : GenId) {h : GenId} {i : SecId} (cause : AbortCause) {p : Part}
    (hh : genIsland p h = some i) (hs : genState p h = .unloading) : SparesIdle g i p (abortUnloading h cause p) := by
  refine ⟨(sequenced_abortUnloading cause hh hs).toSameCarriers, fun hg => ?_⟩
  have hkept : changeState h { Gen.init with state := .online } p = setGen h { Gen.init with state := .online } p :=
    changeState_kept (.inr rfl) (.inr rfl)
  unfold abortUnloading
  simp only [hkept]
  have hwithin : ∀ q : Part, q.img = p.img ∧ q.plans = p.plans ∧ q.ms = p.ms ∧ q.cons = p.cons ∧ q.drives = p.drives ∧
      q.shedList = p.shedList → q.gens = setAt p.gens h { Gen.init with state := .online } → shareOf q g = shareOf p g →
      shareOf (afterGenInner h (some h) q) g = shareOf p g := fun q hq hgens hshare => by
    have hsame : SameCarriers i p q := sameCarriers_setGen (.of_eq i hq) hgens (by rw [hs]; rfl)
    rw [shareOf_afterGenInner_idle _ (by rw [hsame.genIsland, hh]) (by rw [hsame.carrying]; exact hg), hshare]
  split
  · exact hwithin _ (by simp) (by simp [setGen]) (by simp [shareOf])
  · exact hwithin _ (by simp) (by simp [setGen]) (by simp [shareOf])

theorem sparesIdle_abortAll (g : GenId) (i : SecId) (cause : AbortCause) (p : Part) :
    SparesIdle g i p (abortAll i cause p) := by
  refine foldl_keeps (SparesIdle g i p) _ allGens p ⟨.refl i p, fun _ => rfl⟩ fun q h _ hq => ?_
  split
  · next ht =>
    obtain ⟨hin, hs⟩ := Bool.and_eq_true_iff.mp ht
    exact hq.trans (sparesIdle_abortUnloading g cause (by simpa [genIn] using hin) (by simpa using hs))
  · exact hq

/-- An island's entry leaves the share of a generator that carries none of its load. -/
theorem shareOf_enterCondition {g : GenId} {i : SecId} {p : Part} (hg : g ∉ carrying p i) :
    shareOf (enterCondition i p) g = shareOf p g := by
  have hmarks : g ∉ carrying (enterMarks i p) i := by
    rw [(sequenced_enterMarks i p).carrying]
    exact hg
  have hsequencer : shareOf (enterSequencer i p.islands[i].condition (enterMarks i p)) g = shareOf p g := by
    rw [← shareOf_enterMarks i p g]
    unfold enterSequencer
    split
    · cases p.islands[i].condition with
      | overloaded => exact (sparesIdle_abortAll g i .overload _).share hmarks
      | dead => exact shareOf_requestStandby .dead hmarks
      | sound | short => rfl
    · rfl
  refine Eq.trans ?_ hsequencer
  rw [enterCondition_eq rfl, enterLadder]
  split
  · exact shareOf_deadShed i _ g
  · rfl

/-- An event of a generator leaves the share of one that carries none of its island's load. -/
theorem shareOf_afterGen_idle {g h : GenId} {i : SecId} (forced : Option GenId) {p : Part} (hg : genIsland p h = some i)
    (hidle : g ∉ carrying p i) : shareOf (afterGen h forced p) g = shareOf p g := by
  have hsame : SameCarriers i p (recomputed i forced p) :=
    IslandView.sameCarriers ⟨.of_eq i (by simp), by simp⟩
  have hrecomputed : shareOf (recomputed i forced p) g = shareOf p g := by
    have hretotal : SameCarriers i p (retotal i p) := IslandView.sameCarriers ⟨.of_eq i (by simp), by simp⟩
    rw [recomputed, shareOf_computeTargets_other forced (by rw [hretotal.carrying]; exact hidle)]
    simp [shareOf]
  rw [afterGen_eq forced hg]
  split
  · exact hrecomputed
  · rw [shareOf_enterCondition (by rw [hsame.carrying]; exact hidle), hrecomputed]

/-- The change to RUNNING leaves the share of a generator that carries no load. -/
theorem shareOf_judgeSettled_idle {g : GenId} {p : Part} (hg : carries (genState p g) = false) :
    shareOf (judgeSettled p) g = shareOf p g := by
  unfold judgeSettled
  split
  · have hsynced : Handed p ((islandIds (madeRunning p)).foldl (fun q j => syncTimers j q) (madeRunning p)) ∧
        shareOf ((islandIds (madeRunning p)).foldl (fun q j => syncTimers j q) (madeRunning p)) g = shareOf p g :=
      ⟨.fold (p := madeRunning p) (fun q j => .of_gens (by simp)) _,
        foldl_keep (shareOf · g) _ _ (madeRunning p) fun q j => by simp [shareOf]⟩
    refine (foldl_keeps (fun q => Handed p q ∧ shareOf q g = shareOf p g) (fun q j => enterCondition j q)
      (islandIds (madeRunning p)) _ hsynced fun q j _ ⟨hq, hshare⟩ => ⟨hq.trans (handed_enterCondition j q), ?_⟩).2
    have hidle : g ∉ carrying q j := fun hc => by
      obtain ⟨-, hcarries⟩ := mem_carrying.mp hc
      rw [genState, (hq g).carries] at hcarries
      exact Bool.false_ne_true (hg.symm.trans hcarries)
    rw [shareOf_enterCondition hidle, hshare]
  · rfl

end Sys2Proof.Machine
end

section
/-! PROOFS. What an event of a generator, and the change to RUNNING that it may bring, leave of its island's condition and
of its targets (R45, R47, R84, R175, R176). -/

namespace Sys2Proof.Machine

/-! ## A condition that work handed on leaves (R46, R47) -/

/-- An island that stands enters DEAD or OVERLOADED: the work handed on leaves it there. -/
theorem Standing.lasts {old : Island} {i : SecId} {p : Part} (h : Standing old i p)
    (hc : p.islands[i].condition = .dead ∨ p.islands[i].condition = .overloaded) :
    (enterCondition i p).islands[i].condition = p.islands[i].condition := by
  have hpoised : Poised old i p := ⟨h.running, h.stands, h.timed, .inr hc⟩
  rcases hc with hd | ho
  · have hseq := sequenced_enterCondition i .dead p
    obtain ⟨hcarry, hstopped⟩ := (hseq.poised old hpoised).dead (hseq.dead hpoised hd)
    obtain ⟨-, -, hafter, -⟩ := deadShed_sheds hcarry hstopped
    rw [enterCondition_dead_eq h.running hd, hafter.condition, hd]
  · have hseq := sequenced_enterCondition i .overloaded p
    obtain ⟨⟨-, hbefore⟩, -⟩ := h.stands
    obtain ⟨⟨-, hafter⟩, -⟩ := (hseq.poised old hpoised).stands
    rw [enterCondition_eq ho, enterLadder_alive i _ (by decide), hafter, ho]
    exact hseq.condition_iff.2.mpr (hbefore.symm.trans ho)

/-- After an update and the computation of its targets, an island stands. -/
theorem standing_recomputed (i : SecId) (forced : Option GenId) {p : Part} (hr : isRunning p = true) :
    Standing p.islands[i] i (recomputed i forced p) :=
  (standing_retotal hr).congr (by simp [recomputed]) (by simp [recomputed]) (by simp [recomputed])
    (by simp [recomputed]) (by simp [recomputed]) (computeTargets_standing i forced (retotal i p))

/-- An event of a generator that hands work on leaves its island in the condition entered, another than before. -/
theorem afterGen_lasts {g : GenId} {i : SecId} (forced : Option GenId) {p : Part} (hg : genIsland p g = some i)
    (h : ¬Settles i p) : isRunning p = true ∧ conditionOf p i (totalsOf p i) ≠ p.islands[i].condition ∧
      (conditionOf p i (totalsOf p i) = .dead ∨ conditionOf p i (totalsOf p i) = .overloaded) ∧
      (afterGen g forced p).islands[i].condition = conditionOf p i (totalsOf p i) := by
  obtain ⟨hr, h⟩ := not_or.mp h
  obtain ⟨hne, hwork⟩ := not_or.mp h
  have hrun : isRunning p = true := by simpa using hr
  have hc : conditionOf p i (totalsOf p i) = .dead ∨ conditionOf p i (totalsOf p i) = .overloaded := by
    by_contra hquiet
    obtain ⟨hd, ho⟩ := not_or.mp hquiet
    exact hwork ⟨hd, fun hc => absurd hc ho⟩
  obtain ⟨-, hcondition, -⟩ := recomputed_record i forced p
  rw [← hcondition] at hc
  refine ⟨hrun, hne, hcondition ▸ hc, ?_⟩
  rw [afterGen_eq forced hg, if_neg hne, (standing_recomputed i forced hrun).lasts hc, hcondition]

/-! ## Targets that stand (R84 to R92) -/

/-- What a generator's target rests on stands, and what was written of it. -/
structure TargetStands (g : GenId) (i : SecId) (p q : Part) : Prop where
  target : targetOf q i g = targetOf p i g
  first : firstShare q i g = firstShare p i g
  share : shareOf q g = shareOf p g

/-- The members of an island stand, its load, and the shares of its generators. -/
structure KeepsTargets (i : SecId) (p q : Part) : Prop extends IslandView i p q where
  load : q.islands[i].totals.load = p.islands[i].totals.load
  share : ∀ g, genIsland p g = some i → shareOf q g = shareOf p g

theorem KeepsTargets.refl (i : SecId) (p : Part) : KeepsTargets i p p := ⟨.refl i p, rfl, fun _ _ => rfl⟩

theorem KeepsTargets.trans {i : SecId} {p q r : Part} (h : KeepsTargets i p q) (k : KeepsTargets i q r) :
    KeepsTargets i p r where
  toIslandView := h.toIslandView.trans k.toIslandView
  load := k.load.trans h.load
  share g hg := (k.share g (by rw [h.genIsland, hg])).trans (h.share g hg)

theorem KeepsTargets.targetStands {g : GenId} {i : SecId} {p q : Part} (h : KeepsTargets i p q)
    (hg : genIsland p g = some i) : TargetStands g i p q where
  target := targetOf_stands h.toIslandView h.load (fun x hx => congrArg Prod.fst (h.share x hx)) hg
  first := firstShare_congr h.toIslandView h.load g
  share := h.share g hg

/-- A change that leaves all but the records, the island's own standing as it was. -/
theorem KeepsTargets.of_eq {i : SecId} {p q : Part} (h : q.img = p.img ∧ q.plans = p.plans ∧ q.ms = p.ms ∧
    q.cons = p.cons ∧ q.drives = p.drives ∧ q.shedList = p.shedList) (hgens : q.gens = p.gens)
    (hshare : q.sharing = p.sharing ∧ q.sq = p.sq) (hload : q.islands[i].totals.load = p.islands[i].totals.load) :
    KeepsTargets i p q where
  toIslandView := ⟨.of_eq i h, fun g _ => by rw [hgens]⟩
  load := hload
  share g _ := by rw [shareOf, hshare.1, hshare.2, shareOf]

theorem keepsTargets_syncTimers (i j : SecId) (p : Part) : KeepsTargets i p (syncTimers j p) := by
  refine .of_eq (by simp) (by simp) (by simp) ?_
  by_cases hij : i = j
  · subst hij
    rw [(syncTimers_marks i p).1]
  · rw [(spares_syncTimers hij p).record]

theorem keepsTargets_enterMarks (i : SecId) (p : Part) : KeepsTargets i p (enterMarks i p) :=
  .of_eq (by simp) (by simp) (by simp) (by rw [(enterMarks_standing i p).totals])

/-- An entry of another island keeps this one's record too. -/
theorem keepsTargets_enterCondition {i j : SecId} (hij : i ≠ j) (p : Part) : KeepsTargets i p (enterCondition j p) where
  toIslandView := (spares_enterCondition hij p).toIslandView
  load := by rw [(spares_enterCondition hij p).record]
  share g hg := shareOf_enterCondition fun hc => hij (Option.some.inj (hg.symm.trans (mem_carrying.mp hc).1))

/-! ## The change to RUNNING, in one island's turn (R48, R176) -/

/-- The entries of other islands, taken in turn. -/
theorem keepsTargets_others {i : SecId} {l : List SecId} (hi : i ∉ l) (p : Part) :
    KeepsTargets i p (l.foldl (fun q j => enterCondition j q) p) ∧
      Spares i p (l.foldl (fun q j => enterCondition j q) p) :=
  ⟨foldl_keeps (KeepsTargets i p) _ l p (.refl i p) fun q _ hj hq =>
      hq.trans (keepsTargets_enterCondition (fun e => hi (by rw [e]; exact hj)) q),
    .others (fun q _ hij => spares_enterCondition hij q) hi p⟩

/-- The part made RUNNING, its timers started. -/
def timersStarted (p : Part) : Part := (islandIds (madeRunning p)).foldl (fun q j => syncTimers j q) (madeRunning p)

theorem timersStarted_keepsTargets (i : SecId) (p : Part) : KeepsTargets i (madeRunning p) (timersStarted p) :=
  foldl_keeps (KeepsTargets i (madeRunning p)) _ _ _ (.refl i _) fun q j _ hq => hq.trans (keepsTargets_syncTimers i j q)

theorem timersStarted_condition (i : SecId) (p : Part) :
    (timersStarted p).islands[i].condition = p.islands[i].condition :=
  foldl_keep (fun q : Part => q.islands[i].condition) _ _ (madeRunning p) fun q j => syncTimers_condition i j q

/-- An island that stands when the part turns RUNNING stands once the timers are started. -/
theorem timersStarted_standing {i : SecId} {p : Part} (hi : isIslandId p.img.ties i = true) (hs : islandStands p i) :
    Standing p.islands[i] i (timersStarted p) := by
  obtain ⟨a, hbefore, hafter⟩ := Spares.turn (f := fun q j => syncTimers j q)
    (fun q j hij => spares_syncTimers hij q) (nodup_islandIds _) ((mem_islandIds (p := madeRunning p)).mpr hi) (madeRunning p)
  have hrecord : a.islands[i] = p.islands[i] := hbefore.record
  have hstands : islandStands a i := hbefore.islandStands (p := madeRunning p) hs hbefore.standing
  have hview : IslandView i a (syncTimers i a) := ⟨.of_eq i (by simp), by simp⟩
  have hrunning : isRunning a = true := hbefore.running
  have htimed := timed_syncTimers i hrunning
  rw [hrecord] at htimed
  refine ⟨?_, hafter.islandStands ((islandStands_syncTimers i i a).mpr hstands) hafter.standing,
    htimed.congr hafter.standing hafter.plans hafter.ms hafter.entries⟩
  rw [timersStarted, hafter.running, hview.running, hrunning]

/-- An island's turn: what it is handed keeps its targets and its condition, and the turns after its own keep both. -/
theorem toRunning_turn {i : SecId} {p : Part} (hi : isIslandId p.img.ties i = true) :
    ∃ b, KeepsTargets i (madeRunning p) b ∧ Handed p b ∧ b.islands[i].condition = p.islands[i].condition ∧
      (islandStands p i → Standing p.islands[i] i b) ∧
      KeepsTargets i (enterCondition i b) (toRunning p) ∧
      (toRunning p).islands[i].condition = (enterCondition i b).islands[i].condition := by
  obtain ⟨before, later, hsplit⟩ := List.append_of_mem ((mem_islandIds (p := madeRunning p)).mpr hi)
  have hnodup := nodup_islandIds (madeRunning p)
  rw [hsplit] at hnodup
  have hnotBefore : i ∉ before := fun hm => (List.disjoint_of_nodup_append hnodup) hm List.mem_cons_self
  have hnotLater : i ∉ later := (List.nodup_cons.mp (List.nodup_append.mp hnodup).2.1).1
  have hturn : toRunning p = later.foldl (fun q j => enterCondition j q)
      (enterCondition i (before.foldl (fun q j => enterCondition j q) (timersStarted p))) := by
    have hdef : toRunning p = (islandIds (madeRunning p)).foldl (fun q j => enterCondition j q) (timersStarted p) := rfl
    rw [hdef, hsplit, List.foldl_append, List.foldl_cons]
  obtain ⟨hkeeps, hspares⟩ := keepsTargets_others hnotBefore (timersStarted p)
  obtain ⟨hkeepsLater, hsparesLater⟩ := keepsTargets_others hnotLater
    (enterCondition i (before.foldl (fun q j => enterCondition j q) (timersStarted p)))
  have hstarted : Handed p (timersStarted p) := .fold (p := madeRunning p) (fun q j => .of_gens (by simp)) _
  rw [hturn]
  refine ⟨_, (timersStarted_keepsTargets i p).trans hkeeps,
    hstarted.trans (.fold (fun q j => handed_enterCondition j q) _ _), ?_, fun hs => ?_, hkeepsLater, ?_⟩
  · rw [hspares.record, timersStarted_condition]
  · have hstanding := timersStarted_standing hi hs
    exact ⟨by rw [hspares.running, hstanding.running], hspares.islandStands hstanding.stands hspares.standing,
      hstanding.timed.congr hspares.standing hspares.plans hspares.ms hspares.entries⟩
  · rw [hsparesLater.record]

/-- The change to RUNNING leaves the targets of an island that is not DEAD, unless it withdraws stops there. -/
theorem toRunning_targetStands {g : GenId} {i : SecId} {p : Part} (hi : isIslandId p.img.ties i = true)
    (hg : genIsland p g = some i) (hs : islandStands p i) (hd : p.islands[i].condition ≠ .dead)
    (ho : (∀ h, genIsland p h = some i → p.gens[h].state ≠ .unloading) ∨
      (toRunning p).islands[i].condition ≠ .overloaded) : TargetStands g i p (toRunning p) := by
  obtain ⟨b, hkeeps, hhanded, hcondition, hstanding, hlater, hafter⟩ := toRunning_turn hi
  have hmarks : enterCondition i b = enterMarks i b := by
    refine enterCondition_marks (by rw [hcondition]; exact hd) fun hc h hh => ?_
    rcases ho with hnone | hnot
    · have hin : genIsland p h = some i := by
        rw [← hh, hkeeps.genIsland]
        rfl
      exact fun hu => hnone h hin ((hhanded h).unloading hu)
    · refine absurd ?_ hnot
      rw [hafter, (hstanding hs).lasts (.inr hc), hc]
  rw [hmarks] at hlater
  obtain ⟨htarget, hfirst, hshare⟩ := ((hkeeps.trans (keepsTargets_enterMarks i b)).trans hlater).targetStands hg
  exact ⟨htarget, hfirst, hshare⟩

theorem judgeSettled_targetStands {g : GenId} {i : SecId} {p : Part} (hi : isIslandId p.img.ties i = true)
    (hg : genIsland p g = some i) (hs : islandStands p i) (hd : p.islands[i].condition ≠ .dead)
    (ho : (∀ h, genIsland p h = some i → p.gens[h].state ≠ .unloading) ∨
      (judgeSettled p).islands[i].condition ≠ .overloaded) : TargetStands g i p (judgeSettled p) := by
  by_cases hsettles : p.plans.partState = .settling ∧ settled p = true
  · have hturns : judgeSettled p = toRunning p := if_pos hsettles
    rw [hturns] at ho ⊢
    exact toRunning_targetStands hi hg hs hd ho
  · rw [judgeSettled, if_neg hsettles]
    exact ⟨rfl, rfl, rfl⟩

end Sys2Proof.Machine
end

section
/-! PROOFS. The entry to ONLINE of a generator reported CLOSED (R59, R84, R90, R92). -/

namespace Sys2Proof.Machine

/-- The island that holds a generator is named by its id (R35). -/
theorem isIslandId_of_genIsland {p : Part} {g : GenId} {i : SecId} (hg : genIsland p g = some i) :
    isIslandId p.img.ties i = true := by
  cases hgp : p.plans.active.gens[g] with
  | none => simp [genIsland, hgp] at hg
  | some gp =>
    obtain rfl := Option.some.inj ((genIsland_of_plan hgp).symm.trans hg)
    exact beq_iff_eq.mpr (islandId_islandId ..)

/-- After an event of a generator that hands no work on, its island stands by its members. -/
theorem islandStands_afterGenInner {g : GenId} {i : SecId} (forced : Option GenId) {p : Part}
    (hg : genIsland p g = some i) : islandStands (afterGenInner g forced p) i :=
  IslandView.islandStands ⟨.of_eq i (by simp), by simp⟩ (islandStands_retotal i p) (afterGenInner_standing forced hg)

/-- A cap just opened stands where the generator is in MODE FIXED, or its first share is above the output at which it
opened; it is removed elsewhere (R87, R90). -/
theorem capJudged_opened {p : Part} {g : GenId} {i : SecId} {output : Nat} {now : Word} {s : Sharing}
    (hg : genIsland p g = some i) (hs : p.gens[g].state = .online) (ho : p.sharing[g] = openCap output now s) :
    capJudged p i g = if reqFixed p.img.genReq[g] = true ∨ output < firstShare p i g then openCap output now s
      else dropCap s := by
  by_cases hfixed : reqFixed p.img.genReq[g] = true
  · rw [if_pos (.inl hfixed), capJudged_stands (.inr hfixed), ho]
  · have hopen : p.sharing[g].capOpen = true := by
      rw [ho]
      rfl
    rw [capJudged_sharer hg hs (Bool.eq_false_iff.mpr hfixed) hopen, ho]
    by_cases hheld : output < firstShare p i g
    · exact (if_neg (not_le.mpr hheld)).trans (if_pos (.inr hheld)).symm
    · exact (if_pos (not_lt.mp hheld)).trans (if_neg (not_or.mpr ⟨hfixed, hheld⟩)).symm

/-- A generator as it enters ONLINE (R59). -/
def onlineGen : Gen := { Gen.init with state := .online }

/-- The part with a generator entered ONLINE: its cap opened at its output, its notice given (R59, R90). -/
def enteredOnline (g : GenId) (p : Part) : Part :=
  noticeGenState g .online (genState p g) (kw (measKw p.img.genMeas[g])) 0#32
    (setSharing g (openCap (measKw p.img.genMeas[g]) p.ms p.sharing[g]) (setGen g onlineGen p))

theorem enteredOnline_frame (g : GenId) (p : Part) :
    (enteredOnline g p).img = p.img ∧ (enteredOnline g p).plans = p.plans ∧ (enteredOnline g p).ms = p.ms ∧
      (enteredOnline g p).islands = p.islands ∧ (enteredOnline g p).gens = setAt p.gens g onlineGen := by
  simp [enteredOnline]

section
variable {g : GenId} {i : SecId} {p : Part} (hg : genIsland p g = some i) (hidle : carries (genState p g) = false)
include hidle

theorem goOnline_eq : goOnline g p = afterGen g (some g) (enteredOnline g p) := by
  have hkept : changeState g onlineGen p = setGen g onlineGen p := by
    refine changeState_kept (.inl fun h => ?_) (.inl hidle)
    rw [h] at hidle
    exact absurd hidle (by decide)
  unfold goOnline
  simp only []
  rw [← onlineGen, hkept]
  rfl

omit hidle
include hg

theorem genIsland_enteredOnline : genIsland (enteredOnline g p) g = some i := by
  obtain ⟨himg, hplans, -⟩ := enteredOnline_frame g p
  rw [(islandsOf_congr himg hplans).1, hg]

theorem says_enteredOnline :
    Says [stateNotice p g i .online (genState p g) (kw (measKw p.img.genMeas[g])) 0#32] p (enteredOnline g p) :=
  (says_stateNotice (q := setSharing g (openCap (measKw p.img.genMeas[g]) p.ms p.sharing[g]) (setGen g onlineGen p)) hg
    (by simp) .online (genState p g) _ _).after (by simp) (by simp)

/-- The generator just entered carries its island. -/
theorem enteredOnline_alive :
    conditionOf (enteredOnline g p) i (totalsOf (enteredOnline g p) i) ≠ .dead := fun hd => by
  obtain ⟨-, -, -, -, hgens⟩ := enteredOnline_frame g p
  have hmem : g ∈ carrying (enteredOnline g p) i :=
    mem_carrying.mpr ⟨genIsland_enteredOnline hg, by
      rw [genState, hgens, setAt_same]
      rfl⟩
  rw [(conditionOf_dead_iff ..).mp hd] at hmem
  cases hmem

omit hg in
/-- No generator of the island is UNLOADING after the entry that was not before it. -/
theorem enteredOnline_unloading {q : Part} (hgens : q.gens = setAt p.gens g onlineGen)
    (hnone : ∀ h, genIsland p h = some i → p.gens[h].state ≠ .unloading) (h : GenId) (hh : genIsland p h = some i) :
    q.gens[h].state ≠ .unloading := by
  rw [hgens, setAt_get]
  split
  · decide
  · exact hnone h hh

include hidle

/-- The entry hands no work on, unless it withdraws stops in an OVERLOADED island. -/
theorem settles_enteredOnline (ho : (∀ h, genIsland p h = some i → p.gens[h].state ≠ .unloading) ∨
    (judgeSettled (goOnline g p)).islands[i].condition ≠ .overloaded) : Settles i (enteredOnline g p) := by
  by_contra hworks
  have halive := enteredOnline_alive hg
  obtain ⟨himg, hplans, -, -, hgens⟩ := enteredOnline_frame g p
  obtain ⟨hr, -, hc, hlasts⟩ := afterGen_lasts (some g) (genIsland_enteredOnline hg) hworks
  have hover := hc.resolve_left halive
  rw [← goOnline_eq hidle, hover] at hlasts
  rcases ho with hnone | hnot
  · exact hworks (.inr (.inr ⟨halive, fun _ h hh =>
      enteredOnline_unloading hgens hnone h (by rw [← (islandsOf_congr himg hplans).1, hh])⟩))
  · have hrunning : (goOnline g p).plans.partState = .running := by
      rw [show (goOnline g p).plans = p.plans by simp, ← hplans]
      simpa [isRunning] using hr
    rw [judgeSettled_stands (by rw [hrunning]; nofun)] at hnot
    exact hnot hlasts

/-- What an entry to ONLINE that withdraws no stop leaves once the settling condition is judged: its one notice where
that brings nothing, its target written, and its cap as R87 and R90 have it. -/
theorem goOnline_settled (ho : (∀ h, genIsland p h = some i → p.gens[h].state ≠ .unloading) ∨
    (judgeSettled (goOnline g p)).islands[i].condition ≠ .overloaded) :
    let t := judgeSettled (goOnline g p)
    let output := measKw p.img.genMeas[g]
    let target := targetOf t i g
    (p.plans.partState ≠ .settling ∨ settled p = false →
      Says [stateNotice p g i .online (genState p g) (kw output) 0#32] p t) ∧
    targetEntry t.sq g = some ⟨.genTarget g, pack [(target, 0, 16)]⟩ ∧
    t.sharing[g] = if reqFixed p.img.genReq[g] = true ∨ output < firstShare t i g then
        ⟨target, true, output, 0#16, output, some (after p.ms 100)⟩
      else ⟨target, false, 0, 0#16, 0, none⟩ := by
  have hentered := genIsland_enteredOnline hg
  have honline : goOnline g p = afterGenInner g (some g) (enteredOnline g p) := by
    rw [goOnline_eq hidle, afterGen_settles (some g) hentered (settles_enteredOnline hg hidle ho)]
  obtain ⟨himg, hplans, hms, -, hgens⟩ := enteredOnline_frame g p
  obtain ⟨-, hcondition, -⟩ := afterGenInner_record (some g) hentered
  have hstands := islandStands_afterGenInner (some g) hentered
  have hcarries : carries (genState (enteredOnline g p) g) = true := by
    rw [genState, hgens, setAt_same]
    rfl
  have hwritten := shareOf_afterGenInner_forced hentered hcarries
  rw [← honline] at hcondition hstands hwritten
  have hislands : genIsland (goOnline g p) = genIsland p := (islandsOf_congr (by simp) (by simp)).1
  have hmoved : (goOnline g p).gens = setAt p.gens g onlineGen := by
    rw [honline]
    simp [hgens]
  have hkept : TargetStands g i (goOnline g p) (judgeSettled (goOnline g p)) := by
    refine judgeSettled_targetStands ?_ (by rw [hislands, hg]) hstands ?_ (ho.imp_left fun hnone h hh => ?_)
    · rw [show (goOnline g p).img = p.img by simp]
      exact isIslandId_of_genIsland hg
    · rw [hcondition]
      exact enteredOnline_alive hg
    · exact enteredOnline_unloading hmoved hnone h (by rw [← hislands, hh])
  have hcap : capJudged (retotal i (enteredOnline g p)) i g
      = if reqFixed p.img.genReq[g] = true ∨ measKw p.img.genMeas[g] < firstShare (judgeSettled (goOnline g p)) i g then
          openCap (measKw p.img.genMeas[g]) p.ms p.sharing[g]
        else dropCap p.sharing[g] := by
    have hopened : (retotal i (enteredOnline g p)).sharing[g] = openCap (measKw p.img.genMeas[g]) p.ms p.sharing[g] := by
      simp [enteredOnline]
    have hfirst : firstShare (judgeSettled (goOnline g p)) i g = firstShare (retotal i (enteredOnline g p)) i g := by
      rw [hkept.first, honline]
      refine firstShare_congr ⟨.of_eq i (by simp), by simp⟩ ?_ g
      rw [(afterGenInner_standing (some g) hentered).totals]
    have hreq : (retotal i (enteredOnline g p)).img.genReq[g] = p.img.genReq[g] := by simp [himg]
    rw [hfirst, ← hreq]
    exact capJudged_opened (by rw [← hentered]; simp [genIsland]) (by simp [hgens, onlineGen]) hopened
  obtain ⟨hsharing, hentry⟩ := Prod.mk.inj (hkept.share.trans hwritten)
  rw [hcap] at hsharing
  rw [← hkept.target] at hsharing hentry
  refine ⟨fun hstays => ?_, hentry, ?_⟩
  · rw [judgeSettled_stays (by simp) (by simp) hstays, honline]
    exact (says_enteredOnline hg).quiet (by simp) (by simp)
  · rw [hsharing]
    split <;> rfl

end

end Sys2Proof.Machine
end

section
/-! PROOFS. The engine-ready mark of a STARTING generator, and the end of a planned stop (R60, R69, R79). -/

namespace Sys2Proof.Machine

/-! ## A STARTING generator reported OPEN (R60) -/

/-- The notice that a STARTING generator's report gives, once, where its engine is ready. -/
def readyReport (g : GenId) (i : SecId) (p : Part) : List Report :=
  if engineReady p.img.genMeas[g].word = true ∧ p.gens[g].readySeen = false then
    [stateNotice p g i .starting .starting 0#32 0#32]
  else []

/-- The part with a STARTING generator's engine noted ready. -/
def readyNoted (g : GenId) (p : Part) : Part :=
  noticeGenState g .starting .starting 0#32 0#32 (setGen g { p.gens[g] with readySeen := true } p)

theorem noteReady_eq (g : GenId) (p : Part) : noteReady g p = afterGen g none
    (if engineReady p.img.genMeas[g].word = true ∧ p.gens[g].readySeen = false then readyNoted g p else p) := by
  unfold noteReady
  by_cases h : engineReady p.img.genMeas[g].word = true ∧ p.gens[g].readySeen = false
  · obtain ⟨hready, hseen⟩ := h
    rw [if_pos (by rw [hready, hseen]; rfl), if_pos ⟨hready, hseen⟩]
    rfl
  · rw [if_neg fun hc => h (by simpa using hc), if_neg h]

section
variable {g : GenId} {i : SecId} {p : Part} (hg : genIsland p g = some i)
include hg

/-- The report is said first; where the island agreed, and no condition is entered by it, it is all that is said. -/
theorem says_noteReady (hs : p.gens[g].state = .starting) :
    (∃ later, Says (readyReport g i p ++ later) p (noteReady g p)) ∧
      (islandAgrees p i → Says (readyReport g i p) p (noteReady g p)) := by
  rw [noteReady_eq, readyReport]
  split
  · have hnoted : Says _ p (readyNoted g p) :=
      (says_stateNotice (q := setGen g { p.gens[g] with readySeen := true } p) hg (by simp) .starting .starting 0#32
        0#32).after (by simp) (by simp)
    refine ⟨?_, fun hagrees => ?_⟩
    · obtain ⟨later, hlater⟩ := (effects_afterGen g none (readyNoted g p)).says
      exact ⟨later, hnoted.trans hlater⟩
    · have hsettles : Settles i (readyNoted g p) := by
        refine settles_setGen (.of_eq i (by simp [readyNoted])) (g := g) (e := { p.gens[g] with readySeen := true })
          (by simp [readyNoted, setGen]) (by rw [genState, hs]; rfl) (by rw [hs]; rfl) (by simp [readyNoted])
          (.inl hagrees)
      rw [afterGen_settles none (by rw [← hg]; simp [genIsland, readyNoted]) hsettles]
      exact hnoted.quiet (by simp) (by simp)
  · refine ⟨(effects_afterGen g none p).says, fun hagrees => ?_⟩
    obtain ⟨-, hcondition⟩ := hagrees
    rw [afterGen_settles none hg (.inr (.inl hcondition.symm))]
    exact .nothing (by simp) (by simp)

/-! ## The end of a planned stop (R69) -/

/-- The part with a stop completed, before its island's update. -/
def stopEnded (g : GenId) (p : Part) : Part :=
  clearStandbyOf g (noticeGenState g .idle .unloading 0#32 0#32
    (giveGen g .stopGen 2 0#32 0#32 (changeState g Gen.init p)))

/-- What the end of a planned stop says: STOP_GEN and GEN_STATE. -/
def stopReports (g : GenId) (i : SecId) (p : Part) : List Report :=
  [genCommand g i .stopGen 2 0#32 0#32, stateNotice p g i .idle .unloading 0#32 0#32]

omit hg in
theorem stopCompleted_eq (g : GenId) (p : Part) : stopCompleted g p = afterGen g none (stopEnded g p) := rfl

omit hg in
theorem stopEnded_frame (g : GenId) (p : Part) : (stopEnded g p).img = p.img ∧ (stopEnded g p).plans = p.plans ∧
    (stopEnded g p).ms = p.ms ∧ (stopEnded g p).gens = setAt p.gens g Gen.init := by
  simp [stopEnded, changeState_gens]

theorem genIsland_stopEnded : genIsland (stopEnded g p) g = some i := by
  obtain ⟨himg, hplans, -⟩ := stopEnded_frame g p
  rw [(islandsOf_congr himg hplans).1, hg]

theorem says_stopEnded : Says (stopReports g i p) p (stopEnded g p) := by
  have hgiven := (says_giveGen (p := changeState g Gen.init p) (genIsland_changeState hg _) .stopGen 2 0#32 0#32).after
    (p := p) (by simp) (by simp)
  have hnoticed := says_stateNotice (p := p) (q := giveGen g .stopGen 2 0#32 0#32 (changeState g Gen.init p)) hg
    (by simp) .idle .unloading 0#32 0#32
  exact (hgiven.trans hnoticed).quiet (by simp [stopEnded]) (by simp [stopEnded])

theorem stopEnded_condition : (stopEnded g p).islands[i].condition = p.islands[i].condition := by
  rw [stopEnded, clearStandbyOf_eq (by rw [← hg]; simp [genIsland]), setIsland_islands, setAt_same]
  simp

omit hg in
/-- The generator's target is written as 0 (R92). -/
theorem shareOf_stopEnded (hs : genState p g = .unloading) :
    shareOf (stopEnded g p) g = sharesWritten p.sharing[g] g 0 := by
  have hleaving := shareOf_changeState_leaving (g := g) (e := Gen.init) (p := p) (by rw [hs]; rfl) rfl
  rw [if_neg (by rw [hs]; decide)] at hleaving
  rw [← hleaving]
  simp [stopEnded, shareOf]

omit hg in
/-- The generator that stopped carries no load. -/
theorem stopEnded_idle : g ∉ carrying (stopEnded g p) i := fun hm => by
  obtain ⟨-, hcarries⟩ := mem_carrying.mp hm
  obtain ⟨-, -, -, hgens⟩ := stopEnded_frame g p
  rw [genState, hgens, setAt_same] at hcarries
  exact absurd hcarries (by decide)

/-- The target of a generator that completed its stop stays 0 through the work handed on. -/
theorem shareOf_stopCompleted (hs : genState p g = .unloading) :
    shareOf (judgeSettled (stopCompleted g p)) g = sharesWritten p.sharing[g] g 0 := by
  have hidle : carries (genState (stopCompleted g p) g) = false := (moves_stopCompleted g p).own.carries
  rw [shareOf_judgeSettled_idle hidle, stopCompleted_eq,
    shareOf_afterGen_idle none (genIsland_stopEnded hg) stopEnded_idle, shareOf_stopEnded hs]

/-- Where the island keeps its condition, the end of the stop hands no work on. -/
theorem stopCompleted_stays (hc : (stopCompleted g p).islands[i].condition = p.islands[i].condition) :
    (stopCompleted g p).gens[g] = Gen.init ∧ Says (stopReports g i p) p (stopCompleted g p) := by
  have hended := genIsland_stopEnded hg
  have hsettles : Settles i (stopEnded g p) := by
    by_contra hworks
    obtain ⟨-, hne, -, hlasts⟩ := afterGen_lasts none hended hworks
    rw [stopEnded_condition hg] at hne
    exact hne (hlasts.symm.trans hc)
  obtain ⟨-, -, -, hgens⟩ := stopEnded_frame g p
  rw [stopCompleted_eq, afterGen_settles none hended hsettles]
  refine ⟨?_, (says_stopEnded hg).quiet (by simp) (by simp)⟩
  rw [show (afterGenInner g none (stopEnded g p)).gens = setAt p.gens g Gen.init by simp [hgens], setAt_same]

theorem says_stopCompleted : ∃ later, Says (stopReports g i p ++ later) p (stopCompleted g p) := by
  obtain ⟨later, hlater⟩ := (effects_afterGen g none (stopEnded g p)).says
  exact ⟨later, (says_stopEnded hg).trans hlater⟩

end

end Sys2Proof.Machine
end

section
/-! PROOFS. A generator MEAS write moves its generator by the breaker reported: O20 (R58 to R60, R69, R73, R90, R92). -/

namespace Sys2Proof.Machine

/-! ## Where the generator stands after the write (R58) -/

/-- After a CLOSED report the generator is ONLINE; one that was UNLOADING may also have stayed so. -/
theorem HandedGen.afterClosed {x : Word} {e b : Gen} (hx : bit x 16 = true) (h : HandedGen (movedGen x e) b) :
    (e.state = .unloading → b.state = .unloading ∨ b.state = .online) ∧ (e.state ≠ .unloading → b.state = .online) := by
  rw [movedGen, hx] at h
  cases hs : e.state <;> simp only [hs] at h
  case unloading =>
    refine ⟨fun _ => ?_, fun hne => absurd rfl hne⟩
    rcases h with rfl | ⟨-, hb⟩ | ⟨hidle, -⟩
    · exact .inl hs
    · exact .inr hb
    · exact absurd (hs.symm.trans hidle) (by decide)
  case online =>
    refine ⟨nofun, fun _ => ?_⟩
    rw [h.eq (by rw [hs]; decide) (by rw [hs]; decide), hs]
  all_goals
    refine ⟨nofun, fun _ => ?_⟩
    rw [h.eq (by decide) (by decide)]

theorem HandedGen.entered {x : Word} {e b : Gen} (hx : bit x 16 = true) (h : HandedGen (movedGen x e) b)
    (hs : e.state ∈ [GenState.idle, .starting, .tripped, .failed]) : b = onlineGen := by
  rw [movedGen, hx] at h
  simp only [List.mem_cons, List.not_mem_nil, or_false] at hs
  rcases hs with hs | hs | hs | hs <;>
  · simp only [hs] at h
    exact h.eq nofun nofun

/-- A generator moved to IDLE may have been started again. -/
theorem HandedGen.afterIdle {a b : Gen} (ha : a.state = .idle) (h : HandedGen a b) :
    b.state = .idle ∨ b.state = .starting := by
  rcases h with rfl | ⟨hu, -⟩ | ⟨-, hb⟩
  · exact .inl ha
  · exact absurd (ha.symm.trans hu) (by decide)
  · exact .inr hb

theorem HandedGen.afterTrip {b : Gen} (h : HandedGen trippedGen b) : b.state = .tripped := by
  rw [h.eq (by decide) (by decide)]
  rfl

/-- After an OPEN report the generator stands by its state before it. -/
theorem HandedGen.afterOpen {x : Word} {e b : Gen} (hx : bit x 16 = false) (h : HandedGen (movedGen x e) b) :
    (e.state = .idle → b.state = .idle ∨ b.state = .starting) ∧
    (e.state = .starting → b = { e with readySeen := e.readySeen || bit x 17 }) ∧
    (e.state = .online → b.state = .tripped) ∧
    (e.state = .unloading → if e.openIssued = true then b.state = .idle ∨ b.state = .starting
      else b.state = .tripped) ∧
    (e.state = .tripped ∨ e.state = .failed → b.state = e.state) := by
  rw [movedGen, hx] at h
  refine ⟨fun hs => ?_, fun hs => ?_, fun hs => ?_, fun hs => ?_, fun hs => ?_⟩
  · simp only [hs] at h
    exact h.afterIdle hs
  · simp only [hs] at h
    have hsame := h.eq nofun nofun
    rwa [← hs] at hsame
  · simp only [hs] at h
    exact h.afterTrip
  · simp only [hs] at h
    split
    · next ho =>
      rw [if_pos ho] at h
      exact h.afterIdle rfl
    · next ho =>
      rw [if_neg ho] at h
      exact h.afterTrip
  · rcases hs with hs | hs <;>
    · simp only [hs] at h
      rw [h.eq (by rw [hs]; decide) (by rw [hs]; decide)]

/-! ## The write, by the report and the state before it -/

section
variable {g : GenId} {i : SecId} {x : Word} {p : Part}

theorem measured_closed (hx : bit x 16 = true)
    (hs : genState p g ∈ [GenState.idle, .starting, .tripped, .failed]) :
    carries (genState p g) = false ∧ measured g x p = judgeSettled (goOnline g (measTaken g x p)) := by
  simp only [List.mem_cons, List.not_mem_nil, or_false] at hs
  rw [measured, moveByBreaker_closed _ hx]
  rcases hs with hs | hs | hs | hs <;>
  · rw [hs]
    exact ⟨rfl, rfl⟩

theorem measured_starting (hx : bit x 16 = false) (hs : genState p g = .starting) :
    measured g x p = judgeSettled (noteReady g (measTaken g x p)) := by
  rw [measured, moveByBreaker_open _ hx, hs]

theorem measured_stopped (hx : bit x 16 = false) (hs : genState p g = .unloading) (ho : p.gens[g].openIssued = true) :
    measured g x p = judgeSettled (stopCompleted g (measTaken g x p)) := by
  rw [measured, moveByBreaker_open _ hx, hs]
  exact congrArg judgeSettled (if_pos ho)

/-- What a move says first, it says of the whole write. -/
theorem Says.judged {rs : List Report} {q r : Part} (h : Says rs q r) :
    ∃ later, Says (rs ++ later) q (judgeSettled r) := by
  obtain ⟨later, hlater⟩ := (effects_judgeSettled r).says
  exact ⟨later, h.trans hlater⟩

/-- The copy of a generator that carries no load leaves what its island's members give. -/
theorem islandAgrees_measTaken (hs : carries (genState p g) = false) (h : islandAgrees p i) :
    islandAgrees (measTaken g x p) i := by
  have hsame : totalsOf (measTaken g x p) i = totalsOf p i := by
    have hload : (totalsOf (measTaken g x p) i).load = (totalsOf p i).load := by
      refine congrArg List.sum (List.map_congr_left fun k hk => ?_)
      have hk : carries (genState p k) = true := (Bool.and_eq_true_iff.mp (List.mem_filter.mp hk).2).2
      have hne : g ≠ k := fun e => by
        subst e
        exact Bool.false_ne_true (hs.symm.trans hk)
      exact congrArg measKw (setAt_other _ _ hne)
    exact congrArg (fun load => ({ totalsOf p i with load := load } : Totals)) hload
  obtain ⟨htotals, hcondition⟩ := h
  exact ⟨htotals.trans hsame.symm, by rw [hsame]; exact hcondition⟩

theorem measTaken_output (g : GenId) (x : Word) (p : Part) :
    measKw (measTaken g x p).img.genMeas[g] = bits x 0 16 := by
  rw [measKw, measTaken_copy]

variable (hg : genIsland p g = some i)
include hg

/-- An entry to ONLINE gives its notice, before any other report. -/
theorem says_measured_closed (hx : bit x 16 = true) (hs : genState p g ∈ [GenState.idle, .starting, .tripped, .failed]) :
    ∃ later, Says (stateNotice (measTaken g x p) g i .online (genState p g) (kw (bits x 0 16)) 0#32 :: later)
      (measTaken g x p) (measured g x p) := by
  obtain ⟨hidle, hmeasured⟩ := measured_closed hx hs
  have hsaid := says_enteredOnline (p := measTaken g x p) hg
  rw [measTaken_output] at hsaid
  obtain ⟨rs, hrs⟩ := (effects_afterGen g (some g) (enteredOnline g (measTaken g x p))).says
  have hentry := hsaid.trans hrs
  rw [← goOnline_eq (p := measTaken g x p) hidle] at hentry
  rw [hmeasured]
  obtain ⟨later, hlater⟩ := hentry.judged
  exact ⟨rs ++ later, hlater⟩

/-- An entry to ONLINE that withdraws no stop: its notice alone where the part does not settle by it, its target written,
and its cap. -/
theorem measured_online (hx : bit x 16 = true) (hs : genState p g ∈ [GenState.idle, .starting, .tripped, .failed])
    (ho : (∀ h, genIsland p h = some i → p.gens[h].state ≠ .unloading) ∨
      (measured g x p).islands[i].condition ≠ .overloaded) :
    let t := measured g x p
    let target := targetOf t i g
    (p.plans.partState ≠ .settling ∨ settled (measTaken g x p) = false →
      Says [stateNotice (measTaken g x p) g i .online (genState p g) (kw (bits x 0 16)) 0#32] (measTaken g x p) t) ∧
    targetEntry t.sq g = some ⟨.genTarget g, pack [(target, 0, 16)]⟩ ∧
    t.sharing[g] = if reqFixed p.img.genReq[g] = true ∨ bits x 0 16 < firstShare t i g then
        ⟨target, true, bits x 0 16, 0#16, bits x 0 16, some (after p.ms 100)⟩
      else ⟨target, false, 0, 0#16, 0, none⟩ := by
  obtain ⟨hidle, hmeasured⟩ := measured_closed (x := x) hx hs
  have hsettled := goOnline_settled (p := measTaken g x p) hg hidle (by rw [← hmeasured]; exact ho)
  dsimp only at hsettled
  rw [← hmeasured, measTaken_output] at hsettled
  exact hsettled

/-- A STARTING generator's report gives its notice, before any other report. -/
theorem says_measured_starting (hx : bit x 16 = false) (hs : genState p g = .starting) :
    (∃ later, Says (readyReport g i (measTaken g x p) ++ later) (measTaken g x p) (measured g x p)) ∧
      (p.plans.partState ≠ .settling ∨ settled (measTaken g x p) = false → islandAgrees p i →
        Says (readyReport g i (measTaken g x p)) (measTaken g x p) (measured g x p)) := by
  obtain ⟨⟨rs, hfirst⟩, hall⟩ := says_noteReady (p := measTaken g x p) hg hs
  rw [measured_starting hx hs]
  refine ⟨?_, fun hstays hagrees => ?_⟩
  · obtain ⟨later, hlater⟩ := hfirst.judged
    exact ⟨rs ++ later, by rw [← List.append_assoc]; exact hlater⟩
  · rw [judgeSettled_stays (p := measTaken g x p) (by simp) (by simp) hstays]
    exact hall (islandAgrees_measTaken (by rw [hs]; rfl) hagrees)

/-- The end of a planned stop gives its command and its notice, before any other report. -/
theorem says_measured_stopped (hx : bit x 16 = false) (hs : genState p g = .unloading)
    (ho : p.gens[g].openIssued = true) :
    (∃ later, Says (stopReports g i (measTaken g x p) ++ later) (measTaken g x p) (measured g x p)) ∧
      (p.plans.partState ≠ .settling ∨ settled (measTaken g x p) = false →
        (measured g x p).islands[i].condition = p.islands[i].condition →
        (measured g x p).gens[g] = Gen.init ∧
          Says (stopReports g i (measTaken g x p)) (measTaken g x p) (measured g x p)) := by
  obtain ⟨rs, hfirst⟩ := says_stopCompleted (p := measTaken g x p) hg
  rw [measured_stopped hx hs ho]
  refine ⟨?_, fun hstays hc => ?_⟩
  · obtain ⟨later, hlater⟩ := hfirst.judged
    exact ⟨rs ++ later, by rw [← List.append_assoc]; exact hlater⟩
  · rw [judgeSettled_stays (p := measTaken g x p) (by simp) (by simp) hstays] at hc ⊢
    exact stopCompleted_stays (p := measTaken g x p) hg hc

end

/-- A MEAS write leaves the plan beside the part state, the base and the time, and takes its copy. -/
theorem measured_frame (g : GenId) (x : Word) (p : Part) :
    (measured g x p).img = (measTaken g x p).img ∧ (measured g x p).base = p.base ∧ (measured g x p).ms = p.ms ∧
      (measured g x p).plans.active = p.plans.active ∧ (measured g x p).plans.staging = p.plans.staging := by
  simp [measured, measTaken]

theorem measured_rises (g : GenId) (x : Word) (p : Part) : attRises p (measured g x p) :=
  ((effects_moveByBreaker g _ (measTaken g x p)).trans (effects_judgeSettled _)).attention_rises.1

/-- Settles O20: the move of the generator measured, and the work that its island's update, or the change to RUNNING,
hands on after it. -/
theorem generatorBreakerMoves : Obligations.GeneratorBreakerMoves := by
  intro s g x hport hpresent m
  obtain ⟨i, hi⟩ : ∃ i, genIsland s.part g = some i := by
    obtain ⟨gp, hgp⟩ := Option.isSome_iff_exists.mp hpresent
    exact ⟨_, genIsland_of_plan hgp⟩
  have hmoves := moves_measured (x := x) hi
  obtain ⟨himg, hbase, hms, hactive, hstaging⟩ := measured_frame g x s.part
  refine ⟨_, exec_generatorMeasWrite (x := x) hport hpresent, rfl, rfl, himg, fun hx => ?_, fun hx => ?_,
    fun h hne => (hmoves.other hne).state, fun i hg => ?_, hbase, hms, hactive, hstaging, measured_rises g x s.part⟩
  · obtain ⟨hunloading, honline⟩ := hmoves.own.afterClosed hx
    cases hs : s.part.gens[g].state
    case unloading => exact hunloading hs
    all_goals exact honline (by rw [hs]; decide)
  · obtain ⟨hidle, hstarting, honline, hunloading, hfault⟩ := hmoves.own.afterOpen hx
    cases hs : s.part.gens[g].state
    case idle => exact hidle hs
    case starting =>
      have hready := hstarting hs
      exact ⟨(congrArg Gen.state hready).trans hs, hready⟩
    case online => exact honline hs
    case unloading => exact hunloading hs
    case tripped => exact (hfault (.inl hs)).trans hs
    case failed => exact (hfault (.inr hs)).trans hs
  · intro former stays noticed
    have hnoticed : ∀ new, stateNotice (measTaken g x s.part) g i new former 0#32 0#32 = noticed new 0 :=
      fun new => stateNotice_measTaken ..
    refine ⟨fun hx hformer => ?_, fun hx hs => ?_, fun hx hs hissued => ?_⟩
    · intro output
      obtain ⟨later, hsaid⟩ := says_measured_closed hg hx hformer
      rw [stateNotice_measTaken] at hsaid
      refine ⟨hmoves.own.entered hx hformer, ⟨later, hsaid.lu_of_measTaken⟩, fun hnone => ?_⟩
      intro target
      obtain ⟨hall, hentry, hsharing⟩ := measured_online hg hx hformer hnone
      rw [stateNotice_measTaken] at hall
      exact ⟨fun hstays => (hall hstays).lu_of_measTaken, (mem_of_targetEntry hentry).1, hsharing⟩
    · intro report
      obtain ⟨⟨later, hsaid⟩, hall⟩ := says_measured_starting hg hx hs
      have hreport : readyReport g i (measTaken g x s.part) = report := by
        have hstarting := hnoticed .starting
        rw [hs] at hstarting
        rw [readyReport, measTaken_copy, hstarting]
        rfl
      rw [hreport] at hsaid hall
      exact ⟨⟨later, hsaid.lu_of_measTaken⟩, fun hstays hagrees => (hall hstays hagrees).lu_of_measTaken⟩
    · intro report
      obtain ⟨⟨later, hsaid⟩, hall⟩ := says_measured_stopped hg hx hs hissued
      have hreport : stopReports g i (measTaken g x s.part) = report := by
        rw [stopReports, ← hs, hnoticed]
        rfl
      rw [hreport] at hsaid hall
      have hshare := shareOf_stopCompleted (p := measTaken g x s.part) hg hs
      rw [← measured_stopped hx hs hissued] at hshare
      obtain ⟨hsharing, hentry⟩ := Prod.mk.inj hshare
      refine ⟨⟨later, hsaid.lu_of_measTaken⟩, fun hstays hc => ?_, (mem_of_targetEntry hentry).1,
        congrArg Sharing.lastWritten hsharing⟩
      obtain ⟨hgen, hexact⟩ := hall hstays hc
      exact ⟨hgen, hexact.lu_of_measTaken⟩

end Sys2Proof.Machine
end

section
/-! PROOFS. The division of an island's load: O54 (R85 to R88). -/

namespace Sys2Proof.Machine

/-- The rounded-down parts of an amount are together at most the amount. -/
theorem sum_shares_le (factor : GenId → Nat) (gs : List GenId) (amount : Nat) :
    (gs.map fun g => amount * factor g / (gs.map factor).sum).sum ≤ amount := by
  have hsum : ∀ (n : Nat) (l : List GenId),
      (l.map fun g => amount * factor g / n).sum ≤ amount * (l.map factor).sum / n := by
    intro n l
    induction l with
    | nil => simp
    | cons g l ih =>
      simp only [List.map_cons, List.sum_cons, Nat.mul_add]
      exact (Nat.add_le_add_left ih _).trans (Nat.div_add_div_le_add_div ..)
  exact (hsum _ gs).trans (Nat.div_le_of_le_mul (Nat.mul_comm ..).le)

/-- The portions of an amount add up to it: the first of `gs` takes what rounding leaves (R86, R87). -/
theorem sum_portion (factor : GenId → Nat) {gs : List GenId} (hgs : gs.Nodup) (hne : gs ≠ []) (amount : Nat) :
    (gs.map (portion factor gs amount)).sum = amount := by
  have hle := sum_shares_le factor gs amount
  obtain _ | ⟨g, l⟩ := gs
  · exact absurd rfl hne
  · obtain ⟨hg, -⟩ := List.nodup_cons.mp hgs
    let share := fun h => amount * factor h / ((g :: l).map factor).sum
    have hfirst : portion factor (g :: l) amount g = share g + (amount - ((g :: l).map share).sum) :=
      if_pos rfl
    have hrest : l.map (portion factor (g :: l) amount) = l.map share := by
      refine List.map_congr_left fun h hh => ?_
      have hgh : ¬(g :: l).head? = some h := fun e => hg (Option.some.inj e ▸ hh)
      exact (if_neg hgh).trans (if_pos (List.mem_cons_of_mem g hh))
    have hall : ((g :: l).map share).sum = share g + (l.map share).sum := List.sum_cons
    change ((g :: l).map share).sum ≤ amount at hle
    rw [List.map_cons, List.sum_cons, hfirst, hrest]
    omega

theorem nodup_gensOf (p : Part) (i : SecId) : (gensOf p i).Nodup := (List.nodup_finRange 8).filter _

theorem nodup_sharers (p : Part) (i : SecId) : (sharers p i).Nodup := (nodup_gensOf p i).filter _

theorem targetOf_fixed {p : Part} {g : GenId} (i : SecId) (h : isFixed p g = true) :
    targetOf p i g = min (min (fixedSetpoint p.img.genFixed[g]) (genContribution p g)) (genRating p g) := by
  have hsharer : isSharer p g = false := by
    obtain ⟨-, hmode⟩ := (Bool.and_eq_true _ _).mp h
    rw [isSharer, hmode, Bool.not_true, Bool.and_false]
  simp only [targetOf, hsharer, settledTarget, h, if_true, Bool.false_eq_true, if_false]

theorem targetOf_le_cap {p : Part} {i : SecId} {g : GenId} (hs : isSharer p g = true) (hc : isCapped p i g = true) :
    targetOf p i g ≤ p.sharing[g].capValue := by
  obtain ⟨honline, hshare⟩ : p.gens[g].state = .online ∧ reqFixed p.img.genReq[g] = false := by
    simpa [isSharer, genState] using hs
  obtain ⟨hopen, habove⟩ : p.sharing[g].capOpen = true ∧ p.sharing[g].capValue < firstShare p i g := by
    simpa [isCapped] using hc
  exact (targetOf_capped honline hshare hopen habove).le.trans (Nat.min_le_left ..)

/-- Settles O54, by the portions of the remainder and the target's cases, each held to the rating. -/
theorem sharesAddUp : Obligations.SharesAddUp := fun p i =>
  ⟨fun hne => sum_portion (shareFactor p) (nodup_sharers p i) hne (remainder p i), rfl,
    fun _ => Nat.min_le_right .., fun _ h => targetOf_fixed i h,
    fun _ hs hc => targetOf_le_cap hs hc⟩

end Sys2Proof.Machine
end

section
/-! PROOFS. The whole of what a computation of an island's targets does: the targets enqueued in ascending index, the
no-sharer mark, and that all else stands (R84, R89, R91). -/

namespace Sys2Proof.Machine

/-- A word that no entry of the queue names is appended behind them (R8). -/
theorem sqPut_new {w : SqWord} (d : Word) {q : List SqEntry} (h : ∀ e ∈ q, e.word ≠ w) : sqPut w d q = q ++ [⟨w, d⟩] := by
  induction q with
  | nil => rfl
  | cons e q ih =>
    obtain ⟨he, hq⟩ := List.forall_mem_cons.mp h
    rw [sqPut, if_neg he, ih hq, List.cons_append]

/-- The store-queue entry that writes a generator's target (R91). -/
def targetWord (target : GenId → Nat) (g : GenId) : SqEntry := ⟨.genTarget g, pack [(target g, 0, 16)]⟩

/-- Targets whose words the queue does not hold are enqueued behind what stands in it, in their order. -/
theorem offerTargets_sq (deadband : Nat) (forced : Option GenId) (target : GenId → Nat) {l : List GenId} (hl : l.Nodup)
    (p : Part) (hq : ∀ g ∈ l, ∀ e ∈ p.sq, e.word ≠ .genTarget g) :
    (l.foldl (fun q g => offerTarget deadband forced g (target g) q) p).sq
      = p.sq ++ (l.filter fun g => writesTarget deadband (forced == some g) (target g) p.sharing[g].lastWritten).map
          (targetWord target) := by
  induction l generalizing p with
  | nil => simp
  | cons g l ih =>
    obtain ⟨hnot, hl⟩ := List.nodup_cons.mp hl
    obtain ⟨hfirst, hrest⟩ := List.forall_mem_cons.mp hq
    rw [List.foldl_cons, List.filter_cons]
    by_cases hw : writesTarget deadband (forced == some g) (target g) p.sharing[g].lastWritten = true
    · have hsq : (writeTarget g (target g) p).sq = p.sq ++ [targetWord target g] := sqPut_new _ hfirst
      have hsharing : ∀ h ∈ l, (writeTarget g (target g) p).sharing[h] = p.sharing[h] := fun h hh =>
        setAt_other _ _ fun e => hnot (e ▸ hh)
      have hfilter : (l.filter fun h => writesTarget deadband (forced == some h) (target h)
            (writeTarget g (target g) p).sharing[h].lastWritten)
          = l.filter fun h => writesTarget deadband (forced == some h) (target h) p.sharing[h].lastWritten :=
        List.filter_congr fun h hh => by rw [hsharing h hh]
      have hnew : ∀ h ∈ l, ∀ e ∈ (writeTarget g (target g) p).sq, e.word ≠ .genTarget h := by
        intro h hh e he
        rw [hsq, List.mem_append, List.mem_singleton] at he
        rcases he with he | rfl
        · exact hrest h hh e he
        · rintro e
          exact hnot (SqWord.genTarget.inj e ▸ hh)
      rw [offerTarget, if_pos hw, if_pos hw, ih hl _ hnew, hfilter, hsq, List.map_cons, List.append_assoc,
        List.singleton_append]
    · rw [offerTarget, if_neg hw, if_neg hw]
      exact ih hl p hrest

/-- A computation whose island's TARGET words are not queued enqueues them behind what stands, in ascending index. -/
theorem computeTargets_sq (i : SecId) (forced : Option GenId) {p : Part}
    (hq : ∀ g ∈ carrying p i, ∀ e ∈ p.sq, e.word ≠ .genTarget g) :
    (computeTargets i forced p).sq
      = p.sq ++ ((carrying p i).filter fun g => writesTarget p.header.shareDeadband (forced == some g) (targetOf p i g)
          p.sharing[g].lastWritten).map (targetWord (targetOf p i)) := by
  have hsq : (judgeNoSharer i (dropReachedCaps i p)).sq = p.sq := by simp
  have hsharing : ∀ g : GenId, (judgeNoSharer i (dropReachedCaps i p)).sharing[g] = capJudged p i g := fun g => by
    simp only [judgeNoSharer_frame, dropReachedCaps_sharing]
  unfold computeTargets
  rw [List.foldl_map, offerTargets_sq _ _ (targetOf p i) (nodup_carrying p i) _ (by rw [hsq]; exact hq), hsq]
  simp only [hsharing, capJudged_lastWritten]

/-- The judgement of the no-sharer mark writes the mark and the attention bits alone (R89). -/
theorem judgeNoSharer_eq (i : SecId) (p : Part) :
    judgeNoSharer i p = { p with
      islands := setAt p.islands i { p.islands[i] with noSharer := lacksSharer p i }
      att := (judgeNoSharer i p).att } := by
  simp only [judgeNoSharer]
  split <;> rfl

/-- Attention NO_SHARER is set where the mark is newly set (R89). -/
theorem judgeNoSharer_att (i : SecId) (p : Part) :
    (judgeNoSharer i p).att = if lacksSharer p i = true ∧ p.islands[i].noSharer = false then
      { p.att with word := p.att.word ||| 0x4000#16 } else p.att := by
  simp only [judgeNoSharer]
  cases lacksSharer p i <;> cases p.islands[i].noSharer <;> rfl

theorem computeTargets_att (i : SecId) (forced : Option GenId) (p : Part) :
    (computeTargets i forced p).att = if lacksSharer p i = true ∧ p.islands[i].noSharer = false then
      { p.att with word := p.att.word ||| 0x4000#16 } else p.att :=
  (foldl_keep Part.att _ _ _ fun q gt => by simp only [offerTarget_frame]).trans (judgeNoSharer_att i _)

/-- A computation changes the sharing entries, the store queue, the attention bits and the island's no-sharer mark, and
nothing else. -/
theorem computeTargets_eq (i : SecId) (forced : Option GenId) (p : Part) :
    computeTargets i forced p = { p with
      sharing := (computeTargets i forced p).sharing, sq := (computeTargets i forced p).sq
      att := (computeTargets i forced p).att
      islands := setAt p.islands i { p.islands[i] with noSharer := lacksSharer p i } } := by
  refine foldl_keeps (fun q : Part => q = { p with
    sharing := q.sharing, sq := q.sq, att := q.att
    islands := setAt p.islands i { p.islands[i] with noSharer := lacksSharer p i } }) _ _ _ ?_
    fun q gt _ hq => ?_
  · simp only [judgeNoSharer_frame]
    exact judgeNoSharer_eq i (dropReachedCaps i p)
  · rw [offerTarget]
    split
    · rw [hq]
      rfl
    · exact hq

/-- An island lacks a sharer where it has ONLINE generators, none of them in MODE SHARE (R89). -/
theorem lacksSharer_iff (p : Part) (i : SecId) :
    lacksSharer p i = true ↔ (∃ g : GenId, genIsland p g = some i ∧ p.gens[g].state = .online) ∧ sharers p i = [] := by
  simp [lacksSharer, mem_gensOf, genState]

end Sys2Proof.Machine
end

section
/-! PROOFS. Writes of a generator's REQ word without an action that acts, and of its FIXED word: O29 and O30 (R61, R84,
R89 to R91, R144, R145). -/

namespace Sys2Proof.Machine

/-! ## A REQ write that moves nothing (R61, R144) -/

/-- A word without an action is stored as written (R24). -/
theorem clearAction_of_none {x : Word} (h : bits x 0 2 = 0) : x &&& ~~~3#32 = x := by
  refine BitVec.eq_of_getLsbD_eq fun n hn => ?_
  have hlow : ∀ n < 2, x.getLsbD n = false := fun n hn => by
    have hbit := testBit_bits x 0 2 n
    simpa [h, hn, BitVec.testBit_toNat] using hbit
  have hmask : ∀ n < 32, 2 ≤ n → (~~~3#32).getLsbD n = true := by decide
  rw [BitVec.getLsbD_and]
  by_cases h2 : n < 2
  · rw [hlow n h2, Bool.false_and]
  · rw [hmask n hn (by omega), Bool.and_true]

theorem genAction_none (g : GenId) (p : Part) : genAction g .none p = p := by
  unfold genAction
  split
  · rfl
  · cases genState p g <;> rfl

/-- CP's write of a REQ word without an action at a free port, the generator present or not: stored, with the computation
that a change of MODE or WEIGHT brings (R144). -/
theorem windowWrite_noAction {s : State} {g : GenId} {x : Word} (h : portFree .cp s = true) (ha : bits x 0 2 = 0)
    (hx : bit x 4 = true ∨ bits x 8 4 ≠ 0) :
    windowWrite .cp (genWordOffset g 1) 15#4 x .free s
      = { s with bus := busAfterWrite .cp (windowAddr s.part.base (genWordOffset g 1)) 15#4 x s.bus
                 part := shareChange g (reqChanges g x s.part) (reqTaken g x s.part) } := by
  have ho := genWordOffset_aligned g (w := 1) (by decide)
  have hx' : ¬(bit x 4 = false ∧ bits x 8 4 = 0) := fun ⟨hmode, hweight⟩ =>
    hx.elim (fun hx => Bool.false_ne_true (hmode.symm.trans hx)) fun hx => hx hweight
  have hv : writeVerdict .cp (.genReq g) 15#4 x s.part = none := by
    rw [writeVerdict, classVerdict_cp, reqCheck_eq, if_neg (by decide), if_neg (by decide), if_neg hx',
      if_neg fun hc => hc.1 ha]
  rw [windowWrite_granted .cp _ (.genReq g) 15#4 x s ho.1 ho.2 (classify_genReq g) nofun hv h]
  simp only [jobOf, jobEvent, storedWord, genReqEvent, (reqAction_eq_none x).mpr ha, genAction_none, reqTaken, reqChanges,
    clearAction_of_none ha, setAt_same]

/-- A REQ write that repeats MODE and WEIGHT, and whose action leaves the generator's state as it is, is stored alone. -/
theorem requested_ignored {g : GenId} {x : Word} {p : Part} (hmode : reqFixed p.img.genReq[g] = bit x 4)
    (hweight : reqWeight p.img.genReq[g] = bits x 8 4)
    (hact : genAction g (reqAction x) (reqTaken g x p) = reqTaken g x p) : requested g x p = reqTaken g x p := by
  rw [requested, reqChanges_of_same hmode hweight, hact]
  rfl

/-- The actions that the table of R61 ignores, by the states in which it does. -/
theorem genAction_ignored {g : GenId} {i : SecId} {p : Part} (hg : genIsland p g = some i) :
    (p.gens[g].state ∈ [GenState.starting, .online, .tripped, .failed] → genAction g .start p = p) ∧
    (p.gens[g].state ∈ [GenState.idle, .unloading, .tripped, .failed] → genAction g .stop p = p) ∧
    (p.gens[g].state ∈ [GenState.idle, .starting, .online, .unloading] → genAction g .clear p = p) := by
  refine ⟨fun h => ?_, fun h => ?_, fun h => ?_⟩ <;> rw [genAction_of_state hg rfl, genState]
  all_goals
    generalize p.gens[g].state = st at h ⊢
    revert h
    cases st <;> simp

/-! ## A FIXED write (R145) -/

/-- The part with the copy of a FIXED word taken. -/
def fixedTaken (g : GenId) (x : Word) (p : Part) : Part :=
  { p with img := { p.img with genFixed := setAt p.img.genFixed g x } }

/-- CP's write of a FIXED word at a free port: stored, with the computation that a change of the setpoint brings. -/
theorem exec_fixedWrite {s : State} {g : GenId} {x : Word} (h : portFree .cp s = true) :
    exec (.fixedWrite g 15#4 x .free) s = .next { s with
      bus := busAfterWrite .cp (windowAddr s.part.base (genWordOffset g 2)) 15#4 x s.bus
      part := shareChange g (fixedSetpoint s.part.img.genFixed[g] != fixedSetpoint x) (fixedTaken g x s.part) } := by
  have ho := genWordOffset_aligned g (w := 2) (by decide)
  refine congrArg Host.Outcome.next ?_
  rw [windowWrite_granted .cp _ (.genFixed g) 15#4 x s ho.1 ho.2 (classify_genFixed g) nofun rfl h]
  simp only [jobOf, jobEvent, storedWord, genFixedEvent, fixedTaken, setAt_same]

/-- A FIXED write that changes the setpoint of a present generator computes its island's targets (R84). -/
theorem shareChange_fixed {p : Part} {g : GenId} {x : Word} {i : SecId} (hg : genIsland p g = some i)
    (hne : bits p.img.genFixed[g] 0 16 ≠ bits x 0 16) :
    shareChange g (fixedSetpoint p.img.genFixed[g] != fixedSetpoint x) (fixedTaken g x p)
      = computeTargets i none (fixedTaken g x p) := by
  have hg' : genIsland (fixedTaken g x p) g = some i := hg
  have hchanged : (fixedSetpoint p.img.genFixed[g] != fixedSetpoint x) = true := bne_iff_ne.mpr hne
  simp only [shareChange, hchanged, if_true, hg']

/-- Settles O29, by the writes' grants: an ignored action and an unchanged field leave the copy alone taken, and the
computation of a change has its frame. -/
theorem modeAndSetpointWrites : Obligations.ModeAndSetpointWrites := by
  refine ⟨fun s g x hport hpresent hx hmode hweight c a states hc ha hstate => ?_,
    fun s g x hport => ⟨fun ha hx => ?_, ?_⟩⟩
  · obtain ⟨gp, hgp⟩ := Option.isSome_iff_exists.mp hpresent
    have hg := genIsland_of_plan hgp
    obtain ⟨hstart, hstop, hclear⟩ := genAction_ignored (p := reqTaken g x s.part) hg
    have hstored (hact : genAction g (reqAction x) (reqTaken g x s.part) = reqTaken g x s.part) :
        windowWrite .cp (genWordOffset g 1) 15#4 x .free s = { s with
          bus := busAfterWrite .cp (windowAddr s.part.base (genWordOffset g 1)) 15#4 (x &&& ~~~3#32) s.bus
          part := reqTaken g x s.part } := by
      rw [windowWrite_request hport hg hx, requested_ignored hmode hweight hact]
    simp only [List.mem_cons, List.not_mem_nil, or_false, Prod.mk.injEq] at hc
    obtain ⟨rfl, rfl, rfl⟩ | ⟨rfl, rfl, rfl⟩ | ⟨rfl, rfl, rfl⟩ := hc
    · exact congrArg Host.Outcome.next (hstored (by rw [reqAction_start ha]; exact hstart hstate))
    · exact congrArg Host.Outcome.next (hstored (by rw [reqAction_stop ha]; exact hstop hstate))
    · exact congrArg Host.Outcome.next (hstored (by rw [reqAction_clear ha]; exact hclear hstate))
  · obtain ⟨-, -, himg, hgens, hcmd, hcons, hdrives, hshed, hlu, hplans, -⟩ :=
      shareChange_frame g (reqChanges g x s.part) (reqTaken g x s.part)
    refine ⟨_, congrArg Host.Outcome.next (windowWrite_noAction hport ha hx), rfl, rfl, himg.trans ?_, hgens, hlu, hcons,
      hcmd, hdrives, hshed, hplans, fun hmode hweight => ?_⟩
    · simp only [reqTaken, clearAction_of_none ha]
    · simp only [reqChanges_of_same hmode hweight]
      rfl
  · obtain ⟨-, -, himg, hgens, hcmd, hcons, hdrives, hshed, hlu, hplans, -⟩ :=
      shareChange_frame g (fixedSetpoint s.part.img.genFixed[g] != fixedSetpoint x) (fixedTaken g x s.part)
    refine ⟨_, exec_fixedWrite hport, rfl, rfl, himg, hgens, hlu, hcons, hcmd, hdrives, hshed, hplans, fun hsame => ?_⟩
    have hunchanged : (fixedSetpoint s.part.img.genFixed[g] != fixedSetpoint x) = false := by
      simpa [fixedSetpoint] using hsame
    simp only [hunchanged]
    rfl

/-! ## The targets that a changed setpoint writes (R84, R89 to R91) -/

/-- The caps that a computation removes: open, of a sharer of the island, and not passed by the first share (R90). -/
theorem mem_uncapped_open {p : Part} {i : SecId} {g : GenId} :
    (g ∈ uncapped p i ∧ p.sharing[g].capOpen = true) ↔
      p.sharing[g].capOpen = true ∧ g ∈ sharers p i ∧ firstShare p i g ≤ p.sharing[g].capValue := by
  have hcap (ho : p.sharing[g].capOpen = true) :
      isCapped p i g = false ↔ firstShare p i g ≤ p.sharing[g].capValue := by
    rw [isCapped, ho]
    simp
  rw [mem_uncapped]
  constructor
  · rintro ⟨⟨hs, hc⟩, ho⟩
    exact ⟨ho, hs, (hcap ho).mp hc⟩
  · rintro ⟨ho, hs, hle⟩
    exact ⟨⟨hs, (hcap ho).mpr hle⟩, ho⟩

/-- A computation that no entry forces writes by the deadband alone (R91). -/
theorem writesTarget_unforced (deadband target last : Nat) :
    writesTarget deadband false target last = decide (last + deadband < target ∨ target + deadband < last) := by
  rw [writesTarget, Bool.false_or, Bool.decide_or]

/-- Settles O30, by the whole of what the computation does, from a store queue that is empty. -/
theorem targetsWritten : Obligations.TargetsWritten := by
  intro s g x i hport hg hne q last far reached lacks
  have hsq : q.sq = [] := portFree_sq hport
  have hlacks : lacksSharer q i = lacks := by
    rw [Bool.eq_iff_iff, lacksSharer_iff, decide_eq_true_iff]
    rfl
  have hfar : ∀ h : GenId, writesTarget q.header.shareDeadband (none == some h) (targetOf q i h) q.sharing[h].lastWritten
      = far h := fun h => writesTarget_unforced ..
  have hwritten : (computeTargets i none q).sq
      = ((carrying s.part i).filter far).map (targetWord (targetOf q i)) := by
    rw [computeTargets_sq i none (by simp [hsq]), hsq, List.nil_append]
    simp only [hfar]
    rfl
  have hwhole := computeTargets_eq i none q
  have hatt := computeTargets_att i none q
  rw [hlacks] at hatt
  rw [hlacks, hwritten] at hwhole
  refine ⟨_, exec_fixedWrite hport, rfl, rfl, ?_, ?_, fun h => ?_⟩ <;> rw [shareChange_fixed hg hne]
  · exact hwhole
  · exact hatt
  · have hshare : (computeTargets i none q).sharing[h] = if h ∈ carrying s.part i ∧ far h = true then
        { capJudged q i h with lastWritten := targetOf q i h } else capJudged q i h := by
      have hshares := shareOf_computeTargets i none q h
      rw [hfar] at hshares
      exact (congrArg Prod.fst hshares).trans (apply_ite Prod.fst _ _ _)
    have hlast : (computeTargets i none q).sharing[h].lastWritten
        = if h ∈ carrying s.part i ∧ far h = true then targetOf q i h else last h := by
      rw [hshare]
      split
      · rfl
      · exact capJudged_lastWritten q i h
    have hcap {c : Sharing} (hc : capJudged q i h = c) : (computeTargets i none q).sharing[h]
        = { c with lastWritten := (computeTargets i none q).sharing[h].lastWritten } :=
      sharing_computeTargets_of i none hc
    exact ⟨hlast, fun hr => hcap (if_pos (mem_uncapped_open.mpr hr)),
      fun hr => hcap (if_neg fun hd => hr (mem_uncapped_open.mp hd))⟩

end Sys2Proof.Machine
end

section
/-! PROOFS. What the ladder's shared operations say, and a drive REQ write: O31 (R97, R145, R157, R158, R160). -/

namespace Sys2Proof.Machine

/-! ## Commands and notices of the ladder (R158, R160) -/

/-- A command for a consumer (R158). -/
def consCommand (c : ConsId) (i : SecId) (kind : CmdKind) (cause : Nat) (a b : Word) : Report :=
  .command { target := .cons c, kind := kind, cause := BitVec.ofNat 8 cause, island := i, a := a, b := b }

/-- A notice with a shed target as its subject (R160). -/
def targetNotice (t : Target) (i : SecId) (kind : NoticeKind) (cause detail : Nat) (a b : Word) : Report :=
  .notice (notice kind (targetIndex t) cause i detail a b)

/-- The DRIVE_LIMIT command of a drive, by its limits and its cut mark (R97, R158). -/
def driveCommand (p : Part) (d : DriveId) (i : SecId) : Report :=
  .command { target := .drive d, kind := .driveLimit, cause := BitVec.ofNat 8 (flag p.drives[d].cut), island := i,
             a := kw (effectiveLimit p d), b := kw (controllerLimit p d) }

section
variable {p : Part} {i : SecId}

theorem says_giveCons {c : ConsId} (hc : consIsland p c = some i) (kind : CmdKind) (cause : Nat) (a b : Word) :
    Says [consCommand c i kind cause a b] p (giveCons c kind cause a b p) := by
  have h := Says.one (consCommand c i kind cause a b) p
  simpa [giveCons, hc, islandField, consCommand, Report.make] using h

theorem says_noticeTarget (t : Target) (kind : NoticeKind) (cause detail : Nat) (a b : Word) :
    Says [targetNotice t (islandField (targetIsland p t)) kind cause detail a b] p
      (noticeTarget t kind cause detail a b p) := .one _ p

/-- The LIMIT word enqueued, and DRIVE_LIMIT given (R97, R158). -/
theorem writeDriveLimit_eq {d : DriveId} (hd : driveIsland p d = some i) :
    writeDriveLimit d p = reported [driveCommand p d i] (enqueue (.driveLimit d) (limitWord p d) p) := by
  simp only [writeDriveLimit, hd]
  rfl

end

/-! ## A drive REQ write (R145) -/

/-- The part with the copy of a drive REQ word taken. -/
def driveReqTaken (d : DriveId) (x : Word) (p : Part) : Part :=
  { p with img := { p.img with driveReq := setAt p.img.driveReq d x } }

theorem exec_driveReqWrite {s : State} {d : DriveId} {x : Word} (h : portFree .cp s = true) :
    exec (.driveReqWrite d 15#4 x .free) s = .next { s with
      bus := busAfterWrite .cp (windowAddr s.part.base (driveWordOffset d 1)) 15#4 x s.bus
      part := driveReqEvent d (driveReqTaken d x s.part) } := by
  have ho := driveWordOffset_aligned d (w := 1) (by decide)
  exact congrArg Host.Outcome.next (windowWrite_granted .cp _ (.driveReq d) 15#4 x s ho.1 ho.2 (classify_driveReq d) nofun rfl h)

/-- The limits of a drive whose REQ word is taken: the controller limit is the word's (R97). -/
theorem driveReqTaken_limits (d : DriveId) (x : Word) (p : Part) :
    controllerLimit (driveReqTaken d x p) d = bits x 0 16 ∧
      effectiveLimit (driveReqTaken d x p) d
        = if p.drives[d].cut = true then min (bits x 0 16) p.drives[d].cutLimit else bits x 0 16 := by
  have hcontroller : controllerLimit (driveReqTaken d x p) d = bits x 0 16 := by
    simp only [controllerLimit, driveReqTaken, setAt_same, reqLimit]
  refine ⟨hcontroller, ?_⟩
  rw [effectiveLimit, hcontroller]
  rfl

/-- Settles O31, by the write's grant and the LIMIT word that a present drive is given. -/
theorem driveLimitWritten : Obligations.DriveLimitWritten := by
  intro s d x hport limit copied bus
  obtain ⟨hcontroller, heffective⟩ := driveReqTaken_limits d x s.part
  refine ⟨fun hnone => ?_, fun i hd => ?_⟩
  · have hskip : driveReqEvent d (driveReqTaken d x s.part) = copied := if_neg (by simp [driveReqTaken, hnone])
    rw [exec_driveReqWrite hport, hskip]
  · have hpresent : s.part.plans.active.drives[d].isSome = true := by
      cases hp : s.part.plans.active.drives[d] with
      | none => simp [driveIsland, hp] at hd
      | some r => rfl
    have hwrite : driveReqEvent d (driveReqTaken d x s.part) = writeDriveLimit d (driveReqTaken d x s.part) :=
      if_pos hpresent
    have hqueue : (driveReqTaken d x s.part).sq = [] := portFree_sq hport
    have hcause : BitVec.ofNat 8 (flag (driveReqTaken d x s.part).drives[d].cut)
        = if s.part.drives[d].cut = true then 1#8 else 0#8 := by
      change BitVec.ofNat 8 (flag s.part.drives[d].cut) = _
      cases s.part.drives[d].cut <;> rfl
    rw [exec_driveReqWrite hport, hwrite, writeDriveLimit_eq (p := driveReqTaken d x s.part) hd, driveCommand, limitWord,
      hcause, hcontroller, heffective, enqueue, hqueue]
    rfl

end Sys2Proof.Machine
end

section
/-! PROOFS. What a shed step does in any island: the entries that it appends behind the standing ones, and the consumers
that it leaves: O55 (R101 to R105, R119). -/

namespace Sys2Proof.Machine

/-! ## Where a shed leaves the islands (R102 to R104) -/

theorem reshed_islands {i : SecId} {c : ConsId} {p : Part} (hc : consIsland p c = some i) :
    (reshed c p).islands = (syncTimers i (appendEntry ⟨.cons c, .restoreCancel, 0, p.ms, .held⟩ p)).islands := by
  simp [reshed, hc, judgeReleaseOf]

theorem shedDrive_islands {i : SecId} {d : DriveId} (cause : ShedCause) (credit cut : Nat) {p : Part}
    (hd : driveIsland p d = some i) : (shedDrive d cause credit cut p).islands
      = (syncTimers i (appendEntry ⟨.drive d, cause, credit, p.ms, .held⟩ p)).islands := by
  simp [shedDrive, hd, judgeReleaseOf]

theorem shedConsumer_islands {i : SecId} {c : ConsId} (cause : ShedCause) (credit : Nat) {p : Part}
    (hc : consIsland p c = some i) : (shedConsumer c cause credit p).islands = (updateInner i
      (appendEntry ⟨.cons c, cause, credit, p.ms, .opening (after p.ms (consTimeout p c))⟩ p)).islands := by
  simp [shedConsumer, hc, updateInnerOf]

/-! ## EXHAUSTED stays clear (R119) -/

/-- A change sets EXHAUSTED of an island nowhere that it was clear. -/
def StaysClear (i : SecId) (p q : Part) : Prop := p.islands[i].exhausted = false → q.islands[i].exhausted = false

theorem StaysClear.of_islands {i : SecId} {p q : Part} (h : q.islands[i].exhausted = p.islands[i].exhausted) :
    StaysClear i p q := fun hp => h.trans hp

/-- An update sets no EXHAUSTED: an entry to a condition clears it, or leaves it. -/
theorem staysClear_updateInner (i : SecId) (p : Part) : StaysClear i p (updateInner i p) := by
  intro hp
  have hretotal : (retotal i p).islands[i].exhausted = false := (retotal_marks i p).1.trans hp
  unfold updateInner
  simp only []
  split
  · unfold enterMarks
    simp only []
    split
    all_goals simp only [setAtt_frame, setIsland_islands, setAt_same, hretotal]
  · exact hretotal

/-- A re-shed judges the release condition alone, and leaves EXHAUSTED and the need. -/
theorem reshed_marks {i : SecId} {c : ConsId} {p : Part} (hc : consIsland p c = some i) :
    (reshed c p).islands[i].exhausted = p.islands[i].exhausted ∧ (reshed c p).islands[i].need = p.islands[i].need ∧
      (reshed c p).islands[i].condition = p.islands[i].condition := by
  obtain ⟨-, hcondition, -, hexhausted, hneed, -⟩ :=
    syncTimers_marks i (appendEntry ⟨.cons c, .restoreCancel, 0, p.ms, .held⟩ p)
  rw [reshed_islands hc]
  exact ⟨hexhausted, hneed, hcondition⟩

/-- So do the re-sheds of the first group. -/
theorem reshedAll_marks {i : SecId} (ts : List Target) {p : Part}
    (h : ∀ t ∈ ts, ∃ c, t = .cons c ∧ consIsland p c = some i) :
    (reshedAll ts p).islands[i].exhausted = p.islands[i].exhausted ∧
      (reshedAll ts p).islands[i].need = p.islands[i].need ∧
      (reshedAll ts p).islands[i].condition = p.islands[i].condition := by
  induction ts generalizing p with
  | nil => exact ⟨rfl, rfl, rfl⟩
  | cons t ts ih =>
    obtain ⟨c, rfl, hc⟩ := h t List.mem_cons_self
    obtain ⟨hexhausted, hneed, hcondition⟩ := reshed_marks hc
    obtain ⟨hexhausted', hneed', hcondition'⟩ := ih (p := reshed c p) fun u hu => by
      obtain ⟨x, rfl, hx⟩ := h u (List.mem_cons_of_mem _ hu)
      exact ⟨x, rfl, ((appends_reshed hc).targetIsland (.cons x)).trans hx⟩
    exact ⟨hexhausted'.trans hexhausted, hneed'.trans hneed, hcondition'.trans hcondition⟩

/-- A drive shed judges the release condition alone. -/
theorem shedDrive_marks {i : SecId} {d : DriveId} (cause : ShedCause) (credit cut : Nat) {p : Part}
    (hd : driveIsland p d = some i) :
    (shedDrive d cause credit cut p).islands[i].exhausted = p.islands[i].exhausted ∧
      (shedDrive d cause credit cut p).islands[i].condition = p.islands[i].condition := by
  obtain ⟨-, hcondition, -, hexhausted, -⟩ := syncTimers_marks i (appendEntry ⟨.drive d, cause, credit, p.ms, .held⟩ p)
  rw [shedDrive_islands cause credit cut hd]
  exact ⟨hexhausted, hcondition⟩

theorem staysClear_takeCandidate {i : SecId} (cause : ShedCause) {t : Target} (need : Int) {p : Part}
    (ht : targetIsland p t = some i) : StaysClear i p (takeCandidate cause t need p).2 := by
  cases t with
  | cons c =>
    intro hp
    simp only [takeCandidate, shedConsumer_islands cause (creditBasis p c) (p := p) (c := c) ht]
    exact staysClear_updateInner i (appendEntry _ p) hp
  | drive d =>
    simp only [takeCandidate]
    split
    · exact id
    · exact .of_islands (shedDrive_marks cause _ _ ht).1

theorem staysClear_walkCandidates {i : SecId} (cause : ShedCause) (ts : List Target) (need : Int) {p : Part}
    (h : ∀ t ∈ ts, targetIsland p t = some i) : StaysClear i p (walkCandidates cause ts need p).2 := by
  induction ts generalizing need p with
  | nil => exact id
  | cons t ts ih =>
    rw [walkCandidates]
    split
    · exact id
    · obtain ⟨new, hfirst, -⟩ := appends_takeCandidate cause need (h t List.mem_cons_self)
      exact fun hp => ih _ (fun u hu => (hfirst.targetIsland u).trans (h u (List.mem_cons_of_mem t hu)))
        (staysClear_takeCandidate cause need (h t List.mem_cons_self) hp)

/-! ## The walk of a step with a need (R105) -/

/-- A step's part before its end: the first group re-shed, the second walked. -/
def walked (i : SecId) (cause : ShedCause) (need : Int) (p : Part) : Part :=
  (walkCandidates cause (candidatesOf p i) need (reshedAll (restoringOf p i) p)).2

/-- A step with a need: it appends entries for targets of its two groups, and their credits decide its end. -/
theorem shedStep_walked (i : SecId) (cause : ShedCause) {need : Int} (hneed : 0 < need) (p : Part) :
    ∃ new, Appends i new p (walked i cause need p) ∧ (∀ e ∈ new, e.target ∈ restoringOf p i ++ candidatesOf p i) ∧
      shedStep i cause need p =
        if need ≤ ((new.map ShedEntry.credit).sum : Nat) then stepMet i (walked i cause need p)
        else stepUnmet i cause (need - ((new.map ShedEntry.credit).sum : Nat)).toNat (walked i cause need p) := by
  obtain ⟨first, hfirst, hcredit, hrestoring⟩ := appends_reshedAll (p := p) (restoringOf p i) fun t => cons_of_mem_restoringOf
  obtain ⟨second, hsecond, hleft, hcandidates⟩ := appends_walkCandidates cause (candidatesOf p i) need fun t h =>
    (hfirst.targetIsland t).trans (targetIsland_of_mem_candidatesOf h)
  have hsum : ((first ++ second).map ShedEntry.credit).sum = (second.map ShedEntry.credit).sum := by
    rw [List.map_append, List.sum_append, hcredit, Nat.zero_add]
  refine ⟨first ++ second, hfirst.trans hsecond, List.forall_mem_append.mpr
    ⟨fun e he => List.mem_append_left _ (hrestoring e he), fun e he => List.mem_append_right _ (hcandidates e he)⟩, ?_⟩
  rw [hsum, shedStep, if_neg (Int.not_le.mpr hneed)]
  simp only [hleft, walked]
  exact ite_congr (propext (by omega)) (fun _ => rfl) fun _ => rfl

/-- A shed step, its island standing or not: the entries that it appends behind the standing ones, its outcome beside their
credits, and attention EXHAUSTED where an unmet step finds the flag clear. -/
theorem shedStep_appends (i : SecId) (cause : ShedCause) (need : Int) (p : Part) :
    ∃ new, (shedStep i cause need p).shedList = p.shedList ++ new ∧ stepOutcome (shedStep i cause need p) i need new ∧
      (((new.map ShedEntry.credit).sum : Nat) < need → p.islands[i].exhausted = false →
        (shedStep i cause need p).att.word.getLsbD 1 = true) := by
  by_cases hneed : need ≤ 0
  · rw [shedStep, if_pos hneed]
    exact ⟨[], by simp, stepMet_outcome p hneed fun _ => rfl, fun hlt => absurd hneed (Int.not_le.mpr hlt)⟩
  · obtain ⟨new, hnew, -, hstep⟩ := shedStep_walked i cause (Int.not_le.mp hneed) p
    rw [hstep]
    refine ⟨new, ?_, ?_, fun hlt hclear => ?_⟩
    · split <;> simp [hnew.list]
    · split
      · next hmet => exact stepMet_outcome _ hmet fun hle => absurd hle hneed
      · next hshort => exact stepUnmet_outcome cause _ (Int.not_le.mp hshort)
    · have hwalked : (walked i cause need p).islands[i].exhausted = false := by
        refine staysClear_walkCandidates cause _ need (fun t ht => ?_) ?_
        · obtain ⟨first, hfirst, -⟩ := appends_reshedAll (p := p) (restoringOf p i) fun t => cons_of_mem_restoringOf
          exact (hfirst.targetIsland t).trans (targetIsland_of_mem_candidatesOf ht)
        · exact (reshedAll_marks (restoringOf p i) fun t => cons_of_mem_restoringOf).1.trans hclear
      rw [if_neg (Int.not_le.mpr hlt), stepUnmet, if_neg (by rw [hwalked]; decide)]
      exact setAtt_bit .exhausted _

/-- Settles O55, by the entries that a step appends and its end. -/
theorem shedStepCoversNeed : Obligations.ShedStepCoversNeed := by
  intro p i cause need q
  obtain ⟨new, hlist, ⟨-, hmet, hunmet⟩, hattention⟩ := shedStep_appends i cause need p
  refine ⟨fun hle => if_pos hle, fun _ => ⟨new, hlist, hmet, fun hshort => ?_⟩, ?_⟩
  · obtain ⟨hexhausted, hheld⟩ := hunmet hshort
    exact ⟨hexhausted, hheld, hattention hshort⟩
  · obtain ⟨-, -, himg, hgens, -, hplans⟩ := shedStep_frame i cause need p
    exact ⟨hgens, himg, hplans, (effects_shedStep i cause need p).attention_rises.1⟩

end Sys2Proof.Machine
end

section
/-! PROOFS. A consumer MEAS write: the moves of the table of R118, with the verified open and the reclose: O23 (R114, R117,
R118). -/

namespace Sys2Proof.Machine

/-! ## An update that a change of the opening credit brings (R45 to R47) -/

/-- What an island holds stands by its members wherever these, and the standing of its record, are the same. -/
theorem islandStands_congr {p q : Part} {i : SecId} (h : islandStands p i) (himg : q.img = p.img)
    (hplans : q.plans = p.plans) (hgens : q.gens = p.gens) (hlist : q.shedList = p.shedList)
    (hr : SameStanding p.islands[i] q.islands[i]) : islandStands q i := by
  obtain ⟨⟨htotals, hcondition⟩, hheld⟩ := h
  obtain ⟨ht, hc⟩ := totalsOf_congr himg hplans hgens hlist i
  refine ⟨⟨?_, ?_⟩, ?_⟩
  · rw [hr.totals, ht, htotals]
  · rw [hr.condition, ht, hc, hcondition]
  · rw [hr.held, (carriers_congr himg hplans hgens i).2, hheld]

theorem islandStands_enterMarks {p : Part} {i : SecId} (h : islandStands p i) : islandStands (enterMarks i p) i :=
  islandStands_congr h (by simp) (by simp) (by simp) (by simp) (enterMarks_standing i p)

/-- The stops that an island's entry to OVERLOADED aborts leave it standing by its members. -/
theorem islandStands_abortAll {p : Part} {i : SecId} (cause : AbortCause) (h : islandStands p i) :
    islandStands (abortAll i cause p) i := by
  refine foldl_keeps (fun q => islandStands q i) _ allGens p h fun q g _ hq => ?_
  split
  · next hg =>
    simp only [Bool.and_eq_true, genIn, beq_iff_eq] at hg
    unfold abortUnloading
    simp only []
    refine islandStands_afterGenInner (some g) ?_
    rw [← hg.1]
    split <;> simp [genIsland]
  · exact hq

theorem islandStands_requestStandby {p : Part} {i : SecId} (cause : StartCause) (h : islandStands p i) :
    islandStands (requestStandby i cause p) i := by
  unfold requestStandby
  split
  · split
    · next g hg =>
      refine islandStands_afterGenInner none ?_
      rw [← genIsland_standbyCandidate hg]
      simp [genIsland]
    · unfold noStandby
      split
      · exact h
      · refine islandStands_congr h (by simp) (by simp) (by simp) (by simp) ?_
        rw [setIsland_islands, setAt_same]
        exact ⟨rfl, rfl, rfl, rfl, rfl, rfl⟩
  · exact h

theorem islandStands_enterSequencer {p : Part} {i : SecId} (c : Condition) (h : islandStands p i) :
    islandStands (enterSequencer i c p) i := by
  unfold enterSequencer
  split
  · cases c with
    | overloaded => exact islandStands_abortAll .overload h
    | dead => exact islandStands_requestStandby .dead h
    | sound | short => exact h
  · exact h

/-- After the update an island holds what its members give. -/
theorem islandStands_updateCredit (i : SecId) (p : Part) : islandStands (updateCredit i p) i := by
  unfold updateCredit
  simp only []
  split
  · exact islandStands_enterSequencer _ (islandStands_enterMarks (islandStands_retotal i p))
  · exact islandStands_retotal i p

/-- An update that enters neither OVERLOADED nor DEAD, or that comes outside RUNNING, says nothing. -/
theorem says_updateCredit_nothing {i : SecId} {p : Part}
    (h : isRunning p = false ∨ conditionOf p i (totalsOf p i) = p.islands[i].condition ∨
      conditionOf p i (totalsOf p i) ≠ .overloaded ∧ conditionOf p i (totalsOf p i) ≠ .dead) :
    Says [] p (updateCredit i p) := by
  obtain ⟨-, hcondition, -⟩ := retotal_record i p
  have hquiet : entered i p (retotal i p) = true →
      enterSequencer i (retotal i p).islands[i].condition (enterMarks i (retotal i p)) = enterMarks i (retotal i p) := by
    intro he
    rw [entered, bne_iff_ne, hcondition] at he
    rw [hcondition]
    rcases h with hidle | hsame | ⟨ho, hd⟩
    · have hrun : isRunning (enterMarks i (retotal i p)) = false := by rw [← hidle]; simp [isRunning]
      unfold enterSequencer
      rw [hrun]
      rfl
    · exact absurd hsame.symm he
    · unfold enterSequencer
      cases hc : conditionOf p i (totalsOf p i) with
      | overloaded => exact absurd hc ho
      | dead => exact absurd hc hd
      | sound | short => exact ite_self _
  unfold updateCredit
  simp only []
  split
  · next he =>
    rw [hquiet he]
    exact .nothing (by simp) (by simp)
  · exact .nothing (by simp) (by simp)

/-! ## An entry changed in place (R98) -/

/-- The entries of an island after one is changed in place. -/
theorem entriesOf_changeEntry (i : SecId) (t : Target) {f : ShedEntry → ShedEntry} (hf : ∀ e, (f e).target = e.target)
    (p : Part) :
    entriesOf (changeEntry t f p) i = (entriesOf p i).map fun e => if e.target = t then f e else e := by
  have htarget : ∀ e : ShedEntry, (if e.target = t then f e else e).target = e.target := fun e => by
    split
    · exact hf e
    · rfl
  have hislands : targetIsland (changeEntry t f p) = targetIsland p :=
    (islandsOf_congr (p := p) (q := changeEntry t f p) rfl rfl).2.2.2
  rw [entriesOf, changeEntry_shedList, List.filter_map, hislands, entriesOf]
  simp only [Function.comp_def, htarget]

/-- The entry of a target changed in place. -/
theorem entryOf_changeEntry (t : Target) {f : ShedEntry → ShedEntry} (hf : ∀ e, (f e).target = e.target) (p : Part) :
    entryOf (changeEntry t f p) t = (entryOf p t).map f := by
  rw [entryOf, changeEntry_shedList, entryOf]
  induction p.shedList with
  | nil => rfl
  | cons e l ih =>
    rw [List.map_cons, List.find?_cons, List.find?_cons]
    by_cases h : e.target = t
    · simp [h, hf]
    · have hne : (e.target == t) = false := beq_false_of_ne h
      simp only [if_neg h, hne, ih]

/-- Entries that become OPENING, or stay so, with their credits, raise the opening credit. -/
theorem openingSum_le_map {f : ShedEntry → ShedEntry} (hcredit : ∀ e, (f e).credit = e.credit)
    (hopening : ∀ e, isOpening e = true → isOpening (f e) = true) (l : List ShedEntry) :
    ((l.filter isOpening).map ShedEntry.credit).sum ≤ (((l.map f).filter isOpening).map ShedEntry.credit).sum := by
  induction l with
  | nil => exact Nat.le_refl 0
  | cons e l ih =>
    rw [List.map_cons]
    by_cases he : isOpening e = true
    · simp [he, hopening e he, hcredit, ih]
    · by_cases hfe : isOpening (f e) = true
      · simp [he, hfe]
        omega
      · simpa [he, hfe] using ih

/-! ## The entry reopened by a reclose (R117) -/

/-- The part with a consumer's entry OPENING again. -/
def reopened (c : ConsId) (deadline : Word) (p : Part) : Part :=
  changeEntry (.cons c) (fun e => { e with state := .opening deadline }) p

/-- Reopening an entry of an island that agrees enters neither OVERLOADED nor DEAD: it raises the opening credit alone. -/
theorem reopened_enters (c : ConsId) (deadline : Word) {p : Part} {i : SecId} (h : islandAgrees p i) :
    let q := reopened c deadline p
    conditionOf q i (totalsOf q i) = q.islands[i].condition ∨
      conditionOf q i (totalsOf q i) ≠ .overloaded ∧ conditionOf q i (totalsOf q i) ≠ .dead := by
  intro q
  obtain ⟨-, hcondition⟩ := h
  have hcredit : (totalsOf p i).openingCredit ≤ (totalsOf q i).openingCredit := by
    have hle := openingSum_le_map (f := fun e => if e.target = .cons c then { e with state := .opening deadline } else e)
      (fun e => by split <;> rfl) (fun e he => by
        split
        · rfl
        · exact he) (entriesOf p i)
    have hentries := entriesOf_changeEntry i (.cons c) (f := fun e => { e with state := .opening deadline })
      (fun _ => rfl) p
    simp only [totalsOf, q, reopened, hentries]
    omega
  obtain ⟨hover, -⟩ := conditionOf_credit (p := p) (i := i) (t := totalsOf p i) (u := totalsOf q i) rfl rfl rfl hcredit
  have hsame : conditionOf q i (totalsOf q i) = conditionOf p i (totalsOf q i) := rfl
  have hdead : conditionOf p i (totalsOf q i) = .dead → conditionOf p i (totalsOf p i) = .dead := fun hd =>
    (conditionOf_dead_iff ..).mpr ((conditionOf_dead_iff ..).mp hd)
  rw [hsame]
  change _ = p.islands[i].condition ∨ _
  rw [hcondition]
  by_cases ho : conditionOf p i (totalsOf q i) = .overloaded
  · exact .inl (ho.trans (hover ho).symm)
  · by_cases hd : conditionOf p i (totalsOf q i) = .dead
    · exact .inl (hd.trans (hdead hd).symm)
    · exact .inr ⟨ho, hd⟩

/-- A command for a consumer of an island, with the notice of it. -/
theorem says_giveCons_noticeTarget {p : Part} {c : ConsId} {i : SecId} (hc : consIsland p c = some i) (k : CmdKind)
    (cause : Nat) (a b : Word) (n : NoticeKind) (why detail : Nat) (x y : Word) :
    Says [consCommand c i k cause a b, targetNotice (.cons c) i n why detail x y] p
      (noticeTarget (.cons c) n why detail x y (giveCons c k cause a b p)) := by
  have h := (says_giveCons hc k cause a b).trans
    (says_noticeTarget (p := giveCons c k cause a b p) (.cons c) n why detail x y)
  have hisland : targetIsland (giveCons c k cause a b p) (.cons c) = some i := by
    rw [← hc]
    simp [targetIsland, consIsland]
  rwa [hisland] at h

/-- What a reclose gives (R117). -/
structure Reclosed (c : ConsId) (e : ShedEntry) (p q : Part) : Prop where
  state : q.cons[c].state = .shedding
  attention : q.att.word.getLsbD 4 = true
  cmd : q.cmd = p.cmd
  entry : entryOf q (.cons c) = some { e with state := .opening (after p.ms (consTimeout p c)) }
  island : ∀ i, consIsland p c = some i → islandStands q i ∧ ∃ earlier, (islandAgrees p i → earlier = []) ∧
    Says (earlier ++ [consCommand c i .openConsumer recloseCode (kw e.credit) (after p.ms (consTimeout p c)),
      targetNotice (.cons c) i .reclosed (shedCauseCode e.cause) 0 (kw e.credit) (after p.ms (consTimeout p c))]) p q

theorem reclose_eq {c : ConsId} {e : ShedEntry} {p : Part} (he : entryOf p (.cons c) = some e) :
    reclose c p =
      let deadline := after p.ms (consTimeout p c)
      setAtt .shed (noticeTarget (.cons c) .reclosed (shedCauseCode e.cause) 0 (kw e.credit) deadline
        (giveCons c .openConsumer recloseCode (kw e.credit) deadline
          (setConsState c .shedding (updateCreditOf (consIsland p c) (reopened c deadline p))))) := by
  rw [reclose, he]
  rfl

theorem reclosed_reclose {c : ConsId} {e : ShedEntry} {p : Part} (he : entryOf p (.cons c) = some e) :
    Reclosed c e p (reclose c p) := by
  rw [reclose_eq he]
  dsimp only
  generalize hdeadline : after p.ms (consTimeout p c) = deadline
  refine ⟨by simp, setAtt_bit .shed _, by simp [reopened], ?_, fun i hi => ?_⟩
  · have hreopened := entryOf_changeEntry (.cons c) (f := fun e => { e with state := .opening deadline })
      (fun _ => rfl) p
    rw [hdeadline]
    calc entryOf _ (.cons c) = entryOf (reopened c deadline p) (.cons c) := by simp [entryOf]
      _ = _ := by rw [reopened, hreopened, he, Option.map_some]
  · rw [hi, updateCreditOf, hdeadline]
    generalize hq : updateCredit i (reopened c deadline p) = q
    have himg : q.img = p.img := by rw [← hq]; simp [reopened]
    have hplans : q.plans = p.plans := by rw [← hq]; simp [reopened]
    refine ⟨islandStands_congr (p := q) ?_ (by simp) (by simp) (by simp) (by simp) ?_, ?_⟩
    · rw [← hq]
      exact islandStands_updateCredit i _
    · simp only [setAtt_frame, noticeTarget_frame, giveCons_frame, setConsState_frame]
      exact .refl _
    · have hupdate : ∃ earlier, (islandAgrees p i → earlier = []) ∧ Says earlier (reopened c deadline p) q := by
        rw [← hq]
        by_cases ha : islandAgrees p i
        · exact ⟨[], fun _ => rfl, says_updateCredit_nothing (.inr (reopened_enters c _ ha))⟩
        · obtain ⟨earlier, hsays⟩ := (effects_updateCredit i (reopened c deadline p)).says
          exact ⟨earlier, fun h => absurd h ha, hsays⟩
      obtain ⟨earlier, hquiet, hearlier⟩ := hupdate
      have hmoved := (hearlier.after (p := p) (by simp [reopened]) (by simp [reopened])).quiet
        (r := setConsState c .shedding q) (by simp) (by simp)
      have hgiven := says_giveCons_noticeTarget (p := setConsState c .shedding q) (c := c) (i := i)
        (by rw [← hi]; simp [consIsland, himg, hplans]) .openConsumer recloseCode (kw e.credit) deadline .reclosed
        (shedCauseCode e.cause) 0 (kw e.credit) deadline
      exact ⟨earlier, hquiet, (hmoved.trans hgiven).quiet (by simp) (by simp)⟩

/-! ## The write (R118) -/

/-- The part with a consumer's MEAS copy taken, its freshness timer started (R22, R31). -/
def consTaken (c : ConsId) (x : Word) (p : Part) : Part :=
  { p with img := { p.img with consMeas := setAt p.img.consMeas c ⟨x, true, some (after p.ms (staleTime p))⟩ } }

/-- A present consumer moves by its state and the breaker reported (R118). -/
theorem consMeasEvent_taken {c : ConsId} {x : Word} {p : Part} (hc : p.plans.active.cons[c].isSome = true) :
    consMeasEvent c (consTaken c x p) = match p.cons[c].state, bit x 16 with
      | .isOpen, true => setConsState c .connected (consTaken c x p)
      | .connected, false => setConsState c .isOpen (consTaken c x p)
      | .shedding, false => verified c (consTaken c x p)
      | .shed, true => reclose c (consTaken c x p)
      | .restoring, true => setConsState c .connected (consTaken c x p)
      | _, _ => consTaken c x p := by
  have hpresent : (consTaken c x p).plans.active.cons[c].isNone = false := Option.isNone_eq_false_iff.mpr hc
  have hcopy : (consTaken c x p).img.consMeas[c].word = x := congrArg MeasCopy.word (setAt_same ..)
  have hstate : (consTaken c x p).cons[c].state = p.cons[c].state := rfl
  rw [consMeasEvent, if_neg (by rw [hpresent]; exact Bool.false_ne_true)]
  cases hs : p.cons[c].state <;> cases hb : bit x 16 <;> simp only [hcopy, closedBit, hstate, hs, hb]

theorem exec_consumerMeasWrite {s : State} {c : ConsId} {x : Word} (h : portFree .fp s = true) :
    exec (.consumerMeasWrite c 15#4 x .free) s = .next { s with
      bus := busAfterWrite .fp (windowAddr s.part.base (consWordOffset c 0)) 15#4 x s.bus
      part := consMeasEvent c (consTaken c x s.part) } := by
  refine congrArg Host.Outcome.next ((windowWrite_measure (x := x) h (consWordOffset_aligned c (by decide))
    (classify_consMeas c) (.inr (.inr (.inl ⟨c, rfl⟩)))).trans ?_)
  rw [jobOf, jobEvent]
  rfl

theorem consMeasEvent_img (c : ConsId) (p : Part) : (consMeasEvent c p).img = p.img := by
  unfold consMeasEvent
  split
  · rfl
  · split <;> simp

/-- Where the open is verified the entry is HELD, and the island stands by its members again (R114). -/
theorem verified_moves {c : ConsId} {p : Part} (hs : p.cons[c].state = .shedding) :
    (verified c p).cons[c].state = .shed ∧ attRises p (verified c p) ∧
      (∀ e, entryOf (verified c p) (.cons c) = some e → e.state = .held) ∧
      (∀ i, consIsland p c = some i → islandStands (verified c p) i) := by
  refine ⟨by simp [verified], (effects_verified c p (by rw [hs]; decide)).attention_rises.1, fun e he => ?_,
    fun i hi => ?_⟩
  · have hchange := entryOf_changeEntry (.cons c) (f := fun e => { e with state := .held }) (fun _ => rfl) p
    have hsame : entryOf (verified c p) (.cons c) = entryOf (changeEntry (.cons c) (fun e => { e with state := .held }) p)
        (.cons c) := by simp [entryOf, verified]
    rw [hsame, hchange, Option.map_eq_some_iff] at he
    obtain ⟨e', -, rfl⟩ := he
    rfl
  · rw [verified, hi]
    exact islandStands_updateCredit i _

/-- Settles O23, by the cases of the table of R118. -/
theorem consumerBreakerMoves : Obligations.ConsumerBreakerMoves := by
  intro s c x hport hc m
  refine ⟨_, exec_consumerMeasWrite hport, rfl, rfl, consMeasEvent_img .., ?_⟩
  dsimp only
  rw [consMeasEvent_img]
  have hrow := consMeasEvent_taken (x := x) hc
  split
  · next hs hb =>
    rw [hrow, hs, hb]
    rfl
  · next hs hb =>
    rw [hrow, hs, hb]
    rfl
  · next hs hb =>
    rw [hrow, hs, hb]
    rfl
  · next hs hb =>
    rw [hrow, hs, hb]
    obtain ⟨hstate, hatt, hheld, hstands⟩ := verified_moves (p := consTaken c x s.part) hs
    exact ⟨hstate, hatt, fun _ => hheld, hstands⟩
  · next hs hb =>
    rw [hrow, hs, hb]
    refine ⟨fun e he => ?_, fun hnone => ?_⟩
    · obtain ⟨hstate, hatt, hcmd, hentry, hisland⟩ := reclosed_reclose (p := consTaken c x s.part) he
      refine ⟨hstate, hatt, hcmd, hentry, fun i hi => ?_⟩
      obtain ⟨hstands, earlier, hquiet, hsays⟩ := hisland i hi
      exact ⟨hstands, earlier, hquiet, hsays.lu.trans (reported_lu_congr _ rfl rfl)⟩
    · have hnone' : entryOf (consTaken c x s.part) (.cons c) = none := hnone
      dsimp only
      rw [reclose, hnone']
      rfl
  · next hopen hconnected hshedding hshed hrestoring =>
    rw [hrow]
    split
    · next hs hb => exact (hopen hs hb).elim
    · next hs hb => exact (hconnected hs hb).elim
    · next hs hb => exact (hshed hs hb).elim
    · next hs hb => exact (hrestoring hs hb).elim
    · next hs hb => exact (hshedding hs hb).elim
    · rfl

end Sys2Proof.Machine
end

section
/-! PROOFS. A verify deadline and a restore deadline reached: O52 (R106, R112, R115, R128). -/

namespace Sys2Proof.Machine

/-! ## What a shed step leaves of a consumer that it does not take -/

/-- A change leaves a consumer's state, its CMD word and whether the store queue holds it, and whether it has an entry. -/
structure LeavesConsumer (c : ConsId) (p q : Part) : Prop where
  state : q.cons[c] = p.cons[c]
  cmd : q.cmd[c] = p.cmd[c]
  word : cmdEntry q.sq c = cmdEntry p.sq c
  entry : hasEntry q (.cons c) = hasEntry p (.cons c)

namespace LeavesConsumer

theorem refl (c : ConsId) (p : Part) : LeavesConsumer c p p := ⟨rfl, rfl, rfl, rfl⟩

theorem trans {c : ConsId} {p q r : Part} (h : LeavesConsumer c p q) (k : LeavesConsumer c q r) :
    LeavesConsumer c p r :=
  ⟨k.state.trans h.state, k.cmd.trans h.cmd, k.word.trans h.word, k.entry.trans h.entry⟩

/-- A change that leaves the consumers, their CMD words, the store queue and the shed list. -/
theorem of_eq (c : ConsId) {p q : Part} (hcons : q.cons = p.cons) (hcmd : q.cmd = p.cmd) (hsq : q.sq = p.sq)
    (hlist : q.shedList = p.shedList) : LeavesConsumer c p q :=
  ⟨by rw [hcons], by rw [hcmd], by rw [hsq], by rw [hasEntry, hlist, hasEntry]⟩

/-- A shed of another consumer: one entry for it, its state, and its CMD word. -/
theorem of_other {b c : ConsId} {p q : Part} {e : ShedEntry} {st : Consumer} {w : Word} (hne : b ≠ c)
    (he : e.target = .cons b) (hcons : q.cons = setAt p.cons b st) (hcmd : q.cmd = setAt p.cmd b w)
    (hsq : q.sq = sqPut (.consCmd b) w p.sq) (hlist : q.shedList = p.shedList ++ [e]) : LeavesConsumer c p q where
  state := by rw [hcons, setAt_other _ _ hne]
  cmd := by rw [hcmd, setAt_other _ _ hne]
  word := by rw [hsq, cmdEntry_put_other _ _ _ _ (by simpa using hne)]
  entry := by
    rw [hasEntry, hlist, List.any_append, hasEntry]
    simp [he, hne]

end LeavesConsumer

theorem leavesConsumer_reshed {b c : ConsId} (hne : b ≠ c) (p : Part) : LeavesConsumer c p (reshed b p) := by
  refine .of_other hne rfl (reshed_tables b p).2 (w := cmdWord p.cmd[b] reqOpen true false) ?_ ?_ (reshed_tables b p).1
  · simp [reshed]
  · simp [reshed, setCmd_sq]

theorem leavesConsumer_shedConsumer {b c : ConsId} (hne : b ≠ c) (cause : ShedCause) (credit : Nat) (p : Part) :
    LeavesConsumer c p (shedConsumer b cause credit p) := by
  refine .of_other hne rfl (shedConsumer_tables b cause credit p).2 (w := cmdWord p.cmd[b] reqOpen true false) ?_ ?_
    (shedConsumer_tables b cause credit p).1
  · simp [shedConsumer]
  · simp [shedConsumer, setCmd_sq]

theorem leavesConsumer_shedDrive (c : ConsId) (d : DriveId) (cause : ShedCause) (credit cut : Nat) (p : Part) :
    LeavesConsumer c p (shedDrive d cause credit cut p) where
  state := by simp [shedDrive]
  cmd := by simp [shedDrive, noticeDriveShed, writeDriveLimit]
  word := by
    have hsq : ∃ w, (shedDrive d cause credit cut p).sq = sqPut (.driveLimit d) w p.sq :=
      ⟨_, by simp only [shedDrive, noticeDriveShed, writeDriveLimit, enqueue]; simp; rfl⟩
    obtain ⟨w, hsq⟩ := hsq
    rw [hsq, cmdEntry_put_other _ _ _ _ (by simp)]
  entry := by
    rw [hasEntry, (shedDrive_tables d cause credit cut p).1, List.any_append, hasEntry]
    simp

theorem leavesConsumer_takeCandidate {c : ConsId} {t : Target} (ht : t ≠ .cons c) (cause : ShedCause) (need : Int)
    (p : Part) : LeavesConsumer c p (takeCandidate cause t need p).2 := by
  cases t with
  | cons b => exact leavesConsumer_shedConsumer (by simpa using ht) ..
  | drive d =>
    simp only [takeCandidate]
    split
    · exact .refl c p
    · exact leavesConsumer_shedDrive ..

theorem leavesConsumer_walkCandidates {c : ConsId} {ts : List Target} (h : Target.cons c ∉ ts) (cause : ShedCause)
    (need : Int) (p : Part) : LeavesConsumer c p (walkCandidates cause ts need p).2 := by
  induction ts generalizing need p with
  | nil => exact .refl c p
  | cons t ts ih =>
    rw [List.mem_cons, not_or] at h
    rw [walkCandidates]
    split
    · exact .refl c p
    · exact (leavesConsumer_takeCandidate (Ne.symm h.1) cause need p).trans (ih h.2 ..)

theorem leavesConsumer_reshedAll {c : ConsId} {ts : List Target} (h : Target.cons c ∉ ts) (p : Part) :
    LeavesConsumer c p (reshedAll ts p) := by
  refine foldl_keeps (LeavesConsumer c p) _ ts p (.refl c p) fun q t ht hq => ?_
  cases t with
  | cons b =>
    exact hq.trans (leavesConsumer_reshed (by rintro rfl; exact h ht) q)
  | drive d => exact hq

theorem leavesConsumer_stepMet (c : ConsId) (i : SecId) (p : Part) : LeavesConsumer c p (stepMet i p) :=
  .of_eq c (by simp) (by simp) (by simp) (by simp)

theorem leavesConsumer_stepUnmet (c : ConsId) (i : SecId) (cause : ShedCause) (need : Nat) (p : Part) :
    LeavesConsumer c p (stepUnmet i cause need p) :=
  .of_eq c (by simp) (by simp) (by simp) (by simp)

/-- A STUCK consumer is in neither group of an island's candidates (R100). -/
theorem stuck_not_taken {p : Part} {c : ConsId} (i : SecId) (h : p.cons[c].state = .stuck) :
    Target.cons c ∉ restoringOf p i ∧ Target.cons c ∉ candidatesOf p i := by
  refine ⟨fun hmem => ?_, fun hmem => ?_⟩
  · obtain ⟨b, hb, hrestoring⟩ := restoring_of_mem_restoringOf hmem
    cases hb
    rw [h] at hrestoring
    exact absurd hrestoring (by decide)
  · have hm := mem_of_mem_sortByKey hmem
    simp only [consCandidate, List.mem_append, List.mem_map, List.mem_filter, Bool.and_eq_true, bne_iff_ne] at hm
    rcases hm with ⟨b, ⟨-, ⟨⟨-, hstuck⟩, -⟩, -⟩, hb⟩ | ⟨d, -, hd⟩
    · cases hb
      exact hstuck h
    · cases hd

theorem leavesConsumer_shedStep {p : Part} {c : ConsId} (h : p.cons[c].state = .stuck) (i : SecId) (cause : ShedCause)
    (need : Int) : LeavesConsumer c p (shedStep i cause need p) := by
  obtain ⟨hfirst, hsecond⟩ := stuck_not_taken i h
  have hwalk := (leavesConsumer_reshedAll hfirst p).trans
    (leavesConsumer_walkCandidates hsecond cause need (reshedAll (restoringOf p i) p))
  unfold shedStep
  split
  · exact leavesConsumer_stepMet ..
  · dsimp only
    split
    · exact hwalk.trans (leavesConsumer_stepMet ..)
    · exact hwalk.trans (leavesConsumer_stepUnmet ..)

theorem leavesConsumer_escalate {p : Part} {c : ConsId} (h : p.cons[c].state = .stuck) (credit : Nat) :
    LeavesConsumer c p (escalate c credit p) := by
  unfold escalate
  split
  · exact .refl c p
  · split
    · exact leavesConsumer_shedStep h ..
    · exact .refl c p

/-! ## A STUCK verdict (R115) -/

/-- A STUCK verdict before its notice. -/
def markedStuck (c : ConsId) (p : Part) : Part :=
  p |> removeEntry (.cons c)
    |> updateCreditOf (consIsland p c)
    |> setConsState c .stuck
    |> setCmd c reqOpen false true

/-- A STUCK verdict before its escalation. -/
def foundStuck (c : ConsId) (e : ShedEntry) (p : Part) : Part :=
  markedStuck c p |> noticeTarget (.cons c) .stuck (shedCauseCode e.cause) 0 (kw e.credit) 0#32
    |> setAtt .stuck

theorem stuckVerdict_eq (c : ConsId) (e : ShedEntry) (p : Part) :
    stuckVerdict c e p = escalate c e.credit (foundStuck c e p) := rfl

theorem foundStuck_frame (c : ConsId) (e : ShedEntry) (p : Part) :
    (foundStuck c e p).img = p.img ∧ (foundStuck c e p).plans = p.plans ∧
      (foundStuck c e p).shedList = p.shedList.filter (fun x => decide (x.target ≠ .cons c)) ∧
      (foundStuck c e p).cons[c] = ⟨.stuck, none⟩ ∧
      (foundStuck c e p).cmd[c] = cmdWord p.cmd[c] reqOpen false true := by
  simp [foundStuck, markedStuck]

/-- The consumer's word in the store queue. -/
theorem foundStuck_word (c : ConsId) (e : ShedEntry) (p : Part) :
    (cmdEntry (foundStuck c e p).sq c).map SqEntry.data = some (foundStuck c e p).cmd[c] := by
  have hset : (cmdEntry (markedStuck c p).sq c).map SqEntry.data = some (markedStuck c p).cmd[c] := cmdEntry_setCmd ..
  simpa [foundStuck] using hset

/-- Outside RUNNING the STUCK notice is all that a verdict reports. -/
theorem says_foundStuck {c : ConsId} {e : ShedEntry} {p : Part} (hidle : isRunning p = false) :
    Says [targetNotice (.cons c) (islandField (consIsland p c)) .stuck (shedCauseCode e.cause) 0 (kw e.credit) 0#32] p
      (foundStuck c e p) := by
  have hupdate : Says [] p (updateCreditOf (consIsland p c) (removeEntry (.cons c) p)) := by
    cases consIsland p c with
    | none => exact .nothing (by simp [updateCreditOf]) (by simp [updateCreditOf])
    | some i => exact (says_updateCredit_nothing (p := removeEntry (.cons c) p) (.inl hidle)).after (by simp) (by simp)
  have hmarked : Says [] p (markedStuck c p) := hupdate.quiet (by simp [markedStuck]) (by simp [markedStuck])
  have hnotice := says_noticeTarget (p := markedStuck c p) (.cons c) .stuck (shedCauseCode e.cause) 0 (kw e.credit) 0#32
  have hisland : targetIsland (markedStuck c p) (.cons c) = consIsland p c := by
    simp [targetIsland, consIsland, markedStuck]
  rw [hisland] at hnotice
  exact (hmarked.trans hnotice).quiet (by simp [foundStuck]) (by simp [foundStuck])

theorem escalate_idle {c : ConsId} {credit : Nat} {p : Part} (h : isRunning p = false) : escalate c credit p = p := by
  unfold escalate
  split
  · rfl
  · rw [h]
    rfl

/-- The update of an island leaves the generators that carry its load (R45, R47). -/
theorem carrying_updateCredit (i : SecId) (p : Part) : carrying (updateCredit i p) i = carrying p i := by
  have hretotal : carrying (retotal i p) i = carrying p i := by
    simp [carrying, genIn, genIsland, genState]
  unfold updateCredit
  dsimp only
  split
  · exact ((sequenced_enterMarks i _).trans (sequenced_enterSequencer i _ _)).carrying.trans hretotal
  · exact hretotal

/-- A verdict finds its island DEAD exactly where no generator carries its load. -/
theorem foundStuck_dead_iff {c : ConsId} {e : ShedEntry} {p : Part} {i : SecId} (hi : consIsland p c = some i) :
    (foundStuck c e p).islands[i].condition = .dead ↔ carrying p i = [] := by
  have hislands : (foundStuck c e p).islands = (updateCredit i (removeEntry (.cons c) p)).islands := by
    simp [foundStuck, markedStuck, hi, updateCreditOf]
  obtain ⟨⟨-, hcondition⟩, -⟩ := islandStands_updateCredit i (removeEntry (.cons c) p)
  rw [hislands, hcondition, conditionOf_dead_iff, carrying_updateCredit]
  rfl

/-- The escalation in RUNNING: none of an absent consumer or in a DEAD island, else a step for the credit lost (R106). -/
theorem escalate_foundStuck {c : ConsId} {e : ShedEntry} {p : Part} (hrun : isRunning p = true) :
    (consIsland p c = none → escalate c e.credit (foundStuck c e p) = foundStuck c e p) ∧
      ∀ i, consIsland p c = some i → escalate c e.credit (foundStuck c e p) =
        if carrying p i = [] then foundStuck c e p else shedStep i .escalation (e.credit : Int) (foundStuck c e p) := by
  obtain ⟨himg, hplans, -⟩ := foundStuck_frame c e p
  have hisland : consIsland (foundStuck c e p) c = consIsland p c := by rw [(islandsOf_congr himg hplans).2.1]
  have hrun' : isRunning (foundStuck c e p) = true := by rw [← hrun, isRunning, hplans, isRunning]
  refine ⟨fun hnone => ?_, fun i hi => ?_⟩
  · simp only [escalate, hisland, hnone]
  · simp only [escalate, hisland, hi, hrun', Bool.true_and, bne_iff_ne, ne_eq, foundStuck_dead_iff hi, ite_not]

/-! ## The commands -/

theorem exec_verifyDeadline (c : ConsId) (s : State) :
    exec (.verifyDeadline c) s = .next { s with part := verifyReached c s.part } := rfl

theorem verifyReached_due {c : ConsId} {p : Part} {e : ShedEntry} {d : Word} (he : entryOf p (.cons c) = some e)
    (hs : e.state = .opening d) (hd : due d p.ms = true) : verifyReached c p = stuckVerdict c e p := by
  simp only [verifyReached, he, hs, hd, if_true]

theorem verifyReached_waits {c : ConsId} {p : Part}
    (h : ∀ e d, entryOf p (.cons c) = some e → e.state = .opening d → due d p.ms = false) : verifyReached c p = p := by
  unfold verifyReached
  split
  · rfl
  · next e he =>
    split
    · next d hs => exact if_neg (by rw [h e d he hs]; exact Bool.false_ne_true)
    · rfl

/-- A verdict with its escalation leaves the consumer STUCK, with no entry, its word in the store queue (R115). -/
theorem stuckVerdict_consumer (c : ConsId) (e : ShedEntry) (p : Part) :
    hasEntry (stuckVerdict c e p) (.cons c) = false ∧ (stuckVerdict c e p).cons[c] = ⟨.stuck, none⟩ ∧
      (stuckVerdict c e p).cmd[c] = cmdWord p.cmd[c] reqOpen false true ∧
      (∃ x ∈ (stuckVerdict c e p).sq, x.word = .consCmd c ∧ x.data = (stuckVerdict c e p).cmd[c]) ∧
      (stuckVerdict c e p).att.word.getLsbD 3 = true := by
  obtain ⟨-, -, hlist, hcons, hcmd⟩ := foundStuck_frame c e p
  have hleft := leavesConsumer_escalate (p := foundStuck c e p) (c := c) (by rw [hcons]) e.credit
  rw [stuckVerdict_eq]
  refine ⟨?_, hleft.state.trans hcons, hleft.cmd.trans hcmd, ?_, ?_⟩
  · rw [hleft.entry, hasEntry, hlist]
    simp
  · have hword := foundStuck_word c e p
    rw [← hleft.word, ← hleft.cmd, Option.map_eq_some_iff] at hword
    obtain ⟨x, hx, hdata⟩ := hword
    exact ⟨x, List.mem_of_find?_eq_some hx, by simpa using List.find?_some hx, hdata⟩
  · exact (effects_escalate c e.credit (foundStuck c e p)).attention_rises.1 3 (setAtt_bit .stuck _)

/-- A restore deadline reached (R128). -/
theorem restoreReached_due {c : ConsId} {p : Part} {d : Word} (hs : p.cons[c] = ⟨.restoring, some d⟩)
    (hd : due d p.ms = true) :
    restoreReached c p = reported [targetNotice (.cons c) (islandField (consIsland p c)) .restoreFailed 0
      (breakerCode (measBreaker p.img.consMeas[c])) 0#32 0#32, .attention .release]
      { p with cons := setAt p.cons c ⟨.isOpen, none⟩ } := by
  rw [restoreReached, if_pos (by rw [hs]; exact ⟨rfl, hd⟩)]
  rfl

theorem restoreReached_waits {c : ConsId} {p : Part} {d : Word} (hs : p.cons[c] = ⟨.restoring, some d⟩)
    (hd : due d p.ms = false) : restoreReached c p = p :=
  if_neg fun ⟨_, h⟩ => by
    rw [hs] at h
    exact Bool.false_ne_true (hd.symm.trans h)

/-- Settles O52, by the verdict with its escalation, and the deadlines as they are reached or not. -/
theorem deadlinesReached : Obligations.DeadlinesReached := by
  intro s c
  refine ⟨fun e d he hs hd => ?_, fun hwait => ?_, fun d hs => ⟨fun hd => ?_, fun hd => ?_⟩⟩
  · rw [exec_verifyDeadline, verifyReached_due he hs hd]
    obtain ⟨hentry, hcons, hcmd, hword, hatt⟩ := stuckVerdict_consumer c e s.part
    obtain ⟨-, -, hlist, -⟩ := foundStuck_frame c e s.part
    refine ⟨_, rfl, rfl, rfl, hentry, hcons, ?_, ?_, ?_, hword, hatt, fun hidle => ?_, fun hrun => ?_⟩
    · exact (congrArg cmdReq hcmd).trans (cmdReq_cmdWord ..)
    · exact (congrArg cmdShed hcmd).trans (cmdShed_cmdWord ..)
    · exact (congrArg cmdStuck hcmd).trans (cmdStuck_cmdWord ..)
    · have hidle' : isRunning (foundStuck c e s.part) = false := by
        rw [← hidle, isRunning, (foundStuck_frame c e s.part).2.1, isRunning]
      rw [stuckVerdict_eq, escalate_idle hidle']
      exact ⟨hlist, (says_foundStuck hidle).lu⟩
    · obtain ⟨habsent, hpresent⟩ := escalate_foundStuck (c := c) (e := e) hrun
      rw [stuckVerdict_eq]
      refine ⟨fun hnone => by rw [habsent hnone]; exact hlist, fun i hi => ⟨fun hdead => ?_, fun halive => ?_⟩⟩
      · rw [hpresent i hi, if_pos hdead]
        exact hlist
      · rw [hpresent i hi, if_neg halive]
        obtain ⟨new, hnew, houtcome, -⟩ := shedStep_appends i .escalation (e.credit : Int) (foundStuck c e s.part)
        exact ⟨new, by rw [hnew, hlist], houtcome⟩
  · rw [exec_verifyDeadline, verifyReached_waits hwait]
  · exact congrArg (fun q => Host.Outcome.next { s with part := q }) (restoreReached_due hs hd)
  · exact congrArg (fun q => Host.Outcome.next { s with part := q }) (restoreReached_waits hs hd)

end Sys2Proof.Machine
end

section
/-! PROOFS. What a slow step takes: the first group re-shed, and the first candidate that gives a shed (R101, R104, R105,
R109). -/

namespace Sys2Proof.Machine

/-! ## The first group re-shed (R104, R105) -/

/-- The entry of a RESTORING consumer re-shed (R104). -/
def reshedEntry (now : Word) (t : Target) : ShedEntry := ⟨t, .restoreCancel, 0, now, .held⟩

/-- A consumer's word marked SHED, REQ OPEN in it (R102, R104). -/
def ShedWord (w : Word) : Prop := bits w 0 2 = 1 ∧ bit w 8 = true ∧ bit w 9 = false

theorem shedWord_cmdWord (w : Word) : ShedWord (cmdWord w reqOpen true false) :=
  ⟨cmdReq_cmdWord .., cmdShed_cmdWord .., cmdStuck_cmdWord ..⟩

/-- A consumer re-shed or shed: its state, and its word. -/
def ShedAs (st : ConsState) (c : ConsId) (p : Part) : Prop := p.cons[c] = ⟨st, none⟩ ∧ ShedWord p.cmd[c]

theorem ShedAs.left {st : ConsState} {c : ConsId} {p q : Part} (h : ShedAs st c p) (k : LeavesConsumer c p q) :
    ShedAs st c q := by
  unfold ShedAs
  rw [k.state, k.cmd]
  exact h

theorem shedAs_reshed (c : ConsId) (p : Part) : ShedAs .shed c (reshed c p) := by
  refine ⟨by rw [(reshed_tables c p).2, setAt_same], ?_⟩
  have hcmd : (reshed c p).cmd[c] = cmdWord p.cmd[c] reqOpen true false := by simp [reshed]
  rw [hcmd]
  exact shedWord_cmdWord _

theorem shedAs_shedConsumer (c : ConsId) (cause : ShedCause) (credit : Nat) (p : Part) :
    ShedAs .shedding c (shedConsumer c cause credit p) := by
  refine ⟨by rw [(shedConsumer_tables c cause credit p).2, setAt_same], ?_⟩
  have hcmd : (shedConsumer c cause credit p).cmd[c] = cmdWord p.cmd[c] reqOpen true false := by simp [shedConsumer]
  rw [hcmd]
  exact shedWord_cmdWord _

/-- The first group re-shed: the entries, in order, behind the standing ones. -/
theorem reshedAll_list (ts : List Target) {p : Part} (h : ∀ t ∈ ts, ∃ c, t = .cons c) :
    (reshedAll ts p).shedList = p.shedList ++ ts.map (reshedEntry p.ms) ∧ (reshedAll ts p).drives = p.drives := by
  induction ts generalizing p with
  | nil => exact ⟨(List.append_nil _).symm, rfl⟩
  | cons t ts ih =>
    obtain ⟨c, rfl⟩ := h t List.mem_cons_self
    obtain ⟨hlist, hdrives⟩ := ih (p := reshed c p) fun u hu => h u (List.mem_cons_of_mem _ hu)
    refine ⟨hlist.trans ?_, hdrives.trans (by simp [reshed])⟩
    have hms : (reshed c p).ms = p.ms := by simp
    rw [(reshed_tables c p).1, hms, List.append_assoc]
    rfl

theorem shedAs_reshedAll {c : ConsId} (ts : List Target) {p : Part} (hc : Target.cons c ∈ ts) :
    ShedAs .shed c (reshedAll ts p) := by
  induction ts generalizing p with
  | nil => cases hc
  | cons t ts ih =>
    by_cases hts : Target.cons c ∈ ts
    · exact ih hts
    · obtain rfl := (List.mem_cons.mp hc).resolve_right hts
      exact (shedAs_reshed c p).left (leavesConsumer_reshedAll hts (reshed c p))

/-- No candidate is RESTORING (R100). -/
theorem not_candidate_of_restoring {p : Part} {i : SecId} {c : ConsId} (hc : Target.cons c ∈ restoringOf p i) :
    Target.cons c ∉ candidatesOf p i := by
  intro hmem
  obtain ⟨b, hb, hrestoring⟩ := restoring_of_mem_restoringOf hc
  cases hb
  have hm := mem_of_mem_sortByKey hmem
  simp only [consCandidate, List.mem_append, List.mem_map, List.mem_filter, Bool.and_eq_true, bne_iff_ne] at hm
  rcases hm with ⟨b, ⟨-, ⟨-, hother⟩, -⟩, hb⟩ | ⟨d, -, hd⟩
  · cases hb
    exact hother hrestoring
  · cases hd

/-! ## The candidate that is taken (R101, R109) -/

/-- Whether a candidate gives no shed: a drive whose credit comes to 0 with this need (R101). -/
def GivesNone (p : Part) (need : Int) (t : Target) : Prop :=
  ∃ d, t = .drive d ∧ drivePower p d - cutLimitFor p d need = 0

section
variable {cause : ShedCause} {need : Int} {p : Part}

theorem takeCandidate_none {t : Target} (h : GivesNone p need t) : takeCandidate cause t need p = (need, p) := by
  obtain ⟨d, rfl, hcredit⟩ := h
  simp only [takeCandidate, hcredit, if_true]

theorem takeCandidate_drive {d : DriveId} (h : drivePower p d - cutLimitFor p d need ≠ 0) :
    takeCandidate cause (.drive d) need p =
      (need - (drivePower p d - cutLimitFor p d need : Nat),
        shedDrive d cause (drivePower p d - cutLimitFor p d need) (cutLimitFor p d need) p) := by
  simp only [takeCandidate, h, if_false]

/-- The candidates that give no shed are passed over. -/
theorem takeFirst_skips {pre ts : List Target} (h : ∀ t ∈ pre, GivesNone p need t) :
    takeFirst cause need (pre ++ ts) p = takeFirst cause need ts p := by
  induction pre with
  | nil => rfl
  | cons t pre ih =>
    have ht := h t List.mem_cons_self
    have htake := takeCandidate_none (cause := cause) ht
    obtain ⟨d, rfl, -⟩ := ht
    rw [List.cons_append, takeFirst]
    simp only [htake, if_true]
    exact ih fun u hu => h u (List.mem_cons_of_mem _ hu)

theorem takeFirst_none {ts : List Target} (h : ∀ t ∈ ts, GivesNone p need t) : takeFirst cause need ts p = none := by
  rw [← List.append_nil ts, takeFirst_skips h, takeFirst]

theorem takeFirst_cons (c : ConsId) (ts : List Target) :
    takeFirst cause need (.cons c :: ts) p = some (shedConsumer c cause (creditBasis p c) p) := rfl

theorem takeFirst_drive {d : DriveId} (ts : List Target) (h : drivePower p d - cutLimitFor p d need ≠ 0) :
    takeFirst cause need (.drive d :: ts) p
      = some (shedDrive d cause (drivePower p d - cutLimitFor p d need) (cutLimitFor p d need) p) := by
  rw [takeFirst, takeCandidate_drive h]
  exact if_neg (by simp only; omega)

end

/-! ## The slow step (R109) -/

/-- What the expected load passes the limit by. -/
def slowNeed (i : SecId) (p : Part) : Int :=
  (expectedLoad p.islands[i].totals : Int) - (p.islands[i].totals.limit : Int)

/-- A slow step's part with the first group re-shed. -/
def slowReshed (i : SecId) (p : Part) : Part := reshedAll (restoringOf p i) p

section
variable {i : SecId} {p : Part}

theorem slowReshed_view : (slowReshed i p).img = p.img ∧ (slowReshed i p).plans = p.plans ∧ (slowReshed i p).ms = p.ms ∧
    (slowReshed i p).drives = p.drives ∧
    (slowReshed i p).shedList = p.shedList ++ (restoringOf p i).map (reshedEntry p.ms) := by
  obtain ⟨new, happends, -⟩ := appends_reshedAll (p := p) (restoringOf p i) fun t => cons_of_mem_restoringOf
  obtain ⟨hlist, hdrives⟩ := reshedAll_list (p := p) (restoringOf p i) fun t ht => by
    obtain ⟨c, hc, -⟩ := cons_of_mem_restoringOf ht
    exact ⟨c, hc⟩
  exact ⟨happends.img, happends.plans, happends.ms, hdrives, hlist⟩

/-- What the candidates give rests on the copies and the plan alone. -/
theorem slowReshed_power (d : DriveId) (need : Int) : drivePower (slowReshed i p) d = drivePower p d ∧
    cutLimitFor (slowReshed i p) d need = cutLimitFor p d need := by
  obtain ⟨himg, hplans, -⟩ := slowReshed_view (i := i) (p := p)
  have hpower : drivePower (slowReshed i p) d = drivePower p d := by rw [drivePower, himg, drivePower]
  have hfloor : driveFloor (slowReshed i p) d = driveFloor p d := by rw [driveFloor, hplans, driveFloor]
  exact ⟨hpower, by rw [cutLimitFor, hpower, hfloor, cutLimitFor]⟩

theorem givesNone_slowReshed {need : Int} {t : Target} (h : GivesNone p need t) : GivesNone (slowReshed i p) need t := by
  obtain ⟨d, rfl, hcredit⟩ := h
  obtain ⟨hpower, hcut⟩ := slowReshed_power (i := i) (p := p) d need
  exact ⟨d, rfl, by rw [hpower, hcut]; exact hcredit⟩

/-- A slow step takes one candidate, or is not met. -/
theorem slowStep_cases : (∃ t ∈ candidatesOf p i,
      slowStep i p = stepMet i (takeCandidate .overload t (slowNeed i p) (slowReshed i p)).2) ∨
    slowStep i p = stepUnmet i .overload (slowNeed i p).toNat (slowReshed i p) := by
  unfold slowStep
  dsimp only
  split
  · next q hq =>
    obtain ⟨t, ht, rfl⟩ := takeFirst_some hq
    exact .inl ⟨t, ht, rfl⟩
  · exact .inr rfl

/-- With no candidate that gives a shed, the step is not met. -/
theorem slowStep_none (h : ∀ t ∈ candidatesOf p i, GivesNone p (slowNeed i p) t) :
    slowStep i p = stepUnmet i .overload (slowNeed i p).toNat (slowReshed i p) := by
  have htake : takeFirst .overload (slowNeed i p) (candidatesOf p i) (slowReshed i p) = none :=
    takeFirst_none fun t ht => givesNone_slowReshed (h t ht)
  unfold slowStep
  simp only [slowReshed, slowNeed] at htake
  simp only [htake]
  rfl

theorem slowStep_cons {c : ConsId} {pre rest : List Target} (hsplit : candidatesOf p i = pre ++ .cons c :: rest)
    (h : ∀ t ∈ pre, GivesNone p (slowNeed i p) t) :
    slowStep i p = stepMet i (shedConsumer c .overload (creditBasis p c) (slowReshed i p)) := by
  obtain ⟨himg, hplans, -⟩ := slowReshed_view (i := i) (p := p)
  have hbasis : creditBasis (slowReshed i p) c = creditBasis p c := by rw [creditBasis, himg, hplans, creditBasis]
  have htake : takeFirst .overload (slowNeed i p) (candidatesOf p i) (slowReshed i p)
      = some (shedConsumer c .overload (creditBasis p c) (slowReshed i p)) := by
    rw [hsplit, takeFirst_skips fun t ht => givesNone_slowReshed (h t ht), takeFirst_cons, hbasis]
  unfold slowStep
  simp only [slowReshed, slowNeed] at htake
  simp only [htake]
  rfl

theorem slowStep_drive {d : DriveId} {pre rest : List Target} (hsplit : candidatesOf p i = pre ++ .drive d :: rest)
    (hcredit : drivePower p d - cutLimitFor p d (slowNeed i p) ≠ 0) (h : ∀ t ∈ pre, GivesNone p (slowNeed i p) t) :
    slowStep i p = stepMet i (shedDrive d .overload (drivePower p d - cutLimitFor p d (slowNeed i p))
      (cutLimitFor p d (slowNeed i p)) (slowReshed i p)) := by
  obtain ⟨hpower, hcut⟩ := slowReshed_power (i := i) (p := p) d (slowNeed i p)
  have htake : takeFirst .overload (slowNeed i p) (candidatesOf p i) (slowReshed i p)
      = some (shedDrive d .overload (drivePower p d - cutLimitFor p d (slowNeed i p)) (cutLimitFor p d (slowNeed i p))
        (slowReshed i p)) := by
    rw [hsplit, takeFirst_skips fun t ht => givesNone_slowReshed (h t ht),
      takeFirst_drive _ (by rw [hpower, hcut]; exact hcredit), hpower, hcut]
  unfold slowStep
  simp only [slowReshed, slowNeed] at htake
  simp only [slowNeed, slowReshed, htake]

/-- Every RESTORING consumer of the island is SHED after a slow step. -/
theorem shedAs_slowStep {c : ConsId} (hc : Target.cons c ∈ restoringOf p i) : ShedAs .shed c (slowStep i p) := by
  have hfirst : ShedAs .shed c (slowReshed i p) := shedAs_reshedAll _ hc
  rcases slowStep_cases (i := i) (p := p) with ⟨t, ht, hstep⟩ | hstep
  · have hne : t ≠ .cons c := fun h => not_candidate_of_restoring hc (h ▸ ht)
    rw [hstep]
    exact hfirst.left ((leavesConsumer_takeCandidate hne _ _ _).trans (leavesConsumer_stepMet ..))
  · rw [hstep]
    exact hfirst.left (leavesConsumer_stepUnmet ..)

/-- A slow step spares the other islands. -/
theorem spares_slowStep {j : SecId} (hij : j ≠ i) : Spares j p (slowStep i p) := by
  have hfirst : Spares j p (slowReshed i p) := spares_reshedAll hij p fun t => targetIsland_of_mem_restoringOf
  rcases slowStep_cases (i := i) (p := p) with ⟨t, ht, hstep⟩ | hstep
  · rw [hstep]
    have hin : targetIsland (slowReshed i p) t = some i := by
      rw [hfirst.targetIsland]
      exact targetIsland_of_mem_candidatesOf ht
    exact hfirst.trans ((spares_takeCandidate hij _ _ _ hin).trans (spares_stepMet hij _))
  · rw [hstep]
    exact hfirst.trans (spares_stepUnmet hij _ _ _)

end

end Sys2Proof.Machine
end

section
/-! PROOFS. The timers of an OVERLOADED island through a slow step (R50, R51, R109, R123). -/

namespace Sys2Proof.Machine

/-! ## The overload timer, started again or stopped (R50, R109) -/

/-- The overload timer of an island is stopped, or runs from this moment. -/
def Restarts (i : SecId) (p : Part) : Prop :=
  p.islands[i].overload = none ∨ p.islands[i].overload = some (after p.ms p.header.overloadDelay)

theorem Restarts.congr {i : SecId} {p q : Part} (h : Restarts i p) (ho : q.islands[i].overload = p.islands[i].overload)
    (hms : q.ms = p.ms) (hplans : q.plans = p.plans) : Restarts i q := by
  unfold Restarts Part.header
  rw [ho, hms, hplans]
  exact h

/-- In RUNNING the timer runs from this moment where the island is OVERLOADED, and is stopped elsewhere. -/
theorem Restarts.syncTimers_overload {i : SecId} {p : Part} (h : Restarts i p) (hr : isRunning p = true) :
    (syncTimers i p).islands[i].overload
      = if (syncTimers i p).islands[i].condition = .overloaded then some (after p.ms p.header.overloadDelay) else none := by
  rw [syncTimers_record i hr]
  dsimp only
  unfold nextOverload
  rcases h with h | h <;> rw [h]

theorem Restarts.syncTimers {i : SecId} {p : Part} (h : Restarts i p) : Restarts i (syncTimers i p) := by
  cases hr : isRunning p
  · exact .inl (by rw [syncTimers_record_idle i hr])
  · have hsame : (Machine.syncTimers i p).ms = p.ms ∧ (Machine.syncTimers i p).header = p.header := by
      simp [Part.header]
    obtain ⟨hms, hheader⟩ := hsame
    rw [Restarts, h.syncTimers_overload hr, hms, hheader]
    split
    · exact .inr rfl
    · exact .inl rfl

theorem Restarts.updateInner {i : SecId} {p : Part} (h : Restarts i p) : Restarts i (updateInner i p) := by
  have hretotal : Restarts i (retotal i p) := by
    refine Restarts.syncTimers (p := setIsland i _ p) (h.congr ?_ rfl rfl)
    rw [setIsland_islands, setAt_same]
  exact hretotal.congr (updateInner_standing i p).overload (by simp) (by simp)

section
variable {i : SecId} {p : Part}

theorem restarts_reshed {c : ConsId} (hc : consIsland p c = some i) (h : Restarts i p) : Restarts i (reshed c p) :=
  (Restarts.syncTimers (p := appendEntry _ p) h).congr (by rw [reshed_islands hc]) (by simp) (by simp)

theorem restarts_reshedAll (ts : List Target) (hts : ∀ t ∈ ts, ∃ c, t = .cons c ∧ consIsland p c = some i)
    (h : Restarts i p) : Restarts i (reshedAll ts p) := by
  induction ts generalizing p with
  | nil => exact h
  | cons t ts ih =>
    obtain ⟨c, rfl, hc⟩ := hts t List.mem_cons_self
    refine ih (p := reshed c p) (fun u hu => ?_) (restarts_reshed hc h)
    obtain ⟨x, rfl, hx⟩ := hts u (List.mem_cons_of_mem _ hu)
    exact ⟨x, rfl, ((appends_reshed hc).targetIsland (.cons x)).trans hx⟩

theorem restarts_takeCandidate (cause : ShedCause) {t : Target} (need : Int) (ht : targetIsland p t = some i)
    (h : Restarts i p) : Restarts i (takeCandidate cause t need p).2 := by
  cases t with
  | cons c =>
    have hc : consIsland p c = some i := ht
    exact (Restarts.updateInner (p := appendEntry _ p) h).congr (by rw [takeCandidate, shedConsumer_islands _ _ hc])
      (by simp [takeCandidate]) (by simp [takeCandidate])
  | drive d =>
    simp only [takeCandidate]
    split
    · exact h
    · have hd : driveIsland p d = some i := ht
      exact (Restarts.syncTimers (p := appendEntry _ p) h).congr (by rw [shedDrive_islands _ _ _ hd]) (by simp) (by simp)

theorem restarts_slowStep (h : Restarts i p) : Restarts i (slowStep i p) := by
  have hfirst : Restarts i (slowReshed i p) := restarts_reshedAll _ (fun t => cons_of_mem_restoringOf) h
  obtain ⟨himg, hplans, -⟩ := slowReshed_view (i := i) (p := p)
  rcases slowStep_cases (i := i) (p := p) with ⟨t, ht, hstep⟩ | hstep
  · have hin : targetIsland (slowReshed i p) t = some i := by
      rw [(islandsOf_congr himg hplans).2.2.2]
      exact targetIsland_of_mem_candidatesOf ht
    rw [hstep]
    exact (restarts_takeCandidate .overload _ hin hfirst).congr (by rw [stepMet_record]) (by simp) (by simp)
  · rw [hstep]
    exact hfirst.congr (by rw [stepUnmet_record]) (by simp) (by simp)

end

/-! ## An OVERLOADED island, its timers as they were or following (R50, R51, R123) -/

/-- A record that holds the timers of another. -/
def SameTimers (old r : Island) : Prop :=
  r.overload = old.overload ∧ r.startDelay = old.startDelay ∧ r.releaseHold = old.releaseHold

/-- An island that stands by its members, OVERLOADED in RUNNING: its timers are those of `old`, or follow from them. -/
structure Overloading (old : Island) (i : SecId) (p : Part) : Prop where
  running : isRunning p = true
  stands : islandStands p i
  condition : p.islands[i].condition = .overloaded
  timed : Timed old p i ∨ SameTimers old p.islands[i]

section
variable {old : Island} {i : SecId} {p : Part}

/-- The timers, judged after a change that leaves them and releases nothing, follow from those of `old`. -/
theorem Overloading.timed_syncTimers {q : Part} (h : Overloading old i p) (hp : q.plans = p.plans) (hms : q.ms = p.ms)
    (ho : q.islands[i].overload = p.islands[i].overload) (hd : q.islands[i].startDelay = p.islands[i].startDelay)
    (hk : q.islands[i].releaseHold = p.islands[i].releaseHold) (hheld : q.islands[i].held = p.islands[i].held)
    (hrelease : releaseFor q i = none) : Timed old (syncTimers i q) i := by
  have hr : isRunning q = true := by rw [isRunning, hp]; exact h.running
  rcases h.timed with htimed | hraw
  · exact htimed.onward hr hp hms ho hd hk hheld (fun _ => h.condition) (fun _ => .inr h.condition)
      fun tg htg => by simp [hrelease] at htg
  · obtain ⟨ho', hd', hk'⟩ := hraw
    exact (Machine.timed_syncTimers i hr).of_timers (ho'.symm.trans ho.symm) (hd'.symm.trans hd.symm)
      (hk'.symm.trans hk.symm)

/-- A change that leaves what the island rests on, and the standing that its record holds. -/
theorem Overloading.congr {q : Part} (h : Overloading old i p) (himg : q.img = p.img) (hplans : q.plans = p.plans)
    (hms : q.ms = p.ms) (hgens : q.gens = p.gens) (hlist : q.shedList = p.shedList)
    (hr : SameStanding p.islands[i] q.islands[i]) : Overloading old i q where
  running := by rw [isRunning, hplans]; exact h.running
  stands := islandStands_congr h.stands himg hplans hgens hlist hr
  condition := hr.condition.trans h.condition
  timed := by
    refine h.timed.imp (fun ht => ht.congr hr hplans hms (entriesOf_congr himg hplans hlist i))
      fun ⟨ho, hd, hk⟩ => ⟨hr.overload.trans ho, hr.startDelay.trans hd, hr.releaseHold.trans hk⟩

/-- A HELD entry appended, and the release condition judged again. -/
theorem Overloading.appendHeld {e : ShedEntry} (h : Overloading old i p) (ht : targetIsland p e.target = some i)
    (hheld : e.state = .held) : Overloading old i (syncTimers i (appendEntry e p)) := by
  obtain ⟨htotals, hcondition, hmark, -⟩ := syncTimers_marks i (appendEntry e p)
  have hstands : islandStands (appendEntry e p) i := by
    obtain ⟨⟨hbefore, hc⟩, hh⟩ := h.stands
    obtain ⟨-, -, -, -, hsame⟩ := totalsOf_appendEntry ht
    refine ⟨⟨?_, ?_⟩, hh⟩
    · rw [hsame hheld]
      exact hbefore
    · rw [hsame hheld]
      exact hc
  have hover : (appendEntry e p).islands[i].condition = .overloaded := h.condition
  exact ⟨by rw [← h.running]; simp [isRunning], (islandStands_syncTimers i i _).mpr hstands, hcondition.trans hover,
    .inl (h.timed_syncTimers (q := appendEntry e p) rfl rfl rfl rfl rfl rfl
      (releaseFor_eq_none (by rw [hover]; decide)))⟩

/-- An OPENING entry appended, and the island's update: its timers follow. -/
theorem Overloading.appendOpening {e : ShedEntry} (h : Overloading old i p) (ht : targetIsland p e.target = some i)
    (hopening : isOpening e = true) : Standing old i (updateInner i (appendEntry e p)) := by
  have hnone : ∀ r, releaseFor (setIsland i r (appendEntry e p)) i = none := fun r => by
    refine Option.eq_none_iff_forall_ne_some.mpr fun tg htg => ?_
    obtain ⟨-, -, -, hall, -⟩ := (releaseFor_eq_some_iff ..).mp htg
    have hheld := hall e (by rw [entriesOf_setIsland, entriesOf_appendEntry ht]; simp)
    rw [isOpening, hheld] at hopening
    exact Bool.false_ne_true hopening
  have htimed : Timed old (retotal i (appendEntry e p)) i := by
    have hheld : p.islands[i].held = heldOf (appendEntry e p) i := h.stands.2
    refine h.timed_syncTimers (q := setIsland i _ (appendEntry e p)) rfl rfl ?_ ?_ ?_ ?_ (hnone _)
    all_goals rw [setIsland_islands, setAt_same]
    · rfl
    · rfl
    · rfl
    · exact hheld.symm
  have hstanding : Standing old i (retotal i (appendEntry e p)) :=
    ⟨by rw [← h.running]; simp [isRunning], islandStands_retotal i _, htimed⟩
  exact hstanding.congr (by simp) (by simp) (by simp) (by simp) (by simp) (updateInner_standing i _)

/-! ## The step (R109) -/

theorem Overloading.reshed {c : ConsId} (h : Overloading old i p) (hc : consIsland p c = some i) :
    Overloading old i (reshed c p) := by
  refine (h.appendHeld (e := ⟨.cons c, .restoreCancel, 0, p.ms, .held⟩) hc rfl).congr (by simp) (by simp) (by simp)
    (by simp) ?_ ?_
  · rw [(reshed_tables c p).1]
    simp
  · rw [reshed_islands hc]
    exact .refl _

theorem Overloading.reshedAll (ts : List Target) (hts : ∀ t ∈ ts, ∃ c, t = .cons c ∧ consIsland p c = some i)
    (h : Overloading old i p) : Overloading old i (reshedAll ts p) := by
  induction ts generalizing p with
  | nil => exact h
  | cons t ts ih =>
    obtain ⟨c, rfl, hc⟩ := hts t List.mem_cons_self
    refine ih (p := Machine.reshed c p) (fun u hu => ?_) (h.reshed hc)
    obtain ⟨x, rfl, hx⟩ := hts u (List.mem_cons_of_mem _ hu)
    exact ⟨x, rfl, ((appends_reshed hc).targetIsland (.cons x)).trans hx⟩

theorem Overloading.shedDrive {d : DriveId} (h : Overloading old i p) (cause : ShedCause) (credit cut : Nat)
    (hd : driveIsland p d = some i) : Overloading old i (shedDrive d cause credit cut p) := by
  refine (h.appendHeld (e := ⟨.drive d, cause, credit, p.ms, .held⟩) hd rfl).congr (by simp) (by simp) (by simp)
    (by simp) ?_ ?_
  · rw [(shedDrive_tables d cause credit cut p).1]
    simp
  · rw [shedDrive_islands cause credit cut hd]
    exact .refl _

theorem Overloading.shedConsumer {c : ConsId} (h : Overloading old i p) (cause : ShedCause) (credit : Nat)
    (hc : consIsland p c = some i) : Standing old i (shedConsumer c cause credit p) := by
  refine (h.appendOpening (e := ⟨.cons c, cause, credit, p.ms, .opening (after p.ms (consTimeout p c))⟩) hc rfl).congr
    (by simp) (by simp) (by simp) (by simp) ?_ ?_
  · rw [(shedConsumer_tables c cause credit p).1]
    simp
  · rw [shedConsumer_islands cause credit hc]
    exact .refl _

/-- The end of a step leaves the standing. -/
theorem Overloading.stepEnd (h : Overloading old i p) (cause : ShedCause) (need : Nat) :
    Overloading old i (stepMet i p) ∧ Overloading old i (stepUnmet i cause need p) := by
  refine ⟨h.congr (by simp) (by simp) (by simp) (by simp) (by simp) ?_,
    h.congr (by simp) (by simp) (by simp) (by simp) (by simp) ?_⟩
  · rw [stepMet_record]
    exact ⟨rfl, rfl, rfl, rfl, rfl, rfl⟩
  · rw [stepUnmet_record]
    exact ⟨rfl, rfl, rfl, rfl, rfl, rfl⟩

/-- The timers judged at the end of a step follow from those that ran before it. -/
theorem Overloading.timersFollow_syncTimers (h : Overloading old i p) : timersFollow old (syncTimers i p) i :=
  (h.timed_syncTimers (q := p) rfl rfl rfl rfl rfl rfl (releaseFor_eq_none (by rw [h.condition]; decide))).timersFollow
    (by rw [← h.running]; simp [isRunning])

theorem Standing.timersFollow_syncTimers (h : Standing old i p) : timersFollow old (syncTimers i p) i :=
  (h.timed.onward (q := p) h.running rfl rfl rfl rfl rfl rfl id id fun _ => .inl).timersFollow
    (by rw [← h.running]; simp [isRunning])

/-- After a slow step the timers of the island follow from those that ran before it. -/
theorem Overloading.timersFollow_slowStep (h : Overloading old i p) :
    timersFollow old (syncTimers i (slowStep i p)) i := by
  have hfirst : Overloading old i (slowReshed i p) := h.reshedAll _ fun t => cons_of_mem_restoringOf
  obtain ⟨himg, hplans, -⟩ := slowReshed_view (i := i) (p := p)
  rcases slowStep_cases (i := i) (p := p) with ⟨t, ht, hstep⟩ | hstep
  · have hin : targetIsland (slowReshed i p) t = some i := by
      rw [(islandsOf_congr himg hplans).2.2.2]
      exact targetIsland_of_mem_candidatesOf ht
    rw [hstep]
    cases t with
    | cons c =>
      exact ((hfirst.shedConsumer .overload _ hin).stepEnd .overload 0).1.timersFollow_syncTimers
    | drive d =>
      refine Overloading.timersFollow_syncTimers (Overloading.stepEnd ?_ .overload 0).1
      simp only [takeCandidate]
      split
      · exact hfirst
      · exact hfirst.shedDrive _ _ _ hin
  · rw [hstep]
    exact (hfirst.stepEnd .overload _).2.timersFollow_syncTimers

end

end Sys2Proof.Machine
end

section
/-! PROOFS. The expiry of the overload timer: O47 (R50, R51, R101 to R105, R109, R119, R123). -/

namespace Sys2Proof.Machine

/-! ## What a shed and an unmet step report (R102, R103, R119) -/

section
variable {i : SecId} {p : Part}

/-- A consumer's shed before its command (R102). -/
def orderedOpen (c : ConsId) (cause : ShedCause) (credit : Nat) (p : Part) : Part :=
  p |> appendEntry ⟨.cons c, cause, credit, p.ms, .opening (after p.ms (consTimeout p c))⟩
    |> updateInnerOf (consIsland p c)
    |> setConsState c .shedding
    |> setCmd c reqOpen true false

theorem says_shedConsumer {c : ConsId} (cause : ShedCause) (credit : Nat) (hc : consIsland p c = some i) :
    Says [consCommand c i .openConsumer (shedCauseCode cause) (kw credit) (after p.ms (consTimeout p c)),
      targetNotice (.cons c) i .shed (shedCauseCode cause) 0 (kw credit) (after p.ms (consTimeout p c))] p
      (shedConsumer c cause credit p) := by
  have hordered : consIsland (orderedOpen c cause credit p) c = some i := by
    rw [← hc]
    simp [orderedOpen, consIsland]
  have hsays := says_giveCons_noticeTarget hordered .openConsumer (shedCauseCode cause) (kw credit)
    (after p.ms (consTimeout p c)) .shed (shedCauseCode cause) 0 (kw credit) (after p.ms (consTimeout p c))
  exact (hsays.after (by simp [orderedOpen]) (by simp [orderedOpen])).quiet (by simp [shedConsumer, orderedOpen])
    (by simp [shedConsumer, orderedOpen])

/-- A drive's record after its cut, before its words. -/
def cutDrive (d : DriveId) (cause : ShedCause) (credit cut : Nat) (p : Part) : Part :=
  p |> appendEntry ⟨.drive d, cause, credit, p.ms, .held⟩
    |> judgeReleaseOf (driveIsland p d)
    |> setDrive d ⟨true, cut⟩

theorem cutDrive_limits (d : DriveId) (cause : ShedCause) (credit cut : Nat) (p : Part) :
    controllerLimit (cutDrive d cause credit cut p) d = controllerLimit p d ∧
      effectiveLimit (cutDrive d cause credit cut p) d = min (controllerLimit p d) cut ∧
      (cutDrive d cause credit cut p).drives[d].cut = true := by
  have hdrive : (cutDrive d cause credit cut p).drives[d] = ⟨true, cut⟩ := by simp [cutDrive]
  have hcontroller : controllerLimit (cutDrive d cause credit cut p) d = controllerLimit p d := by
    simp [controllerLimit, cutDrive]
  exact ⟨hcontroller, by rw [effectiveLimit, hdrive, hcontroller, if_pos rfl], by rw [hdrive]⟩

theorem shedDrive_eq (d : DriveId) (cause : ShedCause) (credit cut : Nat) (p : Part) :
    shedDrive d cause credit cut p = noticeDriveShed d cause credit (writeDriveLimit d (cutDrive d cause credit cut p)) :=
  rfl

theorem says_shedDrive {d : DriveId} (cause : ShedCause) (credit cut : Nat) (hd : driveIsland p d = some i) :
    Says [.command { target := .drive d, kind := .driveLimit, cause := 1#8, island := i,
                     a := kw (min (controllerLimit p d) cut), b := kw (controllerLimit p d) },
      targetNotice (.drive d) i .shed (shedCauseCode cause) 0 (kw credit) (kw (min (controllerLimit p d) cut))] p
      (shedDrive d cause credit cut p) := by
  obtain ⟨hcontroller, heffective, hcut⟩ := cutDrive_limits d cause credit cut p
  have hd' : driveIsland (cutDrive d cause credit cut p) d = some i := by
    rw [← hd]
    simp [driveIsland, cutDrive]
  have hcommand : Says [driveCommand (cutDrive d cause credit cut p) d i] p
      (writeDriveLimit d (cutDrive d cause credit cut p)) := by
    rw [writeDriveLimit_eq hd']
    exact (Says.one _ _).after (by simp [cutDrive, enqueue]) (by simp [cutDrive, enqueue])
  have hnotice := says_noticeTarget (p := writeDriveLimit d (cutDrive d cause credit cut p)) (.drive d) .shed
    (shedCauseCode cause) 0 (kw credit) (kw (effectiveLimit (writeDriveLimit d (cutDrive d cause credit cut p)) d))
  have hisland : targetIsland (writeDriveLimit d (cutDrive d cause credit cut p)) (.drive d) = some i := by
    rw [← hd']
    simp [targetIsland, driveIsland]
  have hlimit : effectiveLimit (writeDriveLimit d (cutDrive d cause credit cut p)) d = min (controllerLimit p d) cut := by
    rw [← heffective]
    simp [effectiveLimit, controllerLimit]
  rw [hisland, hlimit] at hnotice
  rw [driveCommand, hcontroller, heffective, hcut] at hcommand
  rw [shedDrive_eq, noticeDriveShed, hlimit]
  exact (hcommand.trans hnotice).quiet (by simp) (by simp)

/-- A shed shows attention SHED (R102, R103). -/
theorem shedConsumer_att (c : ConsId) (cause : ShedCause) (credit : Nat) (p : Part) :
    (shedConsumer c cause credit p).att.word.getLsbD 4 = true := setAtt_bit .shed _

theorem shedDrive_att (d : DriveId) (cause : ShedCause) (credit cut : Nat) (p : Part) :
    (shedDrive d cause credit cut p).att.word.getLsbD 4 = true := setAtt_bit .shed _

theorem shedDrive_sq (d : DriveId) (cause : ShedCause) (credit cut : Nat) (p : Part) :
    (shedDrive d cause credit cut p).sq
      = sqPut (.driveLimit d) (pack [(min (controllerLimit p d) cut, 0, 16), (1, 16, 1)]) p.sq := by
  obtain ⟨-, heffective, hcut⟩ := cutDrive_limits d cause credit cut p
  have hsq : (shedDrive d cause credit cut p).sq
      = sqPut (.driveLimit d) (limitWord (cutDrive d cause credit cut p) d) (cutDrive d cause credit cut p).sq := by
    simp [shedDrive_eq, noticeDriveShed, writeDriveLimit, enqueue]
  rw [hsq, limitWord, heffective, hcut]
  simp [cutDrive, flag]

/-- An unmet step with EXHAUSTED clear notices it, and shows attention EXHAUSTED (R119). -/
theorem stepUnmet_clear (cause : ShedCause) (need : Nat) (h : p.islands[i].exhausted = false) :
    (stepUnmet i cause need p).att.word.getLsbD 1 = true ∧
      Says [.notice (notice .exhausted i.val (shedCauseCode cause) i 0 ((heldNeed p need).setWidth 32) 0#32)] p
        (stepUnmet i cause need p) := by
  have hsays : ∀ q : Part, q.ms = p.ms → q.lu = p.lu → ∀ n, Says [.notice n] p (setAtt .exhausted (queueNotice n q)) :=
    fun q hms hlu n => ((Says.one (.notice n) q).after hms hlu).quiet (by simp [Report.make]) (by simp [Report.make])
  rw [stepUnmet, if_neg (by rw [h]; decide)]
  exact ⟨setAtt_bit .exhausted _, hsays _ (by simp) (by simp) _⟩

theorem heldNeed_small {need : Nat} (h : need ≤ 1048575) :
    heldNeed p need = BitVec.ofNat 20 need ∧ (heldNeed p need).setWidth 32 = kw need := by
  have hheld : heldNeed p need = BitVec.ofNat 20 need := if_pos h
  refine ⟨hheld, ?_⟩
  rw [hheld, kw]
  apply BitVec.eq_of_toNat_eq
  simp
  omega

end

/-! ## The expiry (R109) -/

/-- The part with an island's overload timer started again. -/
def restarted (i : SecId) (p : Part) : Part :=
  setIsland i { p.islands[i] with overload := some (after p.ms p.header.overloadDelay) } p

section
variable {i : SecId} {p : Part}

theorem restarted_record : (restarted i p).islands[i]
    = { p.islands[i] with overload := some (after p.ms p.header.overloadDelay) } := by
  rw [restarted, setIsland_islands, setAt_same]

theorem overloadExpiry_waits (h : p.islands[i].overload = none ∨
    ∃ e, p.islands[i].overload = some e ∧ due e p.ms = false) : overloadExpiry i p = p := by
  have hwait : timerDue p.islands[i].overload p.ms = false := by
    rcases h with h | ⟨e, h, hdue⟩
    · rw [h]
      rfl
    · rw [h]
      exact hdue
  exact if_neg (by rw [hwait]; exact Bool.false_ne_true)

section
variable {e : Word} (he : p.islands[i].overload = some e) (hdue : due e p.ms = true)
include he hdue

theorem overloadExpiry_held (hheld : p.islands[i].held = true) : overloadExpiry i p = syncTimers i (restarted i p) := by
  rw [overloadExpiry, if_pos (by rw [he]; exact hdue), hheld, Bool.not_true, Bool.and_false]
  rfl

theorem overloadExpiry_slow (hrun : isRunning p = true) (hheld : p.islands[i].held = false) :
    overloadExpiry i p = syncTimers i (slowStep i (restarted i p)) := by
  rw [overloadExpiry, if_pos (by rw [he]; exact hdue), hheld, hrun]
  rfl

end

/-- The excess of the expected load over the limit is the need of a slow step. -/
theorem slowNeed_restarted (h : p.islands[i].totals.limit < p.islands[i].totals.load - p.islands[i].totals.openingCredit) :
    slowNeed i (restarted i p) = ((p.islands[i].totals.load - p.islands[i].totals.openingCredit
      - p.islands[i].totals.limit : Nat) : Int) := by
  have htotals : (restarted i p).islands[i].totals = p.islands[i].totals := by rw [restarted_record]
  rw [slowNeed, htotals, expectedLoad]
  omega

/-- A drive's cut with a need that is a number (R101). -/
theorem cutLimitFor_nat (d : DriveId) (need : Nat) :
    cutLimitFor p d (need : Int) = max (driveFloor p d) (drivePower p d - need) := by
  rw [cutLimitFor]
  omega

end

/-! ## The step that the expiry brings, by the candidate that it takes -/

section
variable {i : SecId} {p : Part}

/-- What a slow step with no candidate leaves (R109, R119). -/
theorem slowStep_none_tables {need : Nat} (hneed : slowNeed i p = need)
    (h : ∀ t ∈ candidatesOf p i, GivesNone p (slowNeed i p) t) :
    (slowStep i p).shedList = p.shedList ++ (restoringOf p i).map (reshedEntry p.ms) ∧
      (slowStep i p).islands[i].exhausted = true ∧
      (need ≤ 1048575 → (slowStep i p).islands[i].need = BitVec.ofNat 20 need) ∧
      (p.islands[i].exhausted = false → (slowStep i p).att.word.getLsbD 1 = true) ∧
      (restoringOf p i = [] → p.islands[i].exhausted = false → need ≤ 1048575 →
        Says [.notice (notice .exhausted i.val 1 i 0 (kw need) 0#32)] p (slowStep i p)) := by
  obtain ⟨-, -, -, -, hlist⟩ := slowReshed_view (i := i) (p := p)
  obtain ⟨hexhausted, -⟩ := reshedAll_marks (i := i) (p := p) (restoringOf p i) fun t => cons_of_mem_restoringOf
  rw [slowStep_none h, hneed, Int.toNat_natCast]
  refine ⟨by simpa using hlist, by rw [stepUnmet_record], fun hsmall => ?_, fun hclear => ?_, fun hnone hclear hsmall => ?_⟩
  · rw [stepUnmet_record]
    exact (heldNeed_small hsmall).1
  · exact (stepUnmet_clear .overload need (hexhausted.trans hclear)).1
  · have hsame : slowReshed i p = p := by
      rw [slowReshed, hnone]
      rfl
    obtain ⟨-, hsays⟩ := stepUnmet_clear .overload need hclear
    rw [(heldNeed_small hsmall).2] at hsays
    rw [hsame]
    exact hsays

/-- What a slow step that takes a consumer leaves (R102, R109). -/
theorem slowStep_cons_tables {c : ConsId} {pre rest : List Target} (hsplit : candidatesOf p i = pre ++ .cons c :: rest)
    (h : ∀ t ∈ pre, GivesNone p (slowNeed i p) t) :
    (slowStep i p).shedList = p.shedList ++ (restoringOf p i).map (reshedEntry p.ms) ++
        [⟨.cons c, .overload, creditBasis p c, p.ms, .opening (after p.ms (consTimeout p c))⟩] ∧
      ShedAs .shedding c (slowStep i p) ∧ (slowStep i p).drives = p.drives ∧
      (slowStep i p).att.word.getLsbD 4 = true ∧
      (slowStep i p).islands[i].exhausted = false ∧ (slowStep i p).islands[i].need = 0#20 ∧
      (restoringOf p i = [] → (slowStep i p).cons = setAt p.cons c ⟨.shedding, none⟩ ∧
        (slowStep i p).sq = sqPut (.consCmd c) (slowStep i p).cmd[c] p.sq ∧
        Says [consCommand c i .openConsumer 1 (kw (creditBasis p c)) (after p.ms (consTimeout p c)),
          targetNotice (.cons c) i .shed 1 0 (kw (creditBasis p c)) (after p.ms (consTimeout p c))] p (slowStep i p)) := by
  obtain ⟨-, hplans, hms, hdrives, hlist⟩ := slowReshed_view (i := i) (p := p)
  have htimeout : consTimeout (slowReshed i p) c = consTimeout p c := by rw [consTimeout, hplans, consTimeout]
  have hin : consIsland p c = some i :=
    targetIsland_of_mem_candidatesOf (t := .cons c) (by rw [hsplit]; simp)
  have hatt : ∀ q, (stepMet i q).att = q.att := fun q => by simp
  rw [slowStep_cons hsplit h]
  refine ⟨?_, ?_, ?_, ?_, by rw [stepMet_record], by rw [stepMet_record], fun hnone => ?_⟩
  · have hshed := (shedConsumer_tables c .overload (creditBasis p c) (slowReshed i p)).1
    rw [hlist, hms, htimeout] at hshed
    simpa using hshed
  · exact (shedAs_shedConsumer c .overload _ _).left (leavesConsumer_stepMet ..)
  · simpa [shedConsumer] using hdrives
  · rw [hatt]
    exact shedConsumer_att ..
  · have hsame : slowReshed i p = p := by
      rw [slowReshed, hnone]
      rfl
    rw [hsame]
    refine ⟨?_, ?_, (says_shedConsumer .overload (creditBasis p c) hin).quiet (by simp) (by simp)⟩
    · simpa using (shedConsumer_tables c .overload (creditBasis p c) p).2
    · simp [shedConsumer, setCmd_sq]

/-- What a slow step that takes a drive leaves (R103, R109). -/
theorem slowStep_drive_tables {d : DriveId} {pre rest : List Target} {cut credit : Nat}
    (hcut : cutLimitFor p d (slowNeed i p) = cut) (hcredit : drivePower p d - cut = credit) (hgives : credit ≠ 0)
    (hsplit : candidatesOf p i = pre ++ .drive d :: rest) (h : ∀ t ∈ pre, GivesNone p (slowNeed i p) t) :
    (slowStep i p).shedList = p.shedList ++ (restoringOf p i).map (reshedEntry p.ms) ++
        [⟨.drive d, .overload, credit, p.ms, .held⟩] ∧
      (slowStep i p).drives = setAt p.drives d ⟨true, cut⟩ ∧
      (slowStep i p).att.word.getLsbD 4 = true ∧
      (slowStep i p).islands[i].exhausted = false ∧ (slowStep i p).islands[i].need = 0#20 ∧
      (restoringOf p i = [] → (slowStep i p).cons = p.cons ∧
        (slowStep i p).sq
          = sqPut (.driveLimit d) (pack [(min (controllerLimit p d) cut, 0, 16), (1, 16, 1)]) p.sq ∧
        Says [.command { target := .drive d, kind := .driveLimit, cause := 1#8, island := i,
                         a := kw (min (controllerLimit p d) cut), b := kw (controllerLimit p d) },
          targetNotice (.drive d) i .shed 1 0 (kw credit) (kw (min (controllerLimit p d) cut))] p (slowStep i p)) := by
  obtain ⟨-, -, hms, hdrives, hlist⟩ := slowReshed_view (i := i) (p := p)
  have hin : driveIsland p d = some i :=
    targetIsland_of_mem_candidatesOf (t := .drive d) (by rw [hsplit]; simp)
  have hatt : ∀ q, (stepMet i q).att = q.att := fun q => by simp
  rw [slowStep_drive hsplit (by rw [hcut, hcredit]; exact hgives) h, hcut, hcredit]
  obtain ⟨hshed, hdrive⟩ := shedDrive_tables d .overload credit cut (slowReshed i p)
  refine ⟨?_, ?_, ?_, by rw [stepMet_record], by rw [stepMet_record], fun hnone => ?_⟩
  · rw [hlist, hms] at hshed
    simpa using hshed
  · rw [hdrives] at hdrive
    simpa using hdrive
  · rw [hatt]
    exact shedDrive_att ..
  · have hsame : slowReshed i p = p := by
      rw [slowReshed, hnone]
      rfl
    rw [hsame]
    refine ⟨by simp [shedDrive], ?_, (says_shedDrive .overload credit cut hin).quiet (by simp) (by simp)⟩
    rw [← shedDrive_sq d .overload credit]
    simp

end

/-! ## The obligation -/

section
variable {i : SecId} {p : Part}

/-- An OVERLOADED island that stands, its overload timer started again. -/
theorem overloading_restarted (hrun : isRunning p = true) (hover : p.islands[i].condition = .overloaded)
    (hstands : islandStands p i) : Overloading (restarted i p).islands[i] i (restarted i p) where
  running := hrun
  stands := by
    obtain ⟨⟨htotals, hcondition⟩, hheld⟩ := hstands
    refine ⟨⟨?_, ?_⟩, ?_⟩
    · rw [restarted_record]
      exact htotals
    · rw [restarted_record]
      exact hcondition
    · rw [restarted_record]
      exact hheld
  condition := by rw [restarted_record]; exact hover
  timed := .inr ⟨rfl, rfl, rfl⟩

/-- The overload timer after a slow step runs from this moment where the island is OVERLOADED still (R50, R109). -/
theorem overload_slowStep (hrun : isRunning p = true) :
    (syncTimers i (slowStep i (restarted i p))).islands[i].overload
      = if (syncTimers i (slowStep i (restarted i p))).islands[i].condition = .overloaded then
          some (after p.ms p.header.overloadDelay) else none := by
  have hstart : Restarts i (restarted i p) := .inr (by rw [restarted_record]; rfl)
  have hsame : isRunning (slowStep i (restarted i p)) = isRunning p ∧ (slowStep i (restarted i p)).ms = p.ms ∧
      (slowStep i (restarted i p)).header = p.header := by simp [isRunning, Part.header, restarted]
  obtain ⟨hrun', hms, hheader⟩ := hsame
  rw [(restarts_slowStep hstart).syncTimers_overload (hrun'.trans hrun), hms, hheader]

/-- The timers judged at the end of a slow step change the timers of the record alone. -/
theorem syncTimers_slowStep (i : SecId) (p : Part) :
    let q := slowStep i (restarted i p)
    let t := syncTimers i q
    t.shedList = q.shedList ∧ t.cons = q.cons ∧ t.cmd = q.cmd ∧ t.drives = q.drives ∧ t.sq = q.sq ∧ t.lu = q.lu ∧
      t.att = q.att ∧ t.islands[i].exhausted = q.islands[i].exhausted ∧ t.islands[i].need = q.islands[i].need ∧
      t.gens = p.gens ∧ t.img = p.img ∧ t.plans = p.plans := by
  intro q t
  obtain ⟨-, -, -, hexhausted, hneed, -⟩ := syncTimers_marks i q
  have hframe : t.gens = p.gens ∧ t.img = p.img ∧ t.plans = p.plans := by simp [t, q, restarted]
  exact ⟨by simp [t], by simp [t], by simp [t], by simp [t], by simp [t], by simp [t], by simp [t], hexhausted, hneed,
    hframe⟩

end

theorem exec_overloadTimerExpiry (i : SecId) (s : State) :
    exec (.overloadTimerExpiry i) s = .next { s with part := overloadExpiry i s.part } := rfl

/-- Settles O47, by the expiry that starts the timer again, and the slow step by the candidate that it takes. -/
theorem overloadExpires : Obligations.OverloadExpires := by
  intro s i
  refine ⟨fun hwait => by rw [exec_overloadTimerExpiry, overloadExpiry_waits hwait], fun e he hdue hrun hover => ?_⟩
  intro again
  refine ⟨fun hheld => ?_, fun hheld => ?_⟩
  · have hend := overloadExpiry_held he hdue hheld
    have hfollow := timersFollow_syncTimers i (restarted i s.part) hrun
    obtain ⟨-, -, -, hexhausted, hneed, -⟩ := syncTimers_marks i (restarted i s.part)
    have hrecord := restarted_record (i := i) (p := s.part)
    refine ⟨{ s with part := syncTimers i (restarted i s.part) }, by rw [exec_overloadTimerExpiry, hend], rfl, rfl, ?_, ?_,
      fun j hj => ?_, ?_, ?_, ?_⟩
    · dsimp only
      obtain ⟨o, d, k, hsync, -⟩ := syncTimers_eq i (restarted i s.part)
      rw [hsync]
      rfl
    · rw [hrecord] at hfollow
      exact hfollow
    · dsimp only
      rw [syncTimers_other _ (Ne.symm hj), restarted, setIsland_islands, setAt_other _ _ (Ne.symm hj)]
    · dsimp only
      rw [syncTimers_record (p := restarted i s.part) i hrun, hrecord]
      exact if_pos hover
    · rw [hexhausted, hrecord]
    · rw [hneed, hrecord]
  · intro first totals excess cut credit resheds skipped none_ hexcess
    have hend := overloadExpiry_slow he hdue hrun hheld
    have hneed : slowNeed i (restarted i s.part) = (excess : Int) := slowNeed_restarted hexcess
    have hcut : ∀ d, cutLimitFor (restarted i s.part) d (slowNeed i (restarted i s.part)) = cut d := fun d => by
      rw [hneed]
      exact cutLimitFor_nat d excess
    have hskips : ∀ tg, skipped tg → GivesNone (restarted i s.part) (slowNeed i (restarted i s.part)) tg := by
      rintro tg ⟨d, rfl, hd⟩
      exact ⟨d, rfl, by rw [hcut]; exact hd⟩
    have hrecord := restarted_record (i := i) (p := s.part)
    have hstays : (restarted i s.part).islands[i].exhausted = s.part.islands[i].exhausted := by rw [hrecord]
    have hquiet : ∀ {rs}, Says rs (restarted i s.part) (slowStep i (restarted i s.part)) →
        (slowStep i (restarted i s.part)).lu = (reported rs s.part).lu := fun h =>
      h.lu.trans (reported_lu_congr _ rfl rfl)
    obtain ⟨hlist, hcons, hcmd, hdrives, hsq, hlu, hatt, hexhausted, hheldneed, hgens, himg, hplans⟩ :=
      syncTimers_slowStep i s.part
    refine ⟨{ s with part := syncTimers i (slowStep i (restarted i s.part)) }, by rw [exec_overloadTimerExpiry, hend],
      rfl, rfl, hgens, himg, hplans, ?_, fun hstands => ?_, fun j hj => ?_, fun c hc => ?_, fun hnone => ?_,
      fun c pre rest hsplit hpre => ?_, fun d pre rest hsplit hgives hpre => ?_⟩
    · exact overload_slowStep hrun
    · have hfollow := (overloading_restarted hrun hover hstands).timersFollow_slowStep
      rw [hrecord] at hfollow
      exact hfollow
    · dsimp only
      rw [syncTimers_other _ (Ne.symm hj), (spares_slowStep hj).record, restarted, setIsland_islands,
        setAt_other _ _ (Ne.symm hj)]
    · have hshed : ShedAs .shed c (slowStep i (restarted i s.part)) := shedAs_slowStep hc
      dsimp only
      rw [hcons, hcmd]
      exact hshed
    · obtain ⟨hl, hx, hn, ha, hs⟩ := slowStep_none_tables hneed fun t ht => hskips t (hnone t ht)
      dsimp only
      rw [hlist, hexhausted, hheldneed, hatt, hlu]
      exact ⟨hl, hx, hn, fun hclear => ha (hstays.trans hclear), fun hfirst hclear hsmall =>
        hquiet (hs hfirst (hstays.trans hclear) hsmall)⟩
    · obtain ⟨hl, ⟨hc, hreq, hshed, hstuck⟩, hd, ha, hx, hn, hs⟩ :=
        slowStep_cons_tables (p := restarted i s.part) hsplit fun t ht => hskips t (hpre t ht)
      dsimp only
      rw [hlist, hcons, hcmd, hdrives, hatt, hexhausted, hheldneed, hsq, hlu]
      refine ⟨hl, hc, hd, hreq, hshed, hstuck, ha, hx, hn, fun hfirst => ?_⟩
      obtain ⟨hcons', hsq', hsays⟩ := hs hfirst
      exact ⟨hcons', hsq', hquiet hsays⟩
    · obtain ⟨hl, hd, ha, hx, hn, hs⟩ :=
        slowStep_drive_tables (p := restarted i s.part) (hcut d) rfl hgives hsplit fun t ht => hskips t (hpre t ht)
      dsimp only
      rw [hlist, hcons, hdrives, hatt, hexhausted, hheldneed, hsq, hlu]
      refine ⟨hl, hd, ha, hx, hn, fun hfirst => ?_⟩
      obtain ⟨hcons', hsq', hsays⟩ := hs hfirst
      exact ⟨hcons', hsq', hquiet hsays⟩

end Sys2Proof.Machine
end

section
/-! PROOFS. What the balance of the islands rests on: the changes that leave an island and its members as they were, the
changes that touch one island alone, and those that keep the balance (R41 to R49, R103, R122, R123). -/

namespace Sys2Proof.Machine

/-! ## The invariant, part by part -/

/-- Every drive's entry is HELD (R103). -/
def DrivesHeld (p : Part) : Prop := ∀ e ∈ p.shedList, ∀ d, e.target = .drive d → e.state = .held

/-- The island of an id, where it is one, holds what its members give. -/
def StandsById (p : Part) (i : SecId) : Prop := isIslandId p.img.ties i = true → islandStands p i

theorem balanced_iff (p : Part) :
    p.balanced ↔ (∀ i, releaseTimed p i) ∧ DrivesHeld p ∧ ∀ i, StandsById p i := Iff.rfl

theorem DrivesHeld.congr {p q : Part} (h : q.shedList = p.shedList) (hp : DrivesHeld p) : DrivesHeld q := by
  unfold DrivesHeld
  rwa [h]

/-- A change that keeps the balance of the islands. What an island holds rests on its entries, of which the drives' are
HELD, and on its release-hold timer. -/
structure KeepsBalance (p q : Part) : Prop where
  drives : DrivesHeld p → DrivesHeld q
  timed : ∀ i, releaseTimed p i → releaseTimed q i
  stands : ∀ i, DrivesHeld p → releaseTimed p i → StandsById p i → StandsById q i

theorem KeepsBalance.refl (p : Part) : KeepsBalance p p := ⟨id, fun _ => id, fun _ _ _ => id⟩

theorem KeepsBalance.trans {p q r : Part} (h : KeepsBalance p q) (k : KeepsBalance q r) : KeepsBalance p r :=
  ⟨fun hd => k.drives (h.drives hd), fun i ht => k.timed i (h.timed i ht),
    fun i hd ht hs => k.stands i (h.drives hd) (h.timed i ht) (h.stands i hd ht hs)⟩

theorem KeepsBalance.fold {α : Type} {f : Part → α → Part} (h : ∀ q a, KeepsBalance q (f q a)) (l : List α) (p : Part) :
    KeepsBalance p (l.foldl f p) :=
  foldl_keeps (KeepsBalance p) f l p (.refl p) fun q a _ hq => hq.trans (h q a)

theorem KeepsBalance.balanced {p q : Part} (h : KeepsBalance p q) (hp : p.balanced) : q.balanced := by
  obtain ⟨ht, hd, hs⟩ := (balanced_iff p).mp hp
  exact (balanced_iff q).mpr ⟨fun i => h.timed i (ht i), h.drives hd, fun i => h.stands i hd (ht i) (hs i)⟩

/-! ## An island left as it was -/

/-- Whether two records hold the same totals, condition, HELD mark and release-hold timer. -/
structure SameBalance (r t : Island) : Prop where
  totals : t.totals = r.totals
  condition : t.condition = r.condition
  held : t.held = r.held
  releaseHold : t.releaseHold = r.releaseHold

theorem SameBalance.refl (r : Island) : SameBalance r r := ⟨rfl, rfl, rfl, rfl⟩

theorem SameBalance.trans {r t u : Island} (h : SameBalance r t) (k : SameBalance t u) : SameBalance r u :=
  ⟨k.totals.trans h.totals, k.condition.trans h.condition, k.held.trans h.held, k.releaseHold.trans h.releaseHold⟩

theorem SameStanding.sameBalance {r t : Island} (h : SameStanding r t) : SameBalance r t :=
  ⟨h.totals, h.condition, h.held, h.releaseHold⟩

/-- An island has the same sections and generators in two parts, and the same balance in its record. -/
structure SameSupply (i : SecId) (p q : Part) : Prop where
  sections : ∀ s, islandId q.img.ties s = i ↔ islandId p.img.ties s = i
  active : q.plans.active = p.plans.active
  gens : ∀ g, genIsland p g = some i → genState q g = genState p g ∧ q.img.genMeas[g] = p.img.genMeas[g]
  record : SameBalance p.islands[i] q.islands[i]

/-- And it has the same entries. -/
structure SameIsland (i : SecId) (p q : Part) : Prop extends SameSupply i p q where
  entries : entriesOf q i = entriesOf p i

/-- Which targets lie in an island rests on its sections and the plan. -/
theorem targetIsland_iff_of_sections {i : SecId} {p q : Part}
    (hs : ∀ s, islandId q.img.ties s = i ↔ islandId p.img.ties s = i) (ha : q.plans.active = p.plans.active) (t : Target) :
    targetIsland q t = some i ↔ targetIsland p t = some i := by
  cases t <;> simp only [targetIsland, consIsland, driveIsland, ha, Option.map_eq_some_iff, hs]

theorem entriesOf_of_sections {i : SecId} {p q : Part}
    (hs : ∀ s, islandId q.img.ties s = i ↔ islandId p.img.ties s = i) (ha : q.plans.active = p.plans.active)
    (hl : q.shedList = p.shedList) : entriesOf q i = entriesOf p i := by
  rw [entriesOf, hl]
  refine List.filter_congr fun e _ => ?_
  rw [Bool.eq_iff_iff, beq_iff_eq, beq_iff_eq]
  exact targetIsland_iff_of_sections hs ha e.target

theorem genIsland_of_mem_carrying {i : SecId} {p : Part} {g : GenId} (hg : g ∈ carrying p i) : genIsland p g = some i := by
  obtain ⟨-, htest⟩ := List.mem_filter.mp hg
  exact beq_iff_eq.mp (Bool.and_eq_true_iff.mp htest).1

namespace SameSupply

section
variable {i : SecId} {p q r : Part} (h : SameSupply i p q)
include h

theorem genIsland_iff (g : GenId) : genIsland q g = some i ↔ genIsland p g = some i := by
  simp only [genIsland, h.active, Option.map_eq_some_iff, h.sections]

theorem trans (k : SameSupply i q r) : SameSupply i p r where
  sections s := (k.sections s).trans (h.sections s)
  active := k.active.trans h.active
  gens g hg := by
    obtain ⟨hstate, hcopy⟩ := h.gens g hg
    obtain ⟨kstate, kcopy⟩ := k.gens g ((h.genIsland_iff g).mpr hg)
    exact ⟨kstate.trans hstate, kcopy.trans hcopy⟩
  record := h.record.trans k.record

theorem genIn : genIn q i = genIn p i := by
  funext g
  rw [Bool.eq_iff_iff, Machine.genIn, beq_iff_eq, Machine.genIn, beq_iff_eq]
  exact h.genIsland_iff g

/-- A test of a generator's state within the island. -/
theorem genTest (f : GenState → Bool) :
    (fun g => Machine.genIn q i g && f (genState q g)) = fun g => Machine.genIn p i g && f (genState p g) := by
  funext g
  rw [h.genIn]
  cases hg : Machine.genIn p i g
  · rfl
  · rw [(h.gens g (beq_iff_eq.mp hg)).1]

theorem carrying : carrying q i = carrying p i := by
  simp only [Machine.carrying, h.genTest carries]

/-- The totals rest on the supply and on the credit that is opening. -/
theorem totalsOf (hc : ((entriesOf q i).filter isOpening).map ShedEntry.credit
    = ((entriesOf p i).filter isOpening).map ShedEntry.credit) : totalsOf q i = totalsOf p i := by
  have hcontribution : genContribution q = genContribution p := by
    funext g
    simp only [genContribution, h.active]
  have hload : (Machine.carrying p i).map (fun g => measKw q.img.genMeas[g])
      = (Machine.carrying p i).map fun g => measKw p.img.genMeas[g] :=
    List.map_congr_left fun g hg => by rw [(h.gens g (genIsland_of_mem_carrying hg)).2]
  have hsum : ((Machine.carrying p i).map fun g => measKw q.img.genMeas[g]).sum
      = ((Machine.carrying p i).map fun g => measKw p.img.genMeas[g]).sum := by rw [hload]
  simp only [Machine.totalsOf, sumGens, h.genTest carries, h.genTest (· == .online), hcontribution, hc]
  exact congrArg (Totals.mk _ _ · _) hsum

theorem conditionOf (t : Totals) : conditionOf q i t = conditionOf p i t := by
  rw [Machine.conditionOf, Machine.conditionOf, h.carrying, Part.header, h.active, Part.header]

theorem heldOf : heldOf q i = heldOf p i := by
  have hall : ((Machine.carrying p i).all fun g => !isFresh q.img.genMeas[g])
      = (Machine.carrying p i).all fun g => !isFresh p.img.genMeas[g] := by
    rw [Bool.eq_iff_iff, List.all_eq_true, List.all_eq_true]
    refine forall₂_congr fun g hg => ?_
    rw [(h.gens g (genIsland_of_mem_carrying hg)).2]
  rw [Machine.heldOf, h.carrying, hall, Machine.heldOf]

theorem isIslandId : isIslandId q.img.ties i = isIslandId p.img.ties i := by
  rw [Bool.eq_iff_iff, Machine.isIslandId, beq_iff_eq, Machine.isIslandId, beq_iff_eq]
  exact h.sections i

theorem standsById (hc : ((entriesOf q i).filter isOpening).map ShedEntry.credit
    = ((entriesOf p i).filter isOpening).map ShedEntry.credit) (hs : StandsById p i) : StandsById q i := by
  intro hid
  simpa only [islandStands, islandAgrees, h.record.totals, h.record.condition, h.record.held, h.totalsOf hc,
    h.conditionOf, h.heldOf] using hs (h.isIslandId.symm.trans hid)

end

/-- A change of nothing that an island's supply rests on. -/
theorem of_eq {i : SecId} {p q : Part} (hties : q.img.ties = p.img.ties) (hmeas : q.img.genMeas = p.img.genMeas)
    (hactive : q.plans.active = p.plans.active) (hstates : ∀ g, genState q g = genState p g)
    (hr : SameBalance p.islands[i] q.islands[i]) : SameSupply i p q where
  sections s := by rw [hties]
  active := hactive
  gens g _ := ⟨hstates g, by rw [hmeas]⟩
  record := hr

end SameSupply

namespace SameIsland

theorem refl (i : SecId) (p : Part) : SameIsland i p p := ⟨.of_eq rfl rfl rfl (fun _ => rfl) (.refl _), rfl⟩

section
variable {i : SecId} {p q r : Part} (h : SameIsland i p q)
include h

theorem trans (k : SameIsland i q r) : SameIsland i p r :=
  ⟨h.toSameSupply.trans k.toSameSupply, k.entries.trans h.entries⟩

theorem standsById (hs : StandsById p i) : StandsById q i := h.toSameSupply.standsById (by rw [h.entries]) hs

theorem releaseTimed (ht : releaseTimed p i) : releaseTimed q i := by
  unfold Machine.releaseTimed
  rwa [h.record.releaseHold, h.entries]

end

/-- A change of nothing that an island rests on. -/
theorem of_eq {i : SecId} {p q : Part} (hties : q.img.ties = p.img.ties) (hmeas : q.img.genMeas = p.img.genMeas)
    (hactive : q.plans.active = p.plans.active) (hstates : ∀ g, genState q g = genState p g)
    (hlist : q.shedList = p.shedList) (hr : SameBalance p.islands[i] q.islands[i]) : SameIsland i p q :=
  ⟨.of_eq hties hmeas hactive hstates hr, entriesOf_of_sections (fun s => by rw [hties]) hactive hlist⟩

end SameIsland

theorem Spares.sameIsland {i : SecId} {p q : Part} (h : Spares i p q) : SameIsland i p q where
  sections s := by rw [h.img]
  active := by rw [h.plans]
  gens g hg := ⟨by rw [genState, h.gens g hg, genState], by rw [h.img]⟩
  entries := h.entries
  record := h.standing.sameBalance

/-! ## A change of one island's members, or of none -/

/-- A change that touches one island at most. -/
structure Touches (j : Option SecId) (p q : Part) : Prop where
  same : ∀ i, j ≠ some i → SameIsland i p q
  drives : DrivesHeld p → DrivesHeld q

theorem Touches.refl (j : Option SecId) (p : Part) : Touches j p p := ⟨fun i _ => .refl i p, id⟩

theorem Touches.trans {j : Option SecId} {p q r : Part} (h : Touches j p q) (k : Touches j q r) : Touches j p r :=
  ⟨fun i hi => (h.same i hi).trans (k.same i hi), fun hd => k.drives (h.drives hd)⟩

theorem Touches.of_spares {j : SecId} {p q : Part} (h : ∀ i, i ≠ j → Spares i p q) (hl : q.shedList = p.shedList) :
    Touches (some j) p q :=
  ⟨fun i hi => (h i fun e => hi (by rw [e])).sameIsland, .congr hl⟩

/-- A change that touches no island. -/
theorem Touches.keepsBalance {p q : Part} (h : Touches none p q) : KeepsBalance p q where
  drives := h.drives
  timed i := (h.same i nofun).releaseTimed
  stands i _ _ := (h.same i nofun).standsById

/-- An island touched, and then brought to its balance again. -/
theorem Touches.settled {j : SecId} {p q : Part} (h : Touches (some j) p q) (ht : releaseTimed p j → releaseTimed q j)
    (hs : DrivesHeld p → releaseTimed p j → StandsById p j → StandsById q j) : KeepsBalance p q where
  drives := h.drives
  timed i := by
    by_cases hi : j = i
    · subst hi
      exact ht
    · exact (h.same i (by simpa using hi)).releaseTimed
  stands i := by
    by_cases hi : j = i
    · subst hi
      exact hs
    · exact fun _ _ => (h.same i (by simpa using hi)).standsById

/-- A change that leaves what the islands rest on, and the balance of their records. -/
theorem Touches.of_sameBalance {j : Option SecId} {p q : Part} (h : q.img.ties = p.img.ties ∧
    q.img.genMeas = p.img.genMeas ∧ q.plans.active = p.plans.active ∧ q.gens = p.gens ∧ q.shedList = p.shedList)
    (hr : ∀ i : SecId, SameBalance p.islands[i] q.islands[i]) : Touches j p q := by
  obtain ⟨hties, hmeas, hactive, hgens, hlist⟩ := h
  exact ⟨fun i _ => .of_eq hties hmeas hactive (fun g => by rw [genState, hgens, genState]) hlist (hr i), .congr hlist⟩

/-- A change that leaves what the islands rest on, and their records. -/
theorem Touches.of_frame {j : Option SecId} {p q : Part} (h : q.img.ties = p.img.ties ∧ q.img.genMeas = p.img.genMeas ∧
    q.plans.active = p.plans.active ∧ q.gens = p.gens ∧ q.shedList = p.shedList ∧ q.islands = p.islands) :
    Touches j p q := by
  obtain ⟨hties, hmeas, hactive, hgens, hlist, hislands⟩ := h
  exact .of_sameBalance ⟨hties, hmeas, hactive, hgens, hlist⟩ fun i => by rw [hislands]; exact .refl _

theorem KeepsBalance.of_sameBalance {p q : Part} (h : q.img.ties = p.img.ties ∧ q.img.genMeas = p.img.genMeas ∧
    q.plans.active = p.plans.active ∧ q.gens = p.gens ∧ q.shedList = p.shedList)
    (hr : ∀ i : SecId, SameBalance p.islands[i] q.islands[i]) : KeepsBalance p q := (Touches.of_sameBalance h hr).keepsBalance

theorem KeepsBalance.of_frame {p q : Part} (h : q.img.ties = p.img.ties ∧ q.img.genMeas = p.img.genMeas ∧
    q.plans.active = p.plans.active ∧ q.gens = p.gens ∧ q.shedList = p.shedList ∧ q.islands = p.islands) :
    KeepsBalance p q := (Touches.of_frame h).keepsBalance

/-- A record replaced by one of the same balance. -/
theorem setIsland_sameBalance {j : SecId} {r : Island} {p : Part} (hr : SameBalance p.islands[j] r) (i : SecId) :
    SameBalance p.islands[i] (setIsland j r p).islands[i] := by
  rw [setIsland_islands, setAt_get]
  split
  · next e => subst e; exact hr
  · exact .refl _

theorem keepsBalance_setIsland {j : SecId} {r : Island} {p : Part} (hr : SameBalance p.islands[j] r) :
    KeepsBalance p (setIsland j r p) :=
  .of_sameBalance (by simp) (setIsland_sameBalance hr)

/-! ## The balance unit -/

/-- An island's timers follow after a change of it that leaves what it holds. -/
theorem Touches.syncTimers {j : SecId} {p q : Part} (h : Touches (some j) p q)
    (hs : DrivesHeld p → releaseTimed p j → StandsById p j → StandsById q j) : KeepsBalance p (syncTimers j q) := by
  refine (h.trans (.of_spares (fun i hi => spares_syncTimers hi q) (by simp))).settled
    (fun _ => releaseTimed_syncTimers j q) fun hd ht hp hid => ?_
  have himg : (Machine.syncTimers j q).img = q.img := by simp
  rw [himg] at hid
  exact (islandStands_syncTimers j j q).mpr (hs hd ht hp hid)

theorem keepsBalance_syncTimers (j : SecId) (p : Part) : KeepsBalance p (syncTimers j p) :=
  (Touches.refl (some j) p).syncTimers fun _ _ => id

/-- After its update an island holds what its members give, whatever was changed of it. -/
theorem Touches.retotal {j : SecId} {p q : Part} (h : Touches (some j) p q) : KeepsBalance p (retotal j q) :=
  (h.trans (.of_spares (fun i hi => spares_retotal hi q) (by simp))).settled (fun _ => releaseTimed_syncTimers j _)
    fun _ _ _ _ => islandStands_retotal j q

theorem keepsBalance_enterMarks (j : SecId) (p : Part) : KeepsBalance p (enterMarks j p) := by
  refine .of_sameBalance (by simp) fun i => ?_
  by_cases hi : i = j
  · subst hi
    exact (enterMarks_standing i p).sameBalance
  · exact (spares_enterMarks hi p).standing.sameBalance

theorem keepsBalance_computeTargets (j : SecId) (forced : Option GenId) (p : Part) :
    KeepsBalance p (computeTargets j forced p) := by
  refine .of_sameBalance (by simp) fun i => ?_
  by_cases hi : i = j
  · subst hi
    exact (computeTargets_standing i forced p).sameBalance
  · exact (spares_computeTargets hi p forced).standing.sameBalance

theorem Touches.updateInner {j : SecId} {p q : Part} (h : Touches (some j) p q) : KeepsBalance p (updateInner j q) := by
  unfold Machine.updateInner
  dsimp only
  split
  · exact h.retotal.trans (keepsBalance_enterMarks j _)
  · exact h.retotal

theorem Touches.updateInnerOf {j : Option SecId} {p q : Part} (h : Touches j p q) : KeepsBalance p (updateInnerOf j q) := by
  cases j with
  | none => exact h.keepsBalance
  | some j => exact h.updateInner

end Sys2Proof.Machine
end

section
/-! PROOFS. The sequencer keeps the balance of the islands: what it moves touches one island, which it updates (R45, R62, R71,
R75 to R79). -/

namespace Sys2Proof.Machine

/-! ## A generator moved -/

/-- A generator's entry replaced touches its island alone. -/
theorem Touches.of_gen {g : GenId} {e : Gen} {p q : Part} (h : q.img = p.img ∧ q.plans = p.plans ∧
    q.shedList = p.shedList ∧ q.islands = p.islands ∧ q.gens = setAt p.gens g e) : Touches (genIsland q g) p q := by
  obtain ⟨himg, hplans, hlist, hislands, hgens⟩ := h
  rw [(islandsOf_congr himg hplans).1]
  refine ⟨fun i hi => ⟨⟨fun s => by rw [himg], by rw [hplans], fun x hx => ⟨?_, by rw [himg]⟩,
    by rw [hislands]; exact .refl _⟩, entriesOf_congr himg hplans hlist i⟩, .congr hlist⟩
  have hne : g ≠ x := fun e => hi (e ▸ hx)
  rw [genState, hgens, setAt_other _ _ hne, genState]

/-- After a generator's event its island holds what its members give. -/
theorem Touches.afterGenInner {g : GenId} {p q : Part} (h : Touches (genIsland q g) p q) (forced : Option GenId) :
    KeepsBalance p (afterGenInner g forced q) := by
  unfold Machine.afterGenInner
  split
  · next hg => exact (hg ▸ h).keepsBalance
  · next i hg =>
    have hsettled := (hg ▸ h : Touches (some i) p q).retotal.trans (keepsBalance_computeTargets i forced _)
    dsimp only
    split
    · exact hsettled.trans (keepsBalance_enterMarks i _)
    · exact hsettled

theorem sameBalance_standbyMark (r : Island) (b : Bool) : SameBalance r { r with standbyExhausted := b } :=
  ⟨rfl, rfl, rfl, rfl⟩

theorem touches_clearStandbyOf (j : Option SecId) (g : GenId) (p : Part) : Touches j p (clearStandbyOf g p) := by
  refine .of_sameBalance (by simp) fun i => ?_
  unfold clearStandbyOf
  split
  · exact .refl _
  · exact setIsland_sameBalance (sameBalance_standbyMark _ false) i

/-! ## Starts, aborts and standby requests -/

theorem keepsBalance_startGenerator (g : GenId) (auto : Bool) (cause : StartCause) (p : Part) :
    KeepsBalance p (startGenerator g auto cause p) := by
  unfold startGenerator
  exact (Touches.of_gen (e := startingGen auto cause p) (by simp [changeState_gens, startingGen])).afterGenInner none

theorem keepsBalance_abortUnloading (g : GenId) (cause : AbortCause) (p : Part) :
    KeepsBalance p (abortUnloading g cause p) := by
  unfold abortUnloading
  refine (Touches.of_gen (e := { Gen.init with state := .online }) ?_).afterGenInner (some g)
  dsimp only
  split <;> simp [changeState_gens]

theorem keepsBalance_abortAll (i : SecId) (cause : AbortCause) (p : Part) : KeepsBalance p (abortAll i cause p) := by
  refine .fold (fun q g => ?_) allGens p
  split
  · exact keepsBalance_abortUnloading g cause q
  · exact .refl q

theorem keepsBalance_recheckStops (i : SecId) (p : Part) : KeepsBalance p (recheckStops i p) := by
  unfold recheckStops
  split
  · refine .fold (fun q g => ?_) allGens p
    split
    · exact keepsBalance_abortUnloading g .partition q
    · exact .refl q
  · exact .refl p

theorem keepsBalance_noStandby (i : SecId) (cause : StartCause) (p : Part) : KeepsBalance p (noStandby i cause p) := by
  unfold noStandby
  split
  · exact .refl p
  · refine .trans (.of_frame ?_) (keepsBalance_setIsland ?_)
    · simp
    · simpa using sameBalance_standbyMark _ true

theorem keepsBalance_requestStandby (i : SecId) (cause : StartCause) (p : Part) :
    KeepsBalance p (requestStandby i cause p) := by
  unfold requestStandby
  split
  · split
    · next g _ =>
      have hmark := keepsBalance_setIsland (sameBalance_standbyMark p.islands[i] false)
      exact hmark.trans (keepsBalance_startGenerator g true cause _)
    · exact keepsBalance_noStandby i cause p
  · exact .refl p

theorem keepsBalance_enterSequencer (i : SecId) (c : Condition) (p : Part) : KeepsBalance p (enterSequencer i c p) := by
  unfold enterSequencer
  split
  · cases c with
    | overloaded => exact keepsBalance_abortAll i .overload p
    | dead => exact keepsBalance_requestStandby i .dead p
    | sound | short => exact .refl p
  · exact .refl p

end Sys2Proof.Machine
end

section
/-! PROOFS. The ladder keeps the balance of the islands: a shed touches one island, whose totals it forms again or leaves,
since an entry that is HELD opens no credit (R98, R102 to R111, R119). -/

namespace Sys2Proof.Machine

/-! ## The entries of one target -/

/-- The credits of the entries of an island that are OPENING. -/
def openings (p : Part) (i : SecId) : List Nat := ((entriesOf p i).filter isOpening).map ShedEntry.credit

theorem isOpening_of_held {e : ShedEntry} (h : e.state = .held) : isOpening e = false := by rw [isOpening, h]

theorem openings_of_held {p : Part} {i : SecId} (h : ∀ e ∈ entriesOf p i, e.state = .held) : openings p i = [] := by
  rw [openings, List.map_eq_nil_iff, List.filter_eq_nil_iff]
  intro e he
  rw [isOpening_of_held (h e he)]
  exact Bool.false_ne_true

/-- A change of the shed list and of the ladder's tables leaves the supply of the islands. -/
theorem SameSupply.of_frame {p q : Part} (h : q.img = p.img ∧ q.plans = p.plans ∧ q.gens = p.gens ∧
    q.islands = p.islands) (i : SecId) : SameSupply i p q := by
  obtain ⟨himg, hplans, hgens, hislands⟩ := h
  refine .of_eq (by rw [himg]) (by rw [himg]) (by rw [hplans]) (fun g => by rw [genState, hgens, genState]) ?_
  rw [hislands]
  exact .refl _

/-- A change of one target's entries touches its island alone. -/
theorem Touches.of_entries {t : Target} {p q : Part} (h : q.img = p.img ∧ q.plans = p.plans ∧ q.gens = p.gens ∧
    q.islands = p.islands) (he : ∀ i, targetIsland p t ≠ some i → entriesOf q i = entriesOf p i)
    (hd : DrivesHeld p → DrivesHeld q) : Touches (targetIsland p t) p q :=
  ⟨fun i hi => ⟨.of_frame h i, he i hi⟩, hd⟩

theorem touches_appendEntry {e : ShedEntry} (he : ∀ d, e.target = .drive d → e.state = .held) (p : Part) :
    Touches (targetIsland p e.target) p (appendEntry e p) := by
  refine .of_entries (by simp) (fun i hi => ?_) fun hd x hx d hxd => ?_
  · rw [entriesOf_append (p := p) (q := appendEntry e p) rfl rfl rfl i, if_neg hi, List.append_nil]
  · rcases List.mem_append.mp hx with hx | hx
    · exact hd x hx d hxd
    · obtain rfl := List.mem_singleton.mp hx
      exact he d hxd

theorem touches_removeEntry (t : Target) (p : Part) : Touches (targetIsland p t) p (removeEntry t p) := by
  refine .of_entries (by simp) (fun i hi => ?_) fun hd x hx => hd x (List.mem_of_mem_filter hx)
  rw [entriesOf, removeEntry_shedList, List.filter_filter, entriesOf]
  refine List.filter_congr fun e _ => ?_
  have hislands : targetIsland (removeEntry t p) = targetIsland p :=
    (islandsOf_congr (p := p) (q := removeEntry t p) rfl rfl).2.2.2
  rw [hislands]
  by_cases h : e.target = t
  · rw [h, beq_false_of_ne hi, Bool.false_and]
  · simp [h]

/-- An entry changed in place, its target and, for a drive, its being HELD kept. -/
theorem touches_changeEntry {t : Target} {f : ShedEntry → ShedEntry} (hf : ∀ e, (f e).target = e.target)
    (hheld : ∀ e d, t = .drive d → e.state = .held → (f e).state = .held) (p : Part) :
    Touches (targetIsland p t) p (changeEntry t f p) := by
  refine .of_entries (by simp) (fun i hi => ?_) fun hd x hx d hxd => ?_
  · rw [entriesOf_changeEntry i t hf]
    refine (List.map_congr_left fun e he => if_neg fun ht => hi ?_).trans (List.map_id _)
    rw [← ht]
    exact beq_iff_eq.mp (List.mem_filter.mp he).2
  · rw [changeEntry_shedList] at hx
    obtain ⟨e, he, rfl⟩ := List.mem_map.mp hx
    split at hxd
    · next ht =>
      rw [if_pos ht]
      rw [hf] at hxd
      exact hheld e d (ht.symm.trans hxd) (hd e he d hxd)
    · next ht =>
      rw [if_neg ht]
      exact hd e he d hxd

/-! ## Entries that are HELD open no credit -/

theorem openings_appendEntry {e : ShedEntry} (he : e.state = .held) (p : Part) (i : SecId) :
    openings (appendEntry e p) i = openings p i := by
  rw [openings, entriesOf_append (p := p) (q := appendEntry e p) rfl rfl rfl i, List.filter_append, openings]
  split
  · rw [List.filter_singleton, isOpening_of_held he]
    simp
  · rw [List.filter_nil, List.append_nil]

/-- An entry changed in place that was HELD and is. -/
theorem openings_changeEntry {t : Target} {f : ShedEntry → ShedEntry} (hf : ∀ e, (f e).target = e.target) {p : Part}
    (hheld : ∀ e ∈ p.shedList, e.target = t → e.state = .held ∧ (f e).state = .held) (i : SecId) :
    openings (changeEntry t f p) i = openings p i := by
  have hopening : ∀ e ∈ entriesOf p i, isOpening (if e.target = t then f e else e) = isOpening e := fun e he => by
    split
    · next ht =>
      obtain ⟨hold, hnew⟩ := hheld e (List.mem_of_mem_filter he) ht
      rw [isOpening_of_held hold, isOpening_of_held hnew]
    · rfl
  rw [openings, entriesOf_changeEntry i t hf, List.filter_map, openings]
  simp only [Function.comp_def]
  rw [List.filter_congr hopening, List.map_map]
  refine List.map_congr_left fun e he => ?_
  obtain ⟨he, hopen⟩ := List.mem_filter.mp he
  rw [Function.comp_apply]
  split
  · next ht =>
    rw [isOpening_of_held (hheld e (List.mem_of_mem_filter he) ht).1] at hopen
    cases hopen
  · rfl

/-- The timers of a target's island follow after a change of entries that opens no credit. -/
theorem Touches.judgeReleaseOf {j : Option SecId} {p q : Part} (h : Touches j p q) (hs : ∀ i, SameSupply i p q)
    (hc : DrivesHeld p → ∀ i, openings q i = openings p i) : KeepsBalance p (judgeReleaseOf j q) := by
  cases j with
  | none => exact h.keepsBalance
  | some j => exact h.syncTimers fun hd _ => (hs j).standsById (hc hd j)

/-! ## The shed transactions (R102 to R104) -/

theorem keepsBalance_shedConsumer (c : ConsId) (cause : ShedCause) (credit : Nat) (p : Part) :
    KeepsBalance p (shedConsumer c cause credit p) := by
  unfold shedConsumer
  exact (touches_appendEntry (e := ⟨.cons c, cause, credit, p.ms, .opening (after p.ms (consTimeout p c))⟩) nofun
    p).updateInnerOf.trans (.of_frame (by simp [targetIsland]))

/-- An entry appended HELD, the release condition judged again. -/
theorem keepsBalance_appendHeld {e : ShedEntry} (he : e.state = .held) (p : Part) :
    KeepsBalance p (judgeReleaseOf (targetIsland p e.target) (appendEntry e p)) :=
  (touches_appendEntry (fun _ _ => he) p).judgeReleaseOf (.of_frame (by simp)) fun _ => openings_appendEntry he p

theorem keepsBalance_shedDrive (d : DriveId) (cause : ShedCause) (credit cut : Nat) (p : Part) :
    KeepsBalance p (shedDrive d cause credit cut p) := by
  unfold shedDrive
  exact (keepsBalance_appendHeld (e := ⟨.drive d, cause, credit, p.ms, .held⟩) rfl p).trans
    (.of_frame (by simp [targetIsland]))

theorem keepsBalance_reshed (c : ConsId) (p : Part) : KeepsBalance p (reshed c p) := by
  unfold reshed
  exact (keepsBalance_appendHeld (e := ⟨.cons c, .restoreCancel, 0, p.ms, .held⟩) rfl p).trans
    (.of_frame (by simp [targetIsland]))

theorem keepsBalance_reshedAll (ts : List Target) (p : Part) : KeepsBalance p (reshedAll ts p) := by
  refine .fold (fun q t => ?_) ts p
  cases t with
  | cons c => exact keepsBalance_reshed c q
  | drive d => exact .refl q

/-! ## The walk of a step (R105, R109, R119) -/

theorem keepsBalance_takeCandidate (cause : ShedCause) (t : Target) (need : Int) (p : Part) :
    KeepsBalance p (takeCandidate cause t need p).2 := by
  cases t with
  | cons c => exact keepsBalance_shedConsumer c cause _ p
  | drive d =>
    simp only [takeCandidate]
    split
    · exact .refl p
    · exact keepsBalance_shedDrive d cause _ _ p

theorem keepsBalance_walkCandidates (cause : ShedCause) (ts : List Target) (need : Int) (p : Part) :
    KeepsBalance p (walkCandidates cause ts need p).2 := by
  induction ts generalizing need p with
  | nil => exact .refl p
  | cons t ts ih =>
    rw [walkCandidates]
    split
    · exact .refl p
    · exact (keepsBalance_takeCandidate cause t need p).trans (ih _ _)

theorem keepsBalance_stepMet (i : SecId) (p : Part) : KeepsBalance p (stepMet i p) :=
  keepsBalance_setIsland ⟨rfl, rfl, rfl, rfl⟩

theorem keepsBalance_stepUnmet (i : SecId) (cause : ShedCause) (need : Nat) (p : Part) :
    KeepsBalance p (stepUnmet i cause need p) := by
  refine .of_sameBalance (by simp) fun j => ?_
  by_cases hj : j = i
  · subst hj
    rw [stepUnmet_record]
    exact ⟨rfl, rfl, rfl, rfl⟩
  · exact (spares_stepUnmet hj p cause need).standing.sameBalance

theorem keepsBalance_shedStep (i : SecId) (cause : ShedCause) (need : Int) (p : Part) :
    KeepsBalance p (shedStep i cause need p) := by
  unfold shedStep
  split
  · exact keepsBalance_stepMet i p
  · have hwalk := (keepsBalance_reshedAll (restoringOf p i) p).trans
      (keepsBalance_walkCandidates cause (candidatesOf p i) need _)
    dsimp only
    split
    · exact hwalk.trans (keepsBalance_stepMet i _)
    · exact hwalk.trans (keepsBalance_stepUnmet i cause _ _)

theorem keepsBalance_slowStep (i : SecId) (p : Part) : KeepsBalance p (slowStep i p) := by
  have hfirst := keepsBalance_reshedAll (restoringOf p i) p
  unfold slowStep
  dsimp only
  split
  · next hq =>
    obtain ⟨t, -, rfl⟩ := takeFirst_some hq
    exact (hfirst.trans (keepsBalance_takeCandidate .overload t _ _)).trans (keepsBalance_stepMet i _)
  · exact hfirst.trans (keepsBalance_stepUnmet i .overload _ _)

theorem keepsBalance_fastStep (i : SecId) (snapshot : Nat) (p : Part) : KeepsBalance p (fastStep i snapshot p) := by
  unfold fastStep
  dsimp only
  split
  · exact keepsBalance_shedStep i .trip _ p
  · exact .refl p

theorem keepsBalance_splitStep (i : SecId) (p : Part) : KeepsBalance p (splitStep i p) := by
  unfold splitStep
  dsimp only
  split
  · exact keepsBalance_stepMet i p
  · exact keepsBalance_shedStep i .tieOpen _ p

/-! ## The dead shed (R111) -/

theorem keepsBalance_deadTake (p : Part) (t : Target) : KeepsBalance p (deadTake p t) := by
  cases t with
  | cons c => exact keepsBalance_shedConsumer c .dead _ p
  | drive d => exact keepsBalance_shedDrive d .dead _ _ p

/-- The credit of a drive's entry rises, but the entry is HELD. -/
theorem keepsBalance_raiseDriveCredit {i : SecId} {d : DriveId} (k : Nat) (e : Drive) {p : Part}
    (hin : driveIsland p d = some i) :
    KeepsBalance p (judgeReleaseOf (some i) (setDrive d e
      (changeEntry (.drive d) (fun s => { s with credit := s.credit + k }) p))) := by
  have hraise := touches_changeEntry (t := .drive d) (f := fun s => { s with credit := s.credit + k }) (fun _ => rfl)
    (fun _ _ _ => id) p
  rw [targetIsland, hin] at hraise
  refine (hraise.trans (.of_frame (by simp))).judgeReleaseOf (.of_frame (by simp)) fun hd j => ?_
  exact openings_changeEntry (f := fun s => { s with credit := s.credit + k }) (fun _ => rfl)
    (fun s hs ht => ⟨hd s hs d ht, hd s hs d ht⟩) j

theorem keepsBalance_deadLower (i : SecId) (p : Part) (d : DriveId) : KeepsBalance p (deadLower i p d) := by
  unfold deadLower
  dsimp only
  split
  · next h =>
    have hin : driveIsland p d = some i := by
      simp only [Bool.and_eq_true, beq_iff_eq] at h
      exact h.1.1
    have hraise := keepsBalance_raiseDriveCredit (p.drives[d].cutLimit - driveFloor p d)
      { p.drives[d] with cutLimit := driveFloor p d } hin
    exact hraise.trans (.of_frame (by simp))
  · exact .refl p

theorem keepsBalance_deadShed (i : SecId) (p : Part) : KeepsBalance p (deadShed i p) :=
  ((keepsBalance_reshedAll _ p).trans (.fold keepsBalance_deadTake _ _)).trans (.fold (keepsBalance_deadLower i) _ _)

/-! ## An entry to a condition, handed on (R47) -/

theorem keepsBalance_enterLadder (i : SecId) (c : Condition) (p : Part) : KeepsBalance p (enterLadder i c p) := by
  unfold enterLadder
  split
  · exact keepsBalance_deadShed i p
  · exact .refl p

theorem keepsBalance_enterCondition (i : SecId) (p : Part) : KeepsBalance p (enterCondition i p) :=
  (keepsBalance_enterMarks i p).trans ((keepsBalance_enterSequencer i _ _).trans (keepsBalance_enterLadder i _ _))

theorem Touches.update {j : SecId} {p q : Part} (h : Touches (some j) p q) : KeepsBalance p (update j q) := by
  unfold Machine.update
  dsimp only
  split
  · exact h.retotal.trans (keepsBalance_enterCondition j _)
  · exact h.retotal

theorem Touches.updateOf {j : Option SecId} {p q : Part} (h : Touches j p q) : KeepsBalance p (updateOf j q) := by
  cases j with
  | none => exact h.keepsBalance
  | some j => exact h.update

theorem Touches.updateCreditOf {j : Option SecId} {p q : Part} (h : Touches j p q) :
    KeepsBalance p (updateCreditOf j q) := by
  cases j with
  | none => exact h.keepsBalance
  | some j =>
    simp only [Machine.updateCreditOf, updateCredit]
    split
    · exact (h.retotal.trans (keepsBalance_enterMarks j _)).trans (keepsBalance_enterSequencer j _ _)
    · exact h.retotal

theorem Touches.afterGen {g : GenId} {p q : Part} (h : Touches (genIsland q g) p q) (forced : Option GenId) :
    KeepsBalance p (afterGen g forced q) := by
  unfold Machine.afterGen
  split
  · next hg => exact (hg ▸ h).keepsBalance
  · next i hg =>
    have hsettled := (hg ▸ h : Touches (some i) p q).retotal.trans (keepsBalance_computeTargets i forced _)
    dsimp only
    split
    · exact hsettled.trans (keepsBalance_enterCondition i _)
    · exact hsettled

/-! ## The change to RUNNING (R48, R175, R176) -/

theorem keepsBalance_toRunning (p : Part) : KeepsBalance p (toRunning p) := by
  unfold toRunning
  refine .trans (.trans (.of_frame ?_) (.fold (fun q i => keepsBalance_syncTimers i q) _ _))
    (.fold (fun q i => keepsBalance_enterCondition i q) _ _)
  exact ⟨rfl, rfl, rfl, rfl, rfl, rfl⟩

theorem keepsBalance_judgeSettled (p : Part) : KeepsBalance p (judgeSettled p) := by
  unfold judgeSettled
  split
  · exact keepsBalance_toRunning p
  · exact .refl p

end Sys2Proof.Machine
end

section
/-! PROOFS. The events of the generators keep the balance of the islands: each moves one generator, and then updates its
island or leaves the states as they were (R58 to R73, R77, R90). -/

namespace Sys2Proof.Machine

/-! ## A generator moved after its island was touched -/

theorem Touches.moveGen {g : GenId} {e : Gen} {p q r : Part} (h : Touches (genIsland q g) p q) (hf : r.img = q.img ∧
    r.plans = q.plans ∧ r.shedList = q.shedList ∧ r.islands = q.islands ∧ r.gens = setAt q.gens g e) :
    Touches (genIsland r g) p r := by
  have hmove : Touches (genIsland r g) q r := .of_gen hf
  obtain ⟨himg, hplans, -⟩ := hf
  rw [(islandsOf_congr himg hplans).1] at hmove ⊢
  exact h.trans hmove

theorem Touches.clearStandbyOf {g : GenId} {p q : Part} (h : Touches (genIsland q g) p q) :
    Touches (genIsland (clearStandbyOf g q) g) p (clearStandbyOf g q) := by
  rw [(islandsOf_congr (p := q) (q := Machine.clearStandbyOf g q) (by simp) (by simp)).1]
  exact h.trans (touches_clearStandbyOf _ g q)

/-- A generator's entry replaced by one of the same state, and nothing else that the islands rest on. -/
theorem KeepsBalance.of_sameState {g : GenId} {e : Gen} {p q : Part} (h : q.img = p.img ∧ q.plans = p.plans ∧
    q.shedList = p.shedList ∧ q.islands = p.islands) (hgens : q.gens = setAt p.gens g e) (he : e.state = p.gens[g].state) :
    KeepsBalance p q := by
  obtain ⟨himg, hplans, hlist, hislands⟩ := h
  have hstates : ∀ x, genState q x = genState p x := fun x => by
    rw [genState, hgens, setAt_get]
    split
    · next hx => rw [he, hx, genState]
    · rfl
  exact Touches.keepsBalance ⟨fun i _ => .of_eq (by rw [himg]) (by rw [himg]) (by rw [hplans]) hstates hlist
    (by rw [hislands]; exact .refl _), .congr hlist⟩

/-! ## MEAS writes (R58) -/

section
variable {g : GenId} {p q : Part} (h : Touches (genIsland q g) p q)
include h

theorem Touches.goOnline : KeepsBalance p (goOnline g q) := by
  unfold Machine.goOnline
  exact (h.moveGen (e := { Gen.init with state := .online }) (by simp [changeState_gens])).afterGen _

theorem Touches.noteReady : KeepsBalance p (noteReady g q) := by
  unfold Machine.noteReady
  split
  · exact (h.moveGen (e := { q.gens[g] with readySeen := true }) (by simp)).afterGen none
  · exact h.afterGen none

theorem Touches.stopCompleted : KeepsBalance p (stopCompleted g q) := by
  unfold Machine.stopCompleted
  exact (h.moveGen (e := { Gen.init with state := .idle }) (by simp [changeState_gens])).clearStandbyOf.afterGen none

theorem Touches.trip (last : Nat) : KeepsBalance p (trip g last q) := by
  unfold Machine.trip
  split
  · next hg => exact (hg ▸ h).keepsBalance
  · next i hg =>
    dsimp only
    have hmoved := (h.moveGen (e := { Gen.init with state := .tripped })
      (r := changeState g { Gen.init with state := .tripped } q) (by simp [changeState_gens])).afterGen none
    have hstepped := (hmoved.trans (keepsBalance_abortAll i .trip _)).trans
      (keepsBalance_fastStep i q.islands[i].totals.load _)
    exact hstepped.trans (.trans (.of_frame (by simp)) (keepsBalance_requestStandby i .trip _))

theorem Touches.moveByBreaker (last : Nat) : KeepsBalance p (moveByBreaker g last q) := by
  unfold Machine.moveByBreaker
  split
  · split
    · exact h.goOnline
    · exact h.goOnline
    · exact h.goOnline
    · exact h.goOnline
    · exact h.afterGen none
    · exact h.afterGen none
  · split
    · exact h.noteReady
    · exact h.trip last
    · split
      · exact h.stopCompleted
      · exact h.trip last
    · exact h.afterGen none
    · exact h.afterGen none
    · exact h.afterGen none

theorem Touches.genMeasEvent (old : MeasCopy) : KeepsBalance p (genMeasEvent g old q) := by
  cases hg : q.plans.active.gens[g] with
  | none =>
    have habsent : genIsland q g = none := by rw [genIsland, hg]; rfl
    rw [genMeasEvent_absent hg]
    exact (habsent ▸ h).keepsBalance
  | some e =>
    rw [Machine.genMeasEvent, hg]
    exact (h.moveByBreaker _).trans (keepsBalance_judgeSettled _)

end

/-- The copy of a generator touches its island alone. -/
theorem touches_setCopy_gen (g : GenId) (m : MeasCopy) (p : Part) : Touches (genIsland p g) p (setCopy (.gen g) m p) := by
  refine ⟨fun i hi => ⟨⟨fun _ => .rfl, rfl, fun x hx => ⟨rfl, ?_⟩, .refl _⟩, rfl⟩, id⟩
  exact setAt_other _ _ fun e => hi (e ▸ hx)

/-! ## Controller actions (R61) -/

theorem keepsBalance_refuseStop (g : GenId) (reason : Nat) (margin : Int) (p : Part) :
    KeepsBalance p (refuseStop g reason margin p) := by
  unfold refuseStop
  exact .of_frame (by simp)

theorem keepsBalance_enterUnloading {g : GenId} {i : SecId} {p : Part} (hg : genIsland p g = some i) :
    KeepsBalance p (enterUnloading g p) := by
  obtain ⟨r, hr, hgens, -, himg, hplans, hislands, -, -, hlist⟩ := enterUnloading_eq hg
  rw [hr]
  exact (Touches.of_gen ⟨himg, hplans, hlist, hislands, hgens⟩).afterGen _

theorem keepsBalance_stopCheck (g : GenId) (p : Part) : KeepsBalance p (stopCheck g p) := by
  unfold stopCheck
  split
  · exact .refl p
  · next i hg =>
    dsimp only
    split
    · split
      · exact keepsBalance_refuseStop ..
      · split
        · exact keepsBalance_refuseStop ..
        · exact keepsBalance_enterUnloading hg
    · exact keepsBalance_refuseStop ..

theorem keepsBalance_stopStarting (g : GenId) (p : Part) : KeepsBalance p (stopStarting g p) := by
  unfold stopStarting
  exact (Touches.of_gen (e := Gen.init) (by simp [changeState_gens])).clearStandbyOf.afterGen none

theorem keepsBalance_clearFault (g : GenId) (p : Part) : KeepsBalance p (clearFault g p) := by
  unfold clearFault
  exact (Touches.of_gen (e := Gen.init) (by simp [changeState_gens])).clearStandbyOf.afterGen none

theorem keepsBalance_genAction (g : GenId) (a : Action) (p : Part) : KeepsBalance p (genAction g a p) := by
  unfold genAction
  split
  · exact .refl p
  · split
    · exact keepsBalance_startGenerator ..
    · exact keepsBalance_abortUnloading ..
    · exact keepsBalance_stopStarting g p
    · exact keepsBalance_stopCheck g p
    · exact keepsBalance_clearFault g p
    · exact keepsBalance_clearFault g p
    · exact .refl p

theorem keepsBalance_shareChange (g : GenId) (changed : Bool) (p : Part) : KeepsBalance p (shareChange g changed p) := by
  unfold shareChange
  split
  · split
    · exact .refl p
    · exact keepsBalance_computeTargets ..
  · exact .refl p

theorem keepsBalance_genReqEvent (g : GenId) (a : Action) (old : Word) (p : Part) :
    KeepsBalance p (genReqEvent g a old p) :=
  (keepsBalance_genAction g a p).trans (keepsBalance_shareChange g _ _)

/-! ## Timers (R65, R67, R70, R77, R90) -/

theorem keepsBalance_startTimeout (g : GenId) (p : Part) : KeepsBalance p (startTimeout g p) := by
  unfold startTimeout
  dsimp only
  split
  · have hfailed : KeepsBalance p (afterGen g none (p
        |> changeState g { Gen.init with state := .failed }
        |> giveGen g .stopGen 1 0#32 0#32
        |> noticeGen g .startFail (startCauseCode p.gens[g].cause) (flag p.gens[g].readySeen) 0#32 0#32
        |> setAtt .startFail)) :=
      (Touches.of_gen (e := { Gen.init with state := .failed }) (by simp [changeState_gens])).afterGen none
    split
    · exact hfailed
    · next i _ =>
      split
      · exact hfailed.trans (keepsBalance_requestStandby i .fallback _)
      · exact hfailed
  · exact .refl p

/-- A ramp step leaves the generator UNLOADING. -/
theorem keepsBalance_rampTo (g : GenId) (ramp floor : Nat) (next : Word) (p : Part) :
    KeepsBalance p (if ramp ≤ floor then giveOpenGen g (setGen g { p.gens[g] with ramp := ramp, rampTimer := none } p)
      else setGen g { p.gens[g] with ramp := ramp, rampTimer := some next } p) := by
  split
  · exact .of_sameState (by simp [giveOpenGen]) (giveOpenGen_gens (setGen_gens g _ p)) rfl
  · exact .of_sameState (by simp) (setGen_gens g _ p) rfl

theorem keepsBalance_rampDown (g : GenId) (p : Part) : KeepsBalance p (rampDown g p) := by
  unfold rampDown
  dsimp only
  split
  · have hramp := fun rate : Nat => keepsBalance_rampTo g (p.gens[g].ramp - max 1 (rate / 10)) (unloadFloor p g)
      (after p.ms 100) p
    generalize genIsland p g = island
    cases island with
    | none => exact hramp _
    | some i => exact (hramp _).trans (keepsBalance_computeTargets i none _)
  · exact .refl p

theorem keepsBalance_openTimeout (g : GenId) (p : Part) : KeepsBalance p (openTimeout g p) := by
  unfold openTimeout
  dsimp only
  split
  · exact (Touches.of_gen (e := { Gen.init with state := .online }) (by simp [changeState_gens])).afterGen _
  · exact .refl p

theorem keepsBalance_raiseCap (g : GenId) (p : Part) : KeepsBalance p (raiseCap g p) := by
  unfold raiseCap
  dsimp only
  split
  · split
    · exact .of_frame (by simp)
    · exact .trans (.of_frame (by simp)) (keepsBalance_computeTargets ..)
  · exact .refl p

theorem keepsBalance_startDelayExpiry (i : SecId) (p : Part) : KeepsBalance p (startDelayExpiry i p) := by
  unfold startDelayExpiry
  split
  · next w _ =>
    split
    · have hagain : KeepsBalance p (setIsland i { p.islands[i] with
          startDelay := .running (after p.ms (max 1 p.header.startDelay)) } p) :=
        keepsBalance_setIsland ⟨rfl, rfl, rfl, rfl⟩
      exact (hagain.trans (keepsBalance_requestStandby i .startDelay _)).trans (keepsBalance_syncTimers i _)
    · exact .refl p
  · exact .refl p
  · exact .refl p

end Sys2Proof.Machine
end

section
/-! PROOFS. The events of the ladder keep the balance of the islands: an entry changed is followed by its island's update, and
the release of an entry leaves the credit that is opening, since every entry of the island is HELD (R31, R98, R114 to R131). -/

namespace Sys2Proof.Machine

/-! ## Consumer MEAS writes and deadlines (R114, R115, R117, R118, R128) -/

theorem keepsBalance_verified (c : ConsId) (p : Part) : KeepsBalance p (verified c p) := by
  have hchange := touches_changeEntry (t := .cons c) (f := fun e => { e with state := .held }) (fun _ => rfl) nofun p
  unfold verified
  exact (hchange.trans (.of_frame (by simp))).updateCreditOf

theorem keepsBalance_reclose (c : ConsId) (p : Part) : KeepsBalance p (reclose c p) := by
  unfold reclose
  split
  · exact .refl p
  · have hchange := touches_changeEntry (t := .cons c)
      (f := fun e => { e with state := .opening (after p.ms (consTimeout p c)) }) (fun _ => rfl) nofun p
    exact hchange.updateCreditOf.trans (.of_frame (by simp [targetIsland]))

theorem keepsBalance_consMeasEvent (c : ConsId) (p : Part) : KeepsBalance p (consMeasEvent c p) := by
  have hstate : ∀ s, KeepsBalance p (setConsState c s p) := fun s => .of_frame (by simp)
  unfold consMeasEvent
  split
  · exact .refl p
  · split
    · exact hstate _
    · exact hstate _
    · exact keepsBalance_verified c p
    · exact keepsBalance_reclose c p
    · exact hstate _
    · exact .refl p

theorem keepsBalance_escalate (c : ConsId) (credit : Nat) (p : Part) : KeepsBalance p (escalate c credit p) := by
  unfold escalate
  split
  · exact .refl p
  · split
    · exact keepsBalance_shedStep ..
    · exact .refl p

theorem keepsBalance_stuckVerdict (c : ConsId) (e : ShedEntry) (p : Part) : KeepsBalance p (stuckVerdict c e p) := by
  unfold stuckVerdict
  exact ((touches_removeEntry (.cons c) p).updateCreditOf.trans (.of_frame (by simp [targetIsland]))).trans
    (keepsBalance_escalate c e.credit _)

theorem keepsBalance_verifyReached (c : ConsId) (p : Part) : KeepsBalance p (verifyReached c p) := by
  unfold verifyReached
  split
  · exact .refl p
  · split
    · split
      · exact keepsBalance_stuckVerdict ..
      · exact .refl p
    · exact .refl p

theorem keepsBalance_restoreReached (c : ConsId) (p : Part) : KeepsBalance p (restoreReached c p) := by
  unfold restoreReached
  split
  · exact .of_frame (by simp)
  · exact .refl p

/-! ## Release (R122 to R125, R129) -/

theorem releaseEntry_shedList (e : ShedEntry) (p : Part) :
    (releaseEntry e p).shedList = (removeEntry e.target p).shedList := by
  unfold releaseEntry
  split
  · next h =>
    rw [h]
    unfold releaseConsumer
    dsimp only
    split <;> simp
  · next h =>
    rw [h]
    simp [releaseDrive]

theorem touches_releaseEntry (e : ShedEntry) (p : Part) : Touches (targetIsland p e.target) p (releaseEntry e p) :=
  (touches_removeEntry e.target p).trans (.of_frame (by simp [releaseEntry_shedList]))

theorem entriesOf_releaseEntry_sublist (e : ShedEntry) (p : Part) (i : SecId) :
    (entriesOf (releaseEntry e p) i).Sublist (entriesOf p i) := by
  rw [entriesOf, (islandsOf_congr (p := p) (q := releaseEntry e p) (by simp) (by simp)).2.2.2, releaseEntry_shedList,
    entriesOf]
  exact List.filter_sublist.filter _

/-- The part with the release-hold timer of an island stopped. -/
def releaseStopped (i : SecId) (p : Part) : Part := setIsland i { p.islands[i] with releaseHold := none } p

@[simp] theorem releaseStopped_frame (i : SecId) (p : Part) :
    (releaseStopped i p).ms = p.ms ∧ (releaseStopped i p).img = p.img ∧ (releaseStopped i p).gens = p.gens ∧
      (releaseStopped i p).cmd = p.cmd ∧ (releaseStopped i p).cons = p.cons ∧
      (releaseStopped i p).drives = p.drives ∧ (releaseStopped i p).shedList = p.shedList ∧
      (releaseStopped i p).sq = p.sq ∧ (releaseStopped i p).lu = p.lu ∧ (releaseStopped i p).plans = p.plans ∧
      (releaseStopped i p).att = p.att := by simp [releaseStopped]

theorem entriesOf_releaseStopped (i j : SecId) (p : Part) : entriesOf (releaseStopped i p) j = entriesOf p j := rfl

theorem targetIsland_releaseStopped (i : SecId) (p : Part) : targetIsland (releaseStopped i p) = targetIsland p :=
  (islandsOf_congr (p := p) (q := releaseStopped i p) rfl rfl).2.2.2

theorem releaseHoldExpiry_idle {i : SecId} {p : Part}
    (h : ∀ tg w, p.islands[i].releaseHold = some (tg, w) → due w p.ms = false) : releaseHoldExpiry i p = p := by
  unfold releaseHoldExpiry
  split
  · rfl
  · next tg w hrunning => rw [h tg w hrunning, if_neg Bool.false_ne_true]

section
variable {i : SecId} {p : Part} {tg : Target} {w : Word} (hrunning : p.islands[i].releaseHold = some (tg, w))
  (hdue : due w p.ms = true)
include hrunning hdue

theorem releaseHoldExpiry_empty (hlast : (entriesOf p i).getLast? = none) :
    releaseHoldExpiry i p = syncTimers i (releaseStopped i p) := by
  rw [← entriesOf_releaseStopped i i p, releaseStopped] at hlast
  simp only [releaseHoldExpiry, hrunning, hdue, if_true, hlast]
  rfl

theorem releaseHoldExpiry_last {e : ShedEntry} (hlast : (entriesOf p i).getLast? = some e) :
    releaseHoldExpiry i p = syncTimers i (releaseEntry e (releaseStopped i p)) := by
  rw [← entriesOf_releaseStopped i i p, releaseStopped] at hlast
  simp only [releaseHoldExpiry, hrunning, hdue, if_true, hlast]
  rfl

end

theorem touches_releaseStopped (i : SecId) (p : Part) : Touches (some i) p (releaseStopped i p) :=
  .of_spares (fun _ hj => spares_setIsland hj p _) (by simp)

/-- A stopped release-hold timer leaves an island standing by its members. -/
theorem standsById_releaseStopped {i : SecId} {p : Part} (h : StandsById p i) : StandsById (releaseStopped i p) i := by
  intro hid
  simpa [releaseStopped, islandStands, islandAgrees] using h hid

theorem targetIsland_of_last {i : SecId} {p : Part} {e : ShedEntry} (h : (entriesOf p i).getLast? = some e) :
    targetIsland p e.target = some i := beq_iff_eq.mp (List.mem_filter.mp (List.mem_of_getLast? h)).2

/-- A released entry was HELD with all the others of its island, so the credit that is opening stands. -/
theorem keepsBalance_release {i : SecId} {p : Part} {e : ShedEntry} {tg : Target} {w : Word}
    (hrunning : p.islands[i].releaseHold = some (tg, w)) (hlast : (entriesOf p i).getLast? = some e) :
    KeepsBalance p (syncTimers i (releaseEntry e (releaseStopped i p))) := by
  have hrelease := touches_releaseEntry e (releaseStopped i p)
  rw [targetIsland_releaseStopped, targetIsland_of_last hlast] at hrelease
  refine ((touches_releaseStopped i p).trans hrelease).syncTimers fun _ ht hs => ?_
  have hheld : ∀ x ∈ entriesOf p i, x.state = .held := (ht tg w hrunning).2
  have hsub := entriesOf_releaseEntry_sublist e (releaseStopped i p) i
  exact (SameSupply.of_frame (by simp) i).standsById
    ((openings_of_held fun x hx => hheld x (hsub.subset hx)).trans
      (openings_of_held (p := releaseStopped i p) hheld).symm) (standsById_releaseStopped hs)

theorem keepsBalance_releaseHoldExpiry (i : SecId) (p : Part) : KeepsBalance p (releaseHoldExpiry i p) := by
  by_cases hstands : ∀ tg w, p.islands[i].releaseHold = some (tg, w) → due w p.ms = false
  · rw [releaseHoldExpiry_idle hstands]
    exact .refl p
  · push Not at hstands
    obtain ⟨tg, w, hrunning, hdue⟩ := hstands
    have hdue := eq_true_of_ne_false hdue
    cases hlast : (entriesOf p i).getLast? with
    | none =>
      rw [releaseHoldExpiry_empty hrunning hdue hlast]
      exact (touches_releaseStopped i p).syncTimers fun _ _ => standsById_releaseStopped
    | some e =>
      rw [releaseHoldExpiry_last hrunning hdue hlast]
      exact keepsBalance_release hrunning hlast

/-! ## The overload timer (R109), the controller's writes and freshness (R31, R97, R142) -/

theorem keepsBalance_overloadExpiry (i : SecId) (p : Part) : KeepsBalance p (overloadExpiry i p) := by
  unfold overloadExpiry
  split
  · have hagain : KeepsBalance p
        (setIsland i { p.islands[i] with overload := some (after p.ms p.header.overloadDelay) } p) :=
      keepsBalance_setIsland ⟨rfl, rfl, rfl, rfl⟩
    dsimp only
    split
    · exact (hagain.trans (keepsBalance_slowStep i _)).trans (keepsBalance_syncTimers i _)
    · exact hagain.trans (keepsBalance_syncTimers i _)
  · exact .refl p

/-- A tie copy whose freshness timer alone changes gives the same partition. -/
theorem touches_setCopy_ties (timer : Option Word) (p : Part) :
    Touches none p (setCopy .ties { p.img.ties with timer := timer } p) := by
  refine ⟨fun i _ => ?_, id⟩
  have hsections : ∀ s, islandId { p.img.ties with timer := timer } s = i ↔ islandId p.img.ties s = i :=
    fun s => .of_eq (congrArg (· = i) (islandId_congr (fun _ _ => rfl) s))
  exact ⟨⟨hsections, rfl, fun _ _ => ⟨rfl, rfl⟩, .refl _⟩, entriesOf_of_sections hsections rfl rfl⟩

theorem keepsBalance_freshnessExpiry (r : RecordId) (p : Part) : KeepsBalance p (freshnessExpiry r p) := by
  unfold freshnessExpiry
  split
  · cases r with
    | gen g => exact ((touches_setCopy_gen g { p.img.genMeas[g] with timer := none } p).trans
        (.of_frame (by simp [copyOf]))).updateOf
    | cons c => exact .of_frame (by simp [setCopy])
    | drive d => exact .of_frame (by simp [setCopy])
    | ties => exact ((touches_setCopy_ties none p).trans (.of_frame (by simp [copyOf]))).keepsBalance
  · exact .refl p

theorem keepsBalance_driveReqEvent (d : DriveId) (p : Part) : KeepsBalance p (driveReqEvent d p) := .of_frame (by simp)

theorem keepsBalance_cmdEvent (c : ConsId) (w : Word) (ack masked : Bool) (p : Part) :
    KeepsBalance p (cmdEvent c w ack masked p) := .of_frame (by simp)

end Sys2Proof.Machine
end

section
/-! PROOFS. A partition change and an activation keep the balance of the islands: an island that stays keeps its members, and
one that is newly formed, or whose plan changes, has its totals formed afresh (R36, R37, R52, R168 to R176). -/

namespace Sys2Proof.Machine

/-! ## A TIES write (R36, R37) -/

/-- An island that a partition change keeps has the same sections before and after it. -/
theorem islandId_iff_of_kept {old new : MeasCopy} {i : SecId} (hk : islandKind old new i = .kept) (s : SecId) :
    islandId new s = i ↔ islandId old s = i := by
  have hmembers : membersOf new i = membersOf old (islandId old i) := by
    unfold islandKind at hk
    dsimp only at hk
    split at hk
    · assumption
    · split at hk <;> cases hk
  have hsame : ∀ a, islandId new a = i ↔ islandId old a = islandId old i := fun a => by
    have hmem : a ∈ membersOf new i ↔ a ∈ membersOf old (islandId old i) := by rw [hmembers]
    simpa [membersOf, allSecs] using hmem
  have hnew : islandId new (islandId old i) = i := (hsame _).mpr (islandId_islandId old i)
  have hlow : i ≤ islandId old i := by
    have hle := islandId_le new (islandId old i)
    rwa [hnew] at hle
  rw [hsame, le_antisymm (islandId_le old i) hlow]

/-- A section that is no id has a blank record after a partition change (R56). -/
theorem partitionStood_blank {old : MeasCopy} {p : Part} {i : SecId} (hi : isIslandId p.img.ties i = false) :
    (partitionStood old p).islands[i] = Island.blank := by
  have hids : i ∉ Machine.islandIds p := fun h => by rw [mem_islandIds, hi] at h; cases h
  have hformedIds : i ∉ formedIds old p := fun h => hids (List.mem_of_mem_filter h)
  obtain ⟨a, -, hformed⟩ := exists_formIslands i old p
    (notice .island 0 0 0 (bits p.img.ties.word 0 3) (idList p.img.ties) (idList old))
  have hblank : formIsland old p.img.ties a i = setIsland i Island.blank a :=
    if_neg (by rw [hi, Bool.false_and]; exact Bool.false_ne_true)
  rw [hblank] at hformed
  have hstood := Spares.others (f := standIsland old p.img.ties)
    (fun q j hij => spares_standIsland hij old p.img.ties q) hids
  have hmarks := Spares.others (f := fun q j => enterMarks j q) (fun q j hij => spares_enterMarks hij q) hformedIds
  have htargets := Spares.others (f := fun q j => computeTargets j none q)
    (fun q j hij => spares_computeTargets hij q none) hformedIds
  rw [partitionStood, ((hformed.trans (hstood _)).trans ((hmarks _).trans (htargets _))).record, setIsland_islands,
    setAt_same]

/-- The release-hold timer of an island newly formed runs for its most recent entry. -/
theorem Formed.releaseTimed {i : SecId} {p q : Part} (h : Formed i p q) : releaseTimed q i := by
  cases hrun : isRunning p
  · obtain ⟨-, -, hstopped⟩ := h.idle hrun
    exact releaseTimed_of_none hstopped
  · intro tg w hw
    rw [(h.running hrun).releaseHold] at hw
    obtain ⟨-, -, -, hheld, x, hlast, hx, -⟩ := (releaseFor_eq_some_iff q i tg).mp (nextReleaseHold_target hw)
    exact ⟨by rw [hlast, Option.map_some, hx], hheld⟩

theorem standsById_stopTimers {i : SecId} {p : Part} (h : StandsById p i) : StandsById (stopTimers i p) i := by
  intro hid
  simpa [stopTimers, islandStands, islandAgrees] using h hid

/-- An island whose timers restart. -/
theorem standsById_restart {i : SecId} {p : Part} (h : StandsById p i) : StandsById (syncTimers i (stopTimers i p)) i := by
  intro hid
  exact (islandStands_syncTimers i i _).mpr (standsById_stopTimers h (by simpa using hid))

/-- An island with the same sections, where nothing but the copies of the ties has changed. -/
theorem SameIsland.of_ties {i : SecId} {p q : Part}
    (hsections : ∀ s, islandId q.img.ties s = i ↔ islandId p.img.ties s = i) (h : q.plans = p.plans ∧
      q.img.genMeas = p.img.genMeas ∧ q.gens = p.gens ∧ q.shedList = p.shedList ∧ q.islands = p.islands) :
    SameIsland i p q := by
  obtain ⟨hplans, hmeas, hgens, hlist, hislands⟩ := h
  refine ⟨⟨hsections, by rw [hplans], fun g _ => ⟨by rw [genState, hgens, genState], by rw [hmeas]⟩, ?_⟩,
    entriesOf_of_sections hsections (by rw [hplans]) hlist⟩
  rw [hislands]
  exact .refl _

theorem keepsBalance_partitionStood {p q : Part} (h : q.plans = p.plans ∧ q.img.genMeas = p.img.genMeas ∧
    q.gens = p.gens ∧ q.shedList = p.shedList ∧ q.islands = p.islands) :
    KeepsBalance p (partitionStood p.img.ties q) := by
  have hties : (partitionStood p.img.ties q).img.ties = q.img.ties := by simp
  have hkept : ∀ i, isIslandId q.img.ties i = true → islandKind p.img.ties q.img.ties i = .kept →
      ∃ a, SameIsland i p a ∧ SameIsland i (syncTimers i (stopTimers i a)) (partitionStood p.img.ties q) := by
    intro i hid hk
    obtain ⟨a, hbefore, hafter⟩ := partitionStood_kept hid hk
    have hsame : SameIsland i p q := .of_ties (islandId_iff_of_kept hk) h
    exact ⟨a, hsame.trans hbefore.sameIsland, hafter.sameIsland⟩
  obtain ⟨-, -, -, hlist, -⟩ := h
  refine ⟨.congr (by simp [hlist]), fun i ht => ?_, fun i _ ht hs hid => ?_⟩
  · cases hid : isIslandId q.img.ties i
    · exact releaseTimed_of_none (by rw [partitionStood_blank hid]; rfl)
    · by_cases hk : islandKind p.img.ties q.img.ties i = .kept
      · obtain ⟨a, -, hafter⟩ := hkept i hid hk
        exact hafter.releaseTimed (releaseTimed_syncTimers i _)
      · exact (partitionStood_formed hid hk).1.releaseTimed
  · rw [hties] at hid
    by_cases hk : islandKind p.img.ties q.img.ties i = .kept
    · obtain ⟨a, hbefore, hafter⟩ := hkept i hid hk
      exact hafter.standsById (standsById_restart (hbefore.standsById hs)) (hties ▸ hid)
    · exact (partitionStood_formed hid hk).1.stands

theorem keepsBalance_ladderAtPartition (old new : MeasCopy) (p : Part) (i : SecId) :
    KeepsBalance p (ladderAtPartition old new p i) := by
  unfold ladderAtPartition
  split
  · exact .refl p
  · split
    · exact keepsBalance_enterLadder i .dead p
    · split
      · exact keepsBalance_splitStep i p
      · exact .refl p

/-- The copies of the ties taken: an event that leaves all else that the islands rest on. -/
theorem keepsBalance_tiesEvent {p q : Part} (h : q.plans = p.plans ∧ q.img.genMeas = p.img.genMeas ∧
    q.gens = p.gens ∧ q.shedList = p.shedList ∧ q.islands = p.islands) : KeepsBalance p (tiesEvent p.img.ties q) := by
  unfold tiesEvent
  refine .trans ?_ (keepsBalance_judgeSettled _)
  split
  · next hsame =>
    have hsections : ∀ i s, islandId q.img.ties s = i ↔ islandId p.img.ties s = i := fun i s => by
      rw [samePartition, List.all_eq_true] at hsame
      rw [beq_iff_eq.mp (hsame s (List.mem_finRange s))]
    have ⟨_, _, _, hlist, _⟩ := h
    exact Touches.keepsBalance ⟨fun i _ => .of_ties (hsections i) h, .congr hlist⟩
  · rw [partitionChange_eq]
    have hsequenced : KeepsBalance p (partitionSequenced p.img.ties q) :=
      ((keepsBalance_partitionStood h).trans (.fold (fun r i => keepsBalance_enterSequencer i _ r) _ _)).trans
        (.fold (fun r i => keepsBalance_recheckStops i r) _ _)
    exact hsequenced.trans (.fold (keepsBalance_ladderAtPartition _ _) _ _)

/-! ## Activation (R173, R174) -/

theorem isIslandId_of_target {p : Part} {t : Target} {i : SecId} (h : targetIsland p t = some i) :
    isIslandId p.img.ties i = true := by
  have hid : ∃ s, islandId p.img.ties s = i := by
    cases t with
    | cons c =>
      obtain ⟨e, -, he⟩ := Option.map_eq_some_iff.mp h
      exact ⟨e.sec, he⟩
    | drive d =>
      obtain ⟨e, -, he⟩ := Option.map_eq_some_iff.mp h
      exact ⟨e.sec, he⟩
  obtain ⟨s, rfl⟩ := hid
  exact beq_iff_eq.mpr (islandId_islandId _ s)

/-- A section that is no id holds no entries, so no release-hold timer runs there. -/
theorem releaseHold_of_not_id {p : Part} {i : SecId} (hi : isIslandId p.img.ties i = false) (ht : releaseTimed p i) :
    p.islands[i].releaseHold = none := by
  cases hr : p.islands[i].releaseHold with
  | none => rfl
  | some x =>
    obtain ⟨tg, w⟩ := x
    obtain ⟨hlast, -⟩ := ht tg w hr
    obtain ⟨e, he, -⟩ := Option.map_eq_some_iff.mp hlast
    rw [isIslandId_of_target (targetIsland_of_last he)] at hi
    cases hi

theorem drivesHeld_activateDrive (old : Plan) (p : Part) (d : DriveId) (h : DrivesHeld p) :
    DrivesHeld (activateDrive old p d) := by
  unfold activateDrive
  split
  · exact h
  · next r _ =>
    dsimp only
    split
    · have hchange := touches_changeEntry (t := .drive d)
        (f := fun e => { e with credit := e.credit - (r.floor - p.drives[d].cutLimit) }) (fun _ => rfl) (fun _ _ _ => id) p
      exact (hchange.drives h).congr (by simp)
    · split
      · exact h.congr (by simp)
      · exact h

/-- The part at an activation with the plan taken: noticed, and the part state entered. -/
def planTaken (p : Part) : Part :=
  activatePartState (noticePlan .activated 0 (kw (stagingTag p.plans)) (kw (activeTag p.plans))
    { p with plans := { p.plans with active := p.plans.staging, loader := .activated } })

/-- The part at an activation with the marks cleared and the drives fitted to the plan. -/
def planFitted (p : Part) : Part :=
  allDrives.foldl (activateDrive p.plans.active) ((islandIds (planTaken p)).foldl
    (fun q i => setIsland i { q.islands[i] with standbyExhausted := false } q) (planTaken p))

/-- The part at an activation with the totals of every island formed afresh. -/
def planBalanced (p : Part) : Part := (islandIds (planTaken p)).foldl (fun q i => retotal i q) (planFitted p)

theorem activatePlan_eq (p : Part) : activatePlan p = judgeSettled ((islandIds (planTaken p)).foldl
    (fun q i => if entered i (planFitted p) (planBalanced p) then enterCondition i q else q)
    ((islandIds (planTaken p)).foldl (fun q i => computeTargets i none q) (planBalanced p))) := rfl

theorem planTaken_img (p : Part) : (planTaken p).img = p.img := by simp [planTaken]

theorem planBalanced_img (p : Part) : (planBalanced p).img = p.img := by
  refine (foldl_keep Part.img _ _ _ fun q i => ?_).trans ((foldl_keep Part.img _ _ _ fun q d => ?_).trans
    ((foldl_keep Part.img _ _ _ fun q i => ?_).trans (planTaken_img p)))
  all_goals simp

/-- The marks and the drives leave the balance of every record. -/
theorem planFitted_sameBalance (p : Part) (i : SecId) : SameBalance p.islands[i] (planFitted p).islands[i] := by
  have hdrives : (planFitted p).islands = ((islandIds (planTaken p)).foldl
      (fun q i => setIsland i { q.islands[i] with standbyExhausted := false } q) (planTaken p)).islands :=
    foldl_keep Part.islands _ _ _ fun q d => by simp
  have htaken : (planTaken p).islands = p.islands := by simp [planTaken]
  rw [hdrives, ← htaken]
  exact foldl_keeps (fun q : Part => SameBalance (planTaken p).islands[i] q.islands[i]) _ _ _ (.refl _)
    fun q j _ hq => hq.trans (setIsland_sameBalance (sameBalance_standbyMark _ false) i)

theorem drivesHeld_planFitted {p : Part} (h : DrivesHeld p) : DrivesHeld (planFitted p) := by
  refine foldl_keeps DrivesHeld _ _ _ (h.congr ?_) fun q d _ hq => drivesHeld_activateDrive _ q d hq
  refine (foldl_keep Part.shedList _ _ _ fun q i => ?_).trans ?_
  all_goals simp [planTaken]

/-- An island holds the totals of the plan in force once every island has had its turn. -/
theorem exists_planBalanced {p : Part} {i : SecId} (hi : isIslandId p.img.ties i = true) :
    ∃ a, SameIsland i (retotal i a) (planBalanced p) := by
  have hmem : i ∈ Machine.islandIds (planTaken p) := by
    rwa [mem_islandIds, planTaken_img]
  obtain ⟨a, -, hafter⟩ := Spares.turn (f := fun q j => retotal j q) (fun q j hij => spares_retotal hij q)
    (nodup_islandIds (planTaken p)) hmem (planFitted p)
  exact ⟨a, hafter.sameIsland⟩

theorem planBalanced_other {p : Part} {i : SecId} (hi : isIslandId p.img.ties i = false) :
    (planBalanced p).islands[i] = (planFitted p).islands[i] := by
  have hids : i ∉ Machine.islandIds (planTaken p) := fun h => by
    rw [mem_islandIds, planTaken_img, hi] at h
    cases h
  exact (Spares.others (f := fun q j => retotal j q) (fun q j hij => spares_retotal hij q) hids _).record

theorem keepsBalance_planBalanced (p : Part) : KeepsBalance p (planBalanced p) where
  drives h := (drivesHeld_planFitted h).congr (foldl_keep Part.shedList _ _ _ fun q i => by simp)
  timed i ht := by
    cases hi : isIslandId p.img.ties i
    · refine releaseTimed_of_none ?_
      rw [planBalanced_other hi, (planFitted_sameBalance p i).releaseHold, releaseHold_of_not_id hi ht]
    · obtain ⟨a, ha⟩ := exists_planBalanced hi
      exact ha.releaseTimed (releaseTimed_syncTimers i _)
  stands i _ _ _ hid := by
    obtain ⟨a, ha⟩ := exists_planBalanced (planBalanced_img p ▸ hid)
    exact ha.standsById (fun _ => islandStands_retotal i a) hid

theorem keepsBalance_activatePlan (p : Part) : KeepsBalance p (activatePlan p) := by
  rw [activatePlan_eq]
  have htargets := (keepsBalance_planBalanced p).trans
    (.fold (fun q i => keepsBalance_computeTargets i none q) (islandIds (planTaken p)) _)
  refine (htargets.trans (.fold (fun q i => ?_) _ _)).trans (keepsBalance_judgeSettled _)
  split
  · exact keepsBalance_enterCondition i q
  · exact .refl q

theorem keepsBalance_requestActivation (p : Part) : KeepsBalance p (requestActivation p) := by
  unfold requestActivation
  split
  · exact .of_frame (by simp)
  · exact (keepsBalance_activatePlan p).trans (.of_frame (by simp))

theorem keepsBalance_settlingExpiry (p : Part) : KeepsBalance p (settlingExpiry p) := by
  unfold settlingExpiry
  split
  · exact keepsBalance_toRunning p
  · exact .refl p

end Sys2Proof.Machine
end

section
/-! PROOFS. Every step keeps the balance of the islands: O59 (R41 to R49, R103, R122, R123). -/

namespace Sys2Proof.Machine

/-! ## Events of the ports -/

/-- The event of a write's owner keeps the balance. -/
theorem keepsBalance_jobEvent (j : Job) (w : Word) (p : Part) : KeepsBalance p (jobEvent j w p) := by
  have hcopy : ∀ img : Image, img.ties = p.img.ties → img.genMeas = p.img.genMeas →
      KeepsBalance p { p with img := img } := fun _ hties hmeas => .of_frame ⟨hties, hmeas, rfl, rfl, rfl, rfl⟩
  cases j with
  | read | plain => exact .refl p
  | genMeas g => exact (touches_setCopy_gen g _ p).genMeasEvent _
  | consMeas c => exact (hcopy (takeCopy (.cons c) w p).img rfl rfl).trans (keepsBalance_consMeasEvent c _)
  | driveMeas d => exact hcopy (takeCopy (.drive d) w p).img rfl rfl
  | ties => exact keepsBalance_tiesEvent ⟨rfl, rfl, rfl, rfl, rfl⟩
  | genReq g a =>
    exact (hcopy { p.img with genReq := setAt p.img.genReq g w } rfl rfl).trans (keepsBalance_genReqEvent g a _ _)
  | genFixed g =>
    exact (hcopy { p.img with genFixed := setAt p.img.genFixed g w } rfl rfl).trans (keepsBalance_shareChange g _ _)
  | consCmd c ack masked => exact keepsBalance_cmdEvent ..
  | driveReq d =>
    exact (hcopy { p.img with driveReq := setAt p.img.driveReq d w } rfl rfl).trans (keepsBalance_driveReqEvent d _)
  | planLoad => exact .of_frame (by simp [jobEvent, planLoadEvent])
  | key => exact .of_frame (by simp [jobEvent, keyEvent])
  | activate => exact (hcopy { p.img with activate := w } rfl rfl).trans (keepsBalance_requestActivation _)
  | attMask => exact .of_frame ⟨rfl, rfl, rfl, rfl, rfl, rfl⟩

theorem keepsBalance_refuse (port : Port) (off : Nat) (r : Reason) (p : Part) : KeepsBalance p (refuse port off r p) :=
  .of_frame (by simp [refuse])

theorem keepsBalance_liveWriteEffect (l : LiveWord) (x : Word) (p : Part) : KeepsBalance p (liveWriteEffect l x p) := by
  unfold liveWriteEffect
  split
  · exact .of_frame ⟨rfl, rfl, rfl, rfl, rfl, rfl⟩
  · split
    · exact .of_frame (by simp [giveFrame])
    · exact .refl p
  · exact .refl p

theorem keepsBalance_liveReadEffect (port : Port) (l : LiveWord) (p : Part) :
    KeepsBalance p (liveReadEffect port l p) := by
  cases l with
  | attention => exact .of_frame ⟨rfl, rfl, rfl, rfl, rfl, rfl⟩
  | take ch =>
    simp only [liveReadEffect, takeFrame]
    split
    · exact .refl p
    · exact .of_frame ⟨rfl, rfl, rfl, rfl, rfl, rfl⟩
  | refusedDetail => cases port <;> exact .of_frame ⟨rfl, rfl, rfl, rfl, rfl, rfl⟩
  | partStatus | time | cause | counts | give | island | shedView | genStatus | consStatus | driveStatus | hole =>
    exact .refl p

theorem keepsBalance_endPost (ch : Chan) (p : Part) : KeepsBalance p (endPost ch p) := by
  simp only [endPost]
  split
  · exact .refl p
  · split
    · exact .of_frame (by simp)
    · exact .refl p

/-! ## Accesses -/

theorem keepsBalance_serveAccess (port : Port) (a : Access) (s : State) :
    KeepsBalance s.part (serveAccess port a s).part := by
  by_cases hj : ∀ paired, a.job ≠ .read paired
  · rw [serveAccess_write s hj]
    exact keepsBalance_jobEvent ..
  · push Not at hj
    obtain ⟨paired, hj⟩ := hj
    cases he : promotedBy port a.addr s.part with
    | none =>
      rw [serveAccess_read s hj he]
      split
      · exact .refl _
      · exact .of_frame (by simp [parityFailure])
    | some e =>
      cases port with
      | cp =>
        rw [serveAccess_promoted s hj he]
        exact .of_frame ⟨rfl, rfl, rfl, rfl, rfl, rfl⟩
      | fp => cases he

theorem keepsBalance_grantPort (port : Port) (s : State) : KeepsBalance s.part (grantPort port s).part := by
  unfold grantPort
  split
  · split
    · exact keepsBalance_serveAccess ..
    · exact .refl _
  all_goals exact .refl _

theorem keepsBalance_holdAccess (port : Port) (a : Access) (m : SramAt) (s : State) :
    KeepsBalance s.part (holdAccess port a m s).part := by
  cases m with
  | free =>
    have hsettled : (settleCycle { s with bus := setPhase port (.waiting a) s.bus }).part = s.part := by
      rw [settleCycle_cycle]
    have hgrant := keepsBalance_grantPort port (settleCycle { s with bus := setPhase port (.waiting a) s.bus })
    rwa [hsettled] at hgrant
  | busy => exact .refl _

theorem keepsBalance_masterWrite (port : Port) (a : WordAddr) (strobes : BitVec 4) (x : Word) (m : SramAt) (s : State) :
    KeepsBalance s.part (masterWrite port a strobes x m s).part := by
  unfold masterWrite
  split
  · unfold arriveWrite
    split
    · simp only [arriveWindowWrite]
      split
      · exact keepsBalance_refuse ..
      · split
        · exact keepsBalance_liveWriteEffect ..
        · exact keepsBalance_holdAccess port _ m { s with bus := nextAccess port s.bus }
    · exact keepsBalance_holdAccess port _ m { s with bus := nextAccess port s.bus }
  · exact .refl _

theorem keepsBalance_masterReadOf (port : Port) (a : WordAddr) (strobes : BitVec 4) (paired : Bool) (m : SramAt)
    (s : State) : KeepsBalance s.part (masterReadOf port a strobes paired m s).part := by
  unfold masterReadOf
  split
  · unfold arriveRead
    split
    · unfold arriveWindowRead
      split
      · split
        · exact keepsBalance_liveReadEffect ..
        · exact keepsBalance_refuse ..
      · split
        · exact .refl _
        · exact keepsBalance_holdAccess port _ m { s with bus := nextAccess port s.bus }
    · exact keepsBalance_holdAccess port _ m { s with bus := nextAccess port s.bus }
  · exact .refl _

/-! ## The part's own cycles, the time base and the resets -/

theorem keepsBalance_drainHead (s : State) : KeepsBalance s.part (drainHead s).part := by
  unfold drainHead
  split
  · exact .refl _
  · split
    · exact .of_frame ⟨rfl, rfl, rfl, rfl, rfl, rfl⟩
    · exact .refl _

theorem keepsBalance_writeSource (src : LuSource) (s : State) : KeepsBalance s.part (writeSource src s).part := by
  have hpost : ∀ ch, KeepsBalance s.part (writePost ch s).part := fun ch => by
    simp only [writePost]
    split
    · exact .refl _
    · exact .of_frame ⟨rfl, rfl, rfl, rfl, rfl, rfl⟩
  cases src with
  | command => exact hpost .command
  | notice => exact hpost .notice
  | spareMirror =>
    simp only [writeSource, writeSpareMirror]
    split
    · exact .refl _
    · exact .of_frame ⟨rfl, rfl, rfl, rfl, rfl, rfl⟩

theorem keepsBalance_listUnitGrant (s : State) : KeepsBalance s.part (listUnitGrant s).part := by
  unfold listUnitGrant
  split
  · split
    · exact (keepsBalance_writeSource _ s).trans (.of_frame ⟨rfl, rfl, rfl, rfl, rfl, rfl⟩)
    · exact .refl _
  · exact .refl _

theorem keepsBalance_loaderGrant (s : State) : KeepsBalance s.part (loaderGrant s).part := by
  unfold loaderGrant
  split
  · split
    · exact .of_frame (by simp [pointAt])
    · exact .refl _
  all_goals exact .refl _

theorem keepsBalance_completePost (ch : Chan) (s : State) : KeepsBalance s.part (completePost ch s).part := by
  unfold completePost
  split
  · exact keepsBalance_endPost ch s.part
  · exact .refl _

theorem keepsBalance_endPairTimeout (s : State) : KeepsBalance s.part (endPairTimeout s).part := by
  cases hp : s.bus.pair with
  | none =>
    rw [endPairTimeout, hp]
    exact .refl _
  | some pr =>
    by_cases h : ∀ a, s.bus.cp = .waiting a → a.addr ≠ pr.addr ∨ ∃ paired, a.job = .read paired
    · rw [endPairTimeout_quiet hp h]
      exact .refl _
    · push Not at h
      obtain ⟨a, hc, ha, hj⟩ := h
      rw [endPairTimeout_write hp hc ha hj]
      exact keepsBalance_serveAccess .cp a s

theorem keepsBalance_tbclkEdge (s : State) : KeepsBalance s.part (tbclkEdge s).part := by
  have hcounted : KeepsBalance s.part (edgeCounted s).part := .of_frame ⟨rfl, rfl, rfl, rfl, rfl, rfl⟩
  rw [tbclkEdge_eq]
  unfold pairEdge
  split
  · exact hcounted
  · split
    · exact hcounted.trans (keepsBalance_endPairTimeout _)
    · exact hcounted

theorem keepsBalance_passEdges (n : Nat) (s : State) : KeepsBalance s.part (passEdges n s).part :=
  passEdges_keeps (fun t => KeepsBalance s.part t.part) (fun t h => h.trans (keepsBalance_tbclkEdge t)) n s (.refl _)

theorem keepsBalance_passToPairTimeout (s : State) : KeepsBalance s.part (passToPairTimeout s).part := by
  unfold passToPairTimeout
  split
  · exact .refl _
  · exact keepsBalance_passEdges _ s

theorem keepsBalance_passToGapEnd (s : State) : KeepsBalance s.part (passToGapEnd s).part := by
  unfold passToGapEnd
  split
  · exact keepsBalance_passEdges _ s
  all_goals exact .refl _

/-- A balanced part keeps the balance of any. -/
theorem KeepsBalance.of_balanced {p q : Part} (h : q.balanced) : KeepsBalance p q := by
  obtain ⟨ht, hd, hs⟩ := (balanced_iff q).mp h
  exact ⟨fun _ => hd, fun i _ => ht i, fun i _ _ _ => hs i⟩

theorem keepsBalance_powerReset (straps : BitVec 8) (moment : ResetMoment) (s : State) :
    KeepsBalance s.part (powerReset straps moment s).part :=
  .of_balanced (partReset_balanced straps _)

theorem keepsBalance_resetController (midRead : Bool) (s : State) :
    KeepsBalance s.part (resetController midRead s).part := by
  have hdiscard : (discardedRead midRead s).part = s.part := by
    unfold discardedRead
    split <;> rfl
  simp only [resetController, hdiscard]
  exact .of_frame (by simp)

/-! ## The step -/

/-- Every command keeps the balance. -/
theorem exec_keepsBalance (c : Instr) (s : State) : ∃ t, exec c s = .next t ∧ KeepsBalance s.part t.part := by
  cases c with
  | fullReset straps moment => exact ⟨_, rfl, keepsBalance_powerReset straps moment s⟩
  | controllerReset midRead => exact ⟨_, rfl, keepsBalance_resetController midRead s⟩
  | controllerResetRelease => exact ⟨_, rfl, .refl _⟩
  | generatorMeasWrite | consumerMeasWrite | driveMeasWrite | tiesWrite | start | stop | clear | noAction | fixedWrite
  | driveReqWrite | consumerCmdWrite | ack | planLoad | key | activate | attMask | attentionWrite | give
  | passThroughWrite => exact ⟨_, rfl, keepsBalance_masterWrite ..⟩
  | attentionRead | take | refusedDetailRead | masterRead | pairedRead | refusedRead =>
    exact ⟨_, rfl, keepsBalance_masterReadOf ..⟩
  | masterAccessGrant port => exact ⟨_, rfl, keepsBalance_grantPort port s⟩
  | pairTimeout => exact ⟨_, rfl, keepsBalance_passToPairTimeout s⟩
  | interBurstGap => exact ⟨_, rfl, keepsBalance_passToGapEnd s⟩
  | millisecondCounterAdvance =>
    exact ⟨_, congrArg Host.Outcome.next (passToMillisecond_eq s), keepsBalance_passEdges _ s⟩
  | drain => exact ⟨_, rfl, keepsBalance_drainHead s⟩
  | listUnitWrite => exact ⟨_, rfl, keepsBalance_listUnitGrant s⟩
  | planLoaderRead => exact ⟨_, rfl, keepsBalance_loaderGrant s⟩
  | postStart ch => exact ⟨_, rfl, .of_frame (by simp)⟩
  | postEnd ch => exact ⟨_, rfl, keepsBalance_completePost ch s⟩
  | freshnessTimerExpiry r => exact ⟨_, rfl, keepsBalance_freshnessExpiry r s.part⟩
  | overloadTimerExpiry i => exact ⟨_, rfl, keepsBalance_overloadExpiry i s.part⟩
  | startDelayTimerExpiry i => exact ⟨_, rfl, keepsBalance_startDelayExpiry i s.part⟩
  | releaseHoldTimerExpiry i => exact ⟨_, rfl, keepsBalance_releaseHoldExpiry i s.part⟩
  | startTimerExpiry g => exact ⟨_, rfl, keepsBalance_startTimeout g s.part⟩
  | rampStep g => exact ⟨_, rfl, keepsBalance_rampDown g s.part⟩
  | openTimerExpiry g => exact ⟨_, rfl, keepsBalance_openTimeout g s.part⟩
  | capRaise g => exact ⟨_, rfl, keepsBalance_raiseCap g s.part⟩
  | verifyDeadline c => exact ⟨_, rfl, keepsBalance_verifyReached c s.part⟩
  | restoreDeadline c => exact ⟨_, rfl, keepsBalance_restoreReached c s.part⟩
  | settlingTimeout => exact ⟨_, rfl, keepsBalance_settlingExpiry s.part⟩

theorem step_keepsBalance {s t : State} (h : step s = .next t) : KeepsBalance s.part t.part := by
  unfold step at h
  split at h
  · cases h
    exact keepsBalance_passEdges 1 s
  · next c rest _ =>
    obtain ⟨u, hu, hkeeps⟩ := exec_keepsBalance c { s with pending := rest }
    rw [hu] at h
    cases h
    exact hkeeps

/-- Settles O59: every event touches one island at most, which is then brought to its balance, or none. -/
theorem balanceKept : Obligations.BalanceKept := by
  intro s t h
  have hkeeps := step_keepsBalance h
  exact ⟨fun ht i => hkeeps.timed i (ht i), hkeeps.balanced⟩

end Sys2Proof.Machine
end

section
/-! PROOFS. The release-hold timer's expiry: the most recent entry released, and the release condition judged for the next: O49
(R122 to R125, R129). -/

namespace Sys2Proof.Machine

/-! ## What a release says (R160) -/

/-- A RELEASE notice, with attention RELEASE. -/
theorem says_releaseNotice {t : Target} {i : SecId} {p : Part} (ht : targetIsland p t = some i) (cause detail : Nat)
    (a b : Word) : Says [targetNotice t i .release cause detail a b] p
      (setAtt .release (noticeTarget t .release cause detail a b p)) := by
  have hnotice := says_noticeTarget (p := p) t .release cause detail a b
  rw [ht] at hnotice
  exact hnotice.quiet (by simp) (by simp)

/-! ## A consumer released (R125) -/

/-- A released consumer before its notice: its entry removed, and its breaker closed again or left OPEN. -/
def consumerReturned (c : ConsId) (p : Part) : Part :=
  if autoRestores p c = true then
    removeEntry (.cons c) p
      |> setCons c ⟨.restoring, some (after p.ms (consTimeout p c))⟩
      |> setCmd c reqClose false false
      |> giveCons c .closeConsumer 0 0#32 (after p.ms (consTimeout p c))
  else removeEntry (.cons c) p |> setConsState c .isOpen |> setCmd c reqOpen false false

theorem releaseConsumer_eq (c : ConsId) (e : ShedEntry) (p : Part) :
    releaseConsumer c e p = setAtt .release (noticeTarget (.cons c) .release (shedCauseCode e.cause)
      (flag (autoRestores p c)) (kw e.credit) e.shedTime (consumerReturned c p)) := rfl

/-- What a released consumer becomes: RESTORING with its deadline, or OPEN. -/
def releasedConsumer (restores : Bool) (deadline : Word) : Consumer :=
  if restores = true then ⟨.restoring, some deadline⟩ else ⟨.isOpen, none⟩

/-- The CMD word of a released consumer: REQ CLOSE where it is closed again, the marks clear. -/
def releasedWord (restores : Bool) (w : Word) : Word :=
  cmdWord w (if restores = true then reqClose else reqOpen) false false

theorem releasedWord_fields (restores : Bool) (w : Word) :
    bits (releasedWord restores w) 0 2 = (if restores = true then 2 else 1) ∧
      bit (releasedWord restores w) 8 = false ∧ bit (releasedWord restores w) 9 = false := by
  refine ⟨(cmdReq_cmdWord ..).trans ?_, cmdShed_cmdWord .., cmdStuck_cmdWord ..⟩
  cases restores <;> rfl

theorem consumerReturned_frame (c : ConsId) (p : Part) :
    (consumerReturned c p).img = p.img ∧ (consumerReturned c p).plans = p.plans ∧
      (consumerReturned c p).drives = p.drives := by
  unfold consumerReturned
  split <;> simp

theorem consumerReturned_tables (c : ConsId) (p : Part) :
    (consumerReturned c p).cons
        = setAt p.cons c (releasedConsumer (autoRestores p c) (after p.ms (consTimeout p c))) ∧
      (consumerReturned c p).cmd = setAt p.cmd c (releasedWord (autoRestores p c) p.cmd[c]) ∧
      (consumerReturned c p).sq = sqPut (.consCmd c) (releasedWord (autoRestores p c) p.cmd[c]) p.sq := by
  unfold consumerReturned
  cases autoRestores p c <;> simp [releasedConsumer, releasedWord]

/-- What a return says: CLOSE_CONSUMER where the consumer is closed again. -/
def returnReports (c : ConsId) (i : SecId) (restores : Bool) (deadline : Word) : List Report :=
  if restores = true then [consCommand c i .closeConsumer 0 0#32 deadline] else []

theorem says_consumerReturned {c : ConsId} {p : Part} {i : SecId} (hc : consIsland p c = some i) :
    Says (returnReports c i (autoRestores p c) (after p.ms (consTimeout p c))) p (consumerReturned c p) := by
  unfold consumerReturned returnReports
  cases autoRestores p c
  · exact .nothing (by simp) (by simp)
  · refine (says_giveCons ?_ ..).after (by simp) (by simp)
    rw [← hc]
    simp [consIsland]

theorem says_releaseConsumer {c : ConsId} {e : ShedEntry} {p : Part} {i : SecId} (hc : consIsland p c = some i) :
    Says (returnReports c i (autoRestores p c) (after p.ms (consTimeout p c)) ++
      [targetNotice (.cons c) i .release (shedCauseCode e.cause) (flag (autoRestores p c)) (kw e.credit) e.shedTime]) p
      (releaseConsumer c e p) := by
  obtain ⟨himg, hplans, -⟩ := consumerReturned_frame c p
  have hisland : targetIsland (consumerReturned c p) (.cons c) = some i := by
    rw [(islandsOf_congr himg hplans).2.2.2]
    exact hc
  rw [releaseConsumer_eq]
  exact (says_consumerReturned hc).trans (says_releaseNotice hisland ..)

theorem releaseConsumer_tables (c : ConsId) (e : ShedEntry) (p : Part) :
    (releaseConsumer c e p).cons
        = setAt p.cons c (releasedConsumer (autoRestores p c) (after p.ms (consTimeout p c))) ∧
      (releaseConsumer c e p).cmd = setAt p.cmd c (releasedWord (autoRestores p c) p.cmd[c]) ∧
      (releaseConsumer c e p).sq = sqPut (.consCmd c) (releasedWord (autoRestores p c) p.cmd[c]) p.sq ∧
      (releaseConsumer c e p).att.word.getLsbD 8 = true := by
  obtain ⟨hcons, hcmd, hsq⟩ := consumerReturned_tables c p
  rw [releaseConsumer_eq]
  exact ⟨by simpa using hcons, by simpa using hcmd, by simpa using hsq, setAtt_bit .release _⟩

/-- The breaker timeout and the AUTO_RESTORE mark of a consumer, by its plan entry. -/
theorem consPlan_reads {c : ConsId} {cp : ConsPlan} {p : Part} (h : p.plans.active.cons[c] = some cp) :
    consTimeout p c = breakerTimeout cp ∧ autoRestores p c = cp.autoRestore := by
  rw [consTimeout, autoRestores, h]
  exact ⟨rfl, rfl⟩

/-! ## A drive released (R129) -/

/-- A released drive before its notice: its entry removed, and its controller limit returned. -/
def driveReturned (d : DriveId) (p : Part) : Part :=
  writeDriveLimit d (setDrive d ⟨false, 0⟩ (removeEntry (.drive d) p))

theorem releaseDrive_eq (d : DriveId) (e : ShedEntry) (p : Part) :
    releaseDrive d e p = setAtt .release (noticeTarget (.drive d) .release (shedCauseCode e.cause) 0
      (pack [(e.credit, 0, 16), (effectiveLimit (driveReturned d p) d, 16, 16)]) e.shedTime (driveReturned d p)) := rfl

/-- A drive that is not cut has its controller limit in force (R97). -/
theorem effectiveLimit_of_uncut {d : DriveId} {p : Part} (h : p.drives[d].cut = false) :
    effectiveLimit p d = controllerLimit p d := by
  rw [effectiveLimit, h, if_neg Bool.false_ne_true]

theorem driveReturned_frame (d : DriveId) (p : Part) :
    (driveReturned d p).img = p.img ∧ (driveReturned d p).plans = p.plans ∧ (driveReturned d p).ms = p.ms ∧
      (driveReturned d p).drives = setAt p.drives d ⟨false, 0⟩ := by
  simp [driveReturned, writeDriveLimit]

/-- The DRIVE_LIMIT command of a drive that is not cut: its controller limit (R97, R158). -/
def uncutCommand (p : Part) (d : DriveId) (i : SecId) : Report :=
  .command { target := .drive d, kind := .driveLimit, cause := 0#8, island := i,
             a := kw (controllerLimit p d), b := kw (controllerLimit p d) }

/-- The LIMIT word and DRIVE_LIMIT of a released drive give its controller limit. -/
theorem driveReturned_eq {d : DriveId} {p : Part} {i : SecId} (hd : driveIsland p d = some i) :
    driveReturned d p = reported [uncutCommand p d i]
      (enqueue (.driveLimit d) (pack [(controllerLimit p d, 0, 16), (0, 16, 1)])
        (setDrive d ⟨false, 0⟩ (removeEntry (.drive d) p))) := by
  have huncut : (setDrive d ⟨false, 0⟩ (removeEntry (.drive d) p)).drives[d].cut = false := by simp
  have hlimit := effectiveLimit_of_uncut huncut
  rw [driveReturned, writeDriveLimit_eq (p := setDrive d ⟨false, 0⟩ (removeEntry (.drive d) p)) hd, driveCommand, limitWord,
    hlimit, huncut]
  rfl

theorem releaseDrive_tables {d : DriveId} {e : ShedEntry} {p : Part} {i : SecId} (hd : driveIsland p d = some i) :
    (releaseDrive d e p).drives = setAt p.drives d ⟨false, 0⟩ ∧
      (releaseDrive d e p).sq = sqPut (.driveLimit d) (pack [(controllerLimit p d, 0, 16), (0, 16, 1)]) p.sq ∧
      (releaseDrive d e p).cons = p.cons ∧ (releaseDrive d e p).att.word.getLsbD 8 = true := by
  refine ⟨by simp [releaseDrive], ?_, by simp, setAtt_bit .release _⟩
  rw [releaseDrive_eq, driveReturned_eq hd]
  simp [reported, Report.make, uncutCommand]

theorem says_releaseDrive {d : DriveId} {e : ShedEntry} {p : Part} {i : SecId} (hd : driveIsland p d = some i) :
    Says [uncutCommand p d i,
          targetNotice (.drive d) i .release (shedCauseCode e.cause) 0
            (pack [(e.credit, 0, 16), (controllerLimit p d, 16, 16)]) e.shedTime] p (releaseDrive d e p) := by
  obtain ⟨himg, hplans, hms, hdrives⟩ := driveReturned_frame d p
  have hisland : targetIsland (driveReturned d p) (.drive d) = some i := by
    rw [(islandsOf_congr himg hplans).2.2.2]
    exact hd
  have hlimit : effectiveLimit (driveReturned d p) d = controllerLimit p d := by
    rw [effectiveLimit_of_uncut (by rw [hdrives, setAt_same]), controllerLimit, himg, controllerLimit]
  have hcommand : Says [uncutCommand p d i] p (driveReturned d p) := by
    rw [driveReturned_eq hd]
    exact (Says.one _ _).after (by simp) (by simp)
  rw [releaseDrive_eq, hlimit]
  exact hcommand.trans (says_releaseNotice hisland ..)

/-! ## The expiry (R124) -/

/-- The expiry of a timer that is reached: the most recent entry is released, and the timers follow. -/
theorem releaseHoldExpiry_syncs {i : SecId} {p : Part} {tg : Target} {w : Word}
    (hrunning : p.islands[i].releaseHold = some (tg, w)) (hdue : due w p.ms = true) :
    ∃ q, releaseHoldExpiry i p = syncTimers i q ∧ q.islands = (releaseStopped i p).islands ∧ q.plans = p.plans ∧
      (entriesOf p i = [] → q = releaseStopped i p) := by
  cases hlast : (entriesOf p i).getLast? with
  | none => exact ⟨_, releaseHoldExpiry_empty hrunning hdue hlast, rfl, rfl, fun _ => rfl⟩
  | some e =>
    refine ⟨_, releaseHoldExpiry_last hrunning hdue hlast, by simp, by simp, fun hempty => ?_⟩
    rw [hempty] at hlast
    cases hlast

section
variable {i : SecId} {p : Part} {tg : Target} {w : Word} {e : ShedEntry}
  (hrunning : p.islands[i].releaseHold = some (tg, w)) (hdue : due w p.ms = true)
  (hlast : (entriesOf p i).getLast? = some e)
include hrunning hdue hlast

/-- The tables and the reports after the expiry are those of the release. -/
theorem releaseHoldExpiry_releases :
    (releaseHoldExpiry i p).shedList = p.shedList.filter (fun x => decide (x.target ≠ e.target)) ∧
      (releaseHoldExpiry i p).cons = (releaseEntry e (releaseStopped i p)).cons ∧
      (releaseHoldExpiry i p).drives = (releaseEntry e (releaseStopped i p)).drives ∧
      (releaseHoldExpiry i p).cmd = (releaseEntry e (releaseStopped i p)).cmd ∧
      (releaseHoldExpiry i p).sq = (releaseEntry e (releaseStopped i p)).sq ∧
      (releaseHoldExpiry i p).lu = (releaseEntry e (releaseStopped i p)).lu ∧
      (releaseHoldExpiry i p).att = (releaseEntry e (releaseStopped i p)).att := by
  rw [releaseHoldExpiry_last hrunning hdue hlast]
  simp [releaseEntry_shedList]

theorem releaseHoldExpiry_consumer {c : ConsId} {cp : ConsPlan} (ht : e.target = .cons c)
    (hcp : p.plans.active.cons[c] = some cp) :
    (releaseHoldExpiry i p).shedList = p.shedList.filter (fun x => decide (x.target ≠ .cons c)) ∧
      (releaseHoldExpiry i p).cons
        = setAt p.cons c (releasedConsumer cp.autoRestore (after p.ms (breakerTimeout cp))) ∧
      (releaseHoldExpiry i p).cmd[c] = releasedWord cp.autoRestore p.cmd[c] ∧
      (releaseHoldExpiry i p).sq = sqPut (.consCmd c) (releasedWord cp.autoRestore p.cmd[c]) p.sq ∧
      (releaseHoldExpiry i p).lu = (reported (returnReports c i cp.autoRestore (after p.ms (breakerTimeout cp)) ++
        [targetNotice (.cons c) i .release (shedCauseCode e.cause) (flag cp.autoRestore) (kw e.credit) e.shedTime])
        p).lu ∧
      (releaseHoldExpiry i p).att.word.getLsbD 8 = true ∧ (releaseHoldExpiry i p).drives = p.drives := by
  obtain ⟨hlist, hcons, hdrives, hcmd, hsq, hlu, hatt⟩ := releaseHoldExpiry_releases hrunning hdue hlast
  have hentry : releaseEntry e (releaseStopped i p) = releaseConsumer c e (releaseStopped i p) := by
    rw [releaseEntry, ht]
  have hisland : consIsland (releaseStopped i p) c = some i := by
    rw [← targetIsland_of_last hlast, ht]
    rfl
  obtain ⟨hcons', hcmd', hsq', hatt'⟩ := releaseConsumer_tables c e (releaseStopped i p)
  have hsays := says_releaseConsumer (e := e) hisland
  obtain ⟨htimeout, hrestores⟩ := consPlan_reads (p := releaseStopped i p) hcp
  rw [htimeout, hrestores] at hsays hcons'
  rw [hrestores] at hcmd' hsq'
  rw [hentry] at hcons hdrives hcmd hsq hlu hatt
  refine ⟨by rw [hlist, ht], hcons.trans hcons', ?_, hsq.trans hsq', ?_, by rw [hatt, hatt'], ?_⟩
  · rw [hcmd, hcmd', setAt_same]
    rfl
  · exact (hlu.trans hsays.lu).trans (reported_lu_congr _ rfl rfl)
  · rw [hdrives]
    simp

theorem releaseHoldExpiry_drive {d : DriveId} (ht : e.target = .drive d) :
    (releaseHoldExpiry i p).shedList = p.shedList.filter (fun x => decide (x.target ≠ .drive d)) ∧
      (releaseHoldExpiry i p).drives = setAt p.drives d ⟨false, 0⟩ ∧
      (releaseHoldExpiry i p).sq = sqPut (.driveLimit d) (pack [(controllerLimit p d, 0, 16), (0, 16, 1)]) p.sq ∧
      (releaseHoldExpiry i p).lu = (reported [uncutCommand p d i,
        targetNotice (.drive d) i .release (shedCauseCode e.cause) 0
          (pack [(e.credit, 0, 16), (controllerLimit p d, 16, 16)]) e.shedTime] p).lu ∧
      (releaseHoldExpiry i p).att.word.getLsbD 8 = true ∧ (releaseHoldExpiry i p).cons = p.cons ∧
      (releaseHoldExpiry i p).cmd = p.cmd := by
  obtain ⟨hlist, hcons, hdrives, hcmd, hsq, hlu, hatt⟩ := releaseHoldExpiry_releases hrunning hdue hlast
  have hentry : releaseEntry e (releaseStopped i p) = releaseDrive d e (releaseStopped i p) := by
    rw [releaseEntry, ht]
  have hisland : driveIsland (releaseStopped i p) d = some i := by
    rw [← targetIsland_of_last hlast, ht]
    rfl
  obtain ⟨hdrives', hsq', hcons', hatt'⟩ := releaseDrive_tables (e := e) hisland
  rw [hentry] at hcons hdrives hcmd hsq hlu hatt
  refine ⟨by rw [hlist, ht], hdrives.trans hdrives', hsq.trans hsq', ?_, by rw [hatt, hatt'], hcons.trans hcons', ?_⟩
  · exact (hlu.trans (says_releaseDrive hisland).lu).trans (reported_lu_congr _ rfl rfl)
  · rw [hcmd]
    simp

end

theorem exec_releaseHold (i : SecId) (s : State) :
    exec (.releaseHoldTimerExpiry i) s = .next { s with part := releaseHoldExpiry i s.part } := rfl

/-- Settles O49, by the release of the most recent entry and the timers that follow from a stopped release-hold timer. -/
theorem releaseHoldExpires : Obligations.ReleaseHoldExpires := by
  intro s i
  refine ⟨fun hwait => ?_, fun tg w hrunning hdue => ?_, fun tg w e hrunning hdue hlast => ⟨fun c cp ht hcp => ?_,
    fun d ht => ?_⟩⟩
  · exact congrArg (fun q => Host.Outcome.next { s with part := q }) (releaseHoldExpiry_idle hwait)
  · obtain ⟨q, hq, hislands, hplans, hempty⟩ := releaseHoldExpiry_syncs hrunning hdue
    have hown : q.islands[i] = { s.part.islands[i] with releaseHold := none } := by
      rw [hislands, releaseStopped, setIsland_islands, setAt_same]
    have hrun : isRunning q = isRunning s.part := by rw [isRunning, hplans, isRunning]
    rw [exec_releaseHold, hq]
    refine ⟨_, rfl, fun hr => ?_, fun hr => ?_, fun j hj => ?_, fun hnone => ?_⟩
    · rw [← hown]
      exact timersFollow_syncTimers i q (hrun.trans hr)
    · dsimp only
      rw [syncTimers_record_idle i (hrun.trans hr)]
    · dsimp only
      rw [syncTimers_other q hj.symm, hislands, releaseStopped, setIsland_islands, setAt_other _ _ hj.symm]
    · obtain ⟨o, d, k, hsync, -⟩ := syncTimers_eq i (releaseStopped i s.part)
      rw [hempty hnone, hsync]
      rfl
  · obtain ⟨hlist, hcons, hcmd, hsq, hlu, hatt, hdrives⟩ := releaseHoldExpiry_consumer hrunning hdue hlast ht hcp
    obtain ⟨hreq, hshed, hstuck⟩ := releasedWord_fields cp.autoRestore s.part.cmd[c]
    rw [exec_releaseHold]
    exact ⟨_, rfl, rfl, rfl, hlist, hcons, by rw [hcmd, hreq], by rw [hcmd, hshed], by rw [hcmd, hstuck],
      by rw [hcmd]; exact hsq, hlu, hatt, by simp, hdrives⟩
  · obtain ⟨hlist, hdrives, hsq, hlu, hatt, hcons, hcmd⟩ := releaseHoldExpiry_drive hrunning hdue hlast ht
    have hlimit : effectiveLimit (releaseHoldExpiry i s.part) d = controllerLimit s.part d := by
      rw [effectiveLimit_of_uncut (by rw [hdrives, setAt_same]), controllerLimit, controllerLimit]
      simp
    rw [exec_releaseHold]
    exact ⟨_, rfl, rfl, rfl, hlist, hdrives, hlimit, hsq, hlu, hatt, by simp, hcons, hcmd⟩

end Sys2Proof.Machine
end

section
/-! PROOFS. An acknowledgement of a STUCK consumer: O33 (R130, R138, R140, R142). -/

namespace Sys2Proof.Machine

/-! ## The grant of the write (R140, R142) -/

theorem exec_ack {s : State} {c : ConsId} {x : Word} (h : portFree .cp s = true) (hreq : bits x 0 2 ≠ 3) :
    exec (.ack c 15#4 x .free) s = .next { s with
      bus := busAfterWrite .cp (windowAddr s.part.base (consWordOffset c 1)) 15#4 (mergeCmd c x s.part) s.bus
      part := cmdEvent c (mergeCmd c x s.part) (cmdAck x) (cmdMasked c x s.part) s.part } := by
  have ho := consWordOffset_aligned c (w := 1) (by decide)
  have hverdict : writeVerdict .cp (.consCmd c) 15#4 x s.part = none := if_neg hreq
  exact congrArg Host.Outcome.next
    (windowWrite_granted .cp _ (.consCmd c) 15#4 x s ho.1 ho.2 (classify_consCmd c) nofun hverdict h)

/-! ## The acknowledgement (R130) -/

/-- The breaker state that an acknowledged consumer returns to. -/
def acknowledgedState (p : Part) (c : ConsId) : ConsState :=
  if measBreaker p.img.consMeas[c] = .isClosed then .connected else .isOpen

/-- The part at the grant of a CMD write with its acknowledgement made: the word's entry removed and its copy taken. -/
def acknowledged (c : ConsId) (w : Word) (p : Part) : Part :=
  acknowledge c { p with sq := sqRemove (.consCmd c) p.sq, cmd := setAt p.cmd c w }

section
variable {c : ConsId} {p : Part} (hstuck : p.cons[c].state = .stuck)
include hstuck

theorem acknowledged_tables (w : Word) :
    (acknowledged c w p).cons = setAt p.cons c ⟨acknowledgedState p c, none⟩ ∧
      (acknowledged c w p).cmd = setAt p.cmd c (cmdWord w reqOpen false false) ∧
      (acknowledged c w p).sq
        = sqPut (.consCmd c) (cmdWord w reqOpen false false) (sqRemove (.consCmd c) p.sq) := by
  have hmade : acknowledged c w p = setCmd c reqOpen false false (setConsState c (acknowledgedState p c)
      { p with sq := sqRemove (.consCmd c) p.sq, cmd := setAt p.cmd c w }) := if_pos hstuck
  rw [hmade]
  refine ⟨rfl, ?_, ?_⟩
  · rw [setCmd_cmd]
    change setAt (setAt p.cmd c w) c (cmdWord (setAt p.cmd c w)[c] reqOpen false false) = _
    rw [setAt_setAt, setAt_same]
  · rw [setCmd_sq]
    change sqPut _ (cmdWord (setAt p.cmd c w)[c] reqOpen false false) _ = _
    rw [setAt_same]
    rfl

theorem acknowledged_unguarded (w : Word) (hentry : hasEntry p (.cons c) = false) :
    hasEntry (acknowledged c w p) (.cons c) = false ∧ (acknowledged c w p).cons[c].state ≠ .stuck ∧
      isGuarded (acknowledged c w p) c = false := by
  have hlist : hasEntry (acknowledged c w p) (.cons c) = false := by
    rw [← hentry, hasEntry, hasEntry, acknowledged]
    simp
  have hstate : (acknowledged c w p).cons[c].state ≠ .stuck := by
    rw [(acknowledged_tables hstuck w).1, setAt_same, acknowledgedState]
    split <;> decide
  exact ⟨hlist, hstate, by rw [isGuarded, hlist, beq_false_of_ne hstate, Bool.or_false]⟩

/-- The word that an acknowledgement enqueues agrees with the standing, so nothing is reconciled. -/
theorem acknowledged_agrees (w : Word) (hentry : hasEntry p (.cons c) = false) :
    cmdAgrees c (acknowledged c w p) = true := by
  obtain ⟨hlist, hstate, hfree⟩ := acknowledged_unguarded hstuck w hentry
  have hword : (acknowledged c w p).cmd[c] = cmdWord w reqOpen false false := by
    rw [(acknowledged_tables hstuck w).2.1, setAt_same]
  simp only [cmdAgrees, hword, hlist, hfree, cmdShed_cmdWord, cmdStuck_cmdWord, beq_false_of_ne hstate]
  rfl

/-- The event of an acknowledging write, with attention CLOSE_MASKED where the write asked for CLOSE. -/
theorem cmdEvent_ack (w : Word) (masked : Bool) (hentry : hasEntry p (.cons c) = false) :
    cmdEvent c w true masked p
      = if masked then setAtt .closeMasked (acknowledged c w p) else acknowledged c w p := by
  have hagrees := acknowledged_agrees hstuck w hentry
  cases masked
  · exact if_pos hagrees
  · exact if_pos hagrees

/-- What the event of an acknowledging write leaves of the consumer: its state, its word and the store queue. -/
theorem cmdEvent_ack_tables (w : Word) (masked : Bool) (hentry : hasEntry p (.cons c) = false) :
    (cmdEvent c w true masked p).cons = setAt p.cons c ⟨acknowledgedState p c, none⟩ ∧
      (cmdEvent c w true masked p).cmd = setAt p.cmd c (cmdWord w reqOpen false false) ∧
      (cmdEvent c w true masked p).sq
        = sqPut (.consCmd c) (cmdWord w reqOpen false false) (sqRemove (.consCmd c) p.sq) ∧
      isGuarded (cmdEvent c w true masked p) c = false := by
  obtain ⟨hcons, hcmd, hsq⟩ := acknowledged_tables hstuck w
  obtain ⟨-, -, hfree⟩ := acknowledged_unguarded hstuck w hentry
  rw [cmdEvent_ack hstuck w masked hentry]
  cases masked <;> exact ⟨hcons, hcmd, hsq, hfree⟩

end

/-- Settles O33, by the acknowledgement at the write's grant, after which the word agrees with the standing. -/
theorem ackOfStuck : Obligations.AckOfStuck := by
  intro s c x hport hreq hack hstuck hentry
  obtain ⟨hcons, hcmd, hsq, hfree⟩ := cmdEvent_ack_tables hstuck (mergeCmd c x s.part) (cmdMasked c x s.part) hentry
  have hword := congrArg (·[c]) hcmd
  simp only [setAt_same] at hword
  have hacks : cmdAck x = true := hack
  rw [exec_ack hport hreq, hacks]
  refine ⟨_, rfl, rfl, hcons, ?_, ?_, ?_, ?_, fun b hb => ?_, ?_, hfree, by simp, by simp, by simp, by simp, by simp⟩
  · rw [hword]
    exact cmdReq_cmdWord ..
  · rw [hword]
    exact cmdAck_cmdWord ..
  · rw [hword]
    exact cmdShed_cmdWord ..
  · rw [hword]
    exact cmdStuck_cmdWord ..
  · rw [hcmd, setAt_other _ _ hb.symm]
  · rw [hsq, hword, portFree_sq hport]
    rfl

end Sys2Proof.Machine
end

section
/-! PROOFS. What the law of the guarded word rests on: the address of a CMD word, the accesses that wait as the decoder judged
them, and what an event behind the ports keeps of the words (R8, R16, R18, R138, R142). -/

namespace Sys2Proof.Machine

/-! ## The address of a CMD word (R4, R16) -/

theorem inWindow_cmdAddr (p : Part) (c : ConsId) : inWindow p.base (cmdAddr p c) = true :=
  inWindow_windowAddr p.base _ (consWordOffset_aligned c (by decide)).1

theorem windowOffset_cmdAddr (p : Part) (c : ConsId) : windowOffset (cmdAddr p c) = consWordOffset c 1 :=
  have ho := consWordOffset_aligned c (w := 1) (by decide)
  windowOffset_windowAddr p.base _ ho.1 ho.2

theorem classify_cmdAddr (p : Part) (c : ConsId) : classify (windowOffset (cmdAddr p c)) = .consCmd c := by
  rw [windowOffset_cmdAddr, classify_consCmd]

theorem genRecordWord_ne_consCmd (g : GenId) (w : Nat) (c : ConsId) : genRecordWord g w ≠ .consCmd c := by
  unfold genRecordWord
  split <;> nofun

theorem driveRecordWord_ne_consCmd (d : DriveId) (w : Nat) (c : ConsId) : driveRecordWord d w ≠ .consCmd c := by
  unfold driveRecordWord
  split <;> nofun

theorem consRecordWord_eq_consCmd (x : ConsId) (w : Nat) (c : ConsId) :
    consRecordWord x w = .consCmd c ↔ x = c ∧ w = 1 := by
  match w with
  | 0 | 1 | 2 | _ + 3 => simp [consRecordWord]

/-- The decoder finds a CMD word at its own offset alone. -/
theorem offset_of_classify_consCmd {off : Nat} {c : ConsId} (hmod : off % 4 = 0) :
    classify off = .consCmd c → off = consWordOffset c 1 := by
  unfold classify
  repeat'
    refine iteInduction (motive := fun w : WinWord => w = .consCmd c → off = consWordOffset c 1) (fun _ => ?_)
      fun _ => ?_
  all_goals simp only [genRecordWord_ne_consCmd, driveRecordWord_ne_consCmd, consRecordWord_eq_consCmd, reduceCtorEq,
    false_implies]
  rintro ⟨hslot, hone⟩
  have hval : (off - 0x800) / 0x20 % 64 = c.val := congrArg Fin.val hslot
  simp only [consWordOffset]
  omega

theorem eq_cmdAddr_of_classify {p : Part} {a : WordAddr} {c : ConsId} (hw : inWindow p.base a = true)
    (h : classify (windowOffset a) = .consCmd c) : a = cmdAddr p c := by
  have hmod : windowOffset a % 4 = 0 := Nat.mul_mod_left ..
  have hoff := offset_of_classify_consCmd hmod h
  simp only [inWindow, beq_iff_eq] at hw
  simp only [windowOffset] at hoff
  refine BitVec.eq_of_toNat_eq ?_
  rw [cmdAddr, windowAddr_toNat _ _ (consWordOffset_aligned c (by decide)).1]
  omega

/-- A word of the store queue that lies at a CMD word's address is that CMD word. -/
theorem sqWord_of_cmdAddr {p : Part} {w : SqWord} {c : ConsId} (h : windowAddr p.base (sqOffset w) = cmdAddr p c) :
    w = .consCmd c :=
  sqOffset_inj (windowAddr_inj p.base (sqOffset_lt w) (sqOffset_lt (.consCmd c)) (sqOffset_mod w)
    (sqOffset_mod (.consCmd c)) h)

/-- No CMD word lies in the mirrors or the frames. -/
theorem cmdAddr_ne_above (p : Part) (c : ConsId) {off : Nat} (hlo : 0x1000 ≤ off) (hhi : off < 0x10000) :
    cmdAddr p c ≠ windowAddr p.base off := by
  intro h
  have hnat := congrArg BitVec.toNat h
  rw [cmdAddr, windowAddr_toNat _ _ hhi, windowAddr_toNat _ _ (consWordOffset_aligned c (by decide)).1] at hnat
  simp only [consWordOffset] at hnat
  omega

/-- A write leaves every other word of SRAM. -/
theorem Sram.read_write_other (m : Sram) {a w : WordAddr} (strobes : BitVec 4) (d : Word) (h : a ≠ w) :
    (m.write w strobes d).read a = m.read a := by
  have hbyte : ∀ n, n < 4 → (m.write w strobes d).readByte (laneAddr a n) = m.readByte (laneAddr a n) := by
    intro n hn
    rw [Sram.readByte_write, laneAddr_div a hn, if_neg fun hw => h (BitVec.eq_of_toNat_eq hw.1)]
  simp only [Sram.read, hbyte 0 (by decide), hbyte 1 (by decide), hbyte 2 (by decide), hbyte 3 (by decide)]

/-! ## The entry and the copy of a CMD word (R8, R138) -/

theorem cmdEntry_some {q : List SqEntry} {e : SqEntry} {c : ConsId} (h : cmdEntry q c = some e) :
    e ∈ q ∧ e.word = .consCmd c := by
  unfold cmdEntry at h
  exact ⟨List.mem_of_find?_eq_some h, by simpa using List.find?_some h⟩

/-- The entry that a read meets lies at the address read (R26). -/
theorem sqEntryAt_addr {base : BitVec 8} {a : WordAddr} {q : List SqEntry} {e : SqEntry}
    (h : sqEntryAt base a q = some e) : e ∈ q ∧ windowAddr base (sqOffset e.word) = a := by
  unfold sqEntryAt at h
  exact ⟨List.mem_of_find?_eq_some h, by simpa using List.find?_some h⟩

/-- With one entry a word, a CMD word's entry is the one that is found. -/
theorem cmdEntry_of_mem {q : List SqEntry} {e : SqEntry} {c : ConsId} (hn : (q.map SqEntry.word).Nodup) (he : e ∈ q)
    (hc : e.word = .consCmd c) : cmdEntry q c = some e := by
  cases hf : cmdEntry q c with
  | none =>
    have hnone := List.find?_eq_none.mp hf e he
    simp [hc] at hnone
  | some f =>
    obtain ⟨hmem, hword⟩ := cmdEntry_some hf
    rw [List.inj_on_of_nodup_map hn hmem he (hword.trans hc.symm)]

/-- The removal of another word's entry leaves that of a CMD word. -/
theorem cmdEntry_remove_other {w : SqWord} {c : ConsId} (h : w ≠ .consCmd c) (q : List SqEntry) :
    cmdEntry (sqRemove w q) c = cmdEntry q c := by
  unfold cmdEntry sqRemove
  rw [List.find?_filter]
  congr 1
  funext e
  by_cases hc : e.word = .consCmd c
  · simp [hc, h.symm]
  · simp [hc]

/-- With one entry a word, the removal of the head's word is the removal of the head. -/
theorem sqRemove_head {e : SqEntry} {q : List SqEntry} (hn : ((e :: q).map SqEntry.word).Nodup) :
    sqRemove e.word (e :: q) = q := by
  obtain ⟨hhead, -⟩ := List.nodup_cons.mp hn
  have hrest : sqRemove e.word q = q :=
    List.filter_eq_self.mpr fun f hf => decide_eq_true fun hw => hhead (hw ▸ List.mem_map_of_mem hf)
  rw [sqRemove, List.filter_cons_of_neg (by simp)]
  exact hrest

/-- A copy that agrees has REQ OPEN where the consumer is guarded. -/
theorem cmdReq_of_cmdAgrees {c : ConsId} {p : Part} (h : cmdAgrees c p = true) (hg : isGuarded p c = true) :
    bits p.cmd[c] 0 2 = 1 := by
  simp only [cmdAgrees, hg, Bool.and_eq_true, Bool.not_true, Bool.false_or, beq_iff_eq] at h
  exact h.2

/-! ## The words that the list unit writes (R151, R153, R162) -/

theorem postOffset_range (ch : Chan) (c : Channel) (po : Post) (k : Nat) :
    0x1000 ≤ postOffset ch c po k ∧ postOffset ch c po k < 0x10000 := by
  have hframe := po.frame.isLt
  have hslot := (ringTail c.ready).isLt
  unfold postOffset
  split <;> cases ch <;> simp only [frameBase, readyMirrorOffset] <;> omega

theorem spareMirrorOffset_range (ch : Chan) (slot : FrameId) :
    0x1000 ≤ spareMirrorOffset ch slot ∧ spareMirrorOffset ch slot < 0x10000 := by
  have hslot := slot.isLt
  cases ch <;> simp only [spareMirrorOffset] <;> omega

/-! ## The accesses that wait (R18, R19) -/

/-- Whether what waits in a port, if anything, is what the decoder makes of its address. -/
def judged (p : Part) (ph : PortPhase) : Prop := accessAgrees p ph ∧ cmdJobAgrees p ph

theorem judged_waiting (p : Part) (a : Access) :
    judged p (.waiting a) ↔
      (∀ c, a.addr = cmdAddr p c →
        (∃ paired, a.job = .read paired) ∨ (∃ ack masked, a.job = .consCmd c ack masked) ∧ a.strobes = allStrobes) ∧
      ∀ c ack masked, a.job = .consCmd c ack masked → a.addr = cmdAddr p c := Iff.rfl

theorem judged_of_notWaiting {p : Part} {ph : PortPhase} (h : ∀ a, ph ≠ .waiting a) : judged p ph := by
  cases ph with
  | idle | done => exact ⟨trivial, trivial⟩
  | waiting a => exact absurd rfl (h a)

/-- The judgement of a waiting access rests on the window's base alone. -/
theorem judged_of_base {p q : Part} (hbase : q.base = p.base) {ph : PortPhase} (h : judged p ph) : judged q ph := by
  unfold judged accessAgrees cmdJobAgrees cmdAddr at *
  rw [hbase]
  exact h

theorem judged_read (p : Part) (a : WordAddr) (strobes : BitVec 4) (x : Word) (paired : Bool) :
    judged p (.waiting ⟨a, strobes, x, .read paired⟩) :=
  (judged_waiting ..).mpr ⟨fun _ _ => .inl ⟨paired, rfl⟩, nofun⟩

/-- A write outside the window waits without an owner. -/
theorem judged_outside {p : Part} {a : WordAddr} (strobes : BitVec 4) (x : Word) (h : ¬inWindow p.base a = true) :
    judged p (.waiting ⟨a, strobes, x, .plain⟩) := by
  refine (judged_waiting ..).mpr ⟨fun c ha => ?_, nofun⟩
  rw [show a = cmdAddr p c from ha] at h
  exact absurd (inWindow_cmdAddr p c) h

theorem writeVerdict_consCmd_strobes {port : Port} {c : ConsId} {strobes : BitVec 4} {x : Word} {p : Part}
    (h : writeVerdict port (.consCmd c) strobes x p = none) : strobes = allStrobes := by
  simp only [writeVerdict, classVerdict] at h
  split at h
  · cases h
  · split at h
    · cases h
    · next hall => exact not_not.mp hall

theorem jobOf_consCmd {w : WinWord} {x : Word} {p : Part} {c : ConsId} {ack masked : Bool}
    (h : jobOf w x p = .consCmd c ack masked) : w = .consCmd c := by
  unfold jobOf at h
  split at h <;> cases h
  rfl

/-- An accepted write of the window waits as a CMD write where its word is a CMD word, and nowhere else. -/
theorem judged_write {port : Port} {p : Part} {a : WordAddr} {strobes : BitVec 4} {x : Word}
    (hw : inWindow p.base a = true) (hv : writeVerdict port (classify (windowOffset a)) strobes x p = none) :
    judged p (.waiting ⟨a, strobes, storedWord (classify (windowOffset a)) x p, jobOf (classify (windowOffset a)) x p⟩) := by
  refine (judged_waiting ..).mpr ⟨fun c ha => .inr ?_, fun c ack masked hj => ?_⟩
  · have hword : classify (windowOffset a) = .consCmd c := by
      rw [show a = cmdAddr p c from ha]
      exact classify_cmdAddr p c
    rw [hword] at hv ⊢
    exact ⟨⟨_, _, rfl⟩, writeVerdict_consCmd_strobes hv⟩
  · exact eq_cmdAddr_of_classify hw (jobOf_consCmd hj)

/-- No access begins to wait: what waits in a port waited there before. -/
def noneArrives (b b' : Bus) : Prop := ∀ port a, phaseOf port b' = .waiting a → phaseOf port b = .waiting a

theorem noneArrives_of_eq {b b' : Bus} (hcp : b'.cp = b.cp) (hfp : b'.fp = b.fp) : noneArrives b b' := by
  intro port a h
  cases port with
  | cp => exact hcp.symm.trans h
  | fp => exact hfp.symm.trans h

theorem noneArrives_setPhase (port : Port) {ph : PortPhase} (b : Bus) (hph : ∀ a, ph ≠ .waiting a) :
    noneArrives b (setPhase port ph b) := by
  intro other a h
  cases port <;> cases other
  · exact absurd h (hph a)
  · exact h
  · exact h
  · exact absurd h (hph a)

/-- A port completes its access, and the other stands. -/
theorem noneArrives_completed {port : Port} {r : Response} {data : Option Word} {b b' : Bus}
    (hcp : b'.cp = (setPhase port (.done r data) b).cp) (hfp : b'.fp = (setPhase port (.done r data) b).fp) :
    noneArrives b b' :=
  fun other a h => noneArrives_setPhase port (ph := .done r data) b nofun other a (noneArrives_of_eq hcp hfp other a h)

theorem busAfterGrantedWrite_sram (port : Port) (a : Access) (b : Bus) :
    (busAfterGrantedWrite port a b).sram = b.sram.write a.addr a.strobes a.data := by
  cases port <;> rfl

/-! ## What an event behind the ports keeps -/

theorem Reports.sqNodup {p q : Part} (h : Reports p q) (hp : (p.sq.map SqEntry.word).Nodup) :
    (q.sq.map SqEntry.word).Nodup := by
  induction h with
  | refl => exact hp
  | trans _ _ h k => exact k (h hp)
  | plant h =>
    rw [h.2.2.1]
    exact hp
  | attention => exact hp
  | report | command => simpa using hp
  | put w d p => exact sqPut_nodup w d p.sq hp

/-- What an event keeps of what the law of the guarded word rests on. -/
structure KeepsGuards (p q : Part) : Prop where
  base : q.base = p.base
  nodup : (p.sq.map SqEntry.word).Nodup → (q.sq.map SqEntry.word).Nodup
  guards : Guards (fun _ => True) p q

/-- An event that leaves the ladder's tables and the store queue. -/
theorem KeepsGuards.of_frame {p q : Part}
    (h : q.base = p.base ∧ q.sq = p.sq ∧ q.cmd = p.cmd ∧ q.cons = p.cons ∧ q.shedList = p.shedList) :
    KeepsGuards p q := by
  obtain ⟨hbase, hsq, htables⟩ := h
  exact ⟨hbase, fun hn => by rwa [hsq], .plant ⟨hsq, htables⟩⟩

theorem KeepsGuards.refl (p : Part) : KeepsGuards p p := .of_frame ⟨rfl, rfl, rfl, rfl, rfl⟩

theorem KeepsGuards.trans {p q r : Part} (h : KeepsGuards p q) (k : KeepsGuards q r) : KeepsGuards p r :=
  ⟨k.base.trans h.base, fun hn => k.nodup (h.nodup hn), h.guards.trans k.guards⟩

theorem Effects.keepsGuards {p q : Part} (h : Effects p q) : KeepsGuards p q :=
  ⟨h.base.1, h.reports.sqNodup, h.guards⟩

/-- The event of a write's owner, but for a CMD write, keeps what the law rests on. -/
theorem keepsGuards_jobEvent {j : Job} (hj : ∀ c ack masked, j ≠ .consCmd c ack masked) (w : Word) (p : Part) :
    KeepsGuards p (jobEvent j w p) := by
  have hcopy : ∀ img, KeepsGuards p { p with img := img } := fun _ => .of_frame ⟨rfl, rfl, rfl, rfl, rfl⟩
  cases j with
  | read | plain => exact .refl p
  | genMeas g => exact ((effects_takeCopy ..).trans (effects_genMeasEvent ..)).keepsGuards
  | consMeas c => exact ((effects_takeCopy ..).trans (effects_consMeasEvent ..)).keepsGuards
  | driveMeas d => exact (effects_takeCopy ..).keepsGuards
  | ties => exact ((effects_takeCopy ..).trans (effects_tiesEvent ..)).keepsGuards
  | genReq g a => exact (hcopy _).trans (effects_genReqEvent ..).keepsGuards
  | genFixed g => exact (hcopy _).trans (effects_genFixedEvent ..).keepsGuards
  | consCmd c ack masked => exact absurd rfl (hj c ack masked)
  | driveReq d => exact (hcopy _).trans (effects_driveReqEvent ..).keepsGuards
  | planLoad => exact (effects_planLoadEvent ..).keepsGuards
  | key => exact (effects_keyEvent ..).keepsGuards
  | activate => exact (effects_activateEvent ..).keepsGuards
  | attMask => exact .of_frame ⟨rfl, rfl, rfl, rfl, rfl⟩

/-- A property that the trimmed and stored state has, and that the setting of the word, a change of the consumer's state and
attention CLOSE_MASKED keep, holds after the grant of a CMD write. -/
theorem cmdEvent_keeps (P : Part → Prop) {c : ConsId}
    (hset : ∀ req shed stuck q, P q → P (setCmd c req shed stuck q))
    (hstate : ∀ st q, P q → P (setConsState c st q)) (hmask : ∀ q, P q → P (setAtt .closeMasked q))
    {w : Word} {p : Part} (h : P { p with sq := sqRemove (.consCmd c) p.sq, cmd := setAt p.cmd c w })
    (ack masked : Bool) : P (cmdEvent c w ack masked p) := by
  unfold cmdEvent
  extract_lets p1 p2 p3
  have hack : P p2 := by
    unfold p2 acknowledge
    split
    · split
      · exact hset _ _ _ _ (hstate _ _ h)
      · exact h
    · exact h
  have hmasked : P p3 := by
    unfold p3
    split
    · exact hmask _ hack
    · exact hack
  unfold reconcile
  split
  · exact hmasked
  · exact hset _ _ _ _ hmasked

/-- Past the removal of the word's entry, the grant of a CMD write reports as any event does. -/
theorem reports_cmdEvent (c : ConsId) (w : Word) (ack masked : Bool) (p : Part) :
    Reports { p with sq := sqRemove (.consCmd c) p.sq, cmd := setAt p.cmd c w } (cmdEvent c w ack masked p) :=
  cmdEvent_keeps (Reports _) (fun _ _ _ _ hq => hq.trans (reports_setCmd ..))
    (fun _ _ hq => hq.trans (reports_setConsState ..)) (fun _ hq => hq.trans (.attention ..)) (.refl _) ack masked

theorem cmdEvent_sqNodup (c : ConsId) (w : Word) (ack masked : Bool) {p : Part}
    (h : (p.sq.map SqEntry.word).Nodup) : ((cmdEvent c w ack masked p).sq.map SqEntry.word).Nodup :=
  (reports_cmdEvent c w ack masked p).sqNodup (sqRemove_nodup (.consCmd c) p.sq h)

theorem keepsGuards_giveFrame (ch : Chan) (f : FrameId) (p : Part) : KeepsGuards p (giveFrame ch f p) :=
  .of_frame (by simp [giveFrame])

theorem keepsGuards_liveWriteEffect (l : LiveWord) (x : Word) (p : Part) : KeepsGuards p (liveWriteEffect l x p) := by
  unfold liveWriteEffect
  split
  · exact .of_frame ⟨rfl, rfl, rfl, rfl, rfl⟩
  · split
    · exact keepsGuards_giveFrame ..
    · exact .refl p
  · exact .refl p

theorem keepsGuards_liveReadEffect (port : Port) (l : LiveWord) (p : Part) :
    KeepsGuards p (liveReadEffect port l p) := by
  cases l with
  | attention => exact .of_frame ⟨rfl, rfl, rfl, rfl, rfl⟩
  | take ch =>
    simp only [liveReadEffect, takeFrame]
    split
    · exact .refl p
    · exact .of_frame ⟨rfl, rfl, rfl, rfl, rfl⟩
  | refusedDetail => cases port <;> exact .of_frame ⟨rfl, rfl, rfl, rfl, rfl⟩
  | partStatus | time | cause | counts | give | island | shedView | genStatus | consStatus | driveStatus | hole =>
    exact .refl p

theorem keepsGuards_endPost (ch : Chan) (p : Part) : KeepsGuards p (endPost ch p) := by
  simp only [endPost]
  split
  · exact .refl p
  · split
    · exact .of_frame (by simp)
    · exact .refl p

end Sys2Proof.Machine
end

section
/-! PROOFS. Every step keeps the guarded words: O58 (R8, R138, R142). -/

namespace Sys2Proof.Machine

/-! ## The law, part by part -/

/-- The law, with what waits in the ports said port by port. -/
theorem guardedWords_iff (s : State) :
    s.guardedWords ↔ s.part.guardLaw ∧ (s.part.sq.map SqEntry.word).Nodup ∧
      (∀ port, judged s.part (phaseOf port s.bus)) ∧
      ∀ c, isGuarded s.part c = true → cmdValue s c = s.part.cmd[c] := by
  constructor
  · rintro ⟨hlaw, hnodup, hcp, hfp, hcpJob, hfpJob, hwords⟩
    refine ⟨hlaw, hnodup, fun port => ?_, hwords⟩
    cases port with
    | cp => exact ⟨hcp, hcpJob⟩
    | fp => exact ⟨hfp, hfpJob⟩
  · rintro ⟨hlaw, hnodup, hports, hwords⟩
    exact ⟨hlaw, hnodup, (hports .cp).1, (hports .fp).1, (hports .cp).2, (hports .fp).2, hwords⟩

/-- The value of a CMD word as its store-queue entry gives it, or else SRAM. -/
theorem cmdValue_eq (s : State) (c : ConsId) :
    cmdValue s c = ((cmdEntry s.part.sq c).map SqEntry.data).getD (s.bus.sram.read (cmdAddr s.part c)) := by
  unfold cmdValue cmdEntry
  cases s.part.sq.find? fun e => e.word == .consCmd c <;> rfl

/-- REQ is OPEN in the word of a guarded consumer (R142). -/
theorem guardedWords_open {s : State} (h : s.guardedWords) {c : ConsId} (hc : isGuarded s.part c = true) :
    bits (cmdValue s c) 0 2 = 1 := by
  obtain ⟨hlaw, -, -, hwords⟩ := (guardedWords_iff s).mp h
  rw [hwords c hc]
  exact cmdReq_of_cmdAgrees (hlaw c).1 hc

/-! ## Changes that keep the law -/

section
variable {s t : State} (h : s.guardedWords)
include h

theorem judged_of_noneArrives {q : Part} {b : Bus} (hbase : q.base = s.part.base) (hports : noneArrives s.bus b)
    (port : Port) : judged q (phaseOf port b) := by
  obtain ⟨-, -, hjudged, -⟩ := (guardedWords_iff s).mp h
  by_cases hw : ∃ a, phaseOf port b = .waiting a
  · obtain ⟨a, ha⟩ := hw
    rw [ha, ← hports port a ha]
    exact judged_of_base hbase (hjudged port)
  · exact judged_of_notWaiting fun a ha => hw ⟨a, ha⟩

/-- An event that leaves the CMD words in SRAM, and brings no access to a port. -/
theorem guardedWords_event (hpart : KeepsGuards s.part t.part) (hports : noneArrives s.bus t.bus)
    (hsram : ∀ c, t.bus.sram.read (cmdAddr s.part c) = s.bus.sram.read (cmdAddr s.part c)) : t.guardedWords := by
  obtain ⟨hlaw, hnodup, -, hwords⟩ := (guardedWords_iff s).mp h
  refine (guardedWords_iff t).mpr ⟨fun c => (hpart.guards c trivial).1 (hlaw c), hpart.nodup hnodup,
    judged_of_noneArrives h hpart.base hports, fun c hc => ?_⟩
  have haddr : cmdAddr t.part c = cmdAddr s.part c := by rw [cmdAddr, hpart.base, cmdAddr]
  rw [cmdValue_eq]
  rcases (hpart.guards c trivial).2 with hput | ⟨hentry, hcmd, hguard⟩
  · rw [hput]
    rfl
  · rw [hentry, hcmd, ← hwords c (hguard hc), cmdValue_eq, haddr, hsram]

/-- An event that leaves SRAM. -/
theorem guardedWords_quiet (hpart : KeepsGuards s.part t.part) (hports : noneArrives s.bus t.bus)
    (hsram : t.bus.sram = s.bus.sram) : t.guardedWords :=
  guardedWords_event h hpart hports fun _ => by rw [hsram]

/-- A write in SRAM that is not of a CMD word. -/
theorem guardedWords_stored {a : WordAddr} {strobes : BitVec 4} {x : Word} (hpart : KeepsGuards s.part t.part)
    (hports : noneArrives s.bus t.bus) (hsram : t.bus.sram = s.bus.sram.write a strobes x)
    (haddr : ∀ c, cmdAddr s.part c ≠ a) : t.guardedWords :=
  guardedWords_event h hpart hports fun c => by rw [hsram, Sram.read_write_other _ _ _ (haddr c)]

/-- An entry written out of the store queue: each CMD word keeps its value, in SRAM where it was in the entry (R8). -/
theorem guardedWords_entryWritten {e : SqEntry} (he : e ∈ s.part.sq)
    (hpart : t.part = { s.part with sq := sqRemove e.word s.part.sq }) (hports : noneArrives s.bus t.bus)
    (hsram : t.bus.sram = s.bus.sram.write (windowAddr s.part.base (sqOffset e.word)) allStrobes e.data) :
    t.guardedWords := by
  obtain ⟨hlaw, hnodup, -, hwords⟩ := (guardedWords_iff s).mp h
  have hvalue : ∀ c, cmdValue t c = cmdValue s c := by
    intro c
    have haddr : cmdAddr t.part c = cmdAddr s.part c := by rw [hpart]; rfl
    rw [cmdValue_eq, cmdValue_eq, haddr, hsram, hpart]
    by_cases hc : e.word = .consCmd c
    · have hentry : cmdEntry s.part.sq c = some e := cmdEntry_of_mem hnodup he hc
      have hread : (s.bus.sram.write (cmdAddr s.part c) allStrobes e.data).read (cmdAddr s.part c) = e.data :=
        Sram.read_write_all ..
      rw [hc, sqRemove_entry_same, hentry]
      exact hread
    · rw [cmdEntry_remove_other hc, Sram.read_write_other _ _ _ fun ha => hc (sqWord_of_cmdAddr ha.symm)]
  have hbase : t.part.base = s.part.base := by rw [hpart]
  refine (guardedWords_iff t).mpr ⟨?_, ?_, judged_of_noneArrives h hbase hports, fun c hc => ?_⟩
  · rw [hpart]
    exact hlaw
  · rw [hpart]
    exact sqRemove_nodup _ _ hnodup
  · rw [hvalue, hpart]
    rw [hpart] at hc
    exact hwords c hc

/-- The grant of a CMD write: the written word's value is the copy's, in SRAM or in its entry (R142). -/
theorem guardedWords_cmdWritten {c : ConsId} {w : Word} {ack masked : Bool}
    (hpart : t.part = cmdEvent c w ack masked s.part) (hports : noneArrives s.bus t.bus)
    (hsram : t.bus.sram = s.bus.sram.write (cmdAddr s.part c) allStrobes w) : t.guardedWords := by
  obtain ⟨hlaw, hnodup, -, hwords⟩ := (guardedWords_iff s).mp h
  obtain ⟨hlaw', hothers, hword⟩ := cmdEvent_guards c w ack masked s.part hlaw
  have hbase : t.part.base = s.part.base := by rw [hpart]; simp
  have haddr : ∀ x, cmdAddr t.part x = cmdAddr s.part x := fun x => by rw [cmdAddr, hbase, cmdAddr]
  rw [← hpart] at hlaw' hothers hword
  refine (guardedWords_iff t).mpr ⟨hlaw', ?_, judged_of_noneArrives h hbase hports, fun x hx => ?_⟩
  · rw [hpart]
    exact cmdEvent_sqNodup c w ack masked hnodup
  rw [cmdValue_eq, haddr, hsram]
  by_cases hxc : x = c
  · subst hxc
    rcases hword with hput | ⟨hnone, hcmd⟩
    · rw [hput]
      rfl
    · rw [hnone, hcmd]
      exact Sram.read_write_all ..
  · rcases (hothers x hxc).2 with hput | ⟨hentry, hcmd, hguard⟩
    · rw [hput]
      rfl
    · have hother : cmdAddr s.part x ≠ cmdAddr s.part c := fun ha =>
        hxc (SqWord.consCmd.inj (sqWord_of_cmdAddr (w := .consCmd x) ha))
      rw [hentry, hcmd, Sram.read_write_other _ _ _ hother, ← hwords x (hguard hx), cmdValue_eq]

/-- An access that begins to wait, as the decoder judges it. -/
theorem guardedWords_held (port : Port) {a : Access} (ha : judged s.part (.waiting a)) :
    State.guardedWords { s with bus := setPhase port (.waiting a) s.bus } := by
  obtain ⟨hlaw, hnodup, hjudged, hwords⟩ := (guardedWords_iff s).mp h
  have hsram : (setPhase port (.waiting a) s.bus).sram = s.bus.sram := (setPhase_frame ..).1
  refine (guardedWords_iff _).mpr ⟨hlaw, hnodup, fun other => ?_, fun c hc => ?_⟩
  · cases port <;> cases other
    · exact ha
    · exact hjudged .fp
    · exact hjudged .cp
    · exact ha
  · rw [cmdValue_eq, hsram, ← hwords c hc, cmdValue_eq]

/-! ## Grants to the ports -/

/-- A granted write is of a CMD word exactly where its owner is the ladder (R18, R22). -/
theorem guardedWords_serveWrite {port : Port} {a : Access} (hw : phaseOf port s.bus = .waiting a)
    (hj : ∀ paired, a.job ≠ .read paired) : (serveAccess port a s).guardedWords := by
  obtain ⟨-, -, hjudged, -⟩ := (guardedWords_iff s).mp h
  have ha := hjudged port
  rw [hw, judged_waiting] at ha
  obtain ⟨haddr, hjob⟩ := ha
  have hports : noneArrives s.bus (busAfterGrantedWrite port a s.bus) := by
    cases port <;> exact noneArrives_setPhase _ _ nofun
  rw [serveAccess_write s hj]
  by_cases hcmd : ∃ c ack masked, a.job = .consCmd c ack masked
  · obtain ⟨c, ack, masked, hc⟩ := hcmd
    have hat : a.addr = cmdAddr s.part c := hjob c ack masked hc
    have hstrobes : a.strobes = allStrobes := by
      rcases haddr c hat with ⟨paired, hread⟩ | ⟨-, hall⟩
      · exact absurd hread (hj paired)
      · exact hall
    refine guardedWords_cmdWritten (c := c) (w := a.data) (ack := ack) (masked := masked) h ?_ hports ?_
    · rw [hc]
      rfl
    · rw [← hat, ← hstrobes]
      exact busAfterGrantedWrite_sram ..
  · push Not at hcmd
    refine guardedWords_stored (a := a.addr) (strobes := a.strobes) (x := a.data) h
      (keepsGuards_jobEvent hcmd a.data s.part) hports (busAfterGrantedWrite_sram ..) fun c hc => ?_
    rcases haddr c hc.symm with ⟨paired, hread⟩ | ⟨⟨ack, masked, hwrite⟩, -⟩
    · exact hj paired hread
    · exact hcmd c ack masked hwrite

/-- A granted read stores nothing, or the entry that it promotes (R8, R147). -/
theorem guardedWords_serveRead (port : Port) {a : Access} {paired : Bool} (hj : a.job = .read paired) :
    (serveAccess port a s).guardedWords := by
  cases he : promotedBy port a.addr s.part with
  | none =>
    rw [serveAccess_read s hj he]
    split
    · refine guardedWords_quiet h (.refl _) (noneArrives_completed (port := port) (r := .ok)
        (data := some (s.bus.sram.read a.addr)) ?_ ?_) ?_ <;> cases port <;> rfl
    · refine guardedWords_quiet h (effects_parityFailure ..).keepsGuards (noneArrives_completed (port := port)
        (r := .err) (data := some (s.bus.sram.read a.addr)) ?_ ?_) ?_ <;> cases port <;> rfl
  | some e =>
    cases port with
    | cp =>
      obtain ⟨hmem, hat⟩ := sqEntryAt_addr he
      rw [serveAccess_promoted s hj he]
      refine guardedWords_entryWritten h hmem rfl
        (noneArrives_completed (port := .cp) (r := .ok) (data := some e.data) rfl rfl) ?_
      rw [hat]
    | fp => cases he

theorem guardedWords_serveAccess {port : Port} {a : Access} (hw : phaseOf port s.bus = .waiting a) :
    (serveAccess port a s).guardedWords := by
  by_cases hj : ∀ paired, a.job ≠ .read paired
  · exact guardedWords_serveWrite h hw hj
  · push Not at hj
    obtain ⟨paired, hj⟩ := hj
    exact guardedWords_serveRead h port hj

theorem guardedWords_grantPort (port : Port) : (grantPort port s).guardedWords := by
  unfold grantPort
  split
  · next a hw =>
    split
    · exact guardedWords_serveAccess h hw
    · exact h
  all_goals exact h

theorem guardedWords_settleCycle : (settleCycle s).guardedWords := by
  rw [settleCycle_eq]
  exact guardedWords_quiet h (.refl _) (noneArrives_of_eq rfl rfl) rfl

theorem guardedWords_holdAccess (port : Port) {a : Access} (m : SramAt) (ha : judged s.part (.waiting a)) :
    (holdAccess port a m s).guardedWords := by
  have hheld := guardedWords_held h port ha
  cases m with
  | free => exact guardedWords_grantPort (guardedWords_settleCycle hheld) port
  | busy => exact hheld

/-! ## Arrivals (R18 to R27) -/

theorem guardedWords_nextAccess (port : Port) : State.guardedWords { s with bus := nextAccess port s.bus } := by
  rw [nextAccess_eq]
  exact guardedWords_quiet h (.refl _) (noneArrives_of_eq rfl rfl) rfl

theorem guardedWords_answerAccess (port : Port) (r : Response) (data : Option Word) {q : Part}
    (hq : KeepsGuards s.part q) : (answerAccess port r data { s with part := q }).guardedWords :=
  guardedWords_quiet h hq (noneArrives_setPhase port _ nofun) (setPhase_frame ..).1

theorem guardedWords_refuseAccess (port : Port) (a : WordAddr) (r : Reason) (data : Option Word) :
    (refuseAccess port a r data s).guardedWords :=
  guardedWords_quiet h (effects_refuse ..).keepsGuards (noneArrives_setPhase port _ nofun) (setPhase_frame ..).1

theorem guardedWords_refuseWrite (port : Port) (a : WordAddr) (r : Reason) : (refuseWrite port a r s).guardedWords := by
  simp only [refuseWrite, endPairAt_eq]
  exact guardedWords_quiet (guardedWords_refuseAccess h port a r none) (.refl _) (noneArrives_of_eq rfl rfl) rfl

theorem guardedWords_masterWrite (port : Port) (a : WordAddr) (strobes : BitVec 4) (x : Word) (m : SramAt) :
    (masterWrite port a strobes x m s).guardedWords := by
  unfold masterWrite
  split
  · have hnext := guardedWords_nextAccess h port
    unfold arriveWrite
    split
    · next hin =>
      simp only [arriveWindowWrite]
      split
      · exact guardedWords_refuseWrite hnext ..
      · next hverdict =>
        split
        · exact guardedWords_answerAccess hnext _ _ _ (keepsGuards_liveWriteEffect ..)
        · exact guardedWords_holdAccess hnext port m (judged_write hin hverdict)
    · next hout => exact guardedWords_holdAccess hnext port m (judged_outside strobes x hout)
  · exact h

theorem guardedWords_masterReadOf (port : Port) (a : WordAddr) (strobes : BitVec 4) (paired : Bool) (m : SramAt) :
    (masterReadOf port a strobes paired m s).guardedWords := by
  unfold masterReadOf
  split
  · have hnext := guardedWords_nextAccess h port
    have hheld := guardedWords_holdAccess hnext port m (judged_read _ a strobes 0#32 paired)
    unfold arriveRead
    split
    · unfold arriveWindowRead
      split
      · split
        · exact guardedWords_answerAccess hnext _ _ _ (keepsGuards_liveReadEffect ..)
        · exact guardedWords_refuseAccess hnext ..
      · split
        · exact guardedWords_answerAccess hnext _ _ _ (.refl _)
        · exact hheld
    · exact hheld
  · exact h

/-! ## The part's own cycles (R8, R162, R163, R169) -/

theorem guardedWords_drainHead : (drainHead s).guardedWords := by
  unfold drainHead
  split
  · exact h
  · next e q hq =>
    split
    · obtain ⟨-, hnodup, -, -⟩ := (guardedWords_iff s).mp h
      rw [hq] at hnodup
      refine guardedWords_entryWritten (e := e) h (by rw [hq]; exact List.mem_cons_self ..) ?_
        (noneArrives_of_eq rfl rfl) rfl
      rw [hq, sqRemove_head hnodup]
    · exact h

/-- A write of a post or of a mirror word lies above the records (R151, R153, R162). -/
theorem guardedWords_writeSource (src : LuSource) : (writeSource src s).guardedWords := by
  have hpost : ∀ ch, (writePost ch s).guardedWords := fun ch => by
    simp only [writePost]
    split
    · exact h
    · next po _ =>
      obtain ⟨hlo, hhi⟩ := postOffset_range ch (getChan s.part.lu ch) po po.made
      exact guardedWords_stored (strobes := allStrobes) (x := postWord po po.made) h
        (.of_frame ⟨rfl, rfl, rfl, rfl, rfl⟩) (noneArrives_of_eq rfl rfl) rfl fun c =>
        cmdAddr_ne_above s.part c hlo hhi
  cases src with
  | command => exact hpost .command
  | notice => exact hpost .notice
  | spareMirror =>
    simp only [writeSource, writeSpareMirror]
    split
    · exact h
    · next ch slot _ _ =>
      obtain ⟨hlo, hhi⟩ := spareMirrorOffset_range ch slot
      exact guardedWords_stored (strobes := allStrobes)
        (x := BitVec.ofNat 32 ((getChan s.part.lu ch).spare.slots[slot]).val) h
        (.of_frame ⟨rfl, rfl, rfl, rfl, rfl⟩) (noneArrives_of_eq rfl rfl) rfl fun c =>
        cmdAddr_ne_above s.part c hlo hhi

theorem guardedWords_listUnitGrant : (listUnitGrant s).guardedWords := by
  unfold listUnitGrant
  split
  · split
    · exact guardedWords_quiet (guardedWords_writeSource h _) (.of_frame ⟨rfl, rfl, rfl, rfl, rfl⟩)
        (noneArrives_of_eq rfl rfl) rfl
    · exact h
  · exact h

theorem guardedWords_loaderGrant : (loaderGrant s).guardedWords := by
  unfold loaderGrant
  split
  · split
    · exact guardedWords_quiet h (effects_loaderWord ..).keepsGuards (noneArrives_of_eq rfl rfl) rfl
    · exact h
  all_goals exact h

theorem guardedWords_completePost (ch : Chan) : (completePost ch s).guardedWords := by
  unfold completePost
  split
  · exact guardedWords_quiet h (keepsGuards_endPost ch s.part) (noneArrives_of_eq rfl rfl) rfl
  · exact h

/-! ## The time base and the resets -/

theorem guardedWords_endPairTimeout : (endPairTimeout s).guardedWords := by
  cases hp : s.bus.pair with
  | none =>
    rw [endPairTimeout, hp]
    exact h
  | some pr =>
    by_cases hwrite : ∀ a, s.bus.cp = .waiting a → a.addr ≠ pr.addr ∨ ∃ paired, a.job = .read paired
    · rw [endPairTimeout_quiet hp hwrite]
      exact guardedWords_quiet h (.refl _) (noneArrives_of_eq rfl rfl) rfl
    · push Not at hwrite
      obtain ⟨a, hc, ha, hj⟩ := hwrite
      rw [endPairTimeout_write hp hc ha hj]
      exact guardedWords_quiet (guardedWords_serveAccess (port := .cp) h hc) (.refl _) (noneArrives_of_eq rfl rfl) rfl

theorem guardedWords_tbclkEdge : (tbclkEdge s).guardedWords := by
  have hcounted : (edgeCounted s).guardedWords :=
    guardedWords_quiet h (.of_frame ⟨rfl, rfl, rfl, rfl, rfl⟩) (noneArrives_of_eq rfl rfl) rfl
  rw [tbclkEdge_eq]
  unfold pairEdge
  split
  · exact hcounted
  · split
    · exact guardedWords_endPairTimeout hcounted
    · exact guardedWords_quiet hcounted (.refl _) (noneArrives_of_eq rfl rfl) rfl

theorem guardedWords_resetController (midRead : Bool) : (resetController midRead s).guardedWords := by
  have hdiscard : (discardedRead midRead s).guardedWords := by
    unfold discardedRead
    split
    · exact guardedWords_quiet h (.refl _) (noneArrives_of_eq rfl rfl) rfl
    · exact h
  exact guardedWords_quiet hdiscard (.of_frame (by simp [resetController]))
    (noneArrives_setPhase .cp (ph := .idle) _ nofun) rfl

end

theorem guardedWords_passEdges (n : Nat) {s : State} (h : s.guardedWords) : (passEdges n s).guardedWords :=
  passEdges_keeps State.guardedWords (fun _ => guardedWords_tbclkEdge) n s h

/-- After a full reset no consumer is guarded and no access waits (R13, R33). -/
theorem guardedWords_powerReset (straps : BitVec 8) (moment : ResetMoment) (s : State) :
    (powerReset straps moment s).guardedWords := by
  refine ⟨partReset_guardLaw straps _, List.nodup_nil, trivial, trivial, trivial, trivial, fun c hc => ?_⟩
  have hfree : isGuarded (powerReset straps moment s).part c = false := partReset_notGuarded straps _ c
  rw [hfree] at hc
  cases hc

/-! ## The step -/

/-- Every way in which a command changes the state keeps the law. -/
theorem Moves.guardedWords {s t : State} (hm : Moves s t) (h : s.guardedWords) : t.guardedWords := by
  cases hm with
  | write => exact guardedWords_masterWrite h ..
  | read => exact guardedWords_masterReadOf h ..
  | grant port => exact guardedWords_grantPort h port
  | edges n => exact guardedWords_passEdges n h
  | drain => exact guardedWords_drainHead h
  | listUnit => exact guardedWords_listUnitGrant h
  | loader => exact guardedWords_loaderGrant h
  | postStart ch => exact guardedWords_quiet h (.of_frame (by simp)) (noneArrives_of_eq rfl rfl) rfl
  | postEnd ch => exact guardedWords_completePost h ch
  | powerReset straps moment => exact guardedWords_powerReset straps moment s
  | controllerReset midRead => exact guardedWords_resetController h midRead
  | controllerRelease => exact guardedWords_quiet h (.refl _) (noneArrives_of_eq rfl rfl) rfl
  | plant heffects => exact guardedWords_quiet h heffects.keepsGuards (noneArrives_of_eq rfl rfl) rfl

/-- Settles O58: each way in which a step changes the state keeps the value of every guarded word, where the ladder's
copy, which agrees with the standing, has REQ OPEN. -/
theorem guardedWordsKept : Obligations.GuardedWordsKept := by
  intro s t h hstep
  obtain ⟨q, hm⟩ := step_moves hstep
  have ht : t.guardedWords := hm.guardedWords h
  exact ⟨ht, fun c => guardedWords_open ht⟩

end Sys2Proof.Machine
end

section
/-! PROOFS. The grant of a CMD write, at its arrival and after a wait: O32 and O34 (R140, R142, R143). -/

namespace Sys2Proof.Machine

/-! ## Reconciliation (R142) -/

/-- A CMD word set with the marks of the standing, and with REQ OPEN where the consumer is guarded, agrees. -/
theorem cmdAgrees_setCmd (c : ConsId) (req : Nat) (p : Part) (hreq : isGuarded p c = true → req % 4 = 1) :
    cmdAgrees c (setCmd c req (hasEntry p (.cons c)) (p.cons[c].state == .stuck) p) = true := by
  generalize hq : setCmd c req (hasEntry p (.cons c)) (p.cons[c].state == .stuck) p = q
  have hentry : hasEntry q (.cons c) = hasEntry p (.cons c) := by rw [← hq]; rfl
  have hcons : q.cons = p.cons := by rw [← hq]; rfl
  have hguard : isGuarded q c = isGuarded p c := by rw [isGuarded, isGuarded, hentry, hcons]
  have hword : q.cmd[c] = cmdWord p.cmd[c] req (hasEntry p (.cons c)) (p.cons[c].state == .stuck) := by
    rw [← hq, setCmd_cmd, setAt_same]
  simp only [cmdAgrees, hword, hentry, hcons, hguard, cmdShed_cmdWord, cmdStuck_cmdWord, cmdReq_cmdWord, beq_self_eq_true,
    Bool.true_and]
  cases hg : isGuarded p c with
  | false => rfl
  | true => rw [hreq hg]; rfl

/-- Whatever stood before, the copy agrees with the standing after reconciliation. -/
theorem cmdAgrees_reconcile (c : ConsId) (p : Part) : cmdAgrees c (reconcile c p) = true := by
  unfold reconcile
  split
  · assumption
  · exact cmdAgrees_setCmd c _ p fun hg => by rw [if_pos hg]; rfl

/-! ## Where a CMD word's value stands (R142) -/

/-- Whether a CMD word's copy is the value `w` just stored, the word with no entry, or else is what its entry holds. -/
def copyPlaced (c : ConsId) (w : Word) (p : Part) : Prop :=
  (p.cmd[c] = w ∧ ∀ e ∈ p.sq, e.word ≠ .consCmd c) ∨ ∃ e ∈ p.sq, e.word = .consCmd c ∧ e.data = p.cmd[c]

/-- The trim and the store of a CMD write's grant. -/
theorem copyPlaced_trimmed (c : ConsId) (w : Word) (p : Part) :
    copyPlaced c w { p with sq := sqRemove (.consCmd c) p.sq, cmd := setAt p.cmd c w } :=
  .inl ⟨setAt_same .., fun _ he => of_decide_eq_true (List.mem_filter.mp he).2⟩

theorem copyPlaced_setCmd (c : ConsId) (w : Word) (req : Nat) (shed stuck : Bool) (p : Part) :
    copyPlaced c w (setCmd c req shed stuck p) := by
  have hentry := cmdEntry_setCmd c req shed stuck p
  obtain ⟨e, he, hdata⟩ := Option.map_eq_some_iff.mp hentry
  obtain ⟨hmem, hword⟩ := cmdEntry_some he
  exact .inr ⟨e, hmem, hword, hdata⟩

/-! ## The event of a CMD write (R130, R142) -/

theorem cmdEvent_copyPlaced (c : ConsId) (w : Word) (ack masked : Bool) (p : Part) :
    copyPlaced c w (cmdEvent c w ack masked p) :=
  cmdEvent_keeps (copyPlaced c w) (fun req shed stuck q _ => copyPlaced_setCmd c w req shed stuck q)
    (fun _ _ hq => hq) (fun _ hq => hq) (copyPlaced_trimmed c w p) ack masked

/-- The grant of a CMD write leaves the other consumers' words and states. -/
theorem cmdEvent_others (c : ConsId) (w : Word) (ack masked : Bool) (p : Part) {x : ConsId} (hx : x ≠ c) :
    (cmdEvent c w ack masked p).cmd[x] = p.cmd[x] ∧ (cmdEvent c w ack masked p).cons[x] = p.cons[x] := by
  refine cmdEvent_keeps (fun q => q.cmd[x] = p.cmd[x] ∧ q.cons[x] = p.cons[x]) ?_ ?_ (fun _ hq => hq) ?_ ack masked
  · rintro req shed stuck q ⟨hcmd, hcons⟩
    exact ⟨(setAt_other _ _ hx.symm).trans hcmd, hcons⟩
  · rintro st q ⟨hcmd, hcons⟩
    exact ⟨hcmd, (setAt_other _ _ hx.symm).trans hcons⟩
  · exact ⟨setAt_other _ _ hx.symm, rfl⟩

theorem cmdEvent_agrees (c : ConsId) (w : Word) (ack masked : Bool) (p : Part) :
    cmdAgrees c (cmdEvent c w ack masked p) = true := cmdAgrees_reconcile c _

/-- A masked write sets CLOSE_MASKED. -/
theorem cmdEvent_closeMasked (c : ConsId) (w : Word) (ack : Bool) (p : Part) :
    (cmdEvent c w ack true p).att.word.getLsbD 12 = true :=
  (reports_reconcile c _).attention_rises.1 12 (setAtt_bit .closeMasked _)

/-- A write whose value agrees with the standing, and which acknowledges no STUCK consumer, is stored and copied; where it
is masked CLOSE_MASKED is set. -/
theorem cmdEvent_agreeing {c : ConsId} {w : Word} {ack : Bool} {p : Part} (masked : Bool)
    (hack : ack = false ∨ p.cons[c].state ≠ .stuck)
    (hagrees : cmdAgrees c { p with sq := sqRemove (.consCmd c) p.sq, cmd := setAt p.cmd c w } = true) :
    cmdEvent c w ack masked p =
      { p with sq := sqRemove (.consCmd c) p.sq
               cmd := setAt p.cmd c w
               att := if masked then { p.att with word := attWord p.att.word .closeMasked } else p.att } := by
  unfold cmdEvent
  extract_lets p1 p2 p3
  have hp2 : p2 = p1 := by
    unfold p2 acknowledge
    rcases hack with rfl | hstate
    · rfl
    · rw [if_neg hstate, ite_self]
  have hp3 : cmdAgrees c p3 = true := by
    unfold p3
    rw [hp2]
    split <;> exact hagrees
  rw [reconcile, if_pos hp3]
  unfold p3
  rw [hp2]
  cases masked <;> rfl

/-! ## The merged value (R140) -/

section
variable {c : ConsId} {x : Word} {p : Part}

theorem mergeCmd_req : bits (mergeCmd c x p) 0 2 = if isGuarded p c = true then 1 else bits x 0 2 := by
  have hlt : bits x 0 2 < 4 := bits_lt x 0 2
  have hreq := cmdReq_cmdWord x (if isGuarded p c then reqOpen else cmdReq x) (cmdShed p.cmd[c]) (cmdStuck p.cmd[c])
  refine hreq.trans ?_
  split
  · rfl
  · exact Nat.mod_eq_of_lt hlt

/-- The merge keeps the agreement of the copy with the standing. -/
theorem mergeCmd_agrees (h : cmdAgrees c p = true) (q : List SqEntry) :
    cmdAgrees c { p with sq := q, cmd := setAt p.cmd c (mergeCmd c x p) } = true := by
  simp only [cmdAgrees, Bool.and_eq_true, beq_iff_eq] at h ⊢
  obtain ⟨⟨hshed, hstuck⟩, -⟩ := h
  have hguard : isGuarded { p with sq := q, cmd := setAt p.cmd c (mergeCmd c x p) } c = isGuarded p c := rfl
  rw [setAt_same, hguard]
  refine ⟨⟨?_, ?_⟩, ?_⟩
  · exact (cmdShed_cmdWord ..).trans hshed
  · exact (cmdStuck_cmdWord ..).trans hstuck
  · cases hg : isGuarded p c with
    | false => rfl
    | true =>
      have hopen : cmdReq (mergeCmd c x p) = 1 := mergeCmd_req.trans (if_pos hg)
      rw [hopen]
      rfl

end

/-! ## The obligations -/

theorem exec_consumerCmdWrite (c : ConsId) (x : Word) (s : State) :
    exec (.consumerCmdWrite c 15#4 x .free) s = exec (.ack c 15#4 x .free) s := rfl

/-- Settles O32: the merged value agrees with the standing as the copy did, so nothing is reconciled. -/
theorem cmdWriteMerged : Obligations.CmdWriteMerged := by
  intro s c x hport hreq hagrees hack
  have hmasked : cmdMasked c x s.part = true ↔ isGuarded s.part c = true ∧ bits x 0 2 = 2 := by
    simp [cmdMasked, cmdReq, reqClose]
  have hevent := cmdEvent_agreeing (cmdMasked c x s.part) hack
    (mergeCmd_agrees (x := x) hagrees (sqRemove (.consCmd c) s.part.sq))
  have hsq : sqRemove (.consCmd c) s.part.sq = s.part.sq := by rw [portFree_sq hport]; rfl
  have hrun : exec (.ack c 15#4 x .free) s = .next { s with
      bus := busAfterWrite .cp (cmdAddr s.part c) 15#4 (mergeCmd c x s.part) s.bus
      part := { s.part with
        cmd := setAt s.part.cmd c (mergeCmd c x s.part)
        att := if isGuarded s.part c = true ∧ bits x 0 2 = 2 then
          { s.part.att with word := s.part.att.word ||| 0x1000#16 } else s.part.att } } := by
    rw [exec_ack hport hreq]
    simp only [cmdAck] at hevent ⊢
    rw [hevent, hsq]
    simp only [hmasked]
    rfl
  refine ⟨mergeCmd c x s.part, mergeCmd_req, cmdAck_cmdWord .., cmdShed_cmdWord .., cmdStuck_cmdWord ..,
    fun n hn => bit_cmdWord_other _ _ _ _ n hn, ?_⟩
  simp only [List.forall_mem_cons, List.not_mem_nil, IsEmpty.forall_iff, implies_true, and_true, exec_consumerCmdWrite]
  exact ⟨hrun, hrun⟩

/-- Settles O34: after the trim and the store, the copy is reconciled with the standing, whatever it is by then. -/
theorem grantReconciles : Obligations.GrantReconciles := by
  intro s c w ack masked hwait hgrant
  have hagrees := cmdEvent_agrees c w ack masked s.part
  have hrun : exec (.masterAccessGrant .cp) s = .next { s with
      bus := busAfterGrantedWrite .cp ⟨cmdAddr s.part c, 15#4, w, .consCmd c ack masked⟩ s.bus
      part := cmdEvent c w ack masked s.part } :=
    congrArg Host.Outcome.next ((grantPort_waiting (port := .cp) hwait hgrant).trans (serveAccess_write s nofun))
  refine ⟨_, hrun, rfl, rfl, busAfterGrantedWrite_sram .., rfl, hagrees, cmdReq_of_cmdAgrees hagrees,
    cmdEvent_copyPlaced c w ack masked s.part, fun hm => ?_, fun x hx => cmdEvent_others c w ack masked s.part hx, by simp, by simp, by simp⟩
  subst hm
  exact cmdEvent_closeMasked c w ack s.part

end Sys2Proof.Machine
end
